-- ==== Sys2Proof/Word.lean ====
section
/-! DEFINITION. The word types of the S432: bytes of the links, belt positions, line times, serials,
lot ids, counts, area sums and sets of valve columns (spec/00_scope.md, Conventions). -/

namespace Sys2Proof

/-- A byte of a link frame. -/
abbrev Byte := BitVec 8

/-- A lane position or belt coordinate in tc, taken modulo 2^32 (00_scope.md, Units and quantities). -/
abbrev Pos := BitVec 32

/-- A line time in ms, wrapping at 2^32 (00_scope.md, Units and quantities). -/
abbrev Time := BitVec 32

/-- A parcel serial, 0 to 16,777,215 (R1, R3). -/
abbrev Serial := BitVec 24

/-- A lot id, 0 to 65,535 (R135). -/
abbrev LotId := BitVec 16

/-- A count of 0 to 65,535; whether it holds or wraps is said by the rule that owns it. -/
abbrev Count16 := BitVec 16

/-- A 32-bit count that wraps to 0 (R135). -/
abbrev Count32 := BitVec 32

/-- A 64-bit area sum in tc x columns, wrapping modulo 2^64 (R135). -/
abbrev Area := BitVec 64

/-- A set of the 32 valve columns of a station: bit k names column k (R96, R179). -/
abbrev Columns := BitVec 32

/-- A lane number, 0 to 3. -/
abbrev LaneId := Fin 4

/-- A head position within a lane, 0 to 2; link n of a lane is the link of its head n (section 3.1). -/
abbrev HeadId := Fin 3

/-- A station of a lane in belt order: 0 is A, 1 is B, 2 is C (R91, R179). -/
abbrev StationId := Fin 3

/-- A field line number, 0 to 25 (R150). -/
abbrev LineId := Fin 26

/-- A field line that has a debounced state: every line but 25, PLANT_STOP (R150). -/
abbrev DebouncedId := Fin 25

end Sys2Proof
end

