-- ==== Sys2Proof/Config.lean ====
section
/-! DEFINITION. The free values of the model: what the spec leaves open, as constants with no body. -/

namespace Sys2Proof

/-- FREE VALUE (log 3). The spec leaves open which of several acts that come together is taken first:
the blocks acting on one step of P (R21, R33, R84, R102, R128) and the time-driven steps due at one
moment. The first argument is State's own counter of such choices, the second numbers the picks within
one choice. -/
opaque Config.pick : Nat → Nat → Nat

/-- FREE VALUE (log 4). The level of a feed-hold output (0 to 3 the lanes', 4 the mill's) while the part
has no supply: the spec states the outputs only from the application of power on (R194). -/
opaque Config.unpoweredOutput : Fin 5 → Bool

end Sys2Proof
end

