-- ==== Sys2Proof/Syntax.lean ====
section
/-! DEFINITION. The commands of the S432: one constructor of Instr for each row of spec/opcode_table.json,
and the operands they carry. -/

namespace Sys2Proof

/-- One byte as a serial receiver sees it: its data and whether its stop bit was present (R49, R178). -/
structure LineByte where
  data : Byte
  stopBit : Bool
  deriving DecidableEq, Repr

/-- The body fields of a DETECTION frame as a head sends them (R50); the length field is the whole
16-bit field of bytes 6 and 7. -/
structure DetectionRecord where
  headNumber : Byte
  firstColumn : Byte
  lastColumn : Byte
  length : BitVec 16
  trailLag : Byte
  classCode : Byte
  intensity : BitVec 16
  deriving DecidableEq, Repr

/-- A request as a good plant link frame carries it: tag, kind and payload (R179). -/
structure Request where
  tag : Byte
  kind : Byte
  payload : List Byte
  deriving DecidableEq, Repr

/-- The steps of the S432 (spec/opcode_table.json). A request row carries the tag and the payload bytes
of the request that the request taker takes (R179, R182); the items in the payload are read by the
request's owning rule. -/
inductive Instr where
  /-- POWER_APPLIED (R194): power has settled after being applied. -/
  | powerApplied
  /-- RST_N_ASSERTED (R194). -/
  | rstNAsserted
  /-- RST_N_RELEASED (R194). -/
  | rstNReleased
  /-- PLANT_LINK_FRAME (R180): bytes arrive on the plant link's receive line. -/
  | plantLinkFrame (bytes : List LineByte)
  /-- PLANT_LINK_GAP_TIMEOUT (R180). -/
  | plantLinkGapTimeout
  /-- UNKNOWN_REQUEST (R182): a request whose kind byte is not a request code is taken. -/
  | unknownRequest (tag kind : Byte) (payload : List Byte)
  /-- FRAME_SENT (R187): the last byte of the plant link frame on the line has been sent. -/
  | frameSent
  /-- IDENTIFY (R195). -/
  | identify (tag : Byte) (payload : List Byte)
  /-- RESET_DEVICE (R189). -/
  | resetDevice (tag : Byte) (payload : List Byte)
  /-- SAVE_SETTINGS (R193). -/
  | saveSettings (tag : Byte) (payload : List Byte)
  /-- SAVE_WRITE_END (R193): the write ends; whether the image read back agrees with the snapshot. -/
  | saveWriteEnd (agrees : Bool)
  /-- GET_LINK_STATUS (R190). -/
  | getLinkStatus (tag : Byte) (payload : List Byte)
  /-- GET_LANE_STATUS (R132). -/
  | getLaneStatus (tag : Byte) (payload : List Byte)
  /-- SET_LANE_GEOMETRY (R125). -/
  | setLaneGeometry (tag : Byte) (payload : List Byte)
  /-- GET_LANE_GEOMETRY (R126). -/
  | getLaneGeometry (tag : Byte) (payload : List Byte)
  /-- SET_TIMEBASE (R44). -/
  | setTimebase (tag : Byte) (payload : List Byte)
  /-- SET_SCALE (R28). -/
  | setScale (tag : Byte) (payload : List Byte)
  /-- SWITCH_SOURCE (R38). -/
  | switchSource (tag : Byte) (payload : List Byte)
  /-- ABORT_SWITCH (R41). -/
  | abortSwitch (tag : Byte) (payload : List Byte)
  /-- START_LANE (R118). -/
  | startLane (tag : Byte) (payload : List Byte)
  /-- STOP_LANE (R119). -/
  | stopLane (tag : Byte) (payload : List Byte)
  /-- CLEAR_HALT (R123). -/
  | clearHalt (tag : Byte) (payload : List Byte)
  /-- RESET_LANE (R124). -/
  | resetLane (tag : Byte) (payload : List Byte)
  /-- SET_CLASS_ENTRY (R72). -/
  | setClassEntry (tag : Byte) (payload : List Byte)
  /-- GET_CLASS_ENTRY (R72). -/
  | getClassEntry (tag : Byte) (payload : List Byte)
  /-- SET_PROFILE (R73). -/
  | setProfile (tag : Byte) (payload : List Byte)
  /-- GET_PROFILE (R73). -/
  | getProfile (tag : Byte) (payload : List Byte)
  /-- SET_STATION (R91). -/
  | setStation (tag : Byte) (payload : List Byte)
  /-- ENABLE_STATION (R92). -/
  | enableStation (tag : Byte) (payload : List Byte)
  /-- DISABLE_STATION (R109). -/
  | disableStation (tag : Byte) (payload : List Byte)
  /-- GET_STATION_STATUS (R113). -/
  | getStationStatus (tag : Byte) (payload : List Byte)
  /-- CLOSE_LOT (R139). -/
  | closeLot (tag : Byte) (payload : List Byte)
  /-- SET_LOT_LIMIT (R143). -/
  | setLotLimit (tag : Byte) (payload : List Byte)
  /-- GET_LOT_PROGRESS (R146). -/
  | getLotProgress (tag : Byte) (payload : List Byte)
  /-- GET_LOT_RESULT (R145). -/
  | getLotResult (tag : Byte) (payload : List Byte)
  /-- INJECT_START (R127). -/
  | injectStart (tag : Byte) (payload : List Byte)
  /-- INJECT_STOP (R129). -/
  | injectStop (tag : Byte) (payload : List Byte)
  /-- SET_LINE_CONFIG (R152). -/
  | setLineConfig (tag : Byte) (payload : List Byte)
  /-- GET_LINES (R164). -/
  | getLines (tag : Byte) (payload : List Byte)
  /-- SET_CHUTE_POLICY (R159). -/
  | setChutePolicy (tag : Byte) (payload : List Byte)
  /-- SET_BUSY_ENABLES (R160). -/
  | setBusyEnables (tag : Byte) (payload : List Byte)
  /-- HOLD_FEED (R161). -/
  | holdFeed (tag : Byte) (payload : List Byte)
  /-- RELEASE_FEED (R161). -/
  | releaseFeed (tag : Byte) (payload : List Byte)
  /-- RELEASE_MILL_TRIP (R158). -/
  | releaseMillTrip (tag : Byte) (payload : List Byte)
  /-- READ_TRACE (R170). -/
  | readTrace (tag : Byte) (payload : List Byte)
  /-- CLEAR_TRACE (R170). -/
  | clearTrace (tag : Byte) (payload : List Byte)
  /-- GET_EVENTS (R174). -/
  | getEvents (tag : Byte) (payload : List Byte)
  /-- CLEAR_EVENTS (R171). -/
  | clearEvents (tag : Byte) (payload : List Byte)
  /-- SET_NOTICES (R172). -/
  | setNotices (tag : Byte) (payload : List Byte)
  /-- SET_STATUS_PERIOD (R175). -/
  | setStatusPeriod (tag : Byte) (payload : List Byte)
  /-- STATUS_DUE (R175). -/
  | statusDue
  /-- SENSOR_FRAME_REJECTED (R49, R51): bytes that do not make a good frame arrive on a sensor link. -/
  | sensorFrameRejected (lane : LaneId) (head : HeadId) (bytes : List LineByte)
  /-- SENSOR_LINK_GAP_TIMEOUT (R49). -/
  | sensorLinkGapTimeout (lane : LaneId) (head : HeadId)
  /-- HEAD_IDLE (R54): a HEAD_IDLE frame with the given head number arrives on a sensor link. -/
  | headIdle (lane : LaneId) (head : HeadId) (headNumber : Byte)
  /-- DETECTION (R56): a DETECTION frame arrives on a sensor link. -/
  | detection (lane : LaneId) (head : HeadId) (rec : DetectionRecord)
  /-- ENCODER_PHASE_CHANGE (R26): the encoder phases A and B of a lane take the levels given. -/
  | encoderPhaseChange (lane : LaneId) (a b : Bool)
  /-- NOMINAL_COUNT (R29). -/
  | nominalCount (lane : LaneId)
  /-- VALVE_BAR_FRAME_SENT (R112): the frame on a valve bar port's line finishes. -/
  | valveBarFrameSent (lane : LaneId) (station : StationId)
  /-- SETTLE_PERIOD_END (R40). -/
  | settlePeriodEnd (lane : LaneId)
  /-- ENCODER_MONITOR_EXPIRY (R35). -/
  | encoderMonitorExpiry (lane : LaneId)
  /-- MAX_OPEN_TIME_EXPIRY (R104): of the firing of the parcel with the serial given. -/
  | maxOpenTimeExpiry (lane : LaneId) (serial : Serial)
  /-- RAW_LINE_CHANGE (R151): a field line's raw level becomes the one given. -/
  | rawLineChange (line : LineId) (asserted : Bool)
  /-- DEBOUNCE_EXPIRY (R151). -/
  | debounceExpiry (line : DebouncedId)
  /-- RAW_AIR_OK_CHANGE (R154): a lane's raw AIR_OK level becomes the one given. -/
  | rawAirOkChange (lane : LaneId) (asserted : Bool)
  /-- RAW_PLANT_STOP_ASSERTED (R156). -/
  | rawPlantStopAsserted
  /-- RAW_PLANT_STOP_RELEASED (R156). -/
  | rawPlantStopReleased
  /-- LOT_TIME_ACCRUAL (R138): one ms of line time passes. -/
  | lotTimeAccrual
  /-- POWER_LOST (R196). -/
  | powerLost
  /-- PART_BEGINS_TO_WORK (R194): step 4 of the start-up. -/
  | partBeginsToWork
  deriving DecidableEq, Repr

end Sys2Proof
end

