-- ==== Sys2Proof/Machine/Types.lean ====
section
/-! DEFINITION. The types of the machine's state: every record, list and mode the spec names, as plain
data, and the events and effects by which the blocks of a lane report to the shared blocks. -/

namespace Sys2Proof.Machine

/-! ## Names the spec lists -/

/-- Material class of a parcel (R1), in the order of R1's list. -/
inductive Fraction where
  | metal | plastic | foam | residue
  deriving DecidableEq, Repr

/-- A fraction that a station can be assigned and that has a chute policy (R91, R159). -/
inductive ChuteFraction where
  | metal | plastic | foam
  deriving DecidableEq, Repr

/-- Final fate of a parcel, in the order of R1's list. -/
inductive Outcome where
  | ejected | isPartial | cut | passed | redirected | late | denied | lost
  deriving DecidableEq, Repr

/-- Trace reasons, in the order of R166's table. -/
inductive TraceReason where
  | queueFull | redirected | late | deniedListFull | deniedAir | deniedRule | deniedRest
  | partialRest | deniedStationOff | cutAir | cutReverse | cutStationOff | cutMaxopen | lost
  deriving DecidableEq, Repr

/-- Lane states (R115). -/
inductive LaneState where
  | stopped | running | draining | halted
  deriving DecidableEq, Repr

/-- Cause of a lane's most recent halt (R115). -/
inductive HaltCause where
  | none | plantStop | reverseLimit
  deriving DecidableEq, Repr

/-- Cause carried by a LANE_STATE event (R115). -/
inductive StateCause where
  | start | stop | drained | plantStop | reverseLimit | clear | reset
  deriving DecidableEq, Repr

/-- Origin of a lane's track counts (R25). -/
inductive Source where
  | encoder | nominal
  deriving DecidableEq, Repr

/-- Reset cause (R195). -/
inductive ResetCause where
  | powerOn | resetLine | resetRequest
  deriving DecidableEq, Repr

/-- What closed a lot (R135). -/
inductive CloseCause where
  | host | limit
  deriving DecidableEq, Repr

/-- Cause of a receiver's discard (R53). -/
inductive LinkCause where
  | frame | head | field | disabled
  deriving DecidableEq, Repr

/-- Edge selection of a field line (R152). -/
inductive EdgeSelection where
  | ignore | rise | fall | both
  deriving DecidableEq, Repr

/-- Chute policy (R159). -/
inductive ChutePolicy where
  | redirect | hold
  deriving DecidableEq, Repr

/-- Status byte of a reply (R184). -/
inductive Status where
  | ok | accepted | unknownRequest | badLength | badValue | wrongState | switchPending
  | lotDraining | busy | geometry | noHeads | notFound
  deriving DecidableEq, Repr

/-- Result byte of an OK reply (R183). -/
inductive Result where
  | noChange | pending | aborted | draining | completed | enabled | disabled | started
  | replaced | stopped | changed | released
  deriving DecidableEq, Repr

/-- Whether the part has supply and works (R194): without supply; with a supply that has not settled yet,
held in reset by that; held in reset by RST_N, with the reset cause that the start-up to come will record
(R195); between steps 1 to 3 and step 4 of a start-up; working. -/
inductive Phase where
  | unpowered
  | settling
  | held (cause : ResetCause)
  | starting
  | working
  deriving DecidableEq, Repr

/-! ## Parcels (R1) -/

/-- What one head reported of a piece, kept as the head sent it (R1). -/
structure Contribution where
  head : HeadId
  classCode : Byte
  intensity : BitVec 16
  length : Nat
  deriving DecidableEq, Repr

/-- Where and when a parcel is to be fired: present while SCHEDULED or FIRING (R1). -/
structure Aim where
  fraction : Fraction
  station : StationId
  firePos : Pos
  endPos : Pos
  deriving DecidableEq, Repr

/-- What a firing has opened: present while FIRING (R1). -/
structure Shot where
  columns : Columns
  openTime : Time
  isPartial : Bool
  deriving DecidableEq, Repr

/-- The state of a parcel with the fields present in that state (R1, R10). -/
inductive ParcelPhase where
  | forming (closePos : Pos)
  | travelling (fraction : Fraction) (outcome : Outcome)
  | scheduled (aim : Aim)
  | firing (aim : Aim) (shot : Shot)
  deriving DecidableEq, Repr

/-- A parcel record (R1). -/
structure Parcel where
  serial : Serial
  lot : Option LotId
  test : Bool
  lead : Pos
  trail : Pos
  firstColumn : Fin 32
  lastColumn : Fin 32
  contributions : List Contribution
  entry : Option (Fin 64)
  estimated : Bool
  phase : ParcelPhase
  deriving DecidableEq, Repr

/-! ## Configuration (R192) -/

/-- Lane geometry (R125). -/
structure Geometry where
  headEnable : Vector Bool 3
  headOffset : Vector Nat 3
  stationEnable : Vector Bool 3
  stationDistance : Vector Nat 3
  stationFraction : Vector ChuteFraction 3
  exitDistance : Nat
  window : Nat
  reverseLimit : Nat
  deriving DecidableEq, Repr

/-- Timebase setup (R44). -/
structure TimebaseSetup where
  source : Source
  twoStage : Bool
  watchTime : Nat
  tolerance : Nat
  settlePeriod : Nat
  deriving DecidableEq, Repr

/-- One ejection rule: at most `count` starts in any `window` ms; window 0 disables it (R91). -/
structure EjectionRule where
  count : Nat
  window : Nat
  deriving DecidableEq, Repr

/-- The part of a station's configuration that SET_STATION sets (R91). -/
structure StationConfig where
  columnRest : Nat
  rules : Vector EjectionRule 4
  deriving DecidableEq, Repr

/-- The configuration items of one lane (R192); scale and rate are the values in force (R25). -/
structure LaneConfig where
  geometry : Geometry
  setup : TimebaseSetup
  scale : Nat
  rate : Nat
  stations : Vector StationConfig 3
  policies : Vector ChutePolicy 3
  busyEnables : Vector Bool 7
  coupled : Bool
  lotLimit : Nat
  deriving DecidableEq, Repr

/-- A class table entry (R70). -/
structure ClassEntry where
  valid : Bool
  requirement : Vector Bool 3
  codeLow : Vector Byte 3
  codeHigh : Vector Byte 3
  minIntensity : Vector (BitVec 16) 3
  fraction : Fraction
  profile : Fin 8
  density : Nat
  deriving DecidableEq, Repr

/-- An ejection profile (R71). -/
structure Profile where
  leadMargin : Nat
  lagMargin : Nat
  spread : Nat
  maxOpen : Nat
  deriving DecidableEq, Repr

/-- The device-wide configuration items (R192). Debounce times stand in group order drive, air, chute,
mill-trip (R152); notice enables in the order of R171's table. -/
structure DeviceConfig where
  classTable : Vector ClassEntry 64
  profiles : Vector Profile 8
  debounce : Vector Nat 4
  edges : Vector EdgeSelection 26
  noticeEnables : Vector Bool 13
  statusPeriod : Nat
  deriving DecidableEq, Repr

/-- The image of the settings store (R192). -/
structure Image where
  lanes : Vector LaneConfig 4
  device : DeviceConfig
  deriving DecidableEq, Repr

/-- The settings store: the image, the store state (VALID or not) and the save state, which is WRITING
with its snapshot or IDLE (R192, R193). -/
structure Store where
  image : Image
  valid : Bool
  saving : Option Image
  deriving DecidableEq, Repr

/-! ## Links -/

/-- Assembly state of a receiver (R49, R180). -/
inductive AsmPhase where
  | hunt | length | body | check
  deriving DecidableEq, Repr

/-- A frame being assembled: assembly state, the bytes received after the marker, and the line time of
the last byte, absent in HUNT (R48, R180). -/
structure Assembler where
  phase : AsmPhase
  buffer : List Byte
  lastByte : Option Time
  deriving DecidableEq, Repr

/-- A head link receiver (R48). -/
structure Receiver where
  asm : Assembler
  records : Count16
  errors : Count16
  lastRecord : Option Time
  deriving DecidableEq, Repr

/-- A frame the part sends on the plant link: a reply or a notice (R179). -/
structure Frame where
  tag : Byte
  kind : Byte
  payload : List Byte
  deriving DecidableEq, Repr

/-- The plant link interface (R180, R181, R187, R189, R190). The head of `output` is on the line. -/
structure Link where
  asm : Assembler
  input : List Request
  output : List Frame
  resetTaken : Bool
  goodFrames : Count16
  badFrames : Count16
  discarded : Count16
  repliesSent : Count16
  noticesSent : Count16
  dropped : Count16
  deriving DecidableEq, Repr

/-- A valve bar port (R112): the last sent set and its sequence number, the frame on the line (the
sending mark is its presence) and the waiting mark. -/
structure Port where
  lastSent : Columns
  sequence : Byte
  sending : Option (List Byte)
  waiting : Bool
  deriving DecidableEq, Repr

/-! ## Stations, lots, timebase, lane -/

/-- A parcel's place in a firing list, with the two values classification handed over (R85, R93). -/
structure ListEntry where
  serial : Serial
  widened : Columns
  maxOpen : Nat
  deriving DecidableEq, Repr

/-- The working state of a station controller (R93, R94, R95, R112). -/
structure Station where
  list : List ListEntry
  history : List Time
  restUntil : Vector (Option Time) 32
  port : Port
  deriving DecidableEq, Repr

/-- A lot record (R135). Outcome counts stand in the order of Outcome, ejected counts in that of
ChuteFraction, area sums in that of Fraction. -/
structure LotRecord where
  id : LotId
  lane : LaneId
  firstSerial : Option Serial
  lastSerial : Option Serial
  formed : Count32
  outcomes : Vector Count32 8
  ejected : Vector Count32 3
  estimated : Count32
  overflow : Count32
  areas : Vector Area 4
  liveMs : Count32
  holdMs : Count32
  openTime : Time
  closeTime : Option Time
  closeCause : Option CloseCause
  doneTime : Option Time
  completion : Option Count16
  deriving DecidableEq, Repr

/-- The working state of a lot unit (R134). -/
structure LotUnit where
  filling : LotRecord
  draining : Option LotRecord
  pendingClose : Bool
  ring : List LotRecord
  nextCompletion : Count16
  deriving DecidableEq, Repr

/-- The items of a pending switch that only an ENCODER target has (R37). -/
structure Settle where
  periodStart : Time
  encoderAdvance : Count16
  currentAdvance : Count16
  backwardSeen : Bool
  agreed : Bool
  failedPeriods : Count16
  deriving DecidableEq, Repr

/-- A pending switch, by its target (R37). -/
inductive PendingSwitch where
  | toNominal
  | toEncoder (settle : Settle)
  deriving DecidableEq, Repr

/-- A pending nominal rate, and whether the generator was stopped when it was set (R30). -/
structure PendingRate where
  rate : Nat
  setWhileStopped : Bool
  deriving DecidableEq, Repr

/-- The working state of a timebase unit (R25). `phases` is the pair of levels (A, B) last sampled, the
decoder's reference (R26); `accumulator` is absent while the nominal generator is idle (R29); `monitor`
holds the kept time while the monitor is armed (R34). -/
structure Timebase where
  p : Pos
  pmax : Pos
  source : Source
  pendingScale : Option Nat
  residue : Nat
  pendingRate : Option PendingRate
  accumulator : Option Nat
  monitor : Option Time
  encoderLost : Bool
  pendingSwitch : Option PendingSwitch
  phaseErrors : Count16
  phases : Bool × Bool
  deriving DecidableEq, Repr

/-- The record of an active injection (R127); `remaining` is absent when unlimited. -/
structure Injection where
  station : StationId
  firstColumn : Fin 32
  lastColumn : Fin 32
  length : Nat
  spacing : Nat
  remaining : Option Nat
  nextPos : Pos
  deriving DecidableEq, Repr

/-- One lane: its configuration and the working state of every per-lane block. The queue is the
tracking queue in its order (R14); `injection` is absent while the generator is idle (R127). -/
structure Lane where
  cfg : LaneConfig
  tb : Timebase
  receivers : Vector Receiver 3
  queue : List Parcel
  nextSerial : Serial
  stations : Vector Station 3
  state : LaneState
  haltCause : HaltCause
  injection : Option Injection
  discarded : Count16
  testTally : Vector Count16 8
  skipped : Count16
  lots : LotUnit
  hostHold : Bool
  deriving DecidableEq, Repr

/-! ## Shared blocks -/

/-- The field lines (R150): raw levels, debounced states and candidate starts. While the part is down
`raw` is the level at the input, which the first sample after the reset takes. -/
structure FieldLines where
  raw : Vector Bool 26
  debounced : Vector Bool 25
  candidate : Vector (Option Time) 25
  deriving DecidableEq, Repr

/-- A trace entry (R166). -/
structure TraceEntry where
  time : Time
  lane : LaneId
  reason : TraceReason
  serial : Option Serial
  lot : Option LotId
  test : Bool
  station : Option StationId
  detail : Option Nat
  gap : Bool
  deriving DecidableEq, Repr

/-! ## What the blocks of a lane report -/

/-- An occurrence of an event kind with the particulars of its notice (R171, R173). -/
inductive Event where
  | laneState (lane : LaneId) (state : LaneState) (cause : StateCause)
  | encoderLost (lane : LaneId)
  | sourceSwitched (lane : LaneId) (source : Source)
  | lotDone (lane : LaneId) (lot : LotId) (cause : CloseCause) (number : Count16)
  | headLinkError (lane : LaneId) (head : HeadId) (cause : LinkCause)
  | powerOn (cause : ResetCause)
  | storeInvalid
  | traceHalf
  | traceFull
  | millTrip
  | plantStop
  | lineEdge (line : LineId) (asserted : Bool)
  | saveDone (ok : Bool)
  deriving DecidableEq, Repr

/-- A trace entry a lane's block makes, before the trace FIFO takes it. `lead` is the lead_ref of the
parcel it concerns, by which entries of one step stand in queue order (R14, R167); absent for
QUEUE_FULL and LOST. -/
structure TraceDraft where
  reason : TraceReason
  serial : Option Serial
  lot : Option LotId
  test : Bool
  station : Option StationId
  detail : Option Nat
  lead : Option Pos
  deriving DecidableEq, Repr

/-- What a step of a lane does outside the lane: it raises an event or makes a trace entry. -/
inductive Effect where
  | event (e : Event)
  | trace (d : TraceDraft)
  deriving DecidableEq, Repr

/-- A lane after part of a step, with the effects raised so far, oldest first. -/
structure LaneOut where
  lane : Lane
  effects : List Effect
  deriving DecidableEq, Repr

/-- What a lane's blocks read from outside the lane: its number, the line time, the lane's raw AIR_OK
level and its debounced DRIVE_RUN and chute-full lines (M, P, F), the class table and the profiles, and
the seed of the step's free choices. -/
structure LaneEnv where
  id : LaneId
  now : Time
  airOk : Bool
  driveRun : Bool
  chuteFull : Vector Bool 3
  table : Vector ClassEntry 64
  profiles : Vector Profile 8
  seed : Nat
  deriving DecidableEq, Repr

end Sys2Proof.Machine
end

