-- ==== Sys2Proof/Machine/Operands.lean ====
section
/-! DEFINITION. The operand forms: how items stand in payloads (R179), the codes of the named lists, the
CRC-16 (R51), and the layouts of the frames the part sends and receives (R50, R111, R179). -/

namespace Sys2Proof.Machine

/-! ## Numbers and items (R179) -/

/-- A number in `n` bytes, most significant byte first (R179). -/
def beBytes : Nat → Nat → List Byte
  | 0, _ => []
  | n + 1, x => BitVec.ofNat 8 (x / 256 ^ n) :: beBytes n x

/-- The number that bytes spell, most significant byte first (R179). -/
def fromBe (bs : List Byte) : Nat := bs.foldl (fun acc b => acc * 256 + b.toNat) 0

/-- The number in the `len` bytes of a payload from byte `off` on. -/
def item (payload : List Byte) (off len : Nat) : Nat := fromBe ((payload.drop off).take len)

/-- An on/off or yes/no item of a payload: 0 means off, any other value on (R179). -/
def onOff (payload : List Byte) (off : Nat) : Bool := item payload off 1 != 0

/-- An on/off, yes/no, set/clear or asserted/not asserted item as sent: 1 or 0 (R179; log 14). -/
def bit (b : Bool) : List Byte := [if b then 1 else 0]

/-- An item of `n` bytes that may be absent, with its presence byte (R179). -/
def optional (n : Nat) : Option Nat → List Byte
  | none => 0 :: beBytes n 0
  | some x => 1 :: beBytes n x

/-- The members of a set as a bit set of `n` bytes: member k takes bit k of the whole (R179). -/
def bitSet (n : Nat) (members : List Bool) : List Byte :=
  beBytes n (members.zipIdx.foldl (fun acc m => if m.1 then acc + 2 ^ m.2 else acc) 0)

/-- The lane number an item names, if it is 0 to 3. -/
def laneItem (payload : List Byte) (off : Nat) : Option LaneId :=
  if h : item payload off 1 < 4 then some ⟨item payload off 1, h⟩ else none

/-- The station an item names, if it is A, B or C (R179). -/
def stationItem (payload : List Byte) (off : Nat) : Option StationId :=
  if h : item payload off 1 < 3 then some ⟨item payload off 1, h⟩ else none

/-- The valve column an item names, if it is 0 to 31. -/
def columnItem (payload : List Byte) (off : Nat) : Option (Fin 32) :=
  if h : item payload off 1 < 32 then some ⟨item payload off 1, h⟩ else none

/-- The profile number an item names, if it is 0 to 7 (R71). -/
def profileItem (payload : List Byte) (off : Nat) : Option (Fin 8) :=
  if h : item payload off 1 < 8 then some ⟨item payload off 1, h⟩ else none

/-- The class table index an item names, if it is 0 to 63 (R70). -/
def entryItem (payload : List Byte) (off : Nat) : Option (Fin 64) :=
  if h : item payload off 1 < 64 then some ⟨item payload off 1, h⟩ else none

/-! ## Codes of the named lists: numbered from 0 in the order of their owning rule (R179) -/

/-- Number of a fraction (R1). -/
def Fraction.code : Fraction → Fin 4
  | .metal => 0 | .plastic => 1 | .foam => 2 | .residue => 3

/-- The fraction a number names. -/
def Fraction.ofCode? : Nat → Option Fraction
  | 0 => some .metal | 1 => some .plastic | 2 => some .foam | 3 => some .residue | _ => none

/-- Number of an assigned fraction (R125). -/
def ChuteFraction.code : ChuteFraction → Fin 3
  | .metal => 0 | .plastic => 1 | .foam => 2

/-- The assigned fraction a number names. -/
def ChuteFraction.ofCode? : Nat → Option ChuteFraction
  | 0 => some .metal | 1 => some .plastic | 2 => some .foam | _ => none

/-- The material class of an assigned fraction. -/
def ChuteFraction.fraction : ChuteFraction → Fraction
  | .metal => .metal | .plastic => .plastic | .foam => .foam

/-- The chute of a fraction, absent for RESIDUE. -/
def Fraction.chute? : Fraction → Option ChuteFraction
  | .metal => some .metal | .plastic => some .plastic | .foam => some .foam | .residue => none

/-- Number of an outcome (R1, R130). -/
def Outcome.code : Outcome → Fin 8
  | .ejected => 0 | .isPartial => 1 | .cut => 2 | .passed => 3
  | .redirected => 4 | .late => 5 | .denied => 6 | .lost => 7

/-- Number of a trace reason (R166). -/
def TraceReason.code : TraceReason → Nat
  | .queueFull => 0 | .redirected => 1 | .late => 2 | .deniedListFull => 3 | .deniedAir => 4
  | .deniedRule => 5 | .deniedRest => 6 | .partialRest => 7 | .deniedStationOff => 8
  | .cutAir => 9 | .cutReverse => 10 | .cutStationOff => 11 | .cutMaxopen => 12 | .lost => 13

/-- Number of a lane state (R115). -/
def LaneState.code : LaneState → Nat
  | .stopped => 0 | .running => 1 | .draining => 2 | .halted => 3

/-- Number of a halt cause (R115). -/
def HaltCause.code : HaltCause → Nat
  | .none => 0 | .plantStop => 1 | .reverseLimit => 2

/-- Number of a LANE_STATE cause (R115, R173). -/
def StateCause.code : StateCause → Nat
  | .start => 0 | .stop => 1 | .drained => 2 | .plantStop => 3 | .reverseLimit => 4
  | .clear => 5 | .reset => 6

/-- Number of a source (R25, R44). -/
def Source.code : Source → Nat
  | .encoder => 0 | .nominal => 1

/-- The source a number names. -/
def Source.ofCode? : Nat → Option Source
  | 0 => some .encoder | 1 => some .nominal | _ => none

/-- Number of a reset cause (R195). -/
def ResetCause.code : ResetCause → Nat
  | .powerOn => 0 | .resetLine => 1 | .resetRequest => 2

/-- Number of a close cause (R135). -/
def CloseCause.code : CloseCause → Nat
  | .host => 0 | .limit => 1

/-- Number of a discard cause (R53). -/
def LinkCause.code : LinkCause → Nat
  | .frame => 0 | .head => 1 | .field => 2 | .disabled => 3

/-- Number of an edge selection (R152). -/
def EdgeSelection.code : EdgeSelection → Nat
  | .ignore => 0 | .rise => 1 | .fall => 2 | .both => 3

/-- The edge selection a number names. -/
def EdgeSelection.ofCode? : Nat → Option EdgeSelection
  | 0 => some .ignore | 1 => some .rise | 2 => some .fall | 3 => some .both | _ => none

/-- Number of a chute policy (R159). -/
def ChutePolicy.code : ChutePolicy → Nat
  | .redirect => 0 | .hold => 1

/-- The chute policy a number names. -/
def ChutePolicy.ofCode? : Nat → Option ChutePolicy
  | 0 => some .redirect | 1 => some .hold | _ => none

/-- Status byte (R184). -/
def Status.code : Status → Byte
  | .ok => 0x00 | .accepted => 0x01 | .unknownRequest => 0x02 | .badLength => 0x03
  | .badValue => 0x04 | .wrongState => 0x05 | .switchPending => 0x06 | .lotDraining => 0x07
  | .busy => 0x08 | .geometry => 0x09 | .noHeads => 0x0A | .notFound => 0x0B

/-- Result byte (R183). -/
def Result.code : Result → Byte
  | .noChange => 0 | .pending => 1 | .aborted => 2 | .draining => 3 | .completed => 4
  | .enabled => 5 | .disabled => 6 | .started => 7 | .replaced => 8 | .stopped => 9
  | .changed => 10 | .released => 11

/-! ## CRC-16 (R51) -/

/-- One bit through the CRC register: polynomial x^16 + x^12 + x^5 + 1 (R51). -/
def crcBit (crc : BitVec 16) (b : Bool) : BitVec 16 :=
  if crc.msb != b then (crc <<< 1) ^^^ 0x1021 else crc <<< 1

/-- One byte through the CRC register, most significant bit first (R51). -/
def crcByte (crc : BitVec 16) (b : Byte) : BitVec 16 :=
  [7, 6, 5, 4, 3, 2, 1, 0].foldl (fun c i => crcBit c (b.getLsbD i)) crc

/-- The CRC-16 of a run of bytes: the register starts at 0xFFFF, the result is not inverted (R51). -/
def crc16 (bs : List Byte) : BitVec 16 := bs.foldl crcByte 0xFFFF

/-- The two CRC bytes of a run of bytes, high byte first (R50). -/
def crcBytes (bs : List Byte) : List Byte :=
  [(crc16 bs).extractLsb' 8 8, (crc16 bs).extractLsb' 0 8]

/-! ## Frames -/

/-- A frame with the given start marker and body: marker, body length, body, CRC over the length byte
and the body (R50, R111, R179). -/
def frameOf (marker : Byte) (body : List Byte) : List Byte :=
  marker :: BitVec.ofNat 8 body.length :: body ++ crcBytes (BitVec.ofNat 8 body.length :: body)

/-- Start marker of a sensor link frame (R50). -/
def sensorMarker : Byte := 0xA5

/-- Start marker of a plant link frame (R179). -/
def plantMarker : Byte := 0xC3

/-- Start marker of a valve bar frame (R111). -/
def valveMarker : Byte := 0x5A

/-- The body of a DETECTION frame (R50). -/
def detectionBody (r : DetectionRecord) : List Byte :=
  [0x01, r.headNumber, r.firstColumn, r.lastColumn,
   r.length.extractLsb' 8 8, r.length.extractLsb' 0 8, r.trailLag, r.classCode,
   r.intensity.extractLsb' 8 8, r.intensity.extractLsb' 0 8]

/-- The body of a HEAD_IDLE frame (R50). -/
def headIdleBody (headNumber : Byte) : List Byte := [0x02, headNumber]

/-- The record in the ten body bytes of a DETECTION frame (R50). -/
def detectionOf? : List Byte → Option DetectionRecord
  | [0x01, head, first, last, l1, l0, lag, code, i1, i0] =>
    some ⟨head, first, last, l1 ++ l0, lag, code, i1 ++ i0⟩
  | _ => none

/-- Bytes as they arrive with their stop bits present. -/
def onLine (bs : List Byte) : List LineByte := bs.map fun b => ⟨b, true⟩

/-- A valve bar frame carrying an open set (R111). -/
def valveFrame (lane : LaneId) (station : StationId) (sequence : Byte) (columns : Columns) : List Byte :=
  frameOf valveMarker
    ([0x10, BitVec.ofNat 8 (16 * lane.val + station.val), sequence] ++ beBytes 4 columns.toNat)

/-- The body of a plant link frame: tag, kind and payload (R179). -/
def Frame.body (f : Frame) : List Byte := f.tag :: f.kind :: f.payload

/-- The bytes of a plant link frame the part sends (R179). -/
def Frame.bytes (f : Frame) : List Byte := frameOf plantMarker f.body

/-- The bytes of a plant link frame that carries a request (R179). -/
def requestBytes (r : Request) : List Byte :=
  frameOf plantMarker (r.tag :: r.kind :: r.payload)

/-- A notice's kind byte is 0xF0 or above (R179, R186). -/
def Frame.isNotice (f : Frame) : Bool := 0xF0 ≤ f.kind.toNat

/-! ## Records inside payloads -/

/-- A trace entry as READ_TRACE returns it: 20 bytes in the order of R166 (R170). -/
def TraceEntry.encode (e : TraceEntry) : List Byte :=
  beBytes 4 e.time.toNat ++ beBytes 1 e.lane.val ++ beBytes 1 e.reason.code ++
  optional 3 (e.serial.map (·.toNat)) ++ optional 2 (e.lot.map (·.toNat)) ++ bit e.test ++
  optional 1 (e.station.map (·.val)) ++ optional 2 e.detail ++ bit e.gap

/-- A lot record in the order of R135, the fields not always present with their presence byte
(R145, R146, R179; log 15). -/
def LotRecord.encode (r : LotRecord) : List Byte :=
  beBytes 2 r.id.toNat ++ beBytes 1 r.lane.val ++
  optional 3 (r.firstSerial.map (·.toNat)) ++ optional 3 (r.lastSerial.map (·.toNat)) ++
  beBytes 4 r.formed.toNat ++ r.outcomes.toList.flatMap (fun c => beBytes 4 c.toNat) ++
  r.ejected.toList.flatMap (fun c => beBytes 4 c.toNat) ++
  beBytes 4 r.estimated.toNat ++ beBytes 4 r.overflow.toNat ++
  r.areas.toList.flatMap (fun a => beBytes 8 a.toNat) ++
  beBytes 4 r.liveMs.toNat ++ beBytes 4 r.holdMs.toNat ++ beBytes 4 r.openTime.toNat ++
  optional 4 (r.closeTime.map (·.toNat)) ++ optional 1 (r.closeCause.map (·.code)) ++
  optional 4 (r.doneTime.map (·.toNat)) ++ optional 2 (r.completion.map (·.toNat))

/-- The bytes an absent lot record takes, sent as 0 (R179). -/
def absentLotRecord : List Byte := (LotRecord.encode ⟨0, 0, none, none, 0, Vector.replicate 8 0,
  Vector.replicate 3 0, 0, 0, Vector.replicate 4 0, 0, 0, 0, none, none, none, none⟩).map fun _ => 0

/-- A class table entry in the order of R70, code ranges and intensities head by head (R72, R186). -/
def ClassEntry.encode (e : ClassEntry) : List Byte :=
  bit e.valid ++ bitSet 1 e.requirement.toList ++
  [e.codeLow[0], e.codeHigh[0], e.codeLow[1], e.codeHigh[1], e.codeLow[2], e.codeHigh[2]] ++
  e.minIntensity.toList.flatMap (fun i => beBytes 2 i.toNat) ++
  beBytes 1 e.fraction.code.val ++ beBytes 1 e.profile.val ++ beBytes 1 e.density

/-- The class table entry that the 17 payload bytes from byte 1 on spell, if every item is in range
(R72, R186). -/
def ClassEntry.ofPayload? (p : List Byte) : Option ClassEntry :=
  let low (h : Nat) : Byte := BitVec.ofNat 8 (item p (3 + 2 * h) 1)
  let high (h : Nat) : Byte := BitVec.ofNat 8 (item p (4 + 2 * h) 1)
  match Fraction.ofCode? (item p 15 1), profileItem p 16 with
  | some fraction, some profile =>
    if item p 2 1 < 8 ∧ (low 0).toNat ≤ (high 0).toNat ∧ (low 1).toNat ≤ (high 1).toNat ∧
        (low 2).toNat ≤ (high 2).toNat ∧ 0 < item p 17 1 then
      some {
        valid := onOff p 1
        requirement := #v[(item p 2 1).testBit 0, (item p 2 1).testBit 1, (item p 2 1).testBit 2]
        codeLow := #v[low 0, low 1, low 2]
        codeHigh := #v[high 0, high 1, high 2]
        minIntensity := #v[BitVec.ofNat 16 (item p 9 2), BitVec.ofNat 16 (item p 11 2),
          BitVec.ofNat 16 (item p 13 2)]
        fraction := fraction
        profile := profile
        density := item p 17 1 }
    else none
  | _, _ => none

/-- An ejection profile in the order of R71 (R73). -/
def Profile.encode (p : Profile) : List Byte :=
  beBytes 1 p.leadMargin ++ beBytes 1 p.lagMargin ++ beBytes 1 p.spread ++ beBytes 1 p.maxOpen

/-- The profile that the payload bytes 1 to 4 spell, if every field is in range (R73). -/
def Profile.ofPayload? (p : List Byte) : Option Profile :=
  if item p 3 1 ≤ 3 ∧ 1 ≤ item p 4 1 ∧ item p 4 1 ≤ 250 then
    some ⟨item p 1 1, item p 2 1, item p 3 1, item p 4 1⟩
  else none

/-- The lane geometry in the order of R125. -/
def Geometry.encode (g : Geometry) : List Byte :=
  g.headEnable.toList.flatMap bit ++ g.headOffset.toList.flatMap (beBytes 2) ++
  g.stationEnable.toList.flatMap bit ++ g.stationDistance.toList.flatMap (beBytes 2) ++
  g.stationFraction.toList.flatMap (fun f => beBytes 1 f.code.val) ++
  beBytes 2 g.exitDistance ++ beBytes 1 g.window ++ beBytes 2 g.reverseLimit

/-- The geometry that the 26 payload bytes from byte 1 on spell, if every item is in range (R125). -/
def Geometry.ofPayload? (p : List Byte) : Option Geometry :=
  let offset (h : Nat) := item p (4 + 2 * h) 2
  let distance (s : Nat) := item p (13 + 2 * s) 2
  match ChuteFraction.ofCode? (item p 19 1), ChuteFraction.ofCode? (item p 20 1),
      ChuteFraction.ofCode? (item p 21 1) with
  | some fa, some fb, some fc =>
    if offset 0 ≤ 4095 ∧ offset 1 ≤ 4095 ∧ offset 2 ≤ 4095 ∧
        (1 ≤ distance 0 ∧ distance 0 ≤ 16383) ∧ (1 ≤ distance 1 ∧ distance 1 ≤ 16383) ∧
        (1 ≤ distance 2 ∧ distance 2 ≤ 16383) ∧ (1 ≤ item p 22 2 ∧ item p 22 2 ≤ 16383) ∧
        item p 25 2 ≤ 1023 then
      some {
        headEnable := #v[onOff p 1, onOff p 2, onOff p 3]
        headOffset := #v[offset 0, offset 1, offset 2]
        stationEnable := #v[onOff p 10, onOff p 11, onOff p 12]
        stationDistance := #v[distance 0, distance 1, distance 2]
        stationFraction := #v[fa, fb, fc]
        exitDistance := item p 22 2
        window := item p 24 1
        reverseLimit := item p 25 2 }
    else none
  | _, _, _ => none

/-- The timebase setup in the order of R44. -/
def TimebaseSetup.encode (t : TimebaseSetup) : List Byte :=
  beBytes 1 t.source.code ++ bit t.twoStage ++ beBytes 2 t.watchTime ++ beBytes 1 t.tolerance ++
  beBytes 2 t.settlePeriod

/-- The timebase setup that the payload bytes 1 to 7 spell, if every item is in range (R44). -/
def TimebaseSetup.ofPayload? (p : List Byte) : Option TimebaseSetup :=
  match Source.ofCode? (item p 1 1) with
  | some source =>
    if (2 ≤ item p 3 2 ∧ item p 3 2 ≤ 1000) ∧ (1 ≤ item p 5 1 ∧ item p 5 1 ≤ 50) ∧
        (10 ≤ item p 6 2 ∧ item p 6 2 ≤ 2000) then
      some ⟨source, onOff p 2, item p 3 2, item p 5 1, item p 6 2⟩
    else none
  | none => none

/-- The station configuration that the payload bytes 2 to 14 spell, if every item is in range (R91). -/
def StationConfig.ofPayload? (p : List Byte) : Option StationConfig :=
  let count (k : Nat) := item p (3 + 3 * k) 1
  let window (k : Nat) := item p (4 + 3 * k) 2
  if item p 2 1 ≤ 50 ∧ (1 ≤ count 0 ∧ count 0 ≤ 15) ∧ (1 ≤ count 1 ∧ count 1 ≤ 15) ∧
      (1 ≤ count 2 ∧ count 2 ≤ 15) ∧ (1 ≤ count 3 ∧ count 3 ≤ 15) then
    some ⟨item p 2 1, #v[⟨count 0, window 0⟩, ⟨count 1, window 1⟩, ⟨count 2, window 2⟩,
      ⟨count 3, window 3⟩]⟩
  else none

/-- The three chute policies in the payload bytes 1 to 3, if each is REDIRECT or HOLD (R159). -/
def policiesItem (p : List Byte) : Option (Vector ChutePolicy 3) :=
  match ChutePolicy.ofCode? (item p 1 1), ChutePolicy.ofCode? (item p 2 1),
      ChutePolicy.ofCode? (item p 3 1) with
  | some m, some pl, some f => some #v[m, pl, f]
  | _, _, _ => none

/-- Number of the edge selection of line `i` in a SET_LINE_CONFIG payload (R186). -/
def edgeCode (p : List Byte) (i : Nat) : Nat := item p (4 + i) 1

/-- The 26 edge selections of a SET_LINE_CONFIG payload, if each is one of the four (R152, R186). -/
def edgesItem (p : List Byte) : Option (Vector EdgeSelection 26) :=
  if (List.range 26).all fun i => (EdgeSelection.ofCode? (edgeCode p i)).isSome then
    some (Vector.ofFn fun i : Fin 26 => (EdgeSelection.ofCode? (edgeCode p i)).getD .ignore)
  else none

end Sys2Proof.Machine
end

