-- ==== Sys2Proof/Machine/Factory.lean ====
section
/-! DEFINITION. Factory defaults of the configuration (R194, with R47, R90, R114, R133, R148, R165,
R177) and the power-on values of every item of working state. -/

namespace Sys2Proof.Machine

/-- Factory defaults of the lane geometry (R133). -/
def Geometry.factory : Geometry where
  headEnable := #v[false, false, false]
  headOffset := #v[0, 100, 200]
  stationEnable := #v[false, false, false]
  stationDistance := #v[1000, 1500, 2000]
  stationFraction := #v[.metal, .plastic, .foam]
  exitDistance := 3000
  window := 20
  reverseLimit := 50

/-- Factory defaults of the timebase setup (R47). -/
def TimebaseSetup.factory : TimebaseSetup where
  source := .encoder
  twoStage := false
  watchTime := 100
  tolerance := 10
  settlePeriod := 200

/-- Factory defaults of a station: column rest 5 ms, each rule count 1 and window 0 (R114). -/
def StationConfig.factory : StationConfig where
  columnRest := 5
  rules := Vector.replicate 4 ⟨1, 0⟩

/-- Factory defaults of a lane (R47, R114, R133, R148, R165). -/
def LaneConfig.factory : LaneConfig where
  geometry := .factory
  setup := .factory
  scale := 4
  rate := 1000
  stations := Vector.replicate 3 .factory
  policies := Vector.replicate 3 .redirect
  busyEnables := Vector.replicate 7 true
  coupled := false
  lotLimit := 0

/-- Factory default of a class table entry (R90). -/
def ClassEntry.factory : ClassEntry where
  valid := false
  requirement := Vector.replicate 3 false
  codeLow := Vector.replicate 3 0
  codeHigh := Vector.replicate 3 255
  minIntensity := Vector.replicate 3 0
  fraction := .residue
  profile := 0
  density := 1

/-- Factory default of an ejection profile (R90). -/
def Profile.factory : Profile where
  leadMargin := 0
  lagMargin := 0
  spread := 0
  maxOpen := 50

/-- Factory defaults of the device-wide items (R90, R165, R177). -/
def DeviceConfig.factory : DeviceConfig where
  classTable := Vector.replicate 64 .factory
  profiles := Vector.replicate 8 .factory
  debounce := Vector.replicate 4 10
  edges := Vector.replicate 26 .ignore
  noticeEnables := Vector.replicate 13 false
  statusPeriod := 0

/-- Every configuration item at its factory default (R194 step 2). -/
def Image.factory : Image where
  lanes := Vector.replicate 4 .factory
  device := .factory

/-- An assembler in HUNT (R48, R191). -/
def Assembler.hunting : Assembler where
  phase := .hunt
  buffer := []
  lastByte := none

/-- A head link receiver after a device reset (R48). -/
def Receiver.powerOn : Receiver where
  asm := .hunting
  records := 0
  errors := 0
  lastRecord := none

/-- The plant link interface after a device reset (R191). -/
def Link.powerOn : Link where
  asm := .hunting
  input := []
  output := []
  resetTaken := false
  goodFrames := 0
  badFrames := 0
  discarded := 0
  repliesSent := 0
  noticesSent := 0
  dropped := 0

/-- A valve bar port after a device reset, before its start-up frame (R114). -/
def Port.powerOn : Port where
  lastSent := 0
  sequence := 0
  sending := none
  waiting := false

/-- A station after a device reset (R114). -/
def Station.powerOn : Station where
  list := []
  history := []
  restUntil := Vector.replicate 32 none
  port := .powerOn

/-- A new lot record (R135): counts and sums 0, serials absent, opened at the time given. -/
def LotRecord.fresh (lane : LaneId) (id : LotId) (now : Time) : LotRecord where
  id := id
  lane := lane
  firstSerial := none
  lastSerial := none
  formed := 0
  outcomes := Vector.replicate 8 0
  ejected := Vector.replicate 3 0
  estimated := 0
  overflow := 0
  areas := Vector.replicate 4 0
  liveMs := 0
  holdMs := 0
  openTime := now
  closeTime := none
  closeCause := none
  doneTime := none
  completion := none

/-- A lot unit after a device reset (R148). -/
def LotUnit.powerOn (lane : LaneId) : LotUnit where
  filling := .fresh lane 0 0
  draining := none
  pendingClose := false
  ring := []
  nextCompletion := 0

/-- A timebase unit after a device reset (R47): the active source is the configured source, and the
decoder's reference is the first pair sampled (R26). -/
def Timebase.powerOn (setup : TimebaseSetup) (phases : Bool × Bool) : Timebase where
  p := 0
  pmax := 0
  source := setup.source
  pendingScale := none
  residue := 0
  pendingRate := none
  accumulator := none
  monitor := none
  encoderLost := false
  pendingSwitch := none
  phaseErrors := 0
  phases := phases

/-- A lane after a device reset, with the configuration loaded and the encoder levels sampled
(R24, R47, R48, R114, R133, R148, R161). -/
def Lane.powerOn (lane : LaneId) (cfg : LaneConfig) (phases : Bool × Bool) : Lane where
  cfg := cfg
  tb := .powerOn cfg.setup phases
  receivers := Vector.replicate 3 .powerOn
  queue := []
  nextSerial := 0
  stations := Vector.replicate 3 .powerOn
  state := .stopped
  haltCause := .none
  injection := none
  discarded := 0
  testTally := Vector.replicate 8 0
  skipped := 0
  lots := .powerOn lane
  hostHold := false

/-- The field lines after a device reset (R165): raw levels as first sampled, every debounced state not
asserted, a candidate from the first sample where the raw level is asserted. -/
def FieldLines.powerOn (raw : Vector Bool 26) : FieldLines where
  raw := raw
  debounced := Vector.replicate 25 false
  candidate := Vector.ofFn fun i : Fin 25 => if raw[i.castSucc] then some 0 else none

/-- Every port of a lane sends its start-up frame: the empty set with sequence number 0 (R114, R194). -/
def Lane.sendStartUpFrames (lane : LaneId) (ln : Lane) : Lane :=
  { ln with stations := Vector.ofFn fun st : Fin 3 =>
      { ln.stations[st] with
        port := ⟨0, 0, some (valveFrame lane st 0 0), false⟩ } }

end Sys2Proof.Machine
end

