-- ==== Sys2Proof/Machine/State.lean ====
section
/-! DEFINITION. The state of the S432, its fault and refusal reasons, and the state after reset. -/

namespace Sys2Proof.Machine

/-- Fault reasons: none. The spec describes no condition in which the part stops: every wrong frame,
record or request has an effect of its own (a count, an event, a refusing reply), so no meaning of this
model faults. Safe: nothing is cut short. -/
inductive Fault where
  deriving DecidableEq, Repr

/-- Refusal reasons. -/
inductive Refusal where
  /-- Raised by exec alone, for a command that has no meaning yet. No arm raises it. Safe: nothing is
  claimed of a refused command. -/
  | notModelled (mnemonic : String)
  deriving DecidableEq, Repr

/-- The state of the part (INVENTORY.md lists each item with its rule), and the queue of commands that
wait, first in first out. `micros` counts the µs of the current ms of line time (R29); `choices` counts
the free choices taken (log 3) and is the model's own, as is `held`: the samples of each lane's encoder phases
that the next sample in the queue takes with it (R33; log 19). The feed-hold outputs and the open-column sets
are computed from the state (R96, R162, R163). -/
structure State where
  phase : Phase
  rstAsserted : Bool
  resetCause : ResetCause
  lineTime : Time
  micros : Nat
  lanes : Vector Lane 4
  device : DeviceConfig
  lines : FieldLines
  millTripLatch : Bool
  trace : List TraceEntry
  gapPending : Bool
  laneFlags : Vector (BitVec 5) 4
  deviceFlags : BitVec 8
  statusDue : Option Time
  link : Link
  store : Store
  choices : Nat
  held : Vector (List (Bool × Bool)) 4
  pending : List Instr
  deriving DecidableEq, Repr

/-- The part right after a power-on start-up that found the settings store never written (R24, R47,
R48, R90, R114, R133, R148, R165, R170, R177, R191, R194): working, every lane STOPPED on factory
defaults, the POWER_ON and STORE_INVALID flags set, each valve bar port sending its start-up frame.
DESIGN CHOICE (log 2): a store never written, every input level low, no time passed since step 1. -/
def State.reset : State where
  phase := .working
  rstAsserted := false
  resetCause := .powerOn
  lineTime := 0
  micros := 0
  lanes := Vector.ofFn fun l : Fin 4 => (Lane.powerOn l .factory (false, false)).sendStartUpFrames l
  device := .factory
  lines := .powerOn (Vector.replicate 26 false)
  millTripLatch := false
  trace := []
  gapPending := false
  laneFlags := Vector.replicate 4 0
  deviceFlags := 0b11
  statusDue := none
  link := .powerOn
  store := ⟨.factory, false, none⟩
  choices := 0
  held := Vector.replicate 4 []
  pending := []

end Sys2Proof.Machine
end

