-- ==== Sys2Proof/Machine/Ops.lean ====
section
/-! DEFINITION. Shared operations: forward distances, counters, the lane accessors, the field lines of a
lane, and the output queue of the plant link. -/

namespace Sys2Proof.Machine

/-- The outcome of a step. -/
abbrev Out := Host.Outcome State Fault Refusal

/-! ## Forward distances (00_scope.md, Conventions; R31) -/

/-- `b` lies strictly ahead of `a`: the forward distance from `a` to `b` is 1 to 2^31 - 1 (R31). -/
def ahead (a b : BitVec 32) : Bool := 1 ≤ (b - a).toNat && (b - a).toNat < 2 ^ 31

/-- `x` is at or behind `y`: the forward distance from `x` to `y` is 0 to 2^31 - 1 (R31). -/
def atOrBehind (x y : BitVec 32) : Bool := (y - x).toNat < 2 ^ 31

/-- The smaller of the two forward distances between two positions (R58). -/
def gapBetween (a b : Pos) : Nat := min (b - a).toNat (a - b).toNat

/-- ms of line time from `t` to `now`, by forward distance. -/
def elapsed (now t : Time) : Nat := (now - t).toNat

/-! ## Counters -/

/-- A count that holds at its greatest value 65,535 (R26, R48, R130, R190). -/
def holdInc (c : Count16) : Count16 := if c = 0xFFFF then c else c + 1

/-! ## Lanes and their field lines -/

/-- Replace one lane. -/
def State.setLane (s : State) (l : LaneId) (ln : Lane) : State := { s with lanes := s.lanes.set l ln }

/-- The debounced line 6l + k of lane l (R150). -/
def laneLine (l : LaneId) (k : Fin 6) : DebouncedId := ⟨6 * l.val + k.val, by omega⟩

/-- DRIVE_RUN of a lane (R150). -/
def driveLine (l : LaneId) : DebouncedId := laneLine l 0

/-- AIR_OK of a lane (R150). -/
def airLine (l : LaneId) : DebouncedId := laneLine l 1

/-- The chute-full line of a lane for a chute fraction: M, P or F (R150). -/
def chuteLine (l : LaneId) (f : Fin 3) : DebouncedId := laneLine l ⟨2 + f.val, by omega⟩

/-- CHUTE_FULL_R of a lane (R150). -/
def residueLine (l : LaneId) : DebouncedId := laneLine l 5

/-- MILL_TRIP (R150). -/
def millTripLine : DebouncedId := 24

/-- PLANT_STOP (R150). -/
def plantStopLine : LineId := 25

/-- The raw PLANT_STOP level (R156). -/
def State.plantStop (s : State) : Bool := s.lines.raw[plantStopLine]

/-- What the blocks of lane `l` read from outside the lane. -/
def State.env (s : State) (l : LaneId) : LaneEnv where
  id := l
  now := s.lineTime
  airOk := s.lines.raw[(airLine l).castSucc]
  driveRun := s.lines.debounced[driveLine l]
  chuteFull := Vector.ofFn fun f : Fin 3 => s.lines.debounced[chuteLine l f]
  table := s.device.classTable
  profiles := s.device.profiles
  seed := s.choices

/-- The part has supply and is not held in reset: its clock runs and it samples its inputs (R194). -/
def State.live (s : State) : Bool := s.phase == .starting || s.phase == .working

/-- The part has begun to work (R194 step 4). -/
def State.works (s : State) : Bool := s.phase == .working

/-! ## Effects of a lane's blocks -/

/-- Go on from a lane and the effects raised so far. -/
def LaneOut.andThen (o : LaneOut) (f : Lane → LaneOut) : LaneOut :=
  ⟨(f o.lane).lane, o.effects ++ (f o.lane).effects⟩

/-- A lane with no effect raised. -/
def Lane.quiet (ln : Lane) : LaneOut := ⟨ln, []⟩

/-- Run a lane act for each member of a list, in order. -/
def runEach {α : Type} (f : α → Lane → LaneOut) (xs : List α) (ln : Lane) : LaneOut :=
  xs.foldl (fun o x => o.andThen (f x)) ln.quiet

/-- A list in the order that successive picks give: the n-th pick chooses among the members left. With
at most one member left no pick is read. -/
def arrange {α : Type} (pick : Nat → Nat) : Nat → List α → List α
  | 0, xs => xs
  | _ + 1, [] => []
  | _ + 1, [x] => [x]
  | n + 1, x :: y :: xs =>
    let all := x :: y :: xs
    let i := pick n % all.length
    (all.drop i).take 1 ++ arrange pick n (all.take i ++ all.drop (i + 1))

/-! ## The plant link's output queue (R182, R187, R188) -/

/-- The number of notices that stand in the output queue, the frame on the line included (R187). -/
def Link.notices (k : Link) : Nat := (k.output.filter (·.isNotice)).length

/-- A reply stands in the output queue that has not yet begun to be sent. The oldest frame is on the
line as soon as it stands there (R182, R187). -/
def Link.replyWaits (k : Link) : Bool := (k.output.drop 1).any fun f => !f.isNotice

/-- Place a frame at the newest end of the output queue. -/
def State.pushFrame (s : State) (f : Frame) : State :=
  { s with link := { s.link with output := s.link.output ++ [f] } }

/-- Offer a notice: it is queued if fewer than 24 notices stand, otherwise dropped and counted (R188). -/
def State.offerNotice (s : State) (f : Frame) : State :=
  if s.link.notices < 24 then s.pushFrame f
  else { s with link := { s.link with dropped := holdInc s.link.dropped } }

end Sys2Proof.Machine
end

