-- ==== Sys2Proof/Machine/Flags.lean ====
section
/-! DEFINITION. The event flags and notices (R171 to R173), and every condition the part computes from
its state: busy sources, feed holds (R160 to R163) and station inhibits (R107). -/

namespace Sys2Proof.Machine

/-! ## Events (R171 to R173) -/

/-- Number of an event's kind in the table of R171; its notice kind byte is 0xF0 plus this (R186). -/
def Event.kind : Event → Fin 13
  | .laneState .. => 0 | .encoderLost .. => 1 | .sourceSwitched .. => 2 | .lotDone .. => 3
  | .headLinkError .. => 4 | .powerOn .. => 5 | .storeInvalid => 6 | .traceHalf => 7
  | .traceFull => 8 | .millTrip => 9 | .plantStop => 10 | .lineEdge .. => 11 | .saveDone .. => 12

/-- The lane whose flag an event of a per-lane kind sets (R171). -/
def Event.lane? : Event → Option LaneId
  | .laneState l .. => some l | .encoderLost l => some l | .sourceSwitched l .. => some l
  | .lotDone l .. => some l | .headLinkError l .. => some l
  | .powerOn .. | .storeInvalid | .traceHalf | .traceFull | .millTrip | .plantStop
  | .lineEdge .. | .saveDone .. => none

/-- The particulars of an event's notice (R173, R179). -/
def Event.particulars : Event → List Byte
  | .laneState l st c => beBytes 1 l.val ++ beBytes 1 st.code ++ beBytes 1 c.code
  | .encoderLost l => beBytes 1 l.val
  | .sourceSwitched l src => beBytes 1 l.val ++ beBytes 1 src.code
  | .lotDone l lot c n => beBytes 1 l.val ++ beBytes 2 lot.toNat ++ beBytes 1 c.code ++ beBytes 2 n.toNat
  | .headLinkError l h c => beBytes 1 l.val ++ beBytes 1 h.val ++ beBytes 1 c.code
  | .powerOn c => beBytes 1 c.code
  | .storeInvalid => []
  | .traceHalf => beBytes 2 257
  | .traceFull => beBytes 2 512
  | .millTrip => []
  | .plantStop => []
  | .lineEdge n asserted => beBytes 1 n.val ++ bit asserted
  | .saveDone ok => beBytes 1 (if ok then 0 else 1)

/-- The notice of an event that occurs at the line time given: tag 0 (R173, R179). -/
def Event.notice (now : Time) (e : Event) : Frame :=
  ⟨0, BitVec.ofNat 8 (0xF0 + e.kind.val), beBytes 4 now.toNat ++ e.particulars⟩

/-- Set the flag of an event's kind, and lane where the kind is per lane (R171). -/
def State.setFlag (s : State) (e : Event) : State :=
  match e.lane? with
  | some l => { s with laneFlags := s.laneFlags.set l (s.laneFlags[l] ||| BitVec.ofNat 5 (2 ^ e.kind.val)) }
  | none => { s with deviceFlags := s.deviceFlags ||| BitVec.ofNat 8 (2 ^ (e.kind.val - 5)) }

/-- An occurrence of an event: it sets its flag, and its notice is offered if its kind's enable is on
(R171, R172). -/
def State.raise (s : State) (e : Event) : State :=
  let flagged := s.setFlag e
  if s.device.noticeEnables[e.kind] then flagged.offerNotice (e.notice s.lineTime) else flagged

/-! ## Busy sources and feed holds (R160, R162, R163) -/

/-- Whether a chute is full under policy HOLD (R160). -/
def State.chuteBusy (s : State) (l : LaneId) (f : Fin 3) : Bool :=
  s.lines.debounced[chuteLine l f] && s.lanes[l].cfg.policies[f] == .hold

/-- The conditions of a lane's seven busy sources, in the order of R160: chute M, P, F, R, air low,
encoder lost, host hold. -/
def State.busyConditions (s : State) (l : LaneId) : Vector Bool 7 :=
  #v[s.chuteBusy l 0, s.chuteBusy l 1, s.chuteBusy l 2, s.lines.debounced[residueLine l],
    !s.lines.debounced[airLine l], s.lanes[l].tb.encoderLost, s.lanes[l].hostHold]

/-- The activity of a lane's seven busy sources: condition and enable (R160). -/
def State.busyActive (s : State) (l : LaneId) : Vector Bool 7 :=
  Vector.ofFn fun i : Fin 7 => (s.busyConditions l)[i] && s.lanes[l].cfg.busyEnables[i]

/-- FEED_HOLD_l: asserted while the lane is not RUNNING or any busy source is active (R162), and from the
application of the supply until the part works (R194). -/
def State.feedHold (s : State) (l : LaneId) : Bool :=
  match s.phase with
  | .unpowered => Config.unpoweredOutput l.castSucc
  | .settling | .held _ | .starting => true
  | .working => s.lanes[l].state != .running || (s.busyActive l).toList.any id

/-- MILL_FEED_HOLD (R163): the latch, raw PLANT_STOP or a coupled lane's feed hold; asserted from the
application of the supply until the part works (R165, R194). -/
def State.millFeedHold (s : State) : Bool :=
  match s.phase with
  | .unpowered => Config.unpoweredOutput 4
  | .settling | .held _ | .starting => true
  | .working => s.millTripLatch || s.plantStop ||
      (List.finRange 4).any fun l => s.lanes[l].cfg.coupled && s.feedHold l

/-! ## Lane conditions -/

/-- A lane in which the stations may open: RUNNING or DRAINING (R96). -/
def Lane.active (ln : Lane) : Bool := ln.state == .running || ln.state == .draining

/-- The lane is reversing: active with P below Pmax (R32). -/
def Lane.reversing (ln : Lane) : Bool := ln.active && ahead ln.tb.p ln.tb.pmax

/-- The inhibits of a lane's stations in the order air, reverse, lane (R107). -/
def Lane.inhibits (airOk : Bool) (ln : Lane) : List Bool := [!airOk, ln.reversing, !ln.active]

end Sys2Proof.Machine
end

