-- ==== Sys2Proof/Machine/Trace.lean ====
section
/-! DEFINITION. The trace FIFO (R166 to R169), and how the effects of a lane's step reach the shared
blocks. -/

namespace Sys2Proof.Machine

/-- The most entries the trace holds (R167). -/
def traceCapacity : Nat := 512

/-- The entry that a draft becomes in the step that adds it (R166, R168). -/
def TraceDraft.entry (d : TraceDraft) (l : LaneId) (now : Time) (gap : Bool) : TraceEntry :=
  ⟨now, l, d.reason, d.serial, d.lot, d.test, d.station, d.detail, gap⟩

/-- An entry is made: appended with the gap mark, or, when the trace is full, dropped with the gap
pending mark set (R167, R168). TRACE_HALF and TRACE_FULL follow the crossings (R169). -/
def State.addTrace (s : State) (l : LaneId) (d : TraceDraft) : State :=
  if s.trace.length < traceCapacity then
    let added := { s with trace := s.trace ++ [d.entry l s.lineTime s.gapPending], gapPending := false }
    if s.trace.length = 256 then added.raise .traceHalf
    else if s.trace.length = 511 then added.raise .traceFull
    else added
  else { s with gapPending := true }

/-- One effect of a step of lane `l`. -/
def State.effect (l : LaneId) (s : State) : Effect → State
  | .event e => s.raise e
  | .trace d => s.addTrace l d

/-- The effects of a step of lane `l`, in order. -/
def State.commit (s : State) (l : LaneId) (es : List Effect) : State := es.foldl (State.effect l) s

/-- A step of lane `l`: its blocks act on the lane, and what they report reaches the shared blocks. -/
def State.onLane (s : State) (l : LaneId) (f : LaneEnv → Lane → LaneOut) : State :=
  let o := f (s.env l) s.lanes[l]
  (s.setLane l o.lane).commit l o.effects

/-- A draft stands before another in queue order: earlier lead_ref, or the same and a lower serial
(R14). -/
def TraceDraft.before (a b : TraceDraft) : Bool :=
  match a.lead, b.lead with
  | some x, some y =>
    if x = y then (a.serial.map (·.toNat)).getD 0 ≤ (b.serial.map (·.toNat)).getD 0 else ahead x y
  | _, _ => true

/-- Insert a draft into drafts that stand in queue order, behind those that stand no later. -/
def insertDraft (d : TraceDraft) : List TraceDraft → List TraceDraft
  | [] => [d]
  | e :: es => if e.before d then e :: insertDraft d es else d :: e :: es

/-- The parcel entry an effect is, if it is one. -/
def Effect.parcelDraft? : Effect → Option TraceDraft
  | .trace d => if d.lead.isSome then some d else none
  | .event _ => none

/-- The effects of one step with its parcel entries in queue order (R14, R167), ahead of the step's
events and of the LOST entry of a flush (log 9). -/
def inQueueOrder (es : List Effect) : List Effect :=
  ((es.filterMap Effect.parcelDraft?).foldl (fun acc d => insertDraft d acc) []).map .trace ++
    es.filter fun e => e.parcelDraft?.isNone

/-- Place the effects of a lane's step in the order R167 gives. -/
def LaneOut.ordered (o : LaneOut) : LaneOut := ⟨o.lane, inQueueOrder o.effects⟩

end Sys2Proof.Machine
end

