-- ==== Sys2Proof/Machine/Lots.lean ====
section
/-! DEFINITION. The lot unit of a lane (R134 to R149): accrual, closing, completion, the result ring, and
the requests over lots live in PlantLink families. -/

namespace Sys2Proof.Machine

/-- The most records a result ring holds (R144). -/
def ringCapacity : Nat := 4

/-- What the tracking queue reports of a removal (R12). -/
structure RemovalReport where
  outcome : Outcome
  fraction : Option Fraction
  length : Nat
  columns : Nat
  density : Nat
  estimated : Bool
  deriving DecidableEq, Repr

/-- The area a removal adds: length x columns x density (R137). -/
def RemovalReport.area (r : RemovalReport) : Nat := r.length * r.columns * r.density

/-- The chute whose ejected count a removal raises: of the fraction of an EJECTED or PARTIAL parcel
(R137). -/
def RemovalReport.ejected? (r : RemovalReport) : Option ChuteFraction :=
  if r.outcome = .ejected ∨ r.outcome = .isPartial then r.fraction.bind (·.chute?) else none

/-- Raise the ejected count of a chute, if one is named. -/
def bumpEjected (counts : Vector Count32 3) : Option ChuteFraction → Vector Count32 3
  | none => counts
  | some c => counts.set c.code (counts[c.code] + 1)

/-- Add an area to the sum of a fraction, if one is reported. -/
def addArea (areas : Vector Area 4) (area : Nat) : Option Fraction → Vector Area 4
  | none => areas
  | some f => areas.set f.code (areas[f.code] + BitVec.ofNat 64 area)

/-- Accrue a removal into a lot record (R137). -/
def LotRecord.accrueRemoval (r : RemovalReport) (rec : LotRecord) : LotRecord :=
  { rec with
    outcomes := rec.outcomes.set r.outcome.code (rec.outcomes[r.outcome.code] + 1)
    ejected := bumpEjected rec.ejected r.ejected?
    estimated := if r.estimated then rec.estimated + 1 else rec.estimated
    areas := addArea rec.areas r.area r.fraction }

/-- Accrue a formation into a lot record (R136). -/
def LotRecord.accrueFormation (serial : Serial) (rec : LotRecord) : LotRecord :=
  { rec with
    formed := rec.formed + 1
    lastSerial := some serial
    firstSerial := some (rec.firstSerial.getD serial) }

/-- Sum of the eight outcome counts, modulo 2^32 (R137, R140). -/
def LotRecord.removals (rec : LotRecord) : Count32 := rec.outcomes.toList.foldl (· + ·) 0

/-- The parcels of the lot still in the tracking queue, by the count balance (R137, R146). -/
def LotRecord.remaining (rec : LotRecord) : Count32 := rec.formed - rec.removals

/-- No parcel of the lot remains: its outcome counts sum to its formed count (R140). -/
def LotRecord.allRemoved (rec : LotRecord) : Bool := rec.removals == rec.formed

/-- A completed record takes its place in the ring, the oldest leaving a full one (R144). -/
def appendRing (ring : List LotRecord) (rec : LotRecord) : List LotRecord :=
  (ring ++ [rec]).drop (ring.length + 1 - ringCapacity)

/-- A lot unit after part of a step, with the events raised so far. -/
structure LotOut where
  unit : LotUnit
  events : List Event
  deriving DecidableEq, Repr

/-- The draining lot's record is completed into the ring and LOT_DONE is raised (R140). -/
def LotUnit.complete (lane : LaneId) (now : Time) (u : LotUnit) : LotOut :=
  match u.draining with
  | none => ⟨u, []⟩
  | some d =>
    ⟨{ u with
        draining := none
        ring := appendRing u.ring { d with doneTime := some now, completion := some u.nextCompletion }
        nextCompletion := u.nextCompletion + 1 },
      [.lotDone lane d.id (d.closeCause.getD .host) u.nextCompletion]⟩

/-- The filling lot is closed into the draining lot and a new filling lot is opened; the pending
auto-close mark is cleared (R139, R141, R142). -/
def LotUnit.closeFilling (lane : LaneId) (now : Time) (cause : CloseCause) (newId : LotId)
    (u : LotUnit) : LotUnit :=
  { u with
    draining := some { u.filling with closeTime := some now, closeCause := some cause }
    filling := .fresh lane newId now
    pendingClose := false }

/-- The close by the part itself: cause LIMIT, new id the old plus one (R141, R142). -/
def LotUnit.autoClose (lane : LaneId) (now : Time) (u : LotUnit) : LotUnit :=
  u.closeFilling lane now .limit (u.filling.id + 1)

/-- Complete the draining lot if none of its parcels remains (R140). -/
def LotUnit.completeIfDone (lane : LaneId) (now : Time) (u : LotUnit) : LotOut :=
  if (u.draining.map (·.allRemoved)).getD false then u.complete lane now else ⟨u, []⟩

/-- A completion, and after it the pending auto-close it releases, which may complete in turn (R140,
R142). -/
def LotUnit.finish (lane : LaneId) (now : Time) (u : LotUnit) : LotOut :=
  let done := u.complete lane now
  if done.unit.draining.isNone ∧ done.unit.pendingClose then
    let closed := (done.unit.autoClose lane now).completeIfDone lane now
    ⟨closed.unit, done.events ++ closed.events⟩
  else done

/-- The test for completion after a removal report or a close, with what follows from it (R140). -/
def LotUnit.settle (lane : LaneId) (now : Time) (u : LotUnit) : LotOut :=
  if (u.draining.map (·.allRemoved)).getD false then u.finish lane now else ⟨u, []⟩

/-- Accrue a removal into the lot the report names: the draining lot or the filling lot (R137). -/
def LotUnit.accrueRemoval (lot : LotId) (r : RemovalReport) (u : LotUnit) : LotUnit :=
  match u.draining with
  | some d =>
    if d.id = lot then { u with draining := some (d.accrueRemoval r) }
    else if u.filling.id = lot then { u with filling := u.filling.accrueRemoval r } else u
  | none => if u.filling.id = lot then { u with filling := u.filling.accrueRemoval r } else u

/-- The report names the draining lot. -/
def LotUnit.drains (lot : LotId) (u : LotUnit) : Bool := (u.draining.map (·.id == lot)).getD false

/-- A removal report: accrued, then, for the draining lot, tested for completion (R137, R140). -/
def LotUnit.report (lane : LaneId) (now : Time) (lot : LotId) (r : RemovalReport) (u : LotUnit) : LotOut :=
  let accrued := u.accrueRemoval lot r
  if u.drains lot then accrued.settle lane now else ⟨accrued, []⟩

/-- The formed count is at or above a limit that is not 0. Counts are compared modulo 2^32, as positions
are (R135, R141): the forward distance from the limit to the count is below 2^31. -/
def LotRecord.reached (limit : Nat) (rec : LotRecord) : Bool :=
  limit != 0 && atOrBehind (BitVec.ofNat 32 limit) rec.formed

/-- A formation report: accrued, then tested against the lot limit (R136, R141). With a draining lot the
pending auto-close mark is set instead of the close. -/
def LotUnit.form (lane : LaneId) (now : Time) (limit : Nat) (serial : Serial) (u : LotUnit) : LotUnit :=
  let accrued := { u with filling := u.filling.accrueFormation serial }
  if accrued.filling.reached limit then
    if accrued.draining.isNone then accrued.autoClose lane now else { accrued with pendingClose := true }
  else accrued

/-- A detection dropped for a full queue adds to the filling lot's overflow count (R18, R136). -/
def LotUnit.overflow (u : LotUnit) : LotUnit :=
  { u with filling := { u.filling with overflow := u.filling.overflow + 1 } }

/-- One ms of running time of the filling lot: hold ms if the feed hold is asserted, else live ms
(R138). -/
def LotUnit.accrueTime (hold : Bool) (u : LotUnit) : LotUnit :=
  if hold then { u with filling := { u.filling with holdMs := u.filling.holdMs + 1 } }
  else { u with filling := { u.filling with liveMs := u.filling.liveMs + 1 } }

/-- The events of a lot unit as effects of its lane's step. -/
def Lane.withLots (ln : Lane) (o : LotOut) : LaneOut := ⟨{ ln with lots := o.unit }, o.events.map .event⟩

end Sys2Proof.Machine
end

