-- ==== Sys2Proof/Machine/Parcels.lean ====
section
/-! DEFINITION. The tracking queue of a lane (R1 to R24): serials, queue order, admission and removal
with its report. -/

namespace Sys2Proof.Machine

/-- The most parcels a tracking queue holds (R16). -/
def queueCapacity : Nat := 256

/-- The longest parcel, in tc (R1). -/
def maxLength : Nat := 4095

/-- Length of a parcel: trail_ref - lead_ref (R1). -/
def Parcel.length (p : Parcel) : Nat := (p.trail - p.lead).toNat

/-- The fraction of a parcel: absent while FORMING (R10). -/
def Parcel.fraction? (p : Parcel) : Option Fraction :=
  match p.phase with
  | .forming _ => none
  | .travelling f _ => some f
  | .scheduled aim => some aim.fraction
  | .firing aim _ => some aim.fraction

/-- The parcel is FORMING. -/
def Parcel.isForming (p : Parcel) : Bool :=
  match p.phase with
  | .forming _ => true
  | _ => false

/-- The station a SCHEDULED or FIRING parcel is to be fired at (R1). -/
def Parcel.station? (p : Parcel) : Option StationId :=
  match p.phase with
  | .scheduled aim => some aim.station
  | .firing aim _ => some aim.station
  | _ => none

/-- The fire position of a SCHEDULED or FIRING parcel (R1). -/
def Parcel.firePos? (p : Parcel) : Option Pos :=
  match p.phase with
  | .scheduled aim => some aim.firePos
  | .firing aim _ => some aim.firePos
  | _ => none

/-- The firing columns a parcel holds open at a station (R96). -/
def Parcel.openAt (st : StationId) (p : Parcel) : Columns :=
  match p.phase with
  | .firing aim shot => if aim.station = st then shot.columns else 0
  | _ => 0

/-- The parcel is FIRING at the station. -/
def Parcel.firesAt (st : StationId) (p : Parcel) : Bool :=
  match p.phase with
  | .firing aim _ => aim.station == st
  | _ => false

/-- The parcel is FIRING. -/
def Parcel.isFiring (p : Parcel) : Bool :=
  match p.phase with
  | .firing _ _ => true
  | _ => false

/-- Queue order: lead_ref ascending by forward distance, then serial ascending (R14). -/
def Parcel.precedes (a b : Parcel) : Bool :=
  if a.lead = b.lead then a.serial.toNat < b.serial.toNat else ahead a.lead b.lead

/-- Place a parcel in queue order (R14). -/
def insertParcel (p : Parcel) : List Parcel → List Parcel
  | [] => [p]
  | q :: qs => if p.precedes q then p :: q :: qs else q :: insertParcel p qs

/-- The parcel with the serial given, if the lane holds it. -/
def Lane.find (ln : Lane) (serial : Serial) : Option Parcel := ln.queue.find? (·.serial == serial)

/-- Change the parcel with the serial given, its place in the queue unchanged. -/
def Lane.revise (ln : Lane) (serial : Serial) (f : Parcel → Parcel) : Lane :=
  { ln with queue := ln.queue.map fun p => if p.serial = serial then f p else p }

/-- Change one station. -/
def Lane.modStation (ln : Lane) (st : StationId) (f : Station → Station) : Lane :=
  { ln with stations := ln.stations.set st (f ln.stations[st]) }

/-- Take a parcel out of a station's firing list (R93). -/
def Lane.unlist (ln : Lane) (st : StationId) (serial : Serial) : Lane :=
  ln.modStation st fun x => { x with list := x.list.filter (·.serial != serial) }

/-- Take a parcel out of the firing list it stands in, if any (R7, R11). -/
def Lane.leaveList (ln : Lane) (p : Parcel) : Lane :=
  match p.station? with
  | some st => ln.unlist st p.serial
  | none => ln

/-! ## Serials and admission -/

/-- The first serial from `start` on that no held parcel has, looked for `n` steps far (R3). -/
def freshSerial (held : List Serial) : Nat → Serial → Serial
  | 0, start => start
  | n + 1, start => if held.contains start then freshSerial held n (start + 1) else start

/-- The serial the next admission takes (R3). -/
def Lane.takenSerial (ln : Lane) : Serial :=
  freshSerial (ln.queue.map (·.serial)) ln.queue.length ln.nextSerial

/-- Admit a parcel under its serial: placed in queue order, the counter one past its serial (R3, R17,
R19). -/
def Lane.enqueue (ln : Lane) (p : Parcel) : Lane :=
  { ln with queue := insertParcel p ln.queue, nextSerial := p.serial + 1 }

/-! ## Removal (R11 to R13) -/

/-- The density factor of a parcel: its entry's as the table holds it now, 1 without an entry (R12). -/
def densityOf (table : Vector ClassEntry 64) : Option (Fin 64) → Nat
  | some i => table[i].density
  | none => 1

/-- The report of a removal (R12). -/
def Parcel.report (table : Vector ClassEntry 64) (p : Parcel) (outcome : Outcome) : RemovalReport where
  outcome := outcome
  fraction := p.fraction?
  length := p.length
  columns := p.lastColumn.val - p.firstColumn.val + 1
  density := densityOf table p.entry
  estimated := p.estimated

/-- The test tally counts the removal of a test parcel (R13, R130). -/
def Lane.tallyTest (ln : Lane) (outcome : Outcome) : Lane :=
  { ln with testTally := ln.testTally.set outcome.code (holdInc ln.testTally[outcome.code]) }

/-- A parcel leaves the queue and its firing list (R11). -/
def Lane.drop (ln : Lane) (p : Parcel) : Lane :=
  { ln.leaveList p with queue := ln.queue.filter (·.serial != p.serial) }

/-- A removal with its report, to the parcel's lot or to the test tally (R11, R12, R13). A serial that
is no longer held has no effect (R11). -/
def removeParcel (env : LaneEnv) (serial : Serial) (outcome : Outcome) (ln : Lane) : LaneOut :=
  match ln.find serial with
  | none => ln.quiet
  | some p =>
    if p.test then ((ln.drop p).tallyTest outcome).quiet
    else match p.lot with
    | none => (ln.drop p).quiet
    | some lot => (ln.drop p).withLots (ln.lots.report env.id env.now lot (p.report env.table outcome))

/-- Exit position of a parcel: trail_ref + exit distance (R7). -/
def Lane.exitPos (ln : Lane) (p : Parcel) : Pos := p.trail + BitVec.ofNat 32 ln.cfg.geometry.exitDistance

/-- A parcel becomes TRAVELLING with an outcome: it leaves any firing list, and it is removed in the
same step if its exit position is already at or behind Pmax (R7). -/
def travel (env : LaneEnv) (p : Parcel) (fraction : Fraction) (outcome : Outcome) (ln : Lane) : LaneOut :=
  let rides := (ln.leaveList p).revise p.serial fun q => { q with phase := .travelling fraction outcome }
  if atOrBehind (ln.exitPos p) ln.tb.pmax then removeParcel env p.serial outcome rides else rides.quiet

/-- The outcome with which a TRAVELLING parcel exits: its own, when its exit position is at or behind
Pmax (R21). -/
def Lane.exiting (ln : Lane) (p : Parcel) : Option Outcome :=
  match p.phase with
  | .travelling _ outcome => if atOrBehind (ln.exitPos p) ln.tb.pmax then some outcome else none
  | _ => none

/-- Exits at a new-ground advance: every TRAVELLING parcel whose exit position is at or behind Pmax is
removed with its own outcome, in queue order (R21). -/
def exits (env : LaneEnv) (ln : Lane) : LaneOut :=
  runEach (fun (x : Serial × Outcome) => removeParcel env x.1 x.2)
    (ln.queue.filterMap fun p => (ln.exiting p).map fun o => (p.serial, o)) ln

/-- A trace draft about a parcel (R87, R101). -/
def Parcel.draft (p : Parcel) (reason : TraceReason) (station : StationId) (detail : Option Nat) : Effect :=
  .trace ⟨reason, some p.serial, p.lot, p.test, some station, detail, some p.lead⟩

end Sys2Proof.Machine
end

