-- ==== Sys2Proof/Machine/Classify.lean ====
section
/-! DEFINITION. Classification (R75 to R87): the first-match scan, the tests in order, and what each
verdict does to the parcel. -/

namespace Sys2Proof.Machine

/-- The most parcels a firing list holds (R93). -/
def listCapacity : Nat := 64

/-- A contribution from the head meets the entry's range and floor for that head (R76). -/
def ClassEntry.accepts (e : ClassEntry) (c : Contribution) : Bool :=
  e.codeLow[c.head].toNat ≤ c.classCode.toNat && c.classCode.toNat ≤ e.codeHigh[c.head].toNat &&
  e.minIntensity[c.head].toNat ≤ c.intensity.toNat

/-- An entry matches a parcel: valid, and each head it requires has an accepted contribution (R76). -/
def ClassEntry.matches (e : ClassEntry) (cs : List Contribution) : Bool :=
  e.valid && (List.finRange 3).all fun h =>
    !e.requirement[h] || cs.any fun c => c.head == h && e.accepts c

/-- The first entry from index 0 up that matches (R76). -/
def scan (table : Vector ClassEntry 64) (cs : List Contribution) : Option (Fin 64) :=
  (List.finRange 64).find? fun i => table[i].matches cs

/-- The enabled station of the fraction, the first in belt order (R79). -/
def Lane.stationFor (ln : Lane) (f : Fraction) : Option StationId :=
  (List.finRange 3).find? fun st =>
    ln.cfg.geometry.stationEnable[st] && ln.cfg.geometry.stationFraction[st].fraction == f

/-- The columns from `lo` to `hi` (R82). -/
def columnRange (lo hi : Nat) : Columns := BitVec.ofNat 32 (2 ^ (hi + 1) - 2 ^ lo)

/-- The widened columns: the parcel's, widened by the spread and clipped to 0 to 31 (R82). -/
def Parcel.widened (p : Parcel) (spread : Nat) : Columns :=
  columnRange (p.firstColumn.val - spread) (min 31 (p.lastColumn.val + spread))

/-- Fire position: lead_ref + d - lead margin (R82). -/
def firePosition (p : Parcel) (d : Nat) (prof : Profile) : Pos :=
  p.lead + BitVec.ofNat 32 d - BitVec.ofNat 32 prof.leadMargin

/-- End position: trail_ref + d + lag margin (R82). -/
def endPosition (p : Parcel) (d : Nat) (prof : Profile) : Pos :=
  p.trail + BitVec.ofNat 32 d + BitVec.ofNat 32 prof.lagMargin

/-- What the tests of R78 decide. -/
inductive Verdict where
  | passed
  | redirected (st : StationId)
  | late (st : StationId)
  | listFull (st : StationId)
  | scheduled (aim : Aim) (widened : Columns) (maxOpen : Nat)
  deriving DecidableEq, Repr

/-- The tests of R78 in order, for a parcel with the fraction, the station test 1 has found (absent when
test 1 applies) and the profile of its firing. -/
def Lane.judge (env : LaneEnv) (ln : Lane) (p : Parcel) (fraction : Fraction) (st? : Option StationId)
    (prof : Profile) : Verdict :=
  match st? with
  | none => .passed
  | some st =>
    let chute := ln.cfg.geometry.stationFraction[st].code
    let d := ln.cfg.geometry.stationDistance[st]
    if env.chuteFull[chute] && ln.cfg.policies[chute] == .redirect then .redirected st
    else if atOrBehind (firePosition p d prof) ln.tb.pmax then .late st
    else if listCapacity ≤ ln.stations[st].list.length then .listFull st
    else .scheduled ⟨fraction, st, firePosition p d prof, endPosition p d prof⟩
      (p.widened prof.spread) prof.maxOpen

/-- The fire position of the parcel a list entry refers to. -/
def Lane.entryFire (ln : Lane) (e : ListEntry) : Pos := ((ln.find e.serial).bind (·.firePos?)).getD 0

/-- List order: fire position ascending by forward distance, then serial ascending (R93). -/
def listPrecedes (fire : Pos) (serial : Serial) (otherFire : Pos) (other : Serial) : Bool :=
  if fire = otherFire then serial.toNat < other.toNat else ahead fire otherFire

/-- Enter a parcel into a firing list at the place its fire position gives it (R85, R93). -/
def insertEntry (fireOf : ListEntry → Pos) (fire : Pos) (e : ListEntry) : List ListEntry → List ListEntry
  | [] => [e]
  | x :: xs =>
    if listPrecedes fire e.serial (fireOf x) x.serial then e :: x :: xs
    else x :: insertEntry fireOf fire e xs

/-- What a verdict does to the parcel `p` of the queue, whose fraction and entry are now settled
(R80 to R87). -/
def settleVerdict (env : LaneEnv) (p : Parcel) (fraction : Fraction) (v : Verdict) (ln : Lane) : LaneOut :=
  let sent (reason : TraceReason) (st : StationId) (outcome : Outcome) : LaneOut :=
    (⟨ln, [p.draft reason st none]⟩ : LaneOut).andThen (travel env p fraction outcome)
  match v with
  | .passed => travel env p fraction .passed ln
  | .redirected st => sent .redirected st .redirected
  | .late st => sent .late st .late
  | .listFull st => sent .deniedListFull st .denied
  | .scheduled aim widened maxOpen =>
    let entry : ListEntry := ⟨p.serial, widened, maxOpen⟩
    ((ln.revise p.serial fun q => { q with phase := .scheduled aim }).modStation aim.station fun x =>
      { x with list := insertEntry ln.entryFire aim.firePos entry x.list }).quiet

/-- The profile a matched entry names; without an entry none is read, since test 1 applies (R77). -/
def profileOf (env : LaneEnv) : Option (Fin 64) → Profile
  | some i => env.profiles[env.table[i].profile]
  | none => .factory

/-- The fraction the scan gives: the matched entry's, RESIDUE without one (R77). -/
def fractionOf (env : LaneEnv) : Option (Fin 64) → Fraction
  | some i => env.table[i].fraction
  | none => .residue

/-- Classification of the FORMING parcel with the serial given (R66, R75 to R87). -/
def classify (env : LaneEnv) (serial : Serial) (ln : Lane) : LaneOut :=
  match ln.find serial with
  | none => ln.quiet
  | some p =>
    let entry := scan env.table p.contributions
    let fraction := fractionOf env entry
    settleVerdict env p fraction (ln.judge env p fraction (ln.stationFor fraction) (profileOf env entry))
      (ln.revise serial fun q => { q with entry := entry })

/-- Classification of a test parcel in the step of its admission, without a scan: the fraction of the
target station, profile 0, the target station if it is enabled (R86). -/
def classifyTest (env : LaneEnv) (p : Parcel) (target : StationId) (ln : Lane) : LaneOut :=
  let fraction := ln.cfg.geometry.stationFraction[target].fraction
  let st? := if ln.cfg.geometry.stationEnable[target] then some target else none
  settleVerdict env p fraction (ln.judge env p fraction st? env.profiles[0]) ln

end Sys2Proof.Machine
end

