-- ==== Sys2Proof/Machine/Stations.lean ====
section
/-! DEFINITION. The station controllers (R93 to R112): firing starts and ends, cuts, column rest, the
open-column set and the valve bar ports. -/

namespace Sys2Proof.Machine

/-- The most line times a start history keeps (R94). -/
def historyCapacity : Nat := 15

/-- The open-column set of a station: the union of the firing columns of its FIRING parcels (R96). -/
def Lane.openSet (ln : Lane) (st : StationId) : Columns :=
  ln.queue.foldl (fun acc p => acc ||| p.openAt st) 0

/-- The columns whose rest-until time is present and lies after the moment (R95), open or not. R95 names
no comparison on the wrapping line time: the model takes the forward distance, as for positions, so a
time lies after the moment if it is 1 to 2^31 - 1 ms ahead of it (log 20). -/
def restSet (restUntil : Vector (Option Time) 32) (now : Time) : Columns :=
  restUntil.toList.zipIdx.foldl (fun acc x =>
    if (x.1.map fun r => ahead now r).getD false then acc ||| BitVec.ofNat 32 (2 ^ x.2) else acc) 0

/-- The resting columns of a station: an open column is not resting (R95). -/
def Lane.resting (ln : Lane) (st : StationId) (now : Time) : Columns :=
  restSet ln.stations[st].restUntil now &&& ~~~ ln.openSet st

/-- Set the rest-until time of every column of a set (R95, R105). -/
def restColumns (closed : Columns) (until_ : Time) (v : Vector (Option Time) 32) :
    Vector (Option Time) 32 :=
  Vector.ofFn fun i : Fin 32 => if closed.getLsbD i.val then some until_ else v[i]

/-- After removals of one step: the columns that left a station's open-column set close, and rest from
now for the column rest in force (R105). -/
def closeColumns (env : LaneEnv) (before : Lane) (after : Lane) : Lane :=
  let closed (st : StationId) : Columns := before.openSet st &&& ~~~ after.openSet st
  { after with stations := Vector.ofFn fun st : Fin 3 =>
      { after.stations[st] with
        restUntil := restColumns (closed st)
          (env.now + BitVec.ofNat 32 after.cfg.stations[st].columnRest) after.stations[st].restUntil } }

/-- Run removals whose freed columns close together at the end (R105). -/
def withClosing (env : LaneEnv) (f : Lane → LaneOut) (ln : Lane) : LaneOut :=
  ⟨closeColumns env ln (f ln).lane, (f ln).effects⟩

/-! ## Firing start (R97 to R102) -/

/-- Number of starts in the history less than the window before the moment (R99). -/
def startsWithin (history : List Time) (window : Nat) (now : Time) : Nat :=
  (history.filter fun t => elapsed now t < window).length

/-- An ejection rule is broken at the moment (R99). -/
def EjectionRule.broken (r : EjectionRule) (history : List Time) (now : Time) : Bool :=
  r.window != 0 && r.count ≤ startsWithin history r.window now

/-- The lowest-numbered broken rule, 1 to 4 (R99). -/
def brokenRule (cfg : StationConfig) (history : List Time) (now : Time) : Option Nat :=
  ((List.finRange 4).find? fun k => cfg.rules[k].broken history now).map (·.val + 1)

/-- A start enters the history, the oldest leaving a full one (R94). -/
def appendHistory (history : List Time) (now : Time) : List Time :=
  (history ++ [now]).drop (history.length + 1 - historyCapacity)

/-- What the checks of a firing start decide (R98 to R100). -/
inductive StartCheck where
  | denied (reason : TraceReason) (detail : Option Nat)
  | fires (columns : Columns) (isPartial : Bool)
  deriving DecidableEq, Repr

/-- The three checks of a firing start in their order: air, ejection rules, column rest (R98 to R100). -/
def Lane.checkStart (env : LaneEnv) (ln : Lane) (st : StationId) (widened : Columns) : StartCheck :=
  if !env.airOk then .denied .deniedAir none
  else match brokenRule ln.cfg.stations[st] ln.stations[st].history env.now with
    | some k => .denied .deniedRule (some k)
    | none =>
      let columns := widened &&& ~~~ ln.resting st env.now
      if columns = 0 then .denied .deniedRest none else .fires columns (columns != widened)

/-- The firing start of a SCHEDULED parcel of a station (R97 to R102). -/
def fireStart (env : LaneEnv) (st : StationId) (e : ListEntry) (ln : Lane) : LaneOut :=
  match ln.find e.serial with
  | none => ln.quiet
  | some p =>
    match p.phase with
    | .scheduled aim =>
      match ln.checkStart env st e.widened with
      | .denied reason detail =>
        (⟨ln, [p.draft reason st detail]⟩ : LaneOut).andThen (travel env p aim.fraction .denied)
      | .fires columns isPartial =>
        ⟨(ln.revise p.serial fun q =>
            { q with phase := .firing aim ⟨columns, env.now, isPartial⟩
                     estimated := ln.tb.source == .nominal }).modStation st fun x =>
            { x with history := appendHistory x.history env.now },
          if isPartial then [p.draft .partialRest st none] else []⟩
    | _ => ln.quiet

/-- A list entry whose parcel is SCHEDULED with its fire position at or behind Pmax (R97). -/
def Lane.startDue (ln : Lane) (e : ListEntry) : Bool :=
  match ln.find e.serial with
  | none => false
  | some p => match p.phase with
    | .scheduled aim => atOrBehind aim.firePos ln.tb.pmax
    | _ => false

/-- A list entry whose parcel is FIRING with its end position at or behind Pmax, and the outcome its
end gives (R97, R103). -/
def Lane.endDue (ln : Lane) (e : ListEntry) : Option Outcome :=
  match ln.find e.serial with
  | none => none
  | some p => match p.phase with
    | .firing aim shot =>
      if atOrBehind aim.endPos ln.tb.pmax then some (if shot.isPartial then .isPartial else .ejected)
      else none
    | _ => none

/-- The starts of an advance, in list order (R97). -/
def stationStarts (env : LaneEnv) (st : StationId) (ln : Lane) : LaneOut :=
  runEach (fireStart env st) (ln.stations[st].list.filter ln.startDue) ln

/-- The ends of an advance, in list order (R97, R103). -/
def stationEnds (env : LaneEnv) (st : StationId) (ln : Lane) : LaneOut :=
  withClosing env (runEach (fun (x : Serial × Outcome) => removeParcel env x.1 x.2)
    (ln.stations[st].list.filterMap fun e => (ln.endDue e).map fun o => (e.serial, o))) ln

/-- A station controller's work at an advance: the starts, then the ends (R97). -/
def stationAdvance (env : LaneEnv) (st : StationId) (ln : Lane) : LaneOut :=
  (stationStarts env st ln).andThen (stationEnds env st)

/-! ## Cuts and the max open time (R104 to R109) -/

/-- One FIRING parcel is removed with its trace entry made first. -/
def endFiring (env : LaneEnv) (reason : TraceReason) (outcome : Outcome) (p : Parcel) (ln : Lane) :
    LaneOut :=
  match p.phase with
  | .firing aim _ =>
    (⟨ln, [p.draft reason aim.station none]⟩ : LaneOut).andThen (removeParcel env p.serial outcome)
  | _ => ln.quiet

/-- Every FIRING parcel of the lane is cut, in queue order, with the reason given (R106, R108). -/
def cutLane (env : LaneEnv) (reason : TraceReason) (ln : Lane) : LaneOut :=
  withClosing env (runEach (endFiring env reason .cut) (ln.queue.filter (·.isFiring))) ln

/-- The max open time a station's list holds for a parcel (R85, R104). -/
def Lane.maxOpenOf (ln : Lane) (st : StationId) (serial : Serial) : Option Nat :=
  (ln.stations[st].list.find? (·.serial == serial)).map (·.maxOpen)

/-- The firing of the parcel has lasted its max open time (R104). -/
def Lane.maxOpenDue (ln : Lane) (now : Time) (p : Parcel) : Bool :=
  match p.phase with
  | .firing aim shot =>
    ((ln.maxOpenOf aim.station p.serial).map fun m => decide (m ≤ elapsed now shot.openTime)).getD false
  | _ => false

/-- The end of a firing by its max open time: PARTIAL, with a CUT_MAXOPEN entry (R104). -/
def endByMaxOpen (env : LaneEnv) (p : Parcel) (ln : Lane) : LaneOut :=
  withClosing env (endFiring env .cutMaxopen .isPartial p) ln

/-- What DISABLE_STATION does to one parcel of the station (R109). -/
def stationOff (env : LaneEnv) (st : StationId) (p : Parcel) (ln : Lane) : LaneOut :=
  match p.phase with
  | .firing _ _ => endFiring env .cutStationOff .cut p ln
  | .scheduled aim =>
    (⟨ln, [p.draft .deniedStationOff st none]⟩ : LaneOut).andThen (travel env p aim.fraction .denied)
  | _ => ln.quiet

/-- DISABLE_STATION of an enabled station: the enable off, then every parcel of its list cut or denied,
in queue order (R109). -/
def disableStation (env : LaneEnv) (st : StationId) (ln : Lane) : LaneOut :=
  let off : Lane := { ln with cfg := { ln.cfg with geometry :=
    { ln.cfg.geometry with stationEnable := ln.cfg.geometry.stationEnable.set st false } } }
  withClosing env (runEach (stationOff env st) (off.queue.filter fun p => p.station? == some st)) off

/-! ## Valve bar ports (R111, R112) -/

/-- Start a frame carrying the set (R111, R112). -/
def Port.send (lane : LaneId) (st : StationId) (columns : Columns) (p : Port) : Port where
  lastSent := columns
  sequence := p.sequence + 1
  sending := some (valveFrame lane st (p.sequence + 1) columns)
  waiting := p.waiting

/-- The port after a step that changed the station's open-column set to the one given (R112). -/
def Port.offer (lane : LaneId) (st : StationId) (columns : Columns) (p : Port) : Port :=
  if columns = p.lastSent then p
  else if p.sending.isSome then { p with waiting := true }
  else p.send lane st columns

/-- The port when its frame finishes: the waiting mark is cleared and the current set compared again
(R112). -/
def Port.finish (lane : LaneId) (st : StationId) (columns : Columns) (p : Port) : Port :=
  let idle : Port := { p with sending := none, waiting := false }
  if p.waiting && columns != p.lastSent then idle.send lane st columns else idle

/-- At the end of a step: each port of the lane whose open-column set the step changed is offered the
set as the step leaves it (R112). -/
def syncPorts (lane : LaneId) (before after : Lane) : Lane :=
  { after with stations := Vector.ofFn fun st : Fin 3 =>
      { after.stations[st] with
        port := if before.openSet st = after.openSet st then after.stations[st].port
          else after.stations[st].port.offer lane st (after.openSet st) } }

end Sys2Proof.Machine
end

