-- ==== Sys2Proof/Machine/LaneControl.lean ====
section
/-! DEFINITION. The lane controller (R115 to R129): coming to rest, the flush, halts, drains, the start
checks and the injection generator; and the frame of every step of a lane. -/

namespace Sys2Proof.Machine

/-! ## Coming to rest and the monitor -/

/-- A pending scale comes into force, with the residue that the boundary leaves (R28). -/
def Lane.takeScale (residueOf : Nat → Nat) (ln : Lane) : Lane :=
  match ln.tb.pendingScale with
  | none => ln
  | some k =>
    { ln with cfg := { ln.cfg with scale := k }
              tb := { ln.tb with pendingScale := none, residue := residueOf k } }

/-- On entering STOPPED or HALTED: Pmax is set to P and a pending scale comes into force with a residue
of 0 (R28, R31). -/
def Lane.rest (ln : Lane) : Lane :=
  Lane.takeScale (fun _ => 0) { ln with tb := { ln.tb with pmax := ln.tb.p } }

/-- A pending switch is removed (R41). -/
def Lane.dropSwitch (ln : Lane) : Lane := { ln with tb := { ln.tb with pendingSwitch := none } }

/-- The three conditions under which the encoder monitor is armed hold together (R34). -/
def Lane.watched (env : LaneEnv) (ln : Lane) : Bool :=
  ln.active && ln.tb.source == .encoder && env.driveRun

/-- The encoder monitor arms when the last of its conditions comes to hold and disarms when one ceases
(R34). -/
def Lane.syncMonitor (env : LaneEnv) (ln : Lane) : Lane :=
  { ln with tb := { ln.tb with
      monitor := if ln.watched env then some (ln.tb.monitor.getD env.now) else none } }

/-! ## Flush and halt (R22, R121, R122) -/

/-- One parcel of a flush: removed and reported as LOST (R22). -/
def loseParcel (env : LaneEnv) (ln : Lane) (serial : Serial) : Lane :=
  match ln.find serial with
  | none => ln
  | some p =>
    if p.test then (ln.drop p).tallyTest .lost
    else match p.lot with
    | none => ln.drop p
    | some lot => { ln.drop p with lots := ln.lots.accrueRemoval lot (p.report env.table .lost) }

/-- Every parcel of the lane is removed as LOST in queue order, and the columns freed close together
(R22, R105, R110). -/
def loseAll (env : LaneEnv) (ln : Lane) : Lane :=
  closeColumns env ln ((ln.queue.map (·.serial)).foldl (loseParcel env) ln)

/-- The LOST entry of a flush: the filling lot after it, and the number of parcels removed (R122). -/
def lostDraft (filling : LotId) (count : Nat) : TraceDraft :=
  ⟨.lost, none, some filling, false, none, some count, none⟩

/-- The lane flush (R22, R122, R147): the LOST reports, the lot completions, the LOST trace entry. -/
def flush (env : LaneEnv) (ln : Lane) : LaneOut :=
  let lost := loseAll env { ln with injection := none }
  (lost.withLots (lost.lots.settle env.id env.now)).andThen fun x =>
    ⟨x.dropSwitch.rest, [.trace (lostDraft x.lots.filling.id ln.queue.length)]⟩

/-- The LANE_STATE cause of a halt (R121). -/
def HaltCause.stateCause : HaltCause → StateCause
  | .reverseLimit => .reverseLimit
  | .plantStop | .none => .plantStop

/-- A halt of a RUNNING or DRAINING lane; another lane is not changed (R121). -/
def halt (cause : HaltCause) (env : LaneEnv) (ln : Lane) : LaneOut :=
  if ln.active then
    (flush env { ln with state := .halted, haltCause := cause }).andThen fun x =>
      ⟨x, [.event (.laneState env.id .halted cause.stateCause)]⟩
  else ln.quiet

/-! ## The frame of a lane's step -/

/-- A drain completes (R120). -/
def completeDrain (env : LaneEnv) (ln : Lane) : LaneOut :=
  ⟨Lane.rest { ln with state := .stopped }, [.event (.laneState env.id .stopped .drained)]⟩

/-- An act of a block on a DRAINING lane has emptied its queue: the drain completes (R120). -/
def drainIfEmpty (env : LaneEnv) (before after : Lane) : LaneOut :=
  if after.state = .draining ∧ before.queue ≠ [] ∧ after.queue = [] then completeDrain env after
  else after.quiet

/-- A whole step of a lane around what its blocks do: a drain that the step has emptied completes (between
the blocks that act on one step of P it has completed already, see Work.act and log 13), the encoder
monitor follows its conditions, each valve bar port is offered the set the step leaves, and the trace
entries of the step stand in queue order (R34, R112, R120, R167). -/
def laneStep (f : LaneEnv → Lane → LaneOut) (env : LaneEnv) (ln : Lane) : LaneOut :=
  let o := (f env ln).andThen (drainIfEmpty env ln)
  ⟨syncPorts env.id ln (o.lane.syncMonitor env), inQueueOrder o.effects⟩

/-! ## Start checks (R116, R117) -/

/-- The enabled stations in belt order. -/
def Geometry.enabled (g : Geometry) : List StationId := (List.finRange 3).filter fun st => g.stationEnable[st]

/-- The greatest head offset among the enabled heads (R57, R117). -/
def Geometry.reach (g : Geometry) : Nat :=
  ((List.finRange 3).filter fun h => g.headEnable[h]).foldl (fun m h => max m g.headOffset[h]) 0

/-- At least one head is enabled (R116). -/
def Geometry.hasHead (g : Geometry) : Bool := (List.finRange 3).any fun h => g.headEnable[h]

/-- The pairs of enabled stations that R117 compares: neighbours in belt order. -/
def Geometry.neighbours (g : Geometry) : List (StationId × StationId) := g.enabled.zip (g.enabled.drop 1)

/-- The pairs of enabled stations in belt order. -/
def Geometry.pairs (g : Geometry) : List (StationId × StationId) :=
  ([(0, 1), (0, 2), (1, 2)] : List (StationId × StationId)).filter fun x =>
    g.stationEnable[x.1] && g.stationEnable[x.2]

/-- The least exit distance that check 3 lets pass (R117). -/
def Geometry.leastExit (g : Geometry) : Nat :=
  match g.enabled.getLast? with
  | some st => g.stationDistance[st] + 256
  | none => g.reach + g.window + 256

/-- The first geometry check that fails, with the station it names (R117). -/
def Geometry.failedCheck (g : Geometry) : Option (Nat × Option StationId) :=
  match g.neighbours.find? fun x => g.stationDistance[x.2] ≤ g.stationDistance[x.1] with
  | some x => some (1, some x.2)
  | none => match g.enabled.find? fun st => g.stationDistance[st] < g.reach + g.window + 1 with
    | some st => some (2, some st)
    | none =>
      if g.exitDistance < g.leastExit then some (3, none)
      else match g.pairs.find? fun x => g.stationFraction[x.1] == g.stationFraction[x.2] with
        | some x => some (4, some x.2)
        | none => none

/-! ## Starting and stopping (R45, R118 to R124) -/

/-- A pending switch to ENCODER whose first settle period begins at the line time given (R38, R45). -/
def Settle.begin (now : Time) : Settle := ⟨now, 0, 0, false, false, 0⟩

/-- The pending switch that a start creates (R45). -/
def startSwitch (setup : TimebaseSetup) (now : Time) : Option PendingSwitch :=
  if setup.source = .encoder ∧ setup.twoStage then some (.toEncoder (.begin now)) else none

/-- The active source that a start sets (R45). -/
def startSource (setup : TimebaseSetup) : Source := if setup.twoStage then .nominal else setup.source

/-- START_LANE of a lane that passes the checks (R45, R118). -/
def startRun (env : LaneEnv) (ln : Lane) : LaneOut :=
  ⟨{ ln with
      state := .running
      injection := none
      tb := { ln.tb with
        encoderLost := false
        source := startSource ln.cfg.setup
        pendingSwitch := startSwitch ln.cfg.setup env.now } },
    [.event (.laneState env.id .running .start)]⟩

/-- STOP_LANE of a RUNNING lane; an empty queue completes the drain in the same step (R119, R120). -/
def beginDrain (env : LaneEnv) (ln : Lane) : LaneOut :=
  (⟨Lane.dropSwitch { ln with state := .draining, injection := none },
    [.event (.laneState env.id .draining .stop)]⟩ : LaneOut).andThen fun x =>
      if x.queue = [] then completeDrain env x else x.quiet

/-- CLEAR_HALT of a HALTED lane (R123). -/
def clearHalt (env : LaneEnv) (ln : Lane) : LaneOut :=
  ⟨{ ln with state := .stopped }, [.event (.laneState env.id .stopped .clear)]⟩

/-- RESET_LANE (R47, R124, R147): the flush of a RUNNING or DRAINING lane, STOPPED, the timebase's lane
reset values, the injection idle, a draining lot completed at once. -/
def resetLane (env : LaneEnv) (ln : Lane) : LaneOut :=
  let flushed := if ln.active then flush env ln else ln.quiet
  (flushed.andThen fun x => x.withLots (x.lots.finish env.id env.now)).andThen fun x =>
    ⟨Lane.rest { x.dropSwitch with
        state := .stopped
        injection := none
        tb := { x.dropSwitch.tb with source := x.cfg.setup.source, encoderLost := false } },
      if ln.state = .stopped then [] else [.event (.laneState env.id .stopped .reset)]⟩

/-! ## Injection (R2, R19, R86, R127 to R129) -/

/-- The test parcel that the generator asks for, before its classification (R2, R128). -/
def testParcel (ln : Lane) (inj : Injection) : Parcel where
  serial := ln.takenSerial
  lot := none
  test := true
  lead := ln.tb.pmax
  trail := ln.tb.pmax + BitVec.ofNat 32 inj.length
  firstColumn := inj.firstColumn
  lastColumn := inj.lastColumn
  contributions := []
  entry := none
  estimated := false
  phase := .travelling ln.cfg.geometry.stationFraction[inj.station].fraction .passed

/-- A test parcel is admitted and classified in the same step, or skipped for a full queue (R19). -/
def createTest (env : LaneEnv) (inj : Injection) (ln : Lane) : LaneOut :=
  if ln.queue.length < queueCapacity then
    classifyTest env (testParcel ln inj) inj.station (ln.enqueue (testParcel ln inj))
  else Lane.quiet { ln with skipped := holdInc ln.skipped }

/-- The record after a creation or a skip; none when the remaining count reaches 0 (R128, R129). -/
def Injection.next (inj : Injection) : Option Injection :=
  if inj.remaining = some 1 then none
  else some { inj with nextPos := inj.nextPos + BitVec.ofNat 32 inj.spacing
                       remaining := inj.remaining.map (· - 1) }

/-- The injection whose next position the new Pmax has reached, on a RUNNING lane (R128). -/
def Lane.injectionDue (ln : Lane) : Option Injection :=
  if ln.state = .running then ln.injection.filter fun inj => atOrBehind inj.nextPos ln.tb.pmax else none

/-- The injection generator's work at an advance (R128). -/
def injectAdvance (env : LaneEnv) (ln : Lane) : LaneOut :=
  match ln.injectionDue with
  | none => ln.quiet
  | some inj => createTest env inj { ln with injection := inj.next }

end Sys2Proof.Machine
end

