-- ==== Sys2Proof/Machine/Timebase.lean ====
section
/-! DEFINITION. The timebase unit of a lane (R25 to R45): the divider, steps of P and the works they set
going, the two sources, source switching and the encoder monitor. -/

namespace Sys2Proof.Machine

/-! ## Source switching (R37 to R41) -/

/-- Change the settle record of a pending switch to ENCODER whose period is still judged (R40). -/
def Lane.judged (f : Settle → Settle) (ln : Lane) : Lane :=
  match ln.tb.pendingSwitch with
  | some (.toEncoder st) =>
    if st.agreed then ln else { ln with tb := { ln.tb with pendingSwitch := some (.toEncoder (f st)) } }
  | some .toNominal => ln
  | none => ln

/-- The switch that completes at a step of P by the active source (R39, R40). -/
def Lane.completing (ln : Lane) : Option Source :=
  match ln.tb.pendingSwitch, ln.tb.source with
  | some .toNominal, .encoder => some .nominal
  | some (.toEncoder st), .nominal => if st.agreed then some .encoder else none
  | _, _ => none

/-- A pending switch completes: the source, the flag and SOURCE_SWITCHED (R39, R40). -/
def completeSwitch (env : LaneEnv) (ln : Lane) : LaneOut :=
  match ln.completing with
  | none => ln.quiet
  | some source =>
    ⟨{ ln with tb := { ln.tb with
        source := source
        pendingSwitch := none
        encoderLost := if source = .encoder then false else ln.tb.encoderLost } },
      [.event (.sourceSwitched env.id source)]⟩

/-! ## Steps of P (R31 to R33) -/

/-- What a step of P may set going. Where several have work, which acts first is free (log 3). -/
inductive Work where
  | forming
  | station (st : StationId)
  | exitLine
  | inject
  | switchDone
  | cut
  | limitHalt
  deriving DecidableEq, Repr

/-- A FORMING parcel whose close position is at or behind Pmax (R65). -/
def Lane.closeDue (ln : Lane) (p : Parcel) : Bool :=
  match p.phase with
  | .forming closePos => atOrBehind closePos ln.tb.pmax
  | _ => false

/-- The forming unit's work at an advance: closes in queue order, each classified in turn (R65). -/
def formingAdvance (env : LaneEnv) (ln : Lane) : LaneOut :=
  runEach (classify env) ((ln.queue.filter ln.closeDue).map (·.serial)) ln

/-- One work. -/
def Work.run (env : LaneEnv) : Work → Lane → LaneOut
  | .forming, ln => formingAdvance env ln
  | .station st, ln => stationAdvance env st ln
  | .exitLine, ln => exits env ln
  | .inject, ln => injectAdvance env ln
  | .switchDone, ln => completeSwitch env ln
  | .cut, ln => cutLane env .cutReverse ln
  | .limitHalt, ln => halt .reverseLimit env ln

/-- The works an advance of new ground has for the lane's blocks (R31). -/
def Lane.advanceWorks (ln : Lane) : List Work :=
  (if ln.queue.any ln.closeDue then [.forming] else []) ++
  ((List.finRange 3).filter fun st =>
    ln.stations[st].list.any fun e => ln.startDue e || (ln.endDue e).isSome).map .station ++
  (if ln.queue.any fun p => (ln.exiting p).isSome then [.exitLine] else []) ++
  (if ln.injectionDue.isSome then [.inject] else [])

/-- The work of a switch that completes at this step (R39, R40). -/
def Lane.switchWorks (ln : Lane) : List Work := if ln.completing.isSome then [.switchDone] else []

/-- One work, and the drain that its removals complete: a removal that empties the queue of a DRAINING
lane completes the drain before another block acts on the step (R120). So a reverse limit that a
DRAINING lane passes halts the lane if the halt is taken first (R33), and finds it STOPPED if a cut that is
still to be taken goes first and removes the last parcel (R120; log 13). -/
def Work.act (env : LaneEnv) (w : Work) (ln : Lane) : LaneOut :=
  (w.run env ln).andThen (drainIfEmpty env ln)

/-- Do the works of a step in the order the free picks give (log 3). -/
def runWorks (env : LaneEnv) (ws : List Work) (ln : Lane) : LaneOut :=
  runEach (Work.act env) (arrange (Config.pick env.seed) ws.length ws) ln

/-- P steps up by one; above Pmax, or on a lane at rest, it is new ground (R31, R32). -/
def stepForward (env : LaneEnv) (ln : Lane) : LaneOut :=
  let p := ln.tb.p + 1
  if !ln.active || ahead ln.tb.pmax p then
    let ln := { ln with tb := { ln.tb with p := p, pmax := p } }
    runWorks env (ln.switchWorks ++ ln.advanceWorks) ln
  else
    let ln := { ln with tb := { ln.tb with p := p } }
    runWorks env ln.switchWorks ln

/-- P lies further below Pmax than the reverse limit allows (R33). -/
def Lane.limitPassed (ln : Lane) : Bool := decide (ln.cfg.geometry.reverseLimit < (ln.tb.pmax - ln.tb.p).toNat)

/-- The cut of a reversal, for a lane that has FIRING parcels (R32, R108). -/
def Lane.cutWorks (ln : Lane) : List Work := if ln.queue.any (·.isFiring) then [.cut] else []

/-- The works of a backward step on a lane that runs or drains, after P has moved: the cut of the FIRING
parcels, and past the limit the halt, which reach the same parcels in a free order (R32, R33, R108; log 3). -/
def Lane.backWorks (ln : Lane) : List Work :=
  ln.switchWorks ++ ln.cutWorks ++ (if ln.limitPassed then [.limitHalt] else [])

/-- P one lower, no block having acted on the step yet. -/
def Lane.lowered (ln : Lane) : Lane := { ln with tb := { ln.tb with p := ln.tb.p - 1 } }

/-- P steps down by one: a lane at rest lowers Pmax with it; another starts or continues a reversal
(R31 to R33). -/
def stepBackward (env : LaneEnv) (ln : Lane) : LaneOut :=
  if ln.active then runWorks env ln.lowered.backWorks ln.lowered
  else
    let ln := { ln with tb := { ln.tb with p := ln.tb.p - 1, pmax := ln.tb.p - 1 } }
    runWorks env ln.switchWorks ln

/-! ## The encoder source (R26 to R28, R34) -/

/-- What the decoder makes of two successive samples of (A, B) (R26). -/
inductive PhaseChange where
  | none
  | up
  | down
  | error
  deriving DecidableEq, Repr

/-- Decoding of a change of the phases: forward runs (0,0), (1,0), (1,1), (0,1) (R26). -/
def decodePhases (old new : Bool × Bool) : PhaseChange :=
  if old = new then .none
  else if old.1 ≠ new.1 ∧ old.2 ≠ new.2 then .error
  else if new = (!old.2, old.1) then .up
  else .down

/-- The divider's residue after a count, and the completion it makes: forward, backward or none
(R27). -/
def divide (scale residue : Nat) (up : Bool) : Nat × Option Bool :=
  if up then if scale ≤ residue + 1 then (0, some true) else (residue + 1, none)
  else if residue = 0 then (scale - 1, some false) else (residue - 1, none)

/-- A tc boundary: a pending scale comes into force, and a forward completion adds to the encoder advance
(R27, R28, R40). -/
def Lane.boundary (forward : Bool) (ln : Lane) : Lane :=
  let scaled := ln.takeScale fun k => if forward then 0 else k - 1
  if forward then scaled.judged fun st => { st with encoderAdvance := holdInc st.encoderAdvance } else scaled

/-- A decoder count resets the kept time of an armed monitor (R34). -/
def Lane.touchMonitor (now : Time) (ln : Lane) : Lane :=
  { ln with tb := { ln.tb with monitor := ln.tb.monitor.map fun _ => now } }

/-- The lane after a decoder count, up or down, before P moves, and the completion that the count makes: to
the monitor, to the switch controller and to the divider (R26 to R28, R34, R40). -/
def Lane.counted (up : Bool) (now : Time) (ln : Lane) : Lane × Option Bool :=
  let touched := ln.touchMonitor now
  let seen := if up then touched else touched.judged fun st => { st with backwardSeen := true }
  let (residue, completion) := divide seen.cfg.scale seen.tb.residue up
  let divided := { seen with tb := { seen.tb with residue := residue } }
  match completion with
  | none => (divided, none)
  | some forward => (divided.boundary forward, some forward)

/-- A decoder count, and the step of P that its completion makes if the source is ENCODER (R26, R27). -/
def decoderCount (up : Bool) (env : LaneEnv) (ln : Lane) : LaneOut :=
  let counted := ln.counted up env.now
  match counted.1.tb.source, counted.2 with
  | .encoder, some true => stepForward env counted.1
  | .encoder, some false => stepBackward env counted.1
  | _, _ => counted.1.quiet

/-- The lane with a new pair of phase levels. -/
def Lane.sampled (phases : Bool × Bool) (ln : Lane) : Lane := { ln with tb := { ln.tb with phases := phases } }

/-- A new sample of a lane's encoder phases (R26). -/
def phaseSample (a b : Bool) (env : LaneEnv) (ln : Lane) : LaneOut :=
  let sampled := ln.sampled (a, b)
  match decodePhases ln.tb.phases (a, b) with
  | .none => sampled.quiet
  | .up => decoderCount true env sampled
  | .down => decoderCount false env sampled
  | .error => Lane.quiet { sampled with tb := { sampled.tb with
      phaseErrors := holdInc sampled.tb.phaseErrors } }

/-! ## Backward steps that come faster than the cut (R33; log 19) -/

/-- The lane after a sample that counts down on an ENCODER source, P stepped where the count completes, and no
block having acted on the step yet. -/
def Lane.fallen (now : Time) (ln : Lane) (phases : Bool × Bool) : Lane :=
  let counted := (ln.sampled phases).counted false now
  if counted.2.isSome then counted.1.lowered else counted.1

/-- Every sample up to the one that carries P past the reverse limit counts down (R26, R33). -/
def Lane.fallsPast (now : Time) (ln : Lane) : List (Bool × Bool) → Bool
  | [] => false
  | x :: xs => decodePhases ln.tb.phases x == .down &&
      ((ln.fallen now x).limitPassed || (ln.fallen now x).fallsPast now xs)

/-- The samples carry P past the reverse limit by backward steps alone, on a lane that runs or drains with
FIRING parcels: taken together they outrun the cut of the reversal (R33). A switch to NOMINAL that waits
would end the backward steps at the first (R39). -/
def Lane.outrunBy (now : Time) (samples : List (Bool × Bool)) (ln : Lane) : Bool :=
  ln.active && ln.tb.source == .encoder && ln.completing.isNone && ln.queue.any (·.isFiring) &&
  !ln.limitPassed && ln.fallsPast now samples

/-- Samples taken together: P falls with each of the earlier ones, and at the last the cut, which the
backward steps have outrun, and the halt reach the same FIRING parcels (R33; log 19). -/
def phaseSamples (earlier : List (Bool × Bool)) (a b : Bool) (env : LaneEnv) (ln : Lane) : LaneOut :=
  phaseSample a b env (earlier.foldl (Lane.fallen env.now) ln)

/-! ## The nominal source (R29, R30) -/

/-- What the accumulator must reach for a nominal count (R29). -/
def fullAccumulator : Nat := 1000000

/-- The generator of a lane has a count due (R29). -/
def Lane.nominalDue (ln : Lane) : Bool := (ln.tb.accumulator.map fun a => decide (fullAccumulator ≤ a)).getD false

/-- A pending rate comes into force (R30). -/
def Lane.takeRate (ln : Lane) : Lane :=
  match ln.tb.pendingRate with
  | none => ln
  | some r => { ln with cfg := { ln.cfg with rate := r.rate }, tb := { ln.tb with pendingRate := none } }

/-- A nominal count: the accumulator loses 1,000,000, a pending rate comes into force, and on a NOMINAL
source P steps up and the current advance is counted (R29, R30, R40). -/
def nominalCount (env : LaneEnv) (ln : Lane) : LaneOut :=
  let counted := Lane.takeRate { ln with tb := { ln.tb with
    accumulator := ln.tb.accumulator.map (· - fullAccumulator) } }
  match counted.tb.source with
  | .nominal => stepForward env
      (counted.judged fun st => { st with currentAdvance := holdInc st.currentAdvance })
  | .encoder => counted.quiet

/-- A debounced edge of DRIVE_RUN: a rise starts the generator at 0 with a rate that was set while it
stood still, a fall stops it (R29, R30, R155). -/
def driveEdge (rise : Bool) (_env : LaneEnv) (ln : Lane) : LaneOut :=
  if rise then
    let rated := if (ln.tb.pendingRate.map (·.setWhileStopped)).getD false then ln.takeRate else ln
    Lane.quiet { rated with tb := { rated.tb with accumulator := some 0 } }
  else Lane.quiet { ln with tb := { ln.tb with accumulator := none } }

/-- One µs of the part's clock: a running generator gains its rate (R29). -/
def Lane.gain (ln : Lane) : Lane :=
  { ln with tb := { ln.tb with accumulator := ln.tb.accumulator.map (· + ln.cfg.rate) } }

/-! ## Settle periods and the monitor's expiry (R35, R40) -/

/-- The period agrees (R40). -/
def Settle.agrees (tolerance : Nat) (st : Settle) : Bool :=
  let e := st.encoderAdvance.toNat
  let n := st.currentAdvance.toNat
  1 ≤ n && !st.backwardSeen && (max e n - min e n) * 100 ≤ tolerance * n

/-- The settle period under judgement has run out (R40). -/
def Lane.settleDue (now : Time) (ln : Lane) : Bool :=
  match ln.tb.pendingSwitch with
  | some (.toEncoder st) => !st.agreed && ln.cfg.setup.settlePeriod ≤ elapsed now st.periodStart
  | _ => false

/-- The end of a settle period: agreed, or failed with a new period back to back (R40). -/
def Settle.judge (setup : TimebaseSetup) (st : Settle) : Settle :=
  if st.agrees setup.tolerance then { st with agreed := true }
  else ⟨st.periodStart + BitVec.ofNat 32 setup.settlePeriod, 0, 0, false, false, holdInc st.failedPeriods⟩

/-- The settle period ends (R40). -/
def settleEnd (_env : LaneEnv) (ln : Lane) : LaneOut := (ln.judged (·.judge ln.cfg.setup)).quiet

/-- The armed monitor's watch time has run out (R34). -/
def Lane.expiryDue (now : Time) (ln : Lane) : Bool :=
  (ln.tb.monitor.map fun t => decide (ln.cfg.setup.watchTime ≤ elapsed now t)).getD false

/-- The encoder monitor expires (R35). -/
def monitorExpires (env : LaneEnv) (ln : Lane) : LaneOut :=
  ⟨{ ln with tb := { ln.tb with
      source := .nominal, encoderLost := true, pendingSwitch := none, monitor := none } },
    [.event (.encoderLost env.id)]⟩

end Sys2Proof.Machine
end

