-- ==== Sys2Proof/Machine/Forming.lean ====
section
/-! DEFINITION. Reception of frames byte by byte (R49, R180), the head link receivers (R48 to R54) and
the forming unit (R55 to R68). -/

namespace Sys2Proof.Machine

/-! ## Frame assembly (R49, R180) -/

/-- What distinguishes the two links' frames: the start marker, the body lengths allowed, and the
longest gap between two bytes of a frame, in ms. -/
structure FrameFormat where
  marker : Byte
  allowed : Nat → Bool
  gap : Nat

/-- Sensor link frames (R49). -/
def sensorFormat : FrameFormat := ⟨sensorMarker, fun n => n == 2 || n == 10, 1⟩

/-- Plant link frames (R180). -/
def plantFormat : FrameFormat := ⟨plantMarker, fun n => 3 ≤ n && n ≤ 250, 2⟩

/-- What becomes of a frame at a byte. -/
inductive Fate where
  | underway
  | abandoned
  | complete (body : List Byte)
  deriving DecidableEq, Repr

/-- A frame is being assembled and its last byte came longer ago than the gap allowed (R49, R180). -/
def Assembler.gapDue (gap : Nat) (now : Time) (a : Assembler) : Bool :=
  (a.lastByte.map fun t => decide (gap < elapsed now t)).getD false

/-- A byte in HUNT: only the marker is taken (R49, R180). -/
def Assembler.hunt (fmt : FrameFormat) (now : Time) (b : LineByte) : Assembler :=
  if b.stopBit && b.data == fmt.marker then ⟨.length, [], some now⟩ else .hunting

/-- The body length that the buffer's first byte names. -/
def bodyLength (buffer : List Byte) : Nat := (buffer.headD 0).toNat

/-- The end of CHECK: the two CRC bytes against the CRC of the length byte and the body (R51, R180). -/
def checkFrame (buffer : List Byte) : Fate :=
  let covered := buffer.take (bodyLength buffer + 1)
  if buffer.drop (bodyLength buffer + 1) = crcBytes covered then .complete (covered.drop 1) else .abandoned

/-- A byte inside a frame (R49, R180). -/
def Assembler.collect (fmt : FrameFormat) (now : Time) (b : LineByte) (a : Assembler) : Assembler × Fate :=
  let buffer := a.buffer ++ [b.data]
  if !b.stopBit then (.hunting, .abandoned)
  else match a.phase with
  | .hunt => (.hunt fmt now b, .underway)
  | .length =>
    if fmt.allowed b.data.toNat then (⟨.body, buffer, some now⟩, .underway) else (.hunting, .abandoned)
  | .body =>
    (⟨if buffer.length = bodyLength buffer + 1 then .check else .body, buffer, some now⟩, .underway)
  | .check =>
    if buffer.length = bodyLength buffer + 3 then (.hunting, checkFrame buffer)
    else (⟨.check, buffer, some now⟩, .underway)

/-- A byte at an assembler. One that ends too long a gap abandons the frame and is taken in HUNT
(R49, R180). -/
def Assembler.take (fmt : FrameFormat) (now : Time) (b : LineByte) (a : Assembler) : Assembler × Fate :=
  if a.phase = .hunt then (.hunt fmt now b, .underway)
  else if a.gapDue fmt.gap now then (.hunt fmt now b, .abandoned)
  else a.collect fmt now b

/-! ## The receivers (R51 to R54) -/

/-- Change one receiver. -/
def Lane.modReceiver (ln : Lane) (h : HeadId) (f : Receiver → Receiver) : Lane :=
  { ln with receivers := ln.receivers.set h (f ln.receivers[h]) }

/-- A discard: counted and raised with its cause (R53). -/
def discardRecord (h : HeadId) (cause : LinkCause) (env : LaneEnv) (ln : Lane) : LaneOut :=
  ⟨ln.modReceiver h fun r => { r with errors := holdInc r.errors },
    [.event (.headLinkError env.id h cause)]⟩

/-- A good record is counted and its time kept (R54). -/
def Lane.countRecord (ln : Lane) (h : HeadId) (now : Time) : Lane :=
  ln.modReceiver h fun r => { r with records := r.records + 1, lastRecord := some now }

/-! ## The forming unit (R57 to R66) -/

/-- A detection with its belt coordinates (R57). -/
structure Detection where
  lead : Pos
  trail : Pos
  firstColumn : Fin 32
  lastColumn : Fin 32
  item : Contribution
  deriving DecidableEq, Repr

/-- The position at which a parcel with the trail_ref given closes: plus the greatest enabled head
offset plus the coincidence window (R57, R61). -/
def closePosition (g : Geometry) (trail : Pos) : Pos :=
  trail + BitVec.ofNat 32 g.reach + BitVec.ofNat 32 g.window

/-- The columns that two ranges share: their number (R58, R59). -/
def sharedColumns (a b c d : Fin 32) : Nat := min b.val d.val + 1 - max a.val c.val

/-- The number of columns a detection shares with a parcel (R59). -/
def Detection.shared (d : Detection) (p : Parcel) : Nat :=
  sharedColumns d.firstColumn d.lastColumn p.firstColumn p.lastColumn

/-- The detection matches the parcel (R58). -/
def Detection.matches (window : Nat) (d : Detection) (p : Parcel) : Bool :=
  p.isForming && gapBetween d.lead p.lead ≤ window && 0 < d.shared p &&
  !p.contributions.any (·.head == d.item.head)

/-- Of two matching parcels the one a detection takes: more shared columns, then the lower serial
(R59). -/
def Detection.prefers (d : Detection) (a b : Parcel) : Bool :=
  if d.shared a = d.shared b then a.serial.toNat < b.serial.toNat else d.shared b < d.shared a

/-- The parcel a detection takes among those of the queue (R58, R59). -/
def Detection.choose (window : Nat) (d : Detection) (queue : List Parcel) : Option Parcel :=
  (queue.filter (d.matches window)).foldl (fun best p =>
    match best with
    | none => some p
    | some q => if d.prefers p q then some p else some q) none

/-- The lower of two positions, by forward distance (R60). -/
def lower (a b : Pos) : Pos := if ahead a b then a else b

/-- The higher of two positions, by forward distance (R60). -/
def higher (a b : Pos) : Pos := if ahead a b then b else a

/-- The trail_ref of a fusion, kept within 4,095 tc of lead_ref (R60). -/
def cappedTrail (lead trail : Pos) : Pos :=
  if maxLength < (trail - lead).toNat then lead + BitVec.ofNat 32 maxLength else trail

/-- The parcel after a fusion (R60, R61). -/
def Detection.fuse (g : Geometry) (d : Detection) (p : Parcel) : Parcel :=
  let lead := lower d.lead p.lead
  let trail := cappedTrail lead (higher d.trail p.trail)
  { p with
    lead := lead
    trail := trail
    firstColumn := min d.firstColumn p.firstColumn
    lastColumn := max d.lastColumn p.lastColumn
    contributions := p.contributions ++ [d.item]
    phase := .forming (closePosition g trail) }

/-- Put the fused parcel in its place: it moves only if its lead_ref changed (R15). -/
def Lane.place (ln : Lane) (old new : Parcel) : Lane :=
  if new.lead = old.lead then ln.revise old.serial fun _ => new
  else { ln with queue := insertParcel new (ln.queue.filter (·.serial != old.serial)) }

/-- The parcel that a detection forms (R17, R62). -/
def Detection.parcel (d : Detection) (ln : Lane) : Parcel where
  serial := ln.takenSerial
  lot := some ln.lots.filling.id
  test := false
  lead := d.lead
  trail := d.trail
  firstColumn := d.firstColumn
  lastColumn := d.lastColumn
  contributions := [d.item]
  entry := none
  estimated := false
  phase := .forming (closePosition ln.cfg.geometry d.trail)

/-- Admission of a parcel that a detection forms, with the formation report (R17, R136). -/
def Lane.admitFormed (env : LaneEnv) (p : Parcel) (ln : Lane) : Lane :=
  { ln.enqueue p with lots := ln.lots.form env.id env.now ln.cfg.lotLimit p.serial }

/-- Every enabled head has contributed (R63). -/
def Parcel.reported (g : Geometry) (p : Parcel) : Bool :=
  (List.finRange 3).all fun h => !g.headEnable[h] || p.contributions.any (·.head == h)

/-- After an admission or a fusion: the parcel closes at once if every enabled head has contributed or
the detection close position is at or behind Pmax (R63, R64). -/
def closeIfComplete (env : LaneEnv) (d : Detection) (p : Parcel) (ln : Lane) : LaneOut :=
  if p.reported ln.cfg.geometry || atOrBehind (closePosition ln.cfg.geometry d.trail) ln.tb.pmax then
    classify env p.serial ln
  else ln.quiet

/-- A detection dropped because the queue is full (R18). -/
def dropDetection (ln : Lane) : LaneOut :=
  ⟨{ ln with lots := ln.lots.overflow },
    [.trace ⟨.queueFull, none, some ln.lots.filling.id, false, none, none, none⟩]⟩

/-- The forming unit takes a detection: fusion, admission or drop (R58 to R64). -/
def formDetection (env : LaneEnv) (d : Detection) (ln : Lane) : LaneOut :=
  match d.choose ln.cfg.geometry.window ln.queue with
  | some p =>
    let fused := d.fuse ln.cfg.geometry p
    closeIfComplete env d fused (ln.place p fused)
  | none =>
    if ln.queue.length < queueCapacity then
      closeIfComplete env d (d.parcel ln) (ln.admitFormed env (d.parcel ln))
    else dropDetection ln

/-- Belt coordinates of a record from head `h`, captured at the lane position P (R56, R57). -/
def locate (ln : Lane) (h : HeadId) (r : DetectionRecord) (first last : Fin 32) : Detection :=
  let lead := ln.tb.p - BitVec.ofNat 32 r.length.toNat - BitVec.ofNat 32 r.trailLag.toNat -
    BitVec.ofNat 32 ln.cfg.geometry.headOffset[h]
  ⟨lead, lead + BitVec.ofNat 32 r.length.toNat, first, last, ⟨h, r.classCode, r.intensity, r.length.toNat⟩⟩

/-- The lane state check of a good DETECTION (R55). -/
def takeDetection (env : LaneEnv) (d : Detection) (ln : Lane) : LaneOut :=
  if ln.state = .running then formDetection env d ln
  else Lane.quiet { ln with discarded := holdInc ln.discarded }

/-- A DETECTION through the record checks in their order (R52). -/
def checkDetection (h : HeadId) (r : DetectionRecord) (env : LaneEnv) (ln : Lane) : LaneOut :=
  if r.headNumber.toNat ≠ h.val then discardRecord h .head env ln
  else if hc : r.firstColumn.toNat < 32 ∧ r.lastColumn.toNat < 32 then
    if r.lastColumn.toNat < r.firstColumn.toNat then discardRecord h .field env ln
    else if r.length.toNat = 0 ∨ maxLength < r.length.toNat then discardRecord h .field env ln
    else if ln.cfg.geometry.headEnable[h] then
      takeDetection env (locate ln h r ⟨r.firstColumn.toNat, hc.1⟩ ⟨r.lastColumn.toNat, hc.2⟩)
        (ln.countRecord h env.now)
    else discardRecord h .disabled env ln
  else discardRecord h .field env ln

/-- A HEAD_IDLE through the one record check that applies to it (R52, R54). -/
def checkIdle (h : HeadId) (headNumber : Byte) (env : LaneEnv) (ln : Lane) : LaneOut :=
  if headNumber.toNat ≠ h.val then discardRecord h .head env ln
  else (ln.countRecord h env.now).quiet

/-- A frame whose CRC agrees: its record type against its length, then the record checks (R51, R52). -/
def checkRecord (h : HeadId) (body : List Byte) (env : LaneEnv) (ln : Lane) : LaneOut :=
  match detectionOf? body with
  | some r => checkDetection h r env ln
  | none => match body with
    | [0x02, headNumber] => checkIdle h headNumber env ln
    | _ => discardRecord h .frame env ln

/-- What a frame's fate does at its receiver (R49, R51, R53). -/
def sensorFate (h : HeadId) (env : LaneEnv) : Fate → Lane → LaneOut
  | .underway, ln => ln.quiet
  | .abandoned, ln => discardRecord h .frame env ln
  | .complete body, ln => checkRecord h body env ln

/-- One byte at a receiver (R49). -/
def receiveByte (h : HeadId) (env : LaneEnv) (b : LineByte) (ln : Lane) : LaneOut :=
  let (asm, fate) := ln.receivers[h].asm.take sensorFormat env.now b
  sensorFate h env fate (ln.modReceiver h fun r => { r with asm := asm })

/-- Bytes at a receiver, in order (R49). The bytes of one command may end several frames: they are taken in one
step of the lane (log 7, log 9): the model's choice. -/
def receiveBytes (h : HeadId) (bytes : List LineByte) (env : LaneEnv) (ln : Lane) : LaneOut :=
  runEach (receiveByte h env) bytes ln

/-- The gap of a receiver has run out: the frame is abandoned (R49). -/
def receiverGap (h : HeadId) (env : LaneEnv) (ln : Lane) : LaneOut :=
  discardRecord h .frame env (ln.modReceiver h fun r => { r with asm := .hunting })

end Sys2Proof.Machine
end

