-- ==== Sys2Proof/Machine/Field.lean ====
section
/-! DEFINITION. The field line unit (R150 to R165): debounce, edges, the raw actions of AIR_OK and
PLANT_STOP, and the mill-trip latch. -/

namespace Sys2Proof.Machine

/-- The debounce group of a line: 0 drive, 1 air, 2 chute, 3 mill-trip (R150, R152). -/
def debounceGroup (i : DebouncedId) : Fin 4 :=
  if i.val = 24 then 3 else if i.val % 6 = 0 then 0 else if i.val % 6 = 1 then 1 else 2

/-- The lane whose DRIVE_RUN a line is, if it is one (R150). -/
def driveOf? (i : DebouncedId) : Option LaneId :=
  if h : i.val % 6 = 0 ∧ i.val < 24 then some ⟨i.val / 6, by omega⟩ else none

/-- The lane whose AIR_OK a line is, if it is one (R150). -/
def airOf? (i : LineId) : Option LaneId :=
  if h : i.val % 6 = 1 ∧ i.val < 24 then some ⟨i.val / 6, by omega⟩ else none

/-- The debounce time of a line as it stands. -/
def State.debounceOf (s : State) (i : DebouncedId) : Nat := s.device.debounce[debounceGroup i]

/-- The edge selection asks for the edge (R153). -/
def EdgeSelection.asks (e : EdgeSelection) (rise : Bool) : Bool :=
  match e with
  | .ignore => false
  | .rise => rise
  | .fall => !rise
  | .both => true

/-- LINE_EDGE for a change of a line, where its selection asks for it (R153). -/
def State.edgeNotice (s : State) (i : LineId) (level : Bool) : State :=
  if s.device.edges[i].asks level then s.raise (.lineEdge i level) else s

/-- The debounced edge at the timebase unit whose DRIVE_RUN it is (R155). -/
def State.driveEdge (s : State) (i : DebouncedId) (level : Bool) : State :=
  match driveOf? i with
  | some l => s.onLane l (laneStep (Machine.driveEdge level))
  | none => s

/-- The debounced edge at the mill-trip latch: a rise sets it and raises MILL_TRIP (R157). -/
def State.millEdge (s : State) (i : DebouncedId) (level : Bool) : State :=
  if i = millTripLine ∧ level = true then { s with millTripLatch := true }.raise .millTrip else s

/-- Set a line's debounced state, its candidate absent (R151). -/
def FieldLines.settle (f : FieldLines) (i : DebouncedId) (level : Bool) : FieldLines :=
  { f with debounced := f.debounced.set i level, candidate := f.candidate.set i none }

/-- A debounced edge: the state takes the raw level and the edge goes to the line's users and to its
edge selection (R151, R153, R155, R157). -/
def State.debouncedEdge (s : State) (i : DebouncedId) : State :=
  let level := s.lines.raw[i.castSucc]
  ((({ s with lines := s.lines.settle i level }).driveEdge i level).millEdge i level).edgeNotice
    i.castSucc level

/-- A line's candidate has held for its debounce time (R151). -/
def State.debounceDue (s : State) (i : DebouncedId) : Bool :=
  (s.lines.candidate[i].map fun t => decide (s.debounceOf i ≤ elapsed s.lineTime t)).getD false

/-- A candidate that has held for its debounce time gives its edge (R151, R152). -/
def State.settleLine (s : State) (i : DebouncedId) : State :=
  if s.debounceDue i then s.debouncedEdge i else s

/-- The debouncer takes a raw change: a candidate starts, or is dropped (R151). -/
def State.debounceRaw (s : State) (i : DebouncedId) (level : Bool) : State :=
  let start := if s.lines.debounced[i] = level then none else some s.lineTime
  State.settleLine { s with lines := { s.lines with candidate := s.lines.candidate.set i start } } i

/-- A line's level at the input. -/
def State.setRaw (s : State) (i : LineId) (level : Bool) : State :=
  { s with lines := { s.lines with raw := s.lines.raw.set i level } }

/-- Loss of raw AIR_OK at the stations of its lane (R106, R154). -/
def State.airAction (s : State) (i : LineId) (level : Bool) : State :=
  match airOf? i with
  | some l => if level then s else s.onLane l (laneStep fun env => cutLane env .cutAir)
  | none => s

/-- Every lane that runs or drains halts, in lane order (R121). -/
def State.haltAll (s : State) : State :=
  (List.finRange 4).foldl (fun x l => x.onLane l (laneStep (halt .plantStop))) s

/-- The raw PLANT_STOP level has come to be asserted: the halts, then PLANT_STOP (R156). -/
def State.plantStopAction (s : State) : State := s.haltAll.raise .plantStop

/-- The raw PLANT_STOP level changes (R153, R156). -/
def State.plantStopChange (s : State) (level : Bool) : State :=
  (if level then s.plantStopAction else s).edgeNotice plantStopLine level

/-- A raw level becomes the one given, on a part whose clock runs: the raw actions, then the debouncer
(R151, R154, R156). -/
def State.rawAction (s : State) (i : LineId) (level : Bool) : State :=
  if h : i.val < 25 then ((s.setRaw i level).airAction i level).debounceRaw ⟨i.val, h⟩ level
  else (s.setRaw i level).plantStopChange level

/-- A raw level at an input. Without supply or in reset only the level at the input changes; a level
that is there already is no change (log 5). -/
def State.rawChange (s : State) (i : LineId) (level : Bool) : State :=
  if s.lines.raw[i] = level then s
  else if s.live then s.rawAction i level
  else s.setRaw i level

/-- DEBOUNCE_EXPIRY (R151). -/
def State.debounceExpires (s : State) (i : DebouncedId) : State := if s.live then s.settleLine i else s

/-- The first sample of PLANT_STOP after a reset, taken as an assertion (R165). -/
def State.firstSample (s : State) : State :=
  if s.plantStop then s.plantStopChange true else s

/-- The debounce times and edge selections of SET_LINE_CONFIG, and the candidates it finds due, in line
order (R152). -/
def State.setLineConfig (s : State) (times : Vector Nat 4) (edges : Vector EdgeSelection 26) : State :=
  (List.finRange 25).foldl State.settleLine
    { s with device := { s.device with debounce := times, edges := edges } }

end Sys2Proof.Machine
end

