-- ==== Sys2Proof/Machine/PlantLink.lean ====
section
/-! DEFINITION. The plant link interface (R178 to R191): reception, the input queue, the request taker,
replies, and the frame sender. -/

namespace Sys2Proof.Machine

/-! ## Reception (R180, R181) -/

/-- A request offered to the input queue joins it, or is discarded and counted when four wait (R181). -/
def Link.offer (r : Request) (k : Link) : Link :=
  if k.input.length < 4 then { k with input := k.input ++ [r] }
  else { k with discarded := holdInc k.discarded }

/-- The request in the body of a good frame: tag, kind and payload (R179). -/
def requestOf (body : List Byte) : Request := ⟨body.getD 0 0, body.getD 1 0, body.drop 2⟩

/-- What a frame's fate does at the interface (R180). -/
def Link.fate (k : Link) : Fate → Link
  | .underway => k
  | .abandoned => { k with badFrames := holdInc k.badFrames }
  | .complete body => Link.offer (requestOf body) { k with goodFrames := holdInc k.goodFrames }

/-- One byte at the interface (R180). -/
def Link.receive (now : Time) (k : Link) (b : LineByte) : Link :=
  let (asm, fate) := k.asm.take plantFormat now b
  Link.fate { k with asm := asm } fate

/-- Bytes at the interface, in order (R180). -/
def Link.receiveAll (now : Time) (k : Link) (bytes : List LineByte) : Link :=
  bytes.foldl (Link.receive now) k

/-- The gap of the frame being assembled has run out: it ends as bad (R180). -/
def Link.gapEnds (k : Link) : Link := Link.fate { k with asm := .hunting } .abandoned

/-- Change the plant link interface. -/
def State.withLink (s : State) (f : Link → Link) : State := { s with link := f s.link }

/-! ## The request taker (R182) -/

/-- The kind byte of the reply to a request (R183). -/
def replyKind (code : Byte) : Byte := code ||| 0x80

/-- The reply to a request is placed in the output queue (R182, R183). -/
def State.answer (s : State) (code tag : Byte) (status : Status) (items : List Byte) : State :=
  s.pushFrame ⟨tag, replyKind code, status.code :: items⟩

/-- A reply of OK with the items given. -/
def State.ok (s : State) (code tag : Byte) (items : List Byte) : State := s.answer code tag .ok items

/-- A refusal carries its status alone (R183). -/
def State.refuse (s : State) (code tag : Byte) (status : Status) : State := s.answer code tag status []

/-- The request taker may take the oldest waiting request (R182). -/
def State.mayTake (s : State) : Bool := s.works && !s.link.replyWaits && !s.link.resetTaken

/-- The request given is the oldest one waiting, and it may be taken (R182). -/
def State.takeable (s : State) (r : Request) : Bool := s.mayTake && s.link.input.head? == some r

/-- The oldest request leaves the input queue. -/
def State.popInput (s : State) : State := { s with link := { s.link with input := s.link.input.drop 1 } }

/-- Taking a request: it leaves the input queue, its payload length is checked, and its owning block
acts (R182). A request that cannot be taken now leaves the state as it is (log 6). -/
def State.takeRequest (code : Byte) (len : Nat) (tag : Byte) (payload : List Byte)
    (act : State → State) (s : State) : State :=
  if s.takeable ⟨tag, code, payload⟩ then
    if payload.length = len then act s.popInput else s.popInput.refuse code tag .badLength
  else s

/-! ## Request codes (R186) -/

/-- The request a code names (R186). -/
def codedRequest (code : Byte) (tag : Byte) (payload : List Byte) : Option Instr :=
  match code.toNat with
  | 0x01 => some (.identify tag payload)
  | 0x02 => some (.resetDevice tag payload)
  | 0x03 => some (.saveSettings tag payload)
  | 0x04 => some (.getLinkStatus tag payload)
  | 0x10 => some (.getLaneStatus tag payload)
  | 0x11 => some (.setLaneGeometry tag payload)
  | 0x12 => some (.getLaneGeometry tag payload)
  | 0x13 => some (.setTimebase tag payload)
  | 0x14 => some (.setScale tag payload)
  | 0x15 => some (.switchSource tag payload)
  | 0x16 => some (.abortSwitch tag payload)
  | 0x17 => some (.startLane tag payload)
  | 0x18 => some (.stopLane tag payload)
  | 0x19 => some (.clearHalt tag payload)
  | 0x1A => some (.resetLane tag payload)
  | 0x20 => some (.setClassEntry tag payload)
  | 0x21 => some (.getClassEntry tag payload)
  | 0x22 => some (.setProfile tag payload)
  | 0x23 => some (.getProfile tag payload)
  | 0x28 => some (.setStation tag payload)
  | 0x29 => some (.enableStation tag payload)
  | 0x2A => some (.disableStation tag payload)
  | 0x2B => some (.getStationStatus tag payload)
  | 0x30 => some (.closeLot tag payload)
  | 0x31 => some (.setLotLimit tag payload)
  | 0x32 => some (.getLotProgress tag payload)
  | 0x33 => some (.getLotResult tag payload)
  | 0x38 => some (.injectStart tag payload)
  | 0x39 => some (.injectStop tag payload)
  | 0x40 => some (.setLineConfig tag payload)
  | 0x41 => some (.getLines tag payload)
  | 0x42 => some (.setChutePolicy tag payload)
  | 0x43 => some (.setBusyEnables tag payload)
  | 0x44 => some (.holdFeed tag payload)
  | 0x45 => some (.releaseFeed tag payload)
  | 0x46 => some (.releaseMillTrip tag payload)
  | 0x50 => some (.readTrace tag payload)
  | 0x51 => some (.clearTrace tag payload)
  | 0x52 => some (.getEvents tag payload)
  | 0x53 => some (.clearEvents tag payload)
  | 0x54 => some (.setNotices tag payload)
  | 0x55 => some (.setStatusPeriod tag payload)
  | _ => none

/-- A kind byte is a request code of R186's table. -/
def isRequestCode (kind : Byte) : Bool := (codedRequest kind 0 []).isSome

/-- The command that takes a request (R182). -/
def takingOf (r : Request) : Instr :=
  (codedRequest r.kind r.tag r.payload).getD (.unknownRequest r.tag r.kind r.payload)

/-- A request whose kind is no request code is taken: UNKNOWN_REQUEST under kind 0x80, with the kind
received (R182). -/
def State.takeUnknown (tag kind : Byte) (payload : List Byte) (s : State) : State :=
  if s.takeable ⟨tag, kind, payload⟩ && !isRequestCode kind then
    s.popInput.answer 0x80 tag .unknownRequest [kind]
  else s

/-! ## The frame sender (R187, R190) -/

/-- The frame on the line has gone out whole: it leaves the queue and is counted (R187, R190). -/
def Link.sent (k : Link) (f : Frame) : Link :=
  if f.isNotice then { k with output := k.output.drop 1, noticesSent := holdInc k.noticesSent }
  else { k with output := k.output.drop 1, repliesSent := holdInc k.repliesSent }

/-- The reply of a RESET_DEVICE that has been taken (R189). -/
def Frame.isResetReply (f : Frame) : Bool := f.kind == 0x82 && f.payload == [Status.ok.code]

end Sys2Proof.Machine
end

