-- ==== Sys2Proof/Machine/Startup.lean ====
section
/-! DEFINITION. Start-up and reset (R194 to R196), and the settings store (R192, R193). -/

namespace Sys2Proof.Machine

/-- What a reset or a loss of power cuts off at once: the frames on the lines and in the link's queues,
and a save in progress, whose store stays INVALID (R114, R187, R189, R196). The image is left as it was
before the save: the rules do not say what a save cut off leaves of it, and an INVALID store's image is
never read (log 21). -/
def State.cutOff (s : State) : State :=
  { s with
    link := { s.link with input := [], output := [] }
    store := { s.store with saving := none }
    lanes := Vector.ofFn fun l : Fin 4 => { s.lanes[l] with
      stations := Vector.ofFn fun st : Fin 3 => { s.lanes[l].stations[st] with
        port := { s.lanes[l].stations[st].port with sending := none, waiting := false } } } }

/-- The configuration a start-up takes: the image of a VALID store, or the factory defaults (R194). -/
def Store.loaded (st : Store) : Image := if st.valid then st.image else .factory

/-- Steps 1 and 2 of a start-up: every item at its power-on value, the configuration loaded (R194).
The levels at the inputs are what the first sample finds (log 10). -/
def State.afresh (s : State) (cause : ResetCause) : State where
  phase := .starting
  rstAsserted := s.rstAsserted
  resetCause := cause
  lineTime := 0
  micros := 0
  lanes := Vector.ofFn fun l : Fin 4 => Lane.powerOn l s.store.loaded.lanes[l] s.lanes[l].tb.phases
  device := s.store.loaded.device
  lines := .powerOn s.lines.raw
  millTripLatch := false
  trace := []
  gapPending := false
  laneFlags := Vector.replicate 4 0
  deviceFlags := 0
  statusDue := none
  link := .powerOn
  store := { s.store with saving := none }
  choices := s.choices
  held := Vector.replicate 4 []
  pending := s.pending

/-- Step 3 of a start-up: POWER_ON, and STORE_INVALID when the store is (R177, R194). -/
def State.startEvents (s : State) (cause : ResetCause) : State :=
  if s.store.valid then s.raise (.powerOn cause) else (s.raise (.powerOn cause)).raise .storeInvalid

/-- Steps 1 to 3 of a start-up, with the first sample of PLANT_STOP (R165, R194). A debounced line that
this sample finds asserted has its candidate from line time 0; with a debounce time of 0 its edge is the
due DEBOUNCE_EXPIRY step after the start-up step, not a part of it (log 10). -/
def State.startUp (s : State) (cause : ResetCause) : State :=
  ((s.afresh cause).startEvents cause).firstSample

/-- Step 4 of a start-up: the part begins to work (R194). -/
def State.beginWork (s : State) : State :=
  { s with
    phase := .working
    lanes := Vector.ofFn fun l : Fin 4 => s.lanes[l].sendStartUpFrames l
    statusDue := if s.device.statusPeriod = 0 then none
      else some (s.lineTime + BitVec.ofNat 32 s.device.statusPeriod) }

/-- The supply is applied: until it has settled the part is held in reset (R194). -/
def State.supplied (s : State) : State := { s with phase := .settling }

/-- Power has settled (R194, R195): RST_N held through it keeps the part in reset. -/
def State.powerUp (s : State) : State :=
  match s.phase with
  | .unpowered | .settling => if s.rstAsserted then { s with phase := .held .powerOn } else s.startUp .powerOn
  | _ => s

/-- The cause that a start-up after RST_N records: POWER_ON if RST_N was held through the application
of power (R195). -/
def Phase.heldCause : Phase → ResetCause
  | .held cause => cause
  | _ => .resetLine

/-- RST_N is asserted (R194). Before the supply has settled it is the level at the pin alone. -/
def State.holdReset (s : State) : State :=
  match s.phase with
  | .unpowered | .settling => { s with rstAsserted := true }
  | ph => { s.cutOff with phase := .held ph.heldCause, rstAsserted := true }

/-- RST_N is released (R194). -/
def State.releaseReset (s : State) : State :=
  match s.phase with
  | .held cause => State.startUp { s with rstAsserted := false } cause
  | _ => { s with rstAsserted := false }

/-- The supply is lost (R196). -/
def State.losePower (s : State) : State := { s.cutOff with phase := .unpowered }

/-- The last byte of the frame on the line has gone out; after the reply of a RESET_DEVICE the reset is
taken (R187, R189). -/
def State.frameGone (s : State) : State :=
  match s.link.output with
  | [] => s
  | f :: _ =>
    if s.link.resetTaken && f.isResetReply then s.startUp .resetRequest
    else { s with link := s.link.sent f }

/-! ## The settings store (R192, R193) -/

/-- Every configuration item as it stands (R192). -/
def State.snapshot (s : State) : Image := ⟨Vector.ofFn fun l : Fin 4 => s.lanes[l].cfg, s.device⟩

/-- A save begins: the snapshot is taken, the store becomes INVALID, the save state WRITING (R193). -/
def State.beginSave (s : State) : State :=
  { s with store := { s.store with valid := false, saving := some s.snapshot } }

/-- The write ends: the store is VALID if the image read back agrees with the snapshot (R193). Of a save
that FAILED R193 says only that the previous image is lost: the model leaves the snapshot as the image,
and an INVALID store's image is never read (log 21). -/
def State.endSave (s : State) (agrees : Bool) : State :=
  match s.store.saving with
  | none => s
  | some image => { s with store := ⟨image, agrees, none⟩ }.raise (.saveDone agrees)

end Sys2Proof.Machine
end

