-- ==== Sys2Proof/Machine/LaneRequests.lean ====
section
/-! DEFINITION. The requests over a lane (R115 to R132): geometry, state, injection, status. -/

namespace Sys2Proof.Machine

/-- A step of a lane within a step of the part. -/
def State.stepLane (s : State) (l : LaneId) (f : LaneEnv → Lane → LaneOut) : State := s.onLane l (laneStep f)

/-- Change a lane's data without a step of its blocks. -/
def State.editLane (s : State) (l : LaneId) (f : Lane → Lane) : State := s.setLane l (f s.lanes[l])

/-! ## GET_LANE_STATUS (R46, R69, R132) -/

/-- Number of the target of a pending switch (R37, R179). -/
def PendingSwitch.target : PendingSwitch → Source
  | .toNominal => .nominal
  | .toEncoder _ => .encoder

/-- The settle record of a pending switch to ENCODER. -/
def PendingSwitch.settle? : PendingSwitch → Option Settle
  | .toNominal => none
  | .toEncoder st => some st

/-- The timebase items of R46. -/
def Lane.timebaseItems (ln : Lane) : List Byte :=
  beBytes 4 ln.tb.p.toNat ++ beBytes 4 ln.tb.pmax.toNat ++
  beBytes 1 ln.tb.source.code ++ beBytes 1 ln.cfg.setup.source.code ++ bit ln.tb.encoderLost ++
  optional 1 (ln.tb.pendingSwitch.map fun w => w.target.code) ++
  optional 1 ((ln.tb.pendingSwitch.bind (·.settle?)).map fun st => if st.agreed then 1 else 0) ++
  optional 2 ((ln.tb.pendingSwitch.bind (·.settle?)).map (·.failedPeriods.toNat)) ++
  beBytes 1 ln.cfg.scale ++ optional 1 ln.tb.pendingScale ++
  beBytes 2 ln.cfg.rate ++ optional 2 (ln.tb.pendingRate.map (·.rate)) ++
  beBytes 2 ln.tb.phaseErrors.toNat

/-- The items of one sensor link (R69). -/
def Receiver.items (r : Receiver) : List Byte :=
  beBytes 2 r.records.toNat ++ beBytes 2 r.errors.toNat ++ optional 4 (r.lastRecord.map (·.toNat))

/-- The items of the injection generator: absent while idle (R132). The spec gives no byte for a
remaining count that is unlimited: the model sends it as an absent item, a presence byte of 0 and two zero
bytes (log 15). -/
def injectionItems : Option Injection → List Byte
  | none => 0 :: List.replicate 14 0
  | some inj => 1 :: (beBytes 1 inj.station.val ++ beBytes 1 inj.firstColumn.val ++
      beBytes 1 inj.lastColumn.val ++ beBytes 2 inj.length ++ beBytes 2 inj.spacing ++
      optional 2 inj.remaining ++ beBytes 4 inj.nextPos.toNat)

/-- The items of GET_LANE_STATUS, in the order of R132 (log 15). -/
def State.laneStatus (s : State) (l : LaneId) : List Byte :=
  let ln := s.lanes[l]
  beBytes 1 ln.state.code ++ beBytes 1 ln.haltCause.code ++
  beBytes 2 ln.queue.length ++ beBytes 3 ln.nextSerial.toNat ++ ln.timebaseItems ++
  ln.receivers.toList.flatMap Receiver.items ++ beBytes 2 ln.discarded.toNat ++
  ln.testTally.toList.flatMap (fun c => beBytes 2 c.toNat) ++ beBytes 2 ln.skipped.toNat ++
  injectionItems ln.injection ++ bit (s.feedHold l) ++ bitSet 1 (s.busyActive l).toList ++
  beBytes 2 ln.lots.filling.id.toNat ++ optional 2 (ln.lots.draining.map (·.id.toNat))

/-- The lane tallies cleared together (R131). -/
def Lane.clearTallies (ln : Lane) : Lane :=
  { ln with
    discarded := 0
    testTally := Vector.replicate 8 0
    skipped := 0
    receivers := Vector.ofFn fun h : Fin 3 => { ln.receivers[h] with errors := 0 }
    tb := { ln.tb with phaseErrors := 0 } }

/-- What GET_LANE_STATUS does once taken (R132). -/
def getLaneStatus (tag : Byte) (payload : List Byte) (s : State) : State :=
  match laneItem payload 0 with
  | none => s.refuse 0x10 tag .badValue
  | some l =>
    let replied := s.ok 0x10 tag (s.laneStatus l)
    if onOff payload 1 then replied.editLane l Lane.clearTallies else replied

/-- GET_LANE_STATUS (R132). -/
def execGetLaneStatus (tag : Byte) (payload : List Byte) (s : State) : Out :=
  .next (s.takeRequest 0x10 2 tag payload (getLaneStatus tag payload))

/-! ## Geometry (R125, R126) -/

/-- Replace a lane's geometry. -/
def Lane.withGeometry (g : Geometry) (ln : Lane) : Lane := { ln with cfg := { ln.cfg with geometry := g } }

/-- What SET_LANE_GEOMETRY does once taken (R125). -/
def setLaneGeometry (tag : Byte) (payload : List Byte) (s : State) : State :=
  match laneItem payload 0, Geometry.ofPayload? payload with
  | some l, some g =>
    if s.lanes[l].state = .stopped then (s.ok 0x11 tag []).editLane l (Lane.withGeometry g)
    else s.refuse 0x11 tag .wrongState
  | _, _ => s.refuse 0x11 tag .badValue

/-- SET_LANE_GEOMETRY (R125). -/
def execSetLaneGeometry (tag : Byte) (payload : List Byte) (s : State) : Out :=
  .next (s.takeRequest 0x11 27 tag payload (setLaneGeometry tag payload))

/-- What GET_LANE_GEOMETRY does once taken (R126). -/
def getLaneGeometry (tag : Byte) (payload : List Byte) (s : State) : State :=
  match laneItem payload 0 with
  | none => s.refuse 0x12 tag .badValue
  | some l => s.ok 0x12 tag (s.lanes[l].cfg.geometry.encode ++ s.lanes[l].cfg.setup.encode)

/-- GET_LANE_GEOMETRY (R126). -/
def execGetLaneGeometry (tag : Byte) (payload : List Byte) (s : State) : Out :=
  .next (s.takeRequest 0x12 1 tag payload (getLaneGeometry tag payload))

/-! ## Lane state (R116 to R124) -/

/-- What START_LANE does once taken (R116 to R118). -/
def startLane (tag : Byte) (payload : List Byte) (s : State) : State :=
  match laneItem payload 0 with
  | none => s.refuse 0x17 tag .badValue
  | some l =>
    if s.lanes[l].state ≠ .stopped ∨ s.plantStop = true then s.refuse 0x17 tag .wrongState
    else if s.lanes[l].cfg.geometry.hasHead then
      match s.lanes[l].cfg.geometry.failedCheck with
      | some (check, station) =>
        s.answer 0x17 tag .geometry (beBytes 1 check ++ optional 1 (station.map (·.val)))
      | none => (s.ok 0x17 tag []).stepLane l startRun
    else s.refuse 0x17 tag .noHeads

/-- START_LANE (R118). -/
def execStartLane (tag : Byte) (payload : List Byte) (s : State) : Out :=
  .next (s.takeRequest 0x17 1 tag payload (startLane tag payload))

/-- What STOP_LANE does once taken (R119). -/
def stopLane (tag : Byte) (payload : List Byte) (s : State) : State :=
  match laneItem payload 0 with
  | none => s.refuse 0x18 tag .badValue
  | some l =>
    match s.lanes[l].state with
    | .running => (s.ok 0x18 tag [Result.draining.code]).stepLane l beginDrain
    | .draining => s.ok 0x18 tag [Result.noChange.code]
    | .stopped | .halted => s.refuse 0x18 tag .wrongState

/-- STOP_LANE (R119). -/
def execStopLane (tag : Byte) (payload : List Byte) (s : State) : Out :=
  .next (s.takeRequest 0x18 1 tag payload (stopLane tag payload))

/-- What CLEAR_HALT does once taken (R123). -/
def clearHaltOf (tag : Byte) (payload : List Byte) (s : State) : State :=
  match laneItem payload 0 with
  | none => s.refuse 0x19 tag .badValue
  | some l =>
    if s.lanes[l].state ≠ .halted ∨ s.plantStop = true then s.refuse 0x19 tag .wrongState
    else (s.ok 0x19 tag []).stepLane l clearHalt

/-- CLEAR_HALT (R123). -/
def execClearHalt (tag : Byte) (payload : List Byte) (s : State) : Out :=
  .next (s.takeRequest 0x19 1 tag payload (clearHaltOf tag payload))

/-- What RESET_LANE does once taken (R124). -/
def resetLaneOf (tag : Byte) (payload : List Byte) (s : State) : State :=
  match laneItem payload 0 with
  | none => s.refuse 0x1A tag .badValue
  | some l => (s.ok 0x1A tag []).stepLane l resetLane

/-- RESET_LANE (R124). -/
def execResetLane (tag : Byte) (payload : List Byte) (s : State) : Out :=
  .next (s.takeRequest 0x1A 1 tag payload (resetLaneOf tag payload))

/-! ## Injection (R127, R129) -/

/-- The record of an INJECT_START payload, its next position one spacing past the Pmax given, if every
item is in range (R127). -/
def injectionItem (payload : List Byte) (pmax : Pos) : Option Injection :=
  match stationItem payload 1, columnItem payload 2, columnItem payload 3 with
  | some st, some first, some last =>
    if first.val ≤ last.val ∧ (1 ≤ item payload 4 2 ∧ item payload 4 2 ≤ maxLength) ∧
        (16 ≤ item payload 8 2 ∧ item payload 8 2 ≤ 16383) then
      some {
        station := st
        firstColumn := first
        lastColumn := last
        length := item payload 4 2
        spacing := item payload 8 2
        remaining := if item payload 6 2 = 0 then none else some (item payload 6 2)
        nextPos := pmax + BitVec.ofNat 32 (item payload 8 2) }
    else none
  | _, _, _ => none

/-- Set a lane's injection generator. -/
def Lane.withInjection (inj : Option Injection) (ln : Lane) : Lane := { ln with injection := inj }

/-- What INJECT_START does once taken (R127). -/
def injectStart (tag : Byte) (payload : List Byte) (s : State) : State :=
  match laneItem payload 0 with
  | none => s.refuse 0x38 tag .badValue
  | some l =>
    match injectionItem payload s.lanes[l].tb.pmax with
    | none => s.refuse 0x38 tag .badValue
    | some inj =>
      if s.lanes[l].state = .running then
        (s.ok 0x38 tag
          [if s.lanes[l].injection.isSome then Result.replaced.code else Result.started.code]).editLane l
            (Lane.withInjection (some inj))
      else s.refuse 0x38 tag .wrongState

/-- INJECT_START (R127). -/
def execInjectStart (tag : Byte) (payload : List Byte) (s : State) : Out :=
  .next (s.takeRequest 0x38 10 tag payload (injectStart tag payload))

/-- What INJECT_STOP does once taken (R129). -/
def injectStop (tag : Byte) (payload : List Byte) (s : State) : State :=
  match laneItem payload 0 with
  | none => s.refuse 0x39 tag .badValue
  | some l =>
    (s.ok 0x39 tag
      [if s.lanes[l].injection.isSome then Result.stopped.code else Result.noChange.code]).editLane l
        (Lane.withInjection none)

/-- INJECT_STOP (R129). -/
def execInjectStop (tag : Byte) (payload : List Byte) (s : State) : Out :=
  .next (s.takeRequest 0x39 1 tag payload (injectStop tag payload))

end Sys2Proof.Machine
end

