-- ==== Sys2Proof/Machine/TableRequests.lean ====
section
/-! DEFINITION. The requests over the class table and profiles (R72, R73) and over the stations (R91,
R92, R109, R113). -/

namespace Sys2Proof.Machine

/-- Change the device-wide configuration. -/
def State.withDevice (s : State) (f : DeviceConfig → DeviceConfig) : State := { s with device := f s.device }

/-- What SET_CLASS_ENTRY does once taken (R72). -/
def setClassEntry (tag : Byte) (payload : List Byte) (s : State) : State :=
  match entryItem payload 0, ClassEntry.ofPayload? payload with
  | some i, some e => (s.ok 0x20 tag []).withDevice fun d => { d with classTable := d.classTable.set i e }
  | _, _ => s.refuse 0x20 tag .badValue

/-- SET_CLASS_ENTRY (R72). -/
def execSetClassEntry (tag : Byte) (payload : List Byte) (s : State) : Out :=
  .next (s.takeRequest 0x20 18 tag payload (setClassEntry tag payload))

/-- What GET_CLASS_ENTRY does once taken (R72). -/
def getClassEntry (tag : Byte) (payload : List Byte) (s : State) : State :=
  match entryItem payload 0 with
  | some i => s.ok 0x21 tag s.device.classTable[i].encode
  | none => s.refuse 0x21 tag .badValue

/-- GET_CLASS_ENTRY (R72). -/
def execGetClassEntry (tag : Byte) (payload : List Byte) (s : State) : Out :=
  .next (s.takeRequest 0x21 1 tag payload (getClassEntry tag payload))

/-- What SET_PROFILE does once taken (R73). -/
def setProfile (tag : Byte) (payload : List Byte) (s : State) : State :=
  match profileItem payload 0, Profile.ofPayload? payload with
  | some i, some p => (s.ok 0x22 tag []).withDevice fun d => { d with profiles := d.profiles.set i p }
  | _, _ => s.refuse 0x22 tag .badValue

/-- SET_PROFILE (R73). -/
def execSetProfile (tag : Byte) (payload : List Byte) (s : State) : Out :=
  .next (s.takeRequest 0x22 5 tag payload (setProfile tag payload))

/-- What GET_PROFILE does once taken (R73). -/
def getProfile (tag : Byte) (payload : List Byte) (s : State) : State :=
  match profileItem payload 0 with
  | some i => s.ok 0x23 tag s.device.profiles[i].encode
  | none => s.refuse 0x23 tag .badValue

/-- GET_PROFILE (R73). -/
def execGetProfile (tag : Byte) (payload : List Byte) (s : State) : Out :=
  .next (s.takeRequest 0x23 1 tag payload (getProfile tag payload))

/-! ## Stations -/

/-- Replace the part of a station's configuration that SET_STATION sets (R91). -/
def Lane.withStationConfig (st : StationId) (c : StationConfig) (ln : Lane) : Lane :=
  { ln with cfg := { ln.cfg with stations := ln.cfg.stations.set st c } }

/-- What SET_STATION does once taken (R91). -/
def setStation (tag : Byte) (payload : List Byte) (s : State) : State :=
  match laneItem payload 0, stationItem payload 1, StationConfig.ofPayload? payload with
  | some l, some st, some c => (s.ok 0x28 tag []).editLane l (Lane.withStationConfig st c)
  | _, _, _ => s.refuse 0x28 tag .badValue

/-- SET_STATION (R91). -/
def execSetStation (tag : Byte) (payload : List Byte) (s : State) : Out :=
  .next (s.takeRequest 0x28 15 tag payload (setStation tag payload))

/-- Turn a station's enable on (R92). -/
def Lane.enableStation (st : StationId) (ln : Lane) : Lane :=
  { ln with cfg := { ln.cfg with geometry :=
    { ln.cfg.geometry with stationEnable := ln.cfg.geometry.stationEnable.set st true } } }

/-- What ENABLE_STATION does once taken (R92). -/
def enableStation (tag : Byte) (payload : List Byte) (s : State) : State :=
  match laneItem payload 0, stationItem payload 1 with
  | some l, some st =>
    if s.lanes[l].cfg.geometry.stationEnable[st] then s.ok 0x29 tag [Result.noChange.code]
    else (s.ok 0x29 tag [Result.enabled.code]).editLane l (Lane.enableStation st)
  | _, _ => s.refuse 0x29 tag .badValue

/-- ENABLE_STATION (R92). -/
def execEnableStation (tag : Byte) (payload : List Byte) (s : State) : Out :=
  .next (s.takeRequest 0x29 2 tag payload (enableStation tag payload))

/-- What DISABLE_STATION does once taken (R109). -/
def disableStationOf (tag : Byte) (payload : List Byte) (s : State) : State :=
  match laneItem payload 0, stationItem payload 1 with
  | some l, some st =>
    if s.lanes[l].cfg.geometry.stationEnable[st] then
      (s.ok 0x2A tag [Result.disabled.code]).stepLane l fun env => disableStation env st
    else s.ok 0x2A tag [Result.noChange.code]
  | _, _ => s.refuse 0x2A tag .badValue

/-- DISABLE_STATION (R109). -/
def execDisableStation (tag : Byte) (payload : List Byte) (s : State) : Out :=
  .next (s.takeRequest 0x2A 2 tag payload (disableStationOf tag payload))

/-- The items of GET_STATION_STATUS, in the order of R113 (log 15). -/
def State.stationStatus (s : State) (l : LaneId) (st : StationId) : List Byte :=
  let ln := s.lanes[l]
  let g := ln.cfg.geometry
  let x := ln.stations[st]
  bit g.stationEnable[st] ++ beBytes 1 g.stationFraction[st].code.val ++
  beBytes 2 g.stationDistance[st] ++ beBytes 1 ln.cfg.stations[st].columnRest ++
  ln.cfg.stations[st].rules.toList.flatMap (fun r => beBytes 1 r.count ++ beBytes 2 r.window) ++
  beBytes 1 x.list.length ++ beBytes 1 (ln.queue.filter (·.firesAt st)).length ++
  beBytes 4 (ln.openSet st).toNat ++ beBytes 4 (ln.resting st s.lineTime).toNat ++
  beBytes 1 x.history.length ++ x.history.flatMap (fun t => beBytes 4 t.toNat) ++
  bitSet 1 (ln.inhibits (s.env l).airOk) ++
  beBytes 1 x.port.sequence.toNat ++ beBytes 4 x.port.lastSent.toNat

/-- What GET_STATION_STATUS does once taken (R113). -/
def getStationStatus (tag : Byte) (payload : List Byte) (s : State) : State :=
  match laneItem payload 0, stationItem payload 1 with
  | some l, some st => s.ok 0x2B tag (s.stationStatus l st)
  | _, _ => s.refuse 0x2B tag .badValue

/-- GET_STATION_STATUS (R113). -/
def execGetStationStatus (tag : Byte) (payload : List Byte) (s : State) : Out :=
  .next (s.takeRequest 0x2B 2 tag payload (getStationStatus tag payload))

end Sys2Proof.Machine
end

