-- ==== Sys2Proof/Machine/EventRequests.lean ====
section
/-! DEFINITION. The requests over the trace and the events, and the STATUS notice (R170 to R176). -/

namespace Sys2Proof.Machine

/-- The most entries one READ_TRACE returns (R170). -/
def readLimit : Nat := 12

/-- The items of a READ_TRACE of `n` entries (R170). -/
def State.traceItems (s : State) (n : Nat) : List Byte :=
  beBytes 1 (s.trace.take n).length ++ (s.trace.take n).flatMap TraceEntry.encode ++
  beBytes 2 (s.trace.drop n).length

/-- What READ_TRACE does once taken (R170). -/
def readTrace (tag : Byte) (payload : List Byte) (s : State) : State :=
  let n := item payload 0 1
  if n = 0 ∨ readLimit < n then s.refuse 0x50 tag .badValue
  else { s.ok 0x50 tag (s.traceItems n) with trace := s.trace.drop n }

/-- READ_TRACE (R170). -/
def execReadTrace (tag : Byte) (payload : List Byte) (s : State) : Out :=
  .next (s.takeRequest 0x50 1 tag payload (readTrace tag payload))

/-- What CLEAR_TRACE does once taken (R170). -/
def clearTrace (tag : Byte) (_payload : List Byte) (s : State) : State :=
  { s.ok 0x51 tag (beBytes 2 s.trace.length) with trace := [] }

/-- CLEAR_TRACE (R170). -/
def execClearTrace (tag : Byte) (payload : List Byte) (s : State) : Out :=
  .next (s.takeRequest 0x51 1 tag payload (clearTrace tag payload))

/-- The items of GET_EVENTS (R174): the flags as CLEAR_EVENTS names them (R186; log 15), the enables, the
status period and the due time. -/
def State.eventItems (s : State) : List Byte :=
  s.laneFlags.toList.flatMap (fun f => beBytes 1 f.toNat) ++ beBytes 1 s.deviceFlags.toNat ++
  s.device.noticeEnables.toList.flatMap bit ++ beBytes 2 s.device.statusPeriod ++
  optional 4 (s.statusDue.map (·.toNat))

/-- What GET_EVENTS does once taken (R174). -/
def getEvents (tag : Byte) (_payload : List Byte) (s : State) : State := s.ok 0x52 tag s.eventItems

/-- GET_EVENTS (R174). -/
def execGetEvents (tag : Byte) (payload : List Byte) (s : State) : Out :=
  .next (s.takeRequest 0x52 1 tag payload (getEvents tag payload))

/-- Every flag that a CLEAR_EVENTS payload names exists: the lane bytes name five kinds (R171, R186). -/
def flagsExist (payload : List Byte) : Bool := (List.range 4).all fun i => item payload i 1 < 32

/-- Clear the flags that a CLEAR_EVENTS payload names (R171, R186). -/
def State.clearFlags (s : State) (payload : List Byte) : State :=
  { s with
    laneFlags := Vector.ofFn fun l : Fin 4 => s.laneFlags[l] &&& ~~~ BitVec.ofNat 5 (item payload l.val 1)
    deviceFlags := s.deviceFlags &&& ~~~ BitVec.ofNat 8 (item payload 4 1) }

/-- What CLEAR_EVENTS does once taken (R171). -/
def clearEvents (tag : Byte) (payload : List Byte) (s : State) : State :=
  if flagsExist payload then (s.ok 0x53 tag []).clearFlags payload else s.refuse 0x53 tag .badValue

/-- CLEAR_EVENTS (R171). -/
def execClearEvents (tag : Byte) (payload : List Byte) (s : State) : Out :=
  .next (s.takeRequest 0x53 5 tag payload (clearEvents tag payload))

/-- What SET_NOTICES does once taken (R172). -/
def setNotices (tag : Byte) (payload : List Byte) (s : State) : State :=
  (s.ok 0x54 tag []).withDevice fun d =>
    { d with noticeEnables := Vector.ofFn fun i : Fin 13 => onOff payload i.val }

/-- SET_NOTICES (R172). -/
def execSetNotices (tag : Byte) (payload : List Byte) (s : State) : Out :=
  .next (s.takeRequest 0x54 13 tag payload (setNotices tag payload))

/-- The due time of a period set at the line time given (R175). -/
def dueAfter (now : Time) (period : Nat) : Option Time :=
  if period = 0 then none else some (now + BitVec.ofNat 32 period)

/-- What SET_STATUS_PERIOD does once taken (R175). -/
def setStatusPeriod (tag : Byte) (payload : List Byte) (s : State) : State :=
  let period := item payload 0 2
  if (1 ≤ period ∧ period ≤ 9) ∨ 60000 < period then s.refuse 0x55 tag .badValue
  else { (s.ok 0x55 tag []).withDevice fun d => { d with statusPeriod := period } with
    statusDue := dueAfter s.lineTime period }

/-- SET_STATUS_PERIOD (R175). -/
def execSetStatusPeriod (tag : Byte) (payload : List Byte) (s : State) : Out :=
  .next (s.takeRequest 0x55 2 tag payload (setStatusPeriod tag payload))

/-! ## The STATUS notice (R175, R176) -/

/-- The items of one lane in a STATUS notice (R176). -/
def State.statusLane (s : State) (l : LaneId) : List Byte :=
  let ln := s.lanes[l]
  beBytes 1 ln.state.code ++ beBytes 2 ln.queue.length ++ beBytes 4 ln.tb.p.toNat ++
  beBytes 1 ln.tb.source.code ++ optional 1 (ln.tb.pendingSwitch.map fun w => w.target.code) ++
  bit (s.feedHold l) ++ beBytes 2 ln.lots.filling.id.toNat

/-- A STATUS notice (R176). -/
def State.statusNotice (s : State) : Frame :=
  ⟨0, 0xFD, beBytes 4 s.lineTime.toNat ++ beBytes 2 s.trace.length ++ (List.finRange 4).flatMap s.statusLane⟩

/-- The status due time has been reached (R175). -/
def State.statusIsDue (s : State) : Bool :=
  s.works && (s.statusDue.map fun t => atOrBehind t s.lineTime).getD false

/-- A STATUS notice is formed and offered, and the due time rises by the period (R175). -/
def State.sendStatus (s : State) : State :=
  { s.offerNotice s.statusNotice with
    statusDue := s.statusDue.map fun t => t + BitVec.ofNat 32 s.device.statusPeriod }

/-- STATUS_DUE (R175). -/
def execStatusDue (s : State) : Out := .next (if s.statusIsDue then s.sendStatus else s)

end Sys2Proof.Machine
end

