-- ==== Sys2Proof/Machine/FieldRequests.lean ====
section
/-! DEFINITION. The requests over the field lines and feed holds (R152, R158 to R161, R164). -/

namespace Sys2Proof.Machine

/-- What SET_LINE_CONFIG does once taken (R152). -/
def setLineConfig (tag : Byte) (payload : List Byte) (s : State) : State :=
  match edgesItem payload with
  | none => s.refuse 0x40 tag .badValue
  | some edges => (s.ok 0x40 tag []).setLineConfig
      #v[item payload 0 1, item payload 1 1, item payload 2 1, item payload 3 1] edges

/-- SET_LINE_CONFIG (R152). -/
def execSetLineConfig (tag : Byte) (payload : List Byte) (s : State) : Out :=
  .next (s.takeRequest 0x40 30 tag payload (setLineConfig tag payload))

/-- The items of one line in GET_LINES: the raw level and, for a line of a debounce group, the debounced
state and whether a candidate is present (R164). -/
def FieldLines.items (f : FieldLines) (i : LineId) : List Byte :=
  bit f.raw[i] ++ (if h : i.val < 25 then bit f.debounced[i.val] ++ bit f.candidate[i.val].isSome else [])

/-- The items of one lane in GET_LINES (R164). The condition and the activity of the seven busy sources go
source by source, as a pair of one-byte yes/no items each, and not as two bit sets (log 15): the model's
choice. -/
def State.laneFieldItems (s : State) (l : LaneId) : List Byte :=
  s.lanes[l].cfg.policies.toList.flatMap (fun p => beBytes 1 p.code) ++
  s.lanes[l].cfg.busyEnables.toList.flatMap bit ++ bit s.lanes[l].cfg.coupled ++ bit s.lanes[l].hostHold ++
  (List.finRange 7).flatMap (fun i => bit (s.busyConditions l)[i] ++ bit (s.busyActive l)[i]) ++
  bit (s.feedHold l)

/-- The items of GET_LINES, in the order of R164 (log 15). -/
def State.lineItems (s : State) : List Byte :=
  (List.finRange 26).flatMap s.lines.items ++ s.device.debounce.toList.flatMap (beBytes 1) ++
  s.device.edges.toList.flatMap (fun e => beBytes 1 e.code) ++ bit s.millTripLatch ++
  (List.finRange 4).flatMap s.laneFieldItems ++ bit s.millFeedHold

/-- What GET_LINES does once taken (R164). -/
def getLines (tag : Byte) (_payload : List Byte) (s : State) : State := s.ok 0x41 tag s.lineItems

/-- GET_LINES (R164). -/
def execGetLines (tag : Byte) (payload : List Byte) (s : State) : Out :=
  .next (s.takeRequest 0x41 1 tag payload (getLines tag payload))

/-- What SET_CHUTE_POLICY does once taken (R159). -/
def setChutePolicy (tag : Byte) (payload : List Byte) (s : State) : State :=
  match laneItem payload 0, policiesItem payload with
  | some l, some policies =>
    (s.ok 0x42 tag []).editLane l fun ln => { ln with cfg := { ln.cfg with policies := policies } }
  | _, _ => s.refuse 0x42 tag .badValue

/-- SET_CHUTE_POLICY (R159). -/
def execSetChutePolicy (tag : Byte) (payload : List Byte) (s : State) : Out :=
  .next (s.takeRequest 0x42 4 tag payload (setChutePolicy tag payload))

/-- What SET_BUSY_ENABLES does once taken (R160). -/
def setBusyEnables (tag : Byte) (payload : List Byte) (s : State) : State :=
  match laneItem payload 0 with
  | none => s.refuse 0x43 tag .badValue
  | some l => (s.ok 0x43 tag []).editLane l fun ln => { ln with cfg := { ln.cfg with
      busyEnables := Vector.ofFn fun i : Fin 7 => onOff payload (1 + i.val)
      coupled := onOff payload 8 } }

/-- SET_BUSY_ENABLES (R160). -/
def execSetBusyEnables (tag : Byte) (payload : List Byte) (s : State) : Out :=
  .next (s.takeRequest 0x43 9 tag payload (setBusyEnables tag payload))

/-- A lane's host hold takes the value given, with result CHANGED or NO_CHANGE (R161). -/
def setHostHold (code : Byte) (hold : Bool) (tag : Byte) (payload : List Byte) (s : State) : State :=
  match laneItem payload 0 with
  | none => s.refuse code tag .badValue
  | some l =>
    (s.ok code tag
      [if s.lanes[l].hostHold = hold then Result.noChange.code else Result.changed.code]).editLane l
        fun ln => { ln with hostHold := hold }

/-- HOLD_FEED (R161). -/
def execHoldFeed (tag : Byte) (payload : List Byte) (s : State) : Out :=
  .next (s.takeRequest 0x44 1 tag payload (setHostHold 0x44 true tag payload))

/-- RELEASE_FEED (R161). -/
def execReleaseFeed (tag : Byte) (payload : List Byte) (s : State) : Out :=
  .next (s.takeRequest 0x45 1 tag payload (setHostHold 0x45 false tag payload))

/-- What RELEASE_MILL_TRIP does once taken (R158). -/
def releaseMillTrip (tag : Byte) (_payload : List Byte) (s : State) : State :=
  if s.lines.debounced[millTripLine] then s.refuse 0x46 tag .wrongState
  else { s.ok 0x46 tag [if s.millTripLatch then Result.released.code else Result.noChange.code] with
    millTripLatch := false }

/-- RELEASE_MILL_TRIP (R158). -/
def execReleaseMillTrip (tag : Byte) (payload : List Byte) (s : State) : Out :=
  .next (s.takeRequest 0x46 1 tag payload (releaseMillTrip tag payload))

end Sys2Proof.Machine
end

