-- ==== Sys2Proof/Machine/Inputs.lean ====
section
/-! DEFINITION. What arrives at the sensor links, the encoder inputs and the field lines. -/

namespace Sys2Proof.Machine

/-- Bytes at a sensor link of a part that works (R48, R194). -/
def State.sensorBytes (s : State) (l : LaneId) (h : HeadId) (bytes : List LineByte) : State :=
  if s.works then s.stepLane l (receiveBytes h bytes) else s

/-- SENSOR_FRAME_REJECTED (R49, R51): the bytes go through the receiver (log 7). -/
def execSensorFrameRejected (lane : LaneId) (head : HeadId) (bytes : List LineByte) (s : State) : Out :=
  .next (s.sensorBytes lane head bytes)

/-- The gap of a receiver's frame has run out (R49). -/
def State.sensorGapDue (s : State) (l : LaneId) (h : HeadId) : Bool :=
  s.works && s.lanes[l].receivers[h].asm.gapDue sensorFormat.gap s.lineTime

/-- SENSOR_LINK_GAP_TIMEOUT (R49). -/
def execSensorLinkGapTimeout (lane : LaneId) (head : HeadId) (s : State) : Out :=
  .next (if s.sensorGapDue lane head then s.stepLane lane (receiverGap head) else s)

/-- HEAD_IDLE (R52, R54). -/
def execHeadIdle (lane : LaneId) (head : HeadId) (headNumber : Byte) (s : State) : Out :=
  .next (s.sensorBytes lane head (onLine (frameOf sensorMarker (headIdleBody headNumber))))

/-- DETECTION (R52, R55 to R64). -/
def execDetection (lane : LaneId) (head : HeadId) (rec : DetectionRecord) (s : State) : Out :=
  .next (s.sensorBytes lane head (onLine (frameOf sensorMarker (detectionBody rec))))

/-- One of the model's free choices has been taken (log 3). -/
def State.chosen (s : State) : State := { s with choices := s.choices + 1 }

/-- The levels at the encoder inputs of a lane, on a part that samples nothing (log 10). -/
def Lane.atPins (a b : Bool) (ln : Lane) : Lane := { ln with tb := { ln.tb with phases := (a, b) } }

/-- The samples of a lane's encoder phases that stand at the front of the queue, one behind the other. -/
def samplesNext (l : LaneId) : List Instr → List (Bool × Bool)
  | .encoderPhaseChange k a b :: rest => if k = l then (a, b) :: samplesNext l rest else []
  | _ => []

/-- The sample is left for the next one to take, with those held before it: the samples that follow it in the
queue carry P past the reverse limit before any block acts, and the free pick says that these backward steps
come faster than the cut can be taken (R33; log 3, log 19). -/
def State.holdsBack (s : State) (l : LaneId) (phases : Bool × Bool) : Bool :=
  let held := s.held[l] ++ [phases]
  !s.lanes[l].outrunBy s.lineTime held &&
  s.lanes[l].outrunBy s.lineTime (held ++ samplesNext l s.pending) &&
  (!s.held[l].isEmpty || Config.pick s.choices 16 % 2 == 1)

/-- The samples held before this one, which it takes with it where it is the one that carries P past the limit. -/
def State.earlier (s : State) (l : LaneId) (phases : Bool × Bool) : List (Bool × Bool) :=
  if s.lanes[l].outrunBy s.lineTime (s.held[l] ++ [phases]) && !s.lanes[l].outrunBy s.lineTime s.held[l]
  then s.held[l] else []

/-- The state with the samples given held back on a lane. -/
def State.holding (s : State) (l : LaneId) (samples : List (Bool × Bool)) : State :=
  { s with held := s.held.set l samples }

/-- A sample of the encoder phases of a part whose clock runs: held back, or taken with those held before it. -/
def State.sampleTaken (s : State) (l : LaneId) (a b : Bool) : State :=
  if s.holdsBack l (a, b) then s.holding l (s.held[l] ++ [(a, b)])
  else (s.holding l []).stepLane l (phaseSamples (s.earlier l (a, b)) a b)

/-- ENCODER_PHASE_CHANGE (R26 to R28, R31 to R34, R39, R40). -/
def execEncoderPhaseChange (lane : LaneId) (a b : Bool) (s : State) : Out :=
  .next (if s.live then (s.sampleTaken lane a b).chosen else s.editLane lane (Lane.atPins a b))

/-- RAW_LINE_CHANGE (R151). A change of AIR_OK or PLANT_STOP acts as its own row does (log 5). -/
def execRawLineChange (line : LineId) (asserted : Bool) (s : State) : Out := .next (s.rawChange line asserted)

/-- RAW_AIR_OK_CHANGE (R106, R151, R154). -/
def execRawAirOkChange (lane : LaneId) (asserted : Bool) (s : State) : Out :=
  .next (s.rawChange (airLine lane).castSucc asserted)

/-- RAW_PLANT_STOP_ASSERTED (R121, R156). -/
def execRawPlantStopAsserted (s : State) : Out := .next (s.rawChange plantStopLine true)

/-- RAW_PLANT_STOP_RELEASED (R153, R156). -/
def execRawPlantStopReleased (s : State) : Out := .next (s.rawChange plantStopLine false)

end Sys2Proof.Machine
end

