-- ==== Sys2Proof/Machine/LinkCommands.lean ====
section
/-! DEFINITION. The commands of the plant link itself (R180 to R190) and the device-wide requests:
IDENTIFY, RESET_DEVICE, SAVE_SETTINGS, GET_LINK_STATUS. -/

namespace Sys2Proof.Machine

/-- PLANT_LINK_FRAME (R180, R181): the bytes reach the frame assembler of a part that works. -/
def execPlantLinkFrame (bytes : List LineByte) (s : State) : Out :=
  .next (if s.works then s.withLink fun k => k.receiveAll s.lineTime bytes else s)

/-- The gap of the plant link's frame has run out (R180). -/
def State.plantGapDue (s : State) : Bool := s.works && s.link.asm.gapDue plantFormat.gap s.lineTime

/-- PLANT_LINK_GAP_TIMEOUT (R180). -/
def execPlantLinkGapTimeout (s : State) : Out := .next (if s.plantGapDue then s.withLink Link.gapEnds else s)

/-- FRAME_SENT (R187, R189). The sender begins to send at step 4 of a start-up: the notices that step 3
queues wait until then, so the command changes nothing on a part that is starting (log 22). -/
def execFrameSent (s : State) : Out := .next (if s.works then s.frameGone else s)

/-- UNKNOWN_REQUEST (R182). -/
def execUnknownRequest (tag kind : Byte) (payload : List Byte) (s : State) : Out :=
  .next (s.takeUnknown tag kind payload)

/-- The items of IDENTIFY (R195); store state VALID is 0 and save state IDLE is 0 (R179). -/
def State.identity (s : State) : List Byte :=
  beBytes 1 0x3D ++ beBytes 2 0x01B0 ++ beBytes 1 1 ++ beBytes 1 s.resetCause.code ++
  beBytes 1 (if s.store.valid then 0 else 1) ++ beBytes 1 (if s.store.saving.isSome then 1 else 0) ++
  beBytes 4 s.lineTime.toNat

/-- What IDENTIFY does once taken (R195). -/
def identify (tag : Byte) (_payload : List Byte) (s : State) : State := s.ok 0x01 tag s.identity

/-- IDENTIFY (R195). -/
def execIdentify (tag : Byte) (payload : List Byte) (s : State) : Out :=
  .next (s.takeRequest 0x01 1 tag payload (identify tag payload))

/-- What RESET_DEVICE does once taken: the reply, and no further take (R189). -/
def resetDevice (tag : Byte) (_payload : List Byte) (s : State) : State :=
  (s.ok 0x02 tag []).withLink fun k => { k with resetTaken := true }

/-- RESET_DEVICE (R189). -/
def execResetDevice (tag : Byte) (payload : List Byte) (s : State) : Out :=
  .next (s.takeRequest 0x02 1 tag payload (resetDevice tag payload))

/-- What SAVE_SETTINGS does once taken (R193). -/
def saveSettings (tag : Byte) (_payload : List Byte) (s : State) : State :=
  if s.store.saving.isSome then s.refuse 0x03 tag .busy
  else (s.answer 0x03 tag .accepted []).beginSave

/-- SAVE_SETTINGS (R193). -/
def execSaveSettings (tag : Byte) (payload : List Byte) (s : State) : Out :=
  .next (s.takeRequest 0x03 1 tag payload (saveSettings tag payload))

/-- SAVE_WRITE_END (R193). -/
def execSaveWriteEnd (agrees : Bool) (s : State) : Out := .next (s.endSave agrees)

/-- The items of GET_LINK_STATUS (R190). -/
def Link.status (k : Link) : List Byte :=
  [k.goodFrames, k.badFrames, k.discarded, k.repliesSent, k.noticesSent, k.dropped].flatMap
    (fun c => beBytes 2 c.toNat) ++
  beBytes 1 k.input.length ++ beBytes 1 k.output.length ++ beBytes 1 k.notices

/-- The six link counters at 0 (R190). -/
def Link.cleared (k : Link) : Link :=
  { k with goodFrames := 0, badFrames := 0, discarded := 0, repliesSent := 0, noticesSent := 0, dropped := 0 }

/-- What GET_LINK_STATUS does once taken (R190). -/
def getLinkStatus (tag : Byte) (payload : List Byte) (s : State) : State :=
  let replied := s.ok 0x04 tag s.link.status
  if onOff payload 0 then replied.withLink Link.cleared else replied

/-- GET_LINK_STATUS (R190). -/
def execGetLinkStatus (tag : Byte) (payload : List Byte) (s : State) : Out :=
  .next (s.takeRequest 0x04 1 tag payload (getLinkStatus tag payload))

end Sys2Proof.Machine
end

