-- ==== Sys2Proof/Machine/LotRequests.lean ====
section
/-! DEFINITION. The requests over a lane's lots (R139, R143, R145, R146). -/

namespace Sys2Proof.Machine

/-- A close by the host, with the completion that may follow in the same step (R139, R140). -/
def hostClose (newId : LotId) (env : LaneEnv) (ln : Lane) : LaneOut :=
  ln.withLots ((ln.lots.closeFilling env.id env.now .host newId).settle env.id env.now)

/-- The drain of a lot that the host closes now completes in the same step (R139): none of its parcels
remains. -/
def Lane.closesAtOnce (ln : Lane) : Bool := ln.lots.filling.allRemoved

/-- What CLOSE_LOT does once taken (R139). -/
def closeLot (tag : Byte) (payload : List Byte) (s : State) : State :=
  match laneItem payload 0 with
  | none => s.refuse 0x30 tag .badValue
  | some l =>
    let newId : LotId := BitVec.ofNat 16 (item payload 1 2)
    let ln := s.lanes[l]
    if newId = ln.lots.filling.id then s.refuse 0x30 tag .badValue
    else if ln.lots.draining.isSome then s.refuse 0x30 tag .lotDraining
    else (s.ok 0x30 tag
      [if ln.closesAtOnce then Result.completed.code else Result.draining.code]).stepLane l (hostClose newId)

/-- CLOSE_LOT (R139). -/
def execCloseLot (tag : Byte) (payload : List Byte) (s : State) : Out :=
  .next (s.takeRequest 0x30 3 tag payload (closeLot tag payload))

/-- A new lot limit; a pending auto-close mark is cleared if the limit is 0 or greater than the filling
lot's formed count, counts compared modulo 2^32 as positions are (R135, R143). -/
def Lane.newLimit (limit : Nat) (ln : Lane) : Lane :=
  { ln with
    cfg := { ln.cfg with lotLimit := limit }
    lots := { ln.lots with
      pendingClose := ln.lots.pendingClose && limit != 0 &&
        !ahead ln.lots.filling.formed (BitVec.ofNat 32 limit) } }

/-- What SET_LOT_LIMIT does once taken (R143). The limit takes three bytes, so none is above
16,777,215 (R179, R186). -/
def setLotLimit (tag : Byte) (payload : List Byte) (s : State) : State :=
  match laneItem payload 0 with
  | none => s.refuse 0x31 tag .badValue
  | some l => (s.ok 0x31 tag []).editLane l (Lane.newLimit (item payload 1 3))

/-- SET_LOT_LIMIT (R143). -/
def execSetLotLimit (tag : Byte) (payload : List Byte) (s : State) : Out :=
  .next (s.takeRequest 0x31 4 tag payload (setLotLimit tag payload))

/-- A lot record that may be absent, with its presence byte (R146, R179). -/
def lotItem : Option LotRecord → List Byte
  | some r => 1 :: r.encode
  | none => 0 :: absentLotRecord

/-- The items of GET_LOT_PROGRESS, in the order of R146 (log 15); the choice FILLING is 0. The draining
lot's parcels in the queue are 0 to 256 (R16), which takes two bytes (R179). -/
def Lane.lotProgress (ln : Lane) (draining : Bool) : List Byte :=
  lotItem (if draining then ln.lots.draining else some ln.lots.filling) ++
  optional 2 (if draining then ln.lots.draining.map (·.remaining.toNat) else none) ++
  beBytes 3 ln.cfg.lotLimit ++ bit ln.lots.pendingClose ++ beBytes 2 ln.lots.nextCompletion.toNat ++
  beBytes 1 ln.lots.ring.length ++
  ln.lots.ring.flatMap fun r => beBytes 2 (r.completion.getD 0).toNat ++ beBytes 2 r.id.toNat

/-- What GET_LOT_PROGRESS does once taken (R146). -/
def getLotProgress (tag : Byte) (payload : List Byte) (s : State) : State :=
  match laneItem payload 0, item payload 1 1 with
  | some l, 0 => s.ok 0x32 tag (s.lanes[l].lotProgress false)
  | some l, 1 => s.ok 0x32 tag (s.lanes[l].lotProgress true)
  | _, _ => s.refuse 0x32 tag .badValue

/-- GET_LOT_PROGRESS (R146). -/
def execGetLotProgress (tag : Byte) (payload : List Byte) (s : State) : Out :=
  .next (s.takeRequest 0x32 2 tag payload (getLotProgress tag payload))

/-- The newest record of the ring with the id given (R145). -/
def LotUnit.result (u : LotUnit) (id : LotId) : Option LotRecord := u.ring.reverse.find? (·.id == id)

/-- What GET_LOT_RESULT does once taken (R145). -/
def getLotResult (tag : Byte) (payload : List Byte) (s : State) : State :=
  match laneItem payload 0 with
  | none => s.refuse 0x33 tag .badValue
  | some l =>
    match s.lanes[l].lots.result (BitVec.ofNat 16 (item payload 1 2)) with
    | some r => s.ok 0x33 tag r.encode
    | none => s.refuse 0x33 tag .notFound

/-- GET_LOT_RESULT (R145). -/
def execGetLotResult (tag : Byte) (payload : List Byte) (s : State) : Out :=
  .next (s.takeRequest 0x33 3 tag payload (getLotResult tag payload))

end Sys2Proof.Machine
end

