-- ==== Sys2Proof/Machine/Power.lean ====
section
/-! DEFINITION. Power and reset commands (R194 to R196). -/

namespace Sys2Proof.Machine

/-- POWER_APPLIED (R194, R195). A part that has its supply already is not changed (log 5). -/
def execPowerApplied (s : State) : Out := .next s.powerUp

/-- RST_N_ASSERTED (R194): held in reset, feed holds asserted, frames and a save cut off. -/
def execRstNAsserted (s : State) : Out := .next s.holdReset

/-- RST_N_RELEASED (R194): a part held in reset starts up. -/
def execRstNReleased (s : State) : Out := .next s.releaseReset

/-- POWER_LOST (R196). -/
def execPowerLost (s : State) : Out := .next s.losePower

/-- PART_BEGINS_TO_WORK (R194 step 4): after steps 1 to 3, otherwise no change (log 5). -/
def execPartBeginsToWork (s : State) : Out :=
  .next (match s.phase with
    | .starting => s.beginWork
    | _ => s)

end Sys2Proof.Machine
end

