-- ==== Sys2Proof/Machine/TimebaseRequests.lean ====
section
/-! DEFINITION. The requests over a lane's timebase (R28, R38, R41, R42, R44). -/

namespace Sys2Proof.Machine

/-- What SET_TIMEBASE does once taken: values, then a pending switch, then the state (R42, R44). -/
def setTimebase (tag : Byte) (payload : List Byte) (s : State) : State :=
  match laneItem payload 0, TimebaseSetup.ofPayload? payload with
  | some l, some setup =>
    if s.lanes[l].tb.pendingSwitch.isSome then s.refuse 0x13 tag .switchPending
    else if s.lanes[l].state = .stopped then
      (s.ok 0x13 tag []).editLane l fun ln => { ln with cfg := { ln.cfg with setup := setup } }
    else s.refuse 0x13 tag .wrongState
  | _, _ => s.refuse 0x13 tag .badValue

/-- SET_TIMEBASE (R44). -/
def execSetTimebase (tag : Byte) (payload : List Byte) (s : State) : Out :=
  .next (s.takeRequest 0x13 8 tag payload (setTimebase tag payload))

/-- A new scale: in force at once on a lane at rest, pending on another (R28). -/
def Lane.newScale (scale : Nat) (ln : Lane) : Lane :=
  if ln.active then { ln with tb := { ln.tb with pendingScale := some scale } }
  else { ln with cfg := { ln.cfg with scale := scale }
                 tb := { ln.tb with pendingScale := none, residue := 0 } }

/-- A new nominal rate becomes the pending rate (R30; log 11). -/
def Lane.newRate (rate : Nat) (ln : Lane) : Lane :=
  { ln with tb := { ln.tb with pendingRate := some ⟨rate, ln.tb.accumulator.isNone⟩ } }

/-- What SET_SCALE does once taken (R28, R30, R42). -/
def setScale (tag : Byte) (payload : List Byte) (s : State) : State :=
  let scale := item payload 1 1
  let rate := item payload 2 2
  match laneItem payload 0 with
  | none => s.refuse 0x14 tag .badValue
  | some l =>
    if (1 ≤ scale ∧ scale ≤ 64) ∧ (1 ≤ rate ∧ rate ≤ 10000) then
      if s.lanes[l].tb.pendingSwitch.isSome then s.refuse 0x14 tag .switchPending
      else (s.ok 0x14 tag []).editLane l fun ln => (ln.newScale scale).newRate rate
    else s.refuse 0x14 tag .badValue

/-- SET_SCALE (R28). -/
def execSetScale (tag : Byte) (payload : List Byte) (s : State) : Out :=
  .next (s.takeRequest 0x14 4 tag payload (setScale tag payload))

/-- The pending switch that SWITCH_SOURCE leaves: none when the target is the active source (R38). -/
def requestedSwitch (now : Time) (target active : Source) : Option PendingSwitch :=
  if target = active then none
  else match target with
    | .nominal => some .toNominal
    | .encoder => some (.toEncoder (.begin now))

/-- What SWITCH_SOURCE does once taken (R38). -/
def switchSource (tag : Byte) (payload : List Byte) (s : State) : State :=
  match laneItem payload 0, Source.ofCode? (item payload 1 1) with
  | some l, some target =>
    if s.lanes[l].state = .running then
      let pend := requestedSwitch s.lineTime target s.lanes[l].tb.source
      (s.ok 0x15 tag ([if pend.isSome then Result.pending.code else Result.noChange.code] ++
        bit s.lanes[l].tb.pendingSwitch.isSome)).editLane l fun ln =>
          { ln with tb := { ln.tb with pendingSwitch := pend } }
    else s.refuse 0x15 tag .wrongState
  | _, _ => s.refuse 0x15 tag .badValue

/-- SWITCH_SOURCE (R38). -/
def execSwitchSource (tag : Byte) (payload : List Byte) (s : State) : Out :=
  .next (s.takeRequest 0x15 2 tag payload (switchSource tag payload))

/-- What ABORT_SWITCH does once taken (R41). -/
def abortSwitch (tag : Byte) (payload : List Byte) (s : State) : State :=
  match laneItem payload 0 with
  | none => s.refuse 0x16 tag .badValue
  | some l =>
    (s.ok 0x16 tag
      [if s.lanes[l].tb.pendingSwitch.isSome then Result.aborted.code else Result.noChange.code]).editLane l
        Lane.dropSwitch

/-- ABORT_SWITCH (R41). -/
def execAbortSwitch (tag : Byte) (payload : List Byte) (s : State) : Out :=
  .next (s.takeRequest 0x16 1 tag payload (abortSwitch tag payload))

end Sys2Proof.Machine
end

