-- ==== Sys2Proof/Machine/Timers.lean ====
section
/-! DEFINITION. The steps that the part's own clock makes due (R29, R34, R40, R104, R112, R138, R151),
and the clock itself. Each acts only when it is due (log 5). -/

namespace Sys2Proof.Machine

/-- NOMINAL_COUNT (R29 to R31, R40). -/
def execNominalCount (lane : LaneId) (s : State) : Out :=
  .next (if s.live && s.lanes[lane].nominalDue then (s.stepLane lane nominalCount).chosen else s)

/-- A valve bar port's frame has gone out (R112). -/
def portFinishes (st : StationId) (env : LaneEnv) (ln : Lane) : Lane :=
  ln.modStation st fun x => { x with port :=
    if x.port.sending.isSome then x.port.finish env.id st (ln.openSet st) else x.port }

/-- VALVE_BAR_FRAME_SENT (R112). -/
def execValveBarFrameSent (lane : LaneId) (station : StationId) (s : State) : Out :=
  .next (if s.works then s.editLane lane (portFinishes station (s.env lane)) else s)

/-- SETTLE_PERIOD_END (R40). -/
def execSettlePeriodEnd (lane : LaneId) (s : State) : Out :=
  .next (if s.live && s.lanes[lane].settleDue s.lineTime then s.stepLane lane settleEnd else s)

/-- ENCODER_MONITOR_EXPIRY (R35). -/
def execEncoderMonitorExpiry (lane : LaneId) (s : State) : Out :=
  .next (if s.live && s.lanes[lane].expiryDue s.lineTime then s.stepLane lane monitorExpires else s)

/-- The parcel with the serial given, if its firing has lasted its max open time (R104). -/
def Lane.overdue (ln : Lane) (now : Time) (serial : Serial) : Option Parcel :=
  (ln.find serial).filter (ln.maxOpenDue now)

/-- MAX_OPEN_TIME_EXPIRY (R104). -/
def execMaxOpenTimeExpiry (lane : LaneId) (serial : Serial) (s : State) : Out :=
  .next (match s.lanes[lane].overdue s.lineTime serial with
    | some p => if s.live then s.stepLane lane fun env => endByMaxOpen env p else s
    | none => s)

/-- DEBOUNCE_EXPIRY (R151). -/
def execDebounceExpiry (line : DebouncedId) (s : State) : Out := .next (s.debounceExpires line)

/-- µs in a ms of line time. -/
def microsPerMs : Nat := 1000

/-- One ms of running time of a lane's filling lot, on a RUNNING lane (R138). -/
def Lane.runMs (hold : Bool) (ln : Lane) : Lane :=
  if ln.state = .running then { ln with lots := ln.lots.accrueTime hold } else ln

/-- One ms of line time passes: it is added to the running time of each RUNNING lane's filling lot
(R138). -/
def State.passMs (s : State) : State :=
  { s with
    lineTime := s.lineTime + 1
    micros := 0
    lanes := Vector.ofFn fun l : Fin 4 => s.lanes[l].runMs (s.feedHold l) }

/-- LOT_TIME_ACCRUAL (R138): acts when the clock has counted the µs of one ms (log 1). -/
def execLotTimeAccrual (s : State) : Out :=
  .next (if s.live && s.micros == microsPerMs then s.passMs else s)

/-! ## The part's own clock (log 1) -/

/-- One µs of the part's clock (R29). -/
def State.passMicro (s : State) : State :=
  { s with
    micros := s.micros + 1
    lanes := Vector.ofFn fun l : Fin 4 => s.lanes[l].gain }

/-- Timer steps of a lane that are due. -/
def State.laneDue (s : State) (l : LaneId) : List Instr :=
  (if s.lanes[l].nominalDue then [.nominalCount l] else []) ++
  (if s.lanes[l].settleDue s.lineTime then [.settlePeriodEnd l] else []) ++
  (if s.lanes[l].expiryDue s.lineTime then [.encoderMonitorExpiry l] else []) ++
  ((s.lanes[l].queue.filter (s.lanes[l].maxOpenDue s.lineTime)).map fun p =>
    .maxOpenTimeExpiry l p.serial) ++
  ((List.finRange 3).filter (s.sensorGapDue l)).map fun h => .sensorLinkGapTimeout l h

/-- The take of the oldest waiting request, when it may be taken (R182). -/
def State.takeDue (s : State) : List Instr :=
  match s.link.input with
  | r :: _ => if s.mayTake then [takingOf r] else []
  | [] => []

/-- Every step that is due of itself at this moment. -/
def State.due (s : State) : List Instr :=
  (if s.micros = microsPerMs then [.lotTimeAccrual] else []) ++
  (List.finRange 4).flatMap s.laneDue ++
  ((List.finRange 25).filter s.debounceDue).map .debounceExpiry ++
  (if s.statusIsDue then [.statusDue] else []) ++
  (if s.plantGapDue then [.plantLinkGapTimeout] else []) ++
  s.takeDue

/-- Which of the due steps is taken: the only one, or one that a free pick names (log 3). -/
def chooseDue (choice : Nat) : List Instr → Option Instr
  | [] => none
  | [c] => some c
  | cs => cs[Config.pick choice 0 % cs.length]?

/-- What a part whose clock does not run does while no command waits: one without supply stays so or is
given the supply, by a free pick (log 4); one held in reset waits. -/
def State.idleDown (s : State) : State :=
  match s.phase with
  | .unpowered => if Config.pick s.choices 0 % 2 = 0 then s.chosen else s.supplied.chosen
  | _ => s

/-- What the part does while no command waits: on a part whose clock runs, the due step joins the queue,
or, with none due, one µs passes (log 1). -/
def State.idle (s : State) : State :=
  if s.live then
    match chooseDue s.choices s.due with
    | some c => { s with pending := [c], choices := s.choices + 1 }
    | none => s.passMicro
  else s.idleDown

end Sys2Proof.Machine
end

