-- ==== Sys2Proof/Machine/Dispatch.lean ====
section
/-! DEFINITION. One arm for each command, each a direct call of its meaning. -/

namespace Sys2Proof.Machine

/-- The effect of a command on everything but the queue of commands. -/
def exec (i : Instr) (s : State) : Host.Outcome State Fault Refusal :=
  match i with
  | .powerApplied => Sys2Proof.Machine.execPowerApplied s
  | .rstNAsserted => Sys2Proof.Machine.execRstNAsserted s
  | .rstNReleased => Sys2Proof.Machine.execRstNReleased s
  | .plantLinkFrame bytes => Sys2Proof.Machine.execPlantLinkFrame bytes s
  | .plantLinkGapTimeout => Sys2Proof.Machine.execPlantLinkGapTimeout s
  | .unknownRequest tag kind payload => Sys2Proof.Machine.execUnknownRequest tag kind payload s
  | .frameSent => Sys2Proof.Machine.execFrameSent s
  | .identify tag payload => Sys2Proof.Machine.execIdentify tag payload s
  | .resetDevice tag payload => Sys2Proof.Machine.execResetDevice tag payload s
  | .saveSettings tag payload => Sys2Proof.Machine.execSaveSettings tag payload s
  | .saveWriteEnd agrees => Sys2Proof.Machine.execSaveWriteEnd agrees s
  | .getLinkStatus tag payload => Sys2Proof.Machine.execGetLinkStatus tag payload s
  | .getLaneStatus tag payload => Sys2Proof.Machine.execGetLaneStatus tag payload s
  | .setLaneGeometry tag payload => Sys2Proof.Machine.execSetLaneGeometry tag payload s
  | .getLaneGeometry tag payload => Sys2Proof.Machine.execGetLaneGeometry tag payload s
  | .setTimebase tag payload => Sys2Proof.Machine.execSetTimebase tag payload s
  | .setScale tag payload => Sys2Proof.Machine.execSetScale tag payload s
  | .switchSource tag payload => Sys2Proof.Machine.execSwitchSource tag payload s
  | .abortSwitch tag payload => Sys2Proof.Machine.execAbortSwitch tag payload s
  | .startLane tag payload => Sys2Proof.Machine.execStartLane tag payload s
  | .stopLane tag payload => Sys2Proof.Machine.execStopLane tag payload s
  | .clearHalt tag payload => Sys2Proof.Machine.execClearHalt tag payload s
  | .resetLane tag payload => Sys2Proof.Machine.execResetLane tag payload s
  | .setClassEntry tag payload => Sys2Proof.Machine.execSetClassEntry tag payload s
  | .getClassEntry tag payload => Sys2Proof.Machine.execGetClassEntry tag payload s
  | .setProfile tag payload => Sys2Proof.Machine.execSetProfile tag payload s
  | .getProfile tag payload => Sys2Proof.Machine.execGetProfile tag payload s
  | .setStation tag payload => Sys2Proof.Machine.execSetStation tag payload s
  | .enableStation tag payload => Sys2Proof.Machine.execEnableStation tag payload s
  | .disableStation tag payload => Sys2Proof.Machine.execDisableStation tag payload s
  | .getStationStatus tag payload => Sys2Proof.Machine.execGetStationStatus tag payload s
  | .closeLot tag payload => Sys2Proof.Machine.execCloseLot tag payload s
  | .setLotLimit tag payload => Sys2Proof.Machine.execSetLotLimit tag payload s
  | .getLotProgress tag payload => Sys2Proof.Machine.execGetLotProgress tag payload s
  | .getLotResult tag payload => Sys2Proof.Machine.execGetLotResult tag payload s
  | .injectStart tag payload => Sys2Proof.Machine.execInjectStart tag payload s
  | .injectStop tag payload => Sys2Proof.Machine.execInjectStop tag payload s
  | .setLineConfig tag payload => Sys2Proof.Machine.execSetLineConfig tag payload s
  | .getLines tag payload => Sys2Proof.Machine.execGetLines tag payload s
  | .setChutePolicy tag payload => Sys2Proof.Machine.execSetChutePolicy tag payload s
  | .setBusyEnables tag payload => Sys2Proof.Machine.execSetBusyEnables tag payload s
  | .holdFeed tag payload => Sys2Proof.Machine.execHoldFeed tag payload s
  | .releaseFeed tag payload => Sys2Proof.Machine.execReleaseFeed tag payload s
  | .releaseMillTrip tag payload => Sys2Proof.Machine.execReleaseMillTrip tag payload s
  | .readTrace tag payload => Sys2Proof.Machine.execReadTrace tag payload s
  | .clearTrace tag payload => Sys2Proof.Machine.execClearTrace tag payload s
  | .getEvents tag payload => Sys2Proof.Machine.execGetEvents tag payload s
  | .clearEvents tag payload => Sys2Proof.Machine.execClearEvents tag payload s
  | .setNotices tag payload => Sys2Proof.Machine.execSetNotices tag payload s
  | .setStatusPeriod tag payload => Sys2Proof.Machine.execSetStatusPeriod tag payload s
  | .statusDue => Sys2Proof.Machine.execStatusDue s
  | .sensorFrameRejected lane head bytes => Sys2Proof.Machine.execSensorFrameRejected lane head bytes s
  | .sensorLinkGapTimeout lane head => Sys2Proof.Machine.execSensorLinkGapTimeout lane head s
  | .headIdle lane head headNumber => Sys2Proof.Machine.execHeadIdle lane head headNumber s
  | .detection lane head r => Sys2Proof.Machine.execDetection lane head r s
  | .encoderPhaseChange lane a b => Sys2Proof.Machine.execEncoderPhaseChange lane a b s
  | .nominalCount lane => Sys2Proof.Machine.execNominalCount lane s
  | .valveBarFrameSent lane station => Sys2Proof.Machine.execValveBarFrameSent lane station s
  | .settlePeriodEnd lane => Sys2Proof.Machine.execSettlePeriodEnd lane s
  | .encoderMonitorExpiry lane => Sys2Proof.Machine.execEncoderMonitorExpiry lane s
  | .maxOpenTimeExpiry lane serial => Sys2Proof.Machine.execMaxOpenTimeExpiry lane serial s
  | .rawLineChange line asserted => Sys2Proof.Machine.execRawLineChange line asserted s
  | .debounceExpiry line => Sys2Proof.Machine.execDebounceExpiry line s
  | .rawAirOkChange lane asserted => Sys2Proof.Machine.execRawAirOkChange lane asserted s
  | .rawPlantStopAsserted => Sys2Proof.Machine.execRawPlantStopAsserted s
  | .rawPlantStopReleased => Sys2Proof.Machine.execRawPlantStopReleased s
  | .lotTimeAccrual => Sys2Proof.Machine.execLotTimeAccrual s
  | .powerLost => Sys2Proof.Machine.execPowerLost s
  | .partBeginsToWork => Sys2Proof.Machine.execPartBeginsToWork s

end Sys2Proof.Machine
end

