-- ==== Sys2Proof/WellFormed.lean ====
section
/-! DEFINITION. Which commands are well-formed: those the outside can put to the part. -/

namespace Sys2Proof

/-- A request's payload holds 1 to 248 bytes, since a body has 3 to 250 (R179). -/
def payloadWf (payload : List Byte) : Bool := 1 ≤ payload.length && payload.length ≤ 248

/-- The request whose taking a command is, for the request rows (R182, R186). -/
def Instr.request? : Instr → Option Request
  | .unknownRequest tag kind payload => some ⟨tag, kind, payload⟩
  | .identify tag payload => some ⟨tag, 0x01, payload⟩
  | .resetDevice tag payload => some ⟨tag, 0x02, payload⟩
  | .saveSettings tag payload => some ⟨tag, 0x03, payload⟩
  | .getLinkStatus tag payload => some ⟨tag, 0x04, payload⟩
  | .getLaneStatus tag payload => some ⟨tag, 0x10, payload⟩
  | .setLaneGeometry tag payload => some ⟨tag, 0x11, payload⟩
  | .getLaneGeometry tag payload => some ⟨tag, 0x12, payload⟩
  | .setTimebase tag payload => some ⟨tag, 0x13, payload⟩
  | .setScale tag payload => some ⟨tag, 0x14, payload⟩
  | .switchSource tag payload => some ⟨tag, 0x15, payload⟩
  | .abortSwitch tag payload => some ⟨tag, 0x16, payload⟩
  | .startLane tag payload => some ⟨tag, 0x17, payload⟩
  | .stopLane tag payload => some ⟨tag, 0x18, payload⟩
  | .clearHalt tag payload => some ⟨tag, 0x19, payload⟩
  | .resetLane tag payload => some ⟨tag, 0x1A, payload⟩
  | .setClassEntry tag payload => some ⟨tag, 0x20, payload⟩
  | .getClassEntry tag payload => some ⟨tag, 0x21, payload⟩
  | .setProfile tag payload => some ⟨tag, 0x22, payload⟩
  | .getProfile tag payload => some ⟨tag, 0x23, payload⟩
  | .setStation tag payload => some ⟨tag, 0x28, payload⟩
  | .enableStation tag payload => some ⟨tag, 0x29, payload⟩
  | .disableStation tag payload => some ⟨tag, 0x2A, payload⟩
  | .getStationStatus tag payload => some ⟨tag, 0x2B, payload⟩
  | .closeLot tag payload => some ⟨tag, 0x30, payload⟩
  | .setLotLimit tag payload => some ⟨tag, 0x31, payload⟩
  | .getLotProgress tag payload => some ⟨tag, 0x32, payload⟩
  | .getLotResult tag payload => some ⟨tag, 0x33, payload⟩
  | .injectStart tag payload => some ⟨tag, 0x38, payload⟩
  | .injectStop tag payload => some ⟨tag, 0x39, payload⟩
  | .setLineConfig tag payload => some ⟨tag, 0x40, payload⟩
  | .getLines tag payload => some ⟨tag, 0x41, payload⟩
  | .setChutePolicy tag payload => some ⟨tag, 0x42, payload⟩
  | .setBusyEnables tag payload => some ⟨tag, 0x43, payload⟩
  | .holdFeed tag payload => some ⟨tag, 0x44, payload⟩
  | .releaseFeed tag payload => some ⟨tag, 0x45, payload⟩
  | .releaseMillTrip tag payload => some ⟨tag, 0x46, payload⟩
  | .readTrace tag payload => some ⟨tag, 0x50, payload⟩
  | .clearTrace tag payload => some ⟨tag, 0x51, payload⟩
  | .getEvents tag payload => some ⟨tag, 0x52, payload⟩
  | .clearEvents tag payload => some ⟨tag, 0x53, payload⟩
  | .setNotices tag payload => some ⟨tag, 0x54, payload⟩
  | .setStatusPeriod tag payload => some ⟨tag, 0x55, payload⟩
  | .powerApplied | .rstNAsserted | .rstNReleased | .plantLinkFrame .. | .plantLinkGapTimeout
  | .frameSent | .saveWriteEnd .. | .statusDue | .sensorFrameRejected .. | .sensorLinkGapTimeout ..
  | .headIdle .. | .detection .. | .encoderPhaseChange .. | .nominalCount .. | .valveBarFrameSent ..
  | .settlePeriodEnd .. | .encoderMonitorExpiry .. | .maxOpenTimeExpiry .. | .rawLineChange ..
  | .debounceExpiry .. | .rawAirOkChange .. | .rawPlantStopAsserted | .rawPlantStopReleased
  | .lotTimeAccrual | .powerLost | .partBeginsToWork => none

/-- A command is well-formed: a request's payload has a length a frame can carry, an UNKNOWN_REQUEST has
a kind that is no request code (R182), a RAW_LINE_CHANGE is of a line that has no row of its own, and
commands that carry bytes carry at least one. -/
def Instr.wf : Instr → Bool
  | .unknownRequest _ kind payload => payloadWf payload && !Machine.isRequestCode kind
  | .plantLinkFrame bytes => bytes ≠ []
  | .sensorFrameRejected _ _ bytes => bytes ≠ []
  | .rawLineChange line _ => (Machine.airOf? line).isNone && line != Machine.plantStopLine
  | i => (i.request?.map fun r => payloadWf r.payload).getD true

end Sys2Proof
end

