-- ==== Sys2Proof/Safety.lean ====
section
/-! DEFINITION. The invariants of the part that the obligations speak of. -/

namespace Sys2Proof.Machine

/-! ## Bounds of the lists (R16, R93, R94, R134, R167, R181, R187) -/

/-- The lists of a lane are within the bounds the rules give: at most 256 parcels in the queue, no two of
one serial (R16), 64 in each firing list (R93), 15 times in each start history (R94), 4 records in the
result ring (R134). -/
def Lane.bounded (ln : Lane) : Prop :=
  (ln.queue.length ≤ queueCapacity ∧ (ln.queue.map (·.serial)).Nodup) ∧ ln.lots.ring.length ≤ ringCapacity ∧
  ∀ st : StationId, ln.stations[st].list.length ≤ listCapacity ∧
    ln.stations[st].history.length ≤ historyCapacity

/-- The plant link's queues are within the bounds the rules give: at most 4 requests (R181), at most 24
notices (R188), and at most one reply that is not on the line (R182). -/
def Link.bounded (k : Link) : Prop :=
  k.input.length ≤ 4 ∧ k.notices ≤ 24 ∧ ((k.output.drop 1).filter fun f => !f.isNotice).length ≤ 1

/-- Every list of the part is within its bound. -/
def State.bounded (s : State) : Prop :=
  s.trace.length ≤ traceCapacity ∧ s.link.bounded ∧ ∀ l : LaneId, s.lanes[l].bounded

/-! ## A lane at rest, and the valves (R31, R41, R96, R129) -/

/-- The greatest reverse limit (R125). -/
def maxReverseLimit : Nat := 1023

/-- The reverse limits of an image are in range (R125). -/
def Image.limited (im : Image) : Prop :=
  ∀ l : LaneId, im.lanes[l].geometry.reverseLimit ≤ maxReverseLimit

/-- The settings store holds reverse limits in range, in its image and in a snapshot being written. -/
def Store.limited (st : Store) : Prop := st.image.limited ∧ ∀ im : Image, st.saving = some im → im.limited

/-- What holds of a lane by its state: only a RUNNING lane injects or has a pending switch (R41, R129);
a STOPPED or HALTED lane has an empty queue (R24), Pmax equal to P (R31) and no pending scale (R28); and
P never lies above Pmax. -/
def Lane.settled (ln : Lane) : Prop :=
  (ln.state ≠ .running → ln.injection = none ∧ ln.tb.pendingSwitch = none) ∧
  (ln.active = false → ln.queue = [] ∧ ln.tb.pmax = ln.tb.p ∧ ln.tb.pendingScale = none) ∧
  (ln.tb.pmax - ln.tb.p).toNat ≤ maxReverseLimit ∧
  ln.cfg.geometry.reverseLimit ≤ maxReverseLimit

/-- The lane may have valve columns open: its raw AIR_OK level is asserted, it is not reversing, and it
is RUNNING or DRAINING (R96). -/
def Lane.mayOpen (airOk : Bool) (ln : Lane) : Bool := airOk && !ln.reversing && ln.active

/-- No parcel of a lane is FIRING unless the lane may have columns open (R96, R107). -/
def Lane.safe (airOk : Bool) (ln : Lane) : Prop :=
  ln.mayOpen airOk = false → ∀ p ∈ ln.queue, p.isFiring = false

/-! ## Shapes the statements use -/

/-- The state after a request has been taken and answered, nothing else changed: the request has left
the input queue and the reply stands at the newest end of the output queue (R182). -/
def State.answered (s : State) (reply : Frame) : State :=
  { s with link := { s.link with input := s.link.input.drop 1, output := s.link.output ++ [reply] } }

/-- A step of one lane changes nothing of the shared blocks but what the lane reports to them: the event
flags, the output queue, the trace and its gap mark; and no other lane. -/
structure State.LaneFrame (l : LaneId) (s t : State) : Prop where
  lanes : ∀ k : LaneId, k ≠ l → t.lanes[k] = s.lanes[k]
  phase : t.phase = s.phase
  rst : t.rstAsserted = s.rstAsserted
  cause : t.resetCause = s.resetCause
  time : t.lineTime = s.lineTime
  micros : t.micros = s.micros
  device : t.device = s.device
  lines : t.lines = s.lines
  latch : t.millTripLatch = s.millTripLatch
  due : t.statusDue = s.statusDue
  store : t.store = s.store
  pending : t.pending = s.pending
  held : t.held = s.held
  asm : t.link.asm = s.link.asm
  input : t.link.input = s.link.input
  resetTaken : t.link.resetTaken = s.link.resetTaken

/-- What the belt side of a lane's step leaves alone: its configuration, receivers, halt cause, tallies
of detections and host hold. -/
structure Lane.BeltFrame (a b : Lane) : Prop where
  cfg : b.cfg = a.cfg
  receivers : b.receivers = a.receivers
  haltCause : b.haltCause = a.haltCause
  discarded : b.discarded = a.discarded
  hostHold : b.hostHold = a.hostHold

/-! ## The scale, the monitor and the drain of a lane (R28, R34, R47, R120) -/

/-- A pending scale comes into force with a residue of 0; without one the scale and the residue stay: at a
drain's completion, a halt and RESET_LANE (R28, R47, R120, R122). -/
def Lane.ScaleTaken (a b : Lane) : Prop :=
  b.tb.pendingScale = none ∧ b.cfg.scale = a.tb.pendingScale.getD a.cfg.scale ∧
  b.tb.residue = if a.tb.pendingScale = none then a.tb.residue else 0

/-- The scale in force, the pending scale and the residue are as they were. -/
def Lane.ScaleKept (a b : Lane) : Prop :=
  b.tb.pendingScale = a.tb.pendingScale ∧ b.cfg.scale = a.cfg.scale ∧ b.tb.residue = a.tb.residue

/-- The time that the monitor keeps: that of an armed one, or now for one that arms (R34). -/
def Lane.keptTime (ln : Lane) (now : Time) : Time := ln.tb.monitor.getD now

/-- The encoder monitor is armed, with the kept time given, exactly if the lane is RUNNING or DRAINING, the
active source is ENCODER and the debounced DRIVE_RUN line is asserted (R34). -/
def Lane.WatchedFrom (ln : Lane) (driveRun : Bool) (kept : Time) : Prop :=
  ln.tb.monitor =
    if (ln.state = .running ∨ ln.state = .draining) ∧ ln.tb.source = .encoder ∧ driveRun = true then some kept
    else none

/-- What a drain, a halt, STOP_LANE and RESET_LANE leave of the timebase (R47): the setup, the rate in force
and the pending rate, the generator, the phase levels and the phase-error count. -/
structure Lane.TimebaseKept (a b : Lane) : Prop where
  setup : b.cfg.setup = a.cfg.setup
  rate : b.cfg.rate = a.cfg.rate
  pendingRate : b.tb.pendingRate = a.tb.pendingRate
  accumulator : b.tb.accumulator = a.tb.accumulator
  phases : b.tb.phases = a.tb.phases
  phaseErrors : b.tb.phaseErrors = a.tb.phaseErrors

/-- A step that may take the last parcel of a DRAINING lane's queue: where it does, the drain completes, STOPPED
with LANE_STATE raised, Pmax at P and a pending scale in force (R120); otherwise the state and the scale stay. -/
structure Lane.Drains (a b : Lane) (raised : Prop) : Prop where
  completes : a.state = .draining → a.queue ≠ [] → b.queue = [] →
    b.state = .stopped ∧ raised ∧ b.tb.pmax = b.tb.p ∧ a.ScaleTaken b
  goesOn : ¬(a.state = .draining ∧ a.queue ≠ [] ∧ b.queue = []) → b.state = a.state ∧ a.ScaleKept b

/-- The flag of a per-lane kind is set (R171). -/
def State.laneFlag (s : State) (l : LaneId) (kind : Nat) : Bool := s.laneFlags[l].getLsbD kind

/-- The flag of a device-wide kind is set: bit 0 POWER_ON to bit 7 SAVE_DONE (R171, R186). -/
def State.deviceFlag (s : State) (kind : Nat) : Bool := s.deviceFlags.getLsbD kind

/-- Every item of a geometry lies in its range (R125). -/
def Geometry.inRange (g : Geometry) : Prop :=
  (∀ h : HeadId, g.headOffset[h] ≤ 4095) ∧
  (∀ st : StationId, 1 ≤ g.stationDistance[st] ∧ g.stationDistance[st] ≤ 16383) ∧
  (1 ≤ g.exitDistance ∧ g.exitDistance ≤ 16383) ∧ g.window ≤ 255 ∧ g.reverseLimit ≤ maxReverseLimit

/-- Every item of a timebase setup lies in its range (R44). -/
def TimebaseSetup.inRange (t : TimebaseSetup) : Prop :=
  (2 ≤ t.watchTime ∧ t.watchTime ≤ 1000) ∧ (1 ≤ t.tolerance ∧ t.tolerance ≤ 50) ∧
  (10 ≤ t.settlePeriod ∧ t.settlePeriod ≤ 2000)

/-- Every field of a class table entry lies in its range (R70). -/
def ClassEntry.inRange (e : ClassEntry) : Prop :=
  (∀ h : HeadId, e.codeLow[h].toNat ≤ e.codeHigh[h].toNat) ∧ 1 ≤ e.density ∧ e.density ≤ 255

/-- Every field of a profile lies in its range (R71). -/
def Profile.inRange (p : Profile) : Prop :=
  p.leadMargin ≤ 255 ∧ p.lagMargin ≤ 255 ∧ p.spread ≤ 3 ∧ 1 ≤ p.maxOpen ∧ p.maxOpen ≤ 250

/-- Every item of a station configuration lies in its range (R91). -/
def StationConfig.inRange (c : StationConfig) : Prop :=
  c.columnRest ≤ 50 ∧ ∀ k : Fin 4, 1 ≤ c.rules[k].count ∧ c.rules[k].count ≤ 15 ∧ c.rules[k].window ≤ 65535

/-- Every item of an injection record lies in its range (R127). -/
def Injection.inRange (inj : Injection) : Prop :=
  inj.firstColumn.val ≤ inj.lastColumn.val ∧ (1 ≤ inj.length ∧ inj.length ≤ maxLength) ∧
  (16 ≤ inj.spacing ∧ inj.spacing ≤ 16383)

/-! ## What a payload spells (R179, R186)

`item p off len` is the number in the `len` bytes of `p` from byte `off` on, most significant byte first.
On-bytes other than 0 mean on (R179). -/

/-- The 26 bytes from byte 1 on spell the geometry (R125). -/
def Geometry.spelledBy (g : Geometry) (p : List Byte) : Prop :=
  (∀ h : HeadId, g.headEnable[h] = (item p (1 + h.val) 1 != 0) ∧ g.headOffset[h] = item p (4 + 2 * h.val) 2) ∧
  (∀ st : StationId, g.stationEnable[st] = (item p (10 + st.val) 1 != 0) ∧
    g.stationDistance[st] = item p (13 + 2 * st.val) 2 ∧
    g.stationFraction[st].code.val = item p (19 + st.val) 1) ∧
  g.exitDistance = item p 22 2 ∧ g.window = item p 24 1 ∧ g.reverseLimit = item p 25 2

/-- The 7 bytes from byte 1 on spell the timebase setup (R44). -/
def TimebaseSetup.spelledBy (t : TimebaseSetup) (p : List Byte) : Prop :=
  t.source.code = item p 1 1 ∧ t.twoStage = (item p 2 1 != 0) ∧ t.watchTime = item p 3 2 ∧
  t.tolerance = item p 5 1 ∧ t.settlePeriod = item p 6 2

/-- The 17 bytes from byte 1 on spell the class table entry; the requirement is a bit set of the three
heads (R70, R72, R179). -/
def ClassEntry.spelledBy (e : ClassEntry) (p : List Byte) : Prop :=
  e.valid = (item p 1 1 != 0) ∧ item p 2 1 < 8 ∧
  (∀ h : HeadId, e.requirement[h] = (item p 2 1).testBit h.val ∧
    e.codeLow[h].toNat = item p (3 + 2 * h.val) 1 ∧ e.codeHigh[h].toNat = item p (4 + 2 * h.val) 1 ∧
    e.minIntensity[h].toNat = item p (9 + 2 * h.val) 2) ∧
  e.fraction.code.val = item p 15 1 ∧ e.profile.val = item p 16 1 ∧ e.density = item p 17 1

/-- The 13 bytes from byte 2 on spell the column rest and the four rules (R91). -/
def StationConfig.spelledBy (c : StationConfig) (p : List Byte) : Prop :=
  c.columnRest = item p 2 1 ∧
  ∀ k : Fin 4, c.rules[k].count = item p (3 + 3 * k.val) 1 ∧ c.rules[k].window = item p (4 + 3 * k.val) 2

/-- The 9 bytes from byte 1 on spell the injection record; a count of 0 is no limit, and the next position
is one spacing past the Pmax given (R127). -/
def Injection.spelledBy (inj : Injection) (pmax : Pos) (p : List Byte) : Prop :=
  inj.station.val = item p 1 1 ∧ inj.firstColumn.val = item p 2 1 ∧ inj.lastColumn.val = item p 3 1 ∧
  inj.length = item p 4 2 ∧ inj.remaining = (if item p 6 2 = 0 then none else some (item p 6 2)) ∧
  inj.spacing = item p 8 2 ∧ inj.nextPos = pmax + BitVec.ofNat 32 (item p 8 2)

/-- The request codes whose payload names a lane in byte 0 (R186). -/
def laneCodes : List Nat :=
  [0x10, 0x11, 0x12, 0x13, 0x14, 0x15, 0x16, 0x17, 0x18, 0x19, 0x1A, 0x28, 0x29, 0x2A, 0x2B, 0x30, 0x31,
   0x32, 0x33, 0x38, 0x39, 0x42, 0x43, 0x44, 0x45]

/-- The request codes whose payload names a station in byte 1 (R186). -/
def stationCodes : List Nat := [0x28, 0x29, 0x2A, 0x2B, 0x38]

/-- The byte that carries a number below 256. -/
def byte (n : Nat) : Byte := BitVec.ofNat 8 n

/-- The fixed payload length of each request code (R186). -/
def requestLengths : List (Nat × Nat) :=
  [(0x01, 1), (0x02, 1), (0x03, 1), (0x04, 1), (0x10, 2), (0x11, 27), (0x12, 1), (0x13, 8), (0x14, 4),
   (0x15, 2), (0x16, 1), (0x17, 1), (0x18, 1), (0x19, 1), (0x1A, 1), (0x20, 18), (0x21, 1), (0x22, 5),
   (0x23, 1), (0x28, 15), (0x29, 2)] ++
  [(0x2A, 2), (0x2B, 2), (0x30, 3), (0x31, 4), (0x32, 2), (0x33, 3), (0x38, 10), (0x39, 1), (0x40, 30),
   (0x41, 1), (0x42, 4), (0x43, 9), (0x44, 1), (0x45, 1), (0x46, 1), (0x50, 1), (0x51, 1), (0x52, 1),
   (0x53, 5), (0x54, 13), (0x55, 2)]

/-! ## What the blocks of a lane do to its parcels -/

/-- A parcel of the lane is due for a block at the Pmax of an advance: a SCHEDULED one by its fire position
or a FIRING one by its end position (R97). -/
def Lane.FireDue (ln : Lane) (e : ListEntry) : Prop :=
  ∃ p, ln.find e.serial = some p ∧
    ((∃ aim, p.phase = .scheduled aim ∧ atOrBehind aim.firePos ln.tb.pmax = true) ∨
     ∃ aim shot, p.phase = .firing aim shot ∧ atOrBehind aim.endPos ln.tb.pmax = true)

/-- A TRAVELLING parcel whose exit position is at or behind Pmax (R21). -/
def Lane.ExitDue (ln : Lane) (p : Parcel) (o : Outcome) : Prop :=
  (∃ f, p.phase = .travelling f o) ∧
    atOrBehind (p.trail + BitVec.ofNat 32 ln.cfg.geometry.exitDistance) ln.tb.pmax = true

/-- The pending switch that a step of P by the active source completes, and the source it gives: a switch to
NOMINAL at a step of an ENCODER source (R39), an agreed switch to ENCODER at one of a NOMINAL source (R40). -/
def Lane.SwitchDue (ln : Lane) (target : Source) : Prop :=
  (ln.tb.pendingSwitch = some .toNominal ∧ ln.tb.source = .encoder ∧ target = .nominal) ∨
  ((∃ st, ln.tb.pendingSwitch = some (.toEncoder st) ∧ st.agreed = true) ∧ ln.tb.source = .nominal ∧
    target = .encoder)

/-- The works that a new-ground advance gives the blocks of a lane: a forming close (R65), the starts and
ends of a station (R97), exits (R21), a test parcel on a RUNNING lane (R128), a switch that completes (R39,
R40). -/
def Lane.WorkDue (ln : Lane) : Work → Prop
  | .forming => ∃ p ∈ ln.queue, ∃ c, p.phase = .forming c ∧ atOrBehind c ln.tb.pmax = true
  | .station st => ∃ e ∈ ln.stations[st].list, ln.FireDue e
  | .exitLine => ∃ p ∈ ln.queue, ∃ o, ln.ExitDue p o
  | .inject => ln.state = .running ∧ ∃ inj, ln.injection = some inj ∧ atOrBehind inj.nextPos ln.tb.pmax = true
  | .switchDone => ∃ target, ln.SwitchDue target
  | .cut | .limitHalt => False

/-- The lane holds a FIRING parcel. -/
def Lane.Firing (ln : Lane) : Prop := ∃ p ∈ ln.queue, p.isFiring = true

/-- A step of P down passes the reverse limit of the lane as it stands before it (R33). -/
def Lane.Passes (ln : Lane) : Prop := ln.cfg.geometry.reverseLimit < (ln.tb.pmax - (ln.tb.p - 1)).toNat

/-- The works of a step of P down on a lane that runs or drains, given the lane before the step: the cut of
its FIRING parcels (R32, R108); the halt past the reverse limit (R33); a switch that completes (R39, R40). -/
def Lane.BackDue (ln : Lane) : Work → Prop
  | .cut => ln.Firing
  | .limitHalt => ln.Passes
  | .switchDone => ∃ target, ln.SwitchDue target
  | .forming | .station _ | .exitLine | .inject => False

/-- A pending switch that completes is the one work due. -/
def Lane.SwitchOnly (ln : Lane) (w : Work) : Prop := w = .switchDone ∧ ∃ target, ln.SwitchDue target

/-- The lane at another lane position and Pmax. -/
def Lane.movedTo (ln : Lane) (p pmax : Pos) : Lane := { ln with tb := { ln.tb with p := p, pmax := pmax } }

/-- The works `due` of a step of P, of a lane that has moved, are done once each in some order (log 3), a
drain that one of them completes included (R120, log 13), within the frame of the lane's step. -/
def WorksDone (env : LaneEnv) (before moved : Lane) (due : Work → Prop) (out : LaneOut) : Prop :=
  ∃ ws : List Work, ws.Nodup ∧ (∀ w, w ∈ ws ↔ due w) ∧
    out = laneStep (fun env _ => runEach (Work.act env) ws moved) env before

/-- A step up of P is new ground: it takes P above Pmax, or the lane is at rest (R31). -/
def Lane.NewGround (ln : Lane) : Prop := ln.active = false ∨ ahead ln.tb.pmax (ln.tb.p + 1) = true

/-- P steps up: onto new ground Pmax follows and the lane's blocks act on the advance (R31); below Pmax
there is no advance (R32). -/
def Lane.StepsUp (env : LaneEnv) (ln before : Lane) (out : LaneOut) : Prop :=
  (ln.NewGround → WorksDone env before (ln.movedTo (ln.tb.p + 1) (ln.tb.p + 1))
    (ln.movedTo (ln.tb.p + 1) (ln.tb.p + 1)).WorkDue out) ∧
  (¬ln.NewGround → WorksDone env before (ln.movedTo (ln.tb.p + 1) ln.tb.pmax) ln.SwitchOnly out)

/-- P steps down: Pmax follows on a lane at rest (R31); another starts or continues a reversal (R32, R33). -/
def Lane.StepsDown (env : LaneEnv) (ln before : Lane) (out : LaneOut) : Prop :=
  (ln.active = false → WorksDone env before (ln.movedTo (ln.tb.p - 1) (ln.tb.p - 1)) ln.SwitchOnly out) ∧
  (ln.active = true → WorksDone env before (ln.movedTo (ln.tb.p - 1) ln.tb.pmax) ln.BackDue out)

/-- What a step of P up leaves of the lane: on new ground Pmax is P; below Pmax the state, Pmax, parcels,
stations and lots are as they were (R31, R32). -/
def Lane.MovesUp (a b : Lane) : Prop :=
  (a.NewGround → b.tb.pmax = a.tb.p + 1) ∧
  (¬a.NewGround → b.tb.pmax = a.tb.pmax ∧ b.state = a.state ∧ b.queue = a.queue ∧
    b.stations = a.stations ∧ b.lots = a.lots)

/-- A pending switch to ENCODER whose period is still judged, with its record changed (R40). -/
def PendingSwitch.judging (f : Settle → Settle) : PendingSwitch → PendingSwitch
  | .toNominal => .toNominal
  | .toEncoder st => .toEncoder (if st.agreed then st else f st)

/-- The lane after a decoder count up, before P moves: the residue up by one or, at the scale, 0, with a
pending scale in force and an encoder advance counted; the kept time of an armed monitor is now (R26 to
R28, R34, R40). -/
def Lane.countedUp (ln : Lane) (phases : Bool × Bool) (now : Time) : Lane :=
  let full := decide (ln.cfg.scale ≤ ln.tb.residue + 1)
  { ln with
    cfg := { ln.cfg with scale := if full then ln.tb.pendingScale.getD ln.cfg.scale else ln.cfg.scale }
    tb := { ln.tb with
      phases := phases
      monitor := ln.tb.monitor.map fun _ => now
      residue := if full then 0 else ln.tb.residue + 1
      pendingScale := if full then none else ln.tb.pendingScale
      pendingSwitch := if full then ln.tb.pendingSwitch.map (·.judging fun st =>
          { st with encoderAdvance := holdInc st.encoderAdvance })
        else ln.tb.pendingSwitch } }

/-- The lane after a decoder count down, before P moves: the residue down by one or, at 0, the scale less
one with a pending scale in force; a count down is seen by a settle period; the kept time of an armed
monitor is now (R26 to R28, R34, R40). -/
def Lane.countedDown (ln : Lane) (phases : Bool × Bool) (now : Time) : Lane :=
  let full := decide (ln.tb.residue = 0)
  { ln with
    cfg := { ln.cfg with scale := if full then ln.tb.pendingScale.getD ln.cfg.scale else ln.cfg.scale }
    tb := { ln.tb with
      phases := phases
      monitor := ln.tb.monitor.map fun _ => now
      residue := if full then ln.tb.pendingScale.getD ln.cfg.scale - 1 else ln.tb.residue - 1
      pendingScale := if full then none else ln.tb.pendingScale
      pendingSwitch := ln.tb.pendingSwitch.map (·.judging fun st => { st with backwardSeen := true }) } }

/-- The lane after a count down, with P one lower where the count completes, and no block having acted on the
step of P (R26, R27, R33). -/
def Lane.sunk (now : Time) (ln : Lane) (phases : Bool × Bool) : Lane :=
  let c := ln.countedDown phases now
  if ln.tb.residue = 0 then c.movedTo (ln.tb.p - 1) ln.tb.pmax else c

/-- P lies further below Pmax than the reverse limit (R33). -/
def Lane.Past (ln : Lane) : Prop := ln.cfg.geometry.reverseLimit < (ln.tb.pmax - ln.tb.p).toNat

/-- Samples taken together outrun the cut of a reversal (R33): on a lane that runs or drains with FIRING
parcels, on an ENCODER source that no completing switch leaves (R39), the samples `earlier` and then `last`
all count down, and the last is the first to carry P past the reverse limit. -/
structure Lane.Outruns (now : Time) (ln : Lane) (earlier : List (Bool × Bool)) (last : Bool × Bool) : Prop where
  active : ln.active = true
  source : ln.tb.source = .encoder
  noSwitch : ln.tb.pendingSwitch ≠ some .toNominal
  firing : ln.Firing
  within : ∀ pre post, earlier = pre ++ post → ¬(pre.foldl (Lane.sunk now) ln).Past
  down : ∀ pre x post, earlier ++ [last] = pre ++ x :: post →
    x = ((pre.foldl (Lane.sunk now) ln).tb.phases.2, !(pre.foldl (Lane.sunk now) ln).tb.phases.1)
  past : ((earlier ++ [last]).foldl (Lane.sunk now) ln).Past

/-- The commands that carry the samples of a lane. -/
def sampleCommands (l : LaneId) (samples : List (Bool × Bool)) : List Instr :=
  samples.map fun x => .encoderPhaseChange l x.1 x.2

/-- Samples that follow the ones given at the front of the queue outrun, together with them, the cut of a
reversal (R33; log 19). -/
def State.OutrunAhead (s : State) (l : LaneId) (samples : List (Bool × Bool)) : Prop :=
  ∃ earlier last rest, s.pending = sampleCommands l (earlier ++ [last]) ++ rest ∧
    s.lanes[l].Outruns s.lineTime (samples ++ earlier) last

/-- The lane after a nominal count, before P moves: the accumulator loses 1,000,000, a pending rate comes
into force, and on a NOMINAL source a current advance is counted (R29, R30, R40). -/
def Lane.countedNominal (ln : Lane) : Lane :=
  { ln with
    cfg := { ln.cfg with rate := (ln.tb.pendingRate.map (·.rate)).getD ln.cfg.rate }
    tb := { ln.tb with
      accumulator := ln.tb.accumulator.map (· - 1000000)
      pendingRate := none
      pendingSwitch := if ln.tb.source = .nominal then ln.tb.pendingSwitch.map (·.judging fun st =>
          { st with currentAdvance := holdInc st.currentAdvance })
        else ln.tb.pendingSwitch } }

/-- The state after a step of lane `l` that leaves the lane and reports the effects given, and in which one
of the model's free choices has been taken (log 3). -/
def State.stepped (s : State) (l : LaneId) (out : LaneOut) : State :=
  { (s.setLane l out.lane).commit l out.effects with choices := s.choices + 1 }

/-- The invariant behind the second law of R96: every lane is settled, and on a part whose clock runs no
lane fires when it may not. A lane holds samples back only while the samples that outrun the cut with them
stand at the front of the queue, so that no other command comes between (log 19). -/
def State.safe (s : State) : Prop :=
  s.store.limited ∧ (∀ l : LaneId, s.lanes[l].settled) ∧
  (s.live = true → ∀ l : LaneId, s.lanes[l].safe (s.env l).airOk) ∧
  ∀ l : LaneId, s.held[l] ≠ [] → s.live = true ∧ s.OutrunAhead l s.held[l]

/-- One entry of a class table matches the contributions of a parcel (R76): it is valid, and each head it
requires has contributed a class code within the entry's range for the head and an intensity not below its
floor. -/
def ClassEntry.Meets (e : ClassEntry) (cs : List Contribution) : Prop :=
  e.valid = true ∧ ∀ h : HeadId, e.requirement[h] = true → ∃ c ∈ cs, c.head = h ∧
    e.codeLow[h].toNat ≤ c.classCode.toNat ∧ c.classCode.toNat ≤ e.codeHigh[h].toNat ∧
    e.minIntensity[h].toNat ≤ c.intensity.toNat

/-- The entry that the scan gives: the matching one of the lowest index, or none (R76, R77). -/
def Scanned (table : Vector ClassEntry 64) (cs : List Contribution) : Option (Fin 64) → Prop
  | some i => table[i].Meets cs ∧ ∀ j : Fin 64, j < i → ¬table[j].Meets cs
  | none => ∀ j : Fin 64, ¬table[j].Meets cs

/-- The station that a fraction has on a lane: the enabled one of that fraction, the first in belt order,
or none (R79). -/
def Lane.StationOf (ln : Lane) (f : Fraction) : Option StationId → Prop
  | some st => ln.cfg.geometry.stationEnable[st] = true ∧ ln.cfg.geometry.stationFraction[st].fraction = f ∧
    ∀ k : StationId, k < st → ln.cfg.geometry.stationEnable[k] = true →
      ln.cfg.geometry.stationFraction[k].fraction ≠ f
  | none => ∀ k : StationId, ln.cfg.geometry.stationEnable[k] = true →
      ln.cfg.geometry.stationFraction[k].fraction ≠ f

/-- The parcel `p` becomes TRAVELLING with the fraction and outcome given (R7): it leaves the firing list
it stands in, with the trace entry given made first; it is in the queue as it was but for its phase while
its exit position is ahead of Pmax, and it is removed in the same step otherwise. -/
def Lane.Rides (a : Lane) (p : Parcel) (f : Fraction) (o : Outcome) (entry : List Effect) (out : LaneOut) :
    Prop :=
  (∀ st : StationId, out.lane.stations[st] = { a.stations[st] with
    list := if p.station? = some st then a.stations[st].list.filter (·.serial != p.serial)
      else a.stations[st].list }) ∧
  out.lane.tb = a.tb ∧ out.lane.state = a.state ∧ out.lane.cfg = a.cfg ∧
  (atOrBehind (p.trail + BitVec.ofNat 32 a.cfg.geometry.exitDistance) a.tb.pmax = false →
    out.lane.queue = a.queue.map (fun q =>
      if q.serial = p.serial then { q with phase := .travelling f o } else q) ∧
    out.lane.lots = a.lots ∧ out.effects = entry) ∧
  (atOrBehind (p.trail + BitVec.ofNat 32 a.cfg.geometry.exitDistance) a.tb.pmax = true →
    out.lane.queue = a.queue.filter (·.serial != p.serial) ∧ ∃ es, out.effects = entry ++ es)

/-- The trace entry of a parcel at a station (R87, R101). -/
def Parcel.marked (p : Parcel) (reason : TraceReason) (st : StationId) (detail : Option Nat) : Effect :=
  .trace ⟨reason, some p.serial, p.lot, p.test, some st, detail, some p.lead⟩

/-- The parcel `p` is settled by the tests of R78 for the fraction, the station (none where test 1 finds
none) and the profile given: PASSED without a station (R80), REDIRECTED at a full chute whose policy says
so (R81), LATE if its fire position is at or behind Pmax (R83), DENIED at a list of 64 (R84), and otherwise
SCHEDULED with the positions, the widened columns and the max open time of R82 and R85, at its place in the
firing list (R93). -/
def Lane.Settles (env : LaneEnv) (a : Lane) (p : Parcel) (f : Fraction) (st? : Option StationId)
    (prof : Profile) (out : LaneOut) : Prop :=
  (st? = none → a.Rides p f .passed [] out) ∧
  ∀ st : StationId, st? = some st →
    let chute := a.cfg.geometry.stationFraction[st].code
    let d := BitVec.ofNat 32 a.cfg.geometry.stationDistance[st]
    let fire := p.lead + d - BitVec.ofNat 32 prof.leadMargin
    let full : Prop := env.chuteFull[chute] = true ∧ a.cfg.policies[chute] = .redirect
    let late : Prop := atOrBehind fire a.tb.pmax = true
    (full → a.Rides p f .redirected [p.marked .redirected st none] out) ∧
    (¬full → late → a.Rides p f .late [p.marked .late st none] out) ∧
    (¬full → ¬late → 64 ≤ a.stations[st].list.length →
      a.Rides p f .denied [p.marked .deniedListFull st none] out) ∧
    (¬full → ¬late → a.stations[st].list.length < 64 →
      out.lane.queue = a.queue.map (fun q => if q.serial = p.serial then { q with
        phase := .scheduled ⟨f, st, fire, p.trail + d + BitVec.ofNat 32 prof.lagMargin⟩ } else q) ∧
      (∃ widened : Columns, (∀ k : Fin 32, widened.getLsbD k.val =
          decide (p.firstColumn.val ≤ k.val + prof.spread ∧ k.val ≤ p.lastColumn.val + prof.spread)) ∧
        ∃ xs ys : List ListEntry, a.stations[st].list = xs ++ ys ∧
          out.lane.stations[st] = { a.stations[st] with
            list := xs ++ ⟨p.serial, widened, prof.maxOpen⟩ :: ys } ∧
          (∀ x ∈ xs, listPrecedes fire p.serial (a.entryFire x) x.serial = false) ∧
          (∀ y, ys.head? = some y → listPrecedes fire p.serial (a.entryFire y) y.serial = true)) ∧
      (∀ k : StationId, k ≠ st → out.lane.stations[k] = a.stations[k]) ∧
      out.lane.lots = a.lots ∧ out.lane.tb = a.tb ∧ out.lane.cfg = a.cfg ∧ out.effects = [])

/-- Ejection rule k of a station is broken at a moment: its window is not 0, and the history holds at least
its count of starts less than the window before the moment (R99). -/
def Lane.Breaks (a : Lane) (st : StationId) (now : Time) (k : Fin 4) : Prop :=
  a.cfg.stations[st].rules[k].window ≠ 0 ∧ a.cfg.stations[st].rules[k].count ≤
    (a.stations[st].history.filter fun t => (now - t).toNat < a.cfg.stations[st].rules[k].window).length

/-- A column of a station rests at a moment: its rest-until time is present and lies after it (by the
forward distance, log 20), and the column is not open (R95). -/
def Lane.Rests (a : Lane) (st : StationId) (now : Time) (c : Fin 32) : Prop :=
  (∃ r, a.stations[st].restUntil[c] = some r ∧ ahead now r = true) ∧ (a.openSet st).getLsbD c.val = false

/-- What the firing start of the SCHEDULED parcel `p` of station `st` does (R97 to R102): DENIED without
air, by the lowest broken rule, or where every widened column rests; otherwise FIRING with the widened
columns that do not rest, the partial mark where one was left out, the estimated mark on a NOMINAL source
and the start in the history. -/
def Lane.FiringStart (env : LaneEnv) (st : StationId) (a : Lane) (p : Parcel) (aim : Aim) (e : ListEntry)
    (out : LaneOut) : Prop :=
  (env.airOk = false → a.Rides p aim.fraction .denied [p.marked .deniedAir st none] out) ∧
  (env.airOk = true → ∀ k : Fin 4, a.Breaks st env.now k → (∀ j : Fin 4, j < k → ¬a.Breaks st env.now j) →
    a.Rides p aim.fraction .denied [p.marked .deniedRule st (some (k.val + 1))] out) ∧
  (env.airOk = true → (∀ k : Fin 4, ¬a.Breaks st env.now k) →
    (∀ c : Fin 32, e.widened.getLsbD c.val = true → a.Rests st env.now c) →
    a.Rides p aim.fraction .denied [p.marked .deniedRest st none] out) ∧
  (env.airOk = true → (∀ k : Fin 4, ¬a.Breaks st env.now k) →
    (∃ c : Fin 32, e.widened.getLsbD c.val = true ∧ ¬a.Rests st env.now c) →
    ∃ columns : Columns,
      (∀ c : Fin 32, columns.getLsbD c.val = true ↔ e.widened.getLsbD c.val = true ∧ ¬a.Rests st env.now c) ∧
      out.lane.queue = a.queue.map (fun q => if q.serial = p.serial then { q with
        phase := .firing aim ⟨columns, env.now, columns != e.widened⟩
        estimated := a.tb.source == .nominal } else q) ∧
      out.lane.stations[st] = { a.stations[st] with
        history := (a.stations[st].history ++ [env.now]).drop (a.stations[st].history.length + 1 - 15) } ∧
      (∀ k : StationId, k ≠ st → out.lane.stations[k] = a.stations[k]) ∧
      out.lane.tb = a.tb ∧ out.lane.lots = a.lots ∧ out.lane.cfg = a.cfg ∧
      out.effects = if columns = e.widened then [] else [p.marked .partialRest st none])

/-- A parcel stands before another in queue order: by lead_ref, by forward distance, then by serial
(R14). -/
def Parcel.StandsBefore (a b : Parcel) : Prop :=
  if a.lead = b.lead then a.serial.toNat < b.serial.toNat else ahead a.lead b.lead = true

/-- A queue with one parcel more, at its place in queue order: behind every parcel ahead of the first that
it stands before, the rest in the order they had (R14, R15). -/
def PlacedIn (p : Parcel) (q r : List Parcel) : Prop :=
  ∃ xs ys : List Parcel, q = xs ++ ys ∧ r = xs ++ p :: ys ∧ (∀ x ∈ xs, ¬p.StandsBefore x) ∧
    ∀ y, ys.head? = some y → p.StandsBefore y

/-- Every head enabled in the geometry has a contribution in the parcel (R63). -/
def Parcel.Complete (p : Parcel) (g : Geometry) : Prop :=
  ∀ h : HeadId, g.headEnable[h] = true → ∃ c ∈ p.contributions, c.head = h

/-- The greatest head offset among the enabled heads, 0 without one (R57). -/
def Geometry.Reaches (g : Geometry) (n : Nat) : Prop :=
  (∀ h : HeadId, g.headEnable[h] = true → g.headOffset[h] ≤ n) ∧
  (n = 0 ∨ ∃ h : HeadId, g.headEnable[h] = true ∧ g.headOffset[h] = n)

/-- A detection matches a parcel (R58): the parcel is FORMING, their lead_refs lie at most the coincidence
window apart, they share a column, and the head has not contributed to it. -/
def Detection.Meets (d : Detection) (window : Nat) (p : Parcel) : Prop :=
  (∃ closePos, p.phase = .forming closePos) ∧
  min (p.lead - d.lead).toNat (d.lead - p.lead).toNat ≤ window ∧
  max d.firstColumn.val p.firstColumn.val ≤ min d.lastColumn.val p.lastColumn.val ∧
  ∀ c ∈ p.contributions, c.head ≠ d.item.head

/-- The number of columns that a detection shares with a parcel (R59). -/
def Detection.overlap (d : Detection) (p : Parcel) : Nat :=
  min d.lastColumn.val p.lastColumn.val + 1 - max d.firstColumn.val p.firstColumn.val

/-- Of two parcels that a detection matches it takes the first: more columns shared, or as many and the
lower serial (R59). -/
def Detection.Takes (d : Detection) (p x : Parcel) : Prop :=
  d.overlap x < d.overlap p ∨ d.overlap x = d.overlap p ∧ p.serial.toNat < x.serial.toNat

/-- The parcel that a detection forms under a serial, in a filling lot, with the close position given (R17,
R62). -/
def Detection.newParcel (d : Detection) (serial : Serial) (lot : LotId) (closePos : Pos) : Parcel where
  serial := serial
  lot := some lot
  test := false
  lead := d.lead
  trail := d.trail
  firstColumn := d.firstColumn
  lastColumn := d.lastColumn
  contributions := [d.item]
  entry := none
  estimated := false
  phase := .forming closePos

/-- The parcel `q` is the fusion of a detection into the parcel `p`: the lower lead_ref, the higher trail_ref
but at most 4,095 tc past it, the union of the columns, the contribution added, and the close position of
the new trail_ref; the serial, the lot and the rest as they were (R60, R61). -/
structure Detection.Fuses (d : Detection) (g : Geometry) (reach : Nat) (p q : Parcel) : Prop where
  rest : q = { p with
    lead := q.lead, trail := q.trail, firstColumn := q.firstColumn, lastColumn := q.lastColumn,
    contributions := q.contributions, phase := q.phase }
  lead : q.lead = if ahead d.lead p.lead then d.lead else p.lead
  trail : ∀ far : Pos, far = (if ahead d.trail p.trail then p.trail else d.trail) →
    q.trail = if 4095 < (far - q.lead).toNat then q.lead + 4095 else far
  first : q.firstColumn.val = min d.firstColumn.val p.firstColumn.val
  last : q.lastColumn.val = max d.lastColumn.val p.lastColumn.val
  contributions : q.contributions = p.contributions ++ [d.item]
  phase : q.phase = .forming (q.trail + BitVec.ofNat 32 reach + BitVec.ofNat 32 g.window)

/-- The lot unit after the formation report of a serial: the filling lot counts it; at a limit other than 0
the lot closes by the part itself and the next id opens, or, with a draining lot, the close is left pending
(R136, R141, R142). -/
def LotUnit.Counts (u : LotUnit) (lane : LaneId) (now : Time) (limit : Nat) (serial : Serial) (v : LotUnit) :
    Prop :=
  let filling : LotRecord := { u.filling with
    formed := u.filling.formed + 1
    lastSerial := some serial
    firstSerial := some (u.filling.firstSerial.getD serial) }
  let reached : Prop := limit ≠ 0 ∧ atOrBehind (BitVec.ofNat 32 limit) (u.filling.formed + 1) = true
  (¬reached → v = { u with filling := filling }) ∧
  (reached → u.draining = none → v = { u with
    draining := some { filling with closeTime := some now, closeCause := some .limit }
    filling := .fresh lane (u.filling.id + 1) now
    pendingClose := false }) ∧
  (reached → u.draining ≠ none → v = { u with filling := filling, pendingClose := true })

/-! ## What a removal does to the lots (R12, R137, R140, R142, R147) -/

/-- The fraction that the record of a parcel carries: none while FORMING (R10). -/
def Parcel.ofFraction (f : Fraction) (p : Parcel) : Bool :=
  match p.phase with
  | .forming _ => false
  | .travelling g _ => g == f
  | .scheduled aim => aim.fraction == f
  | .firing aim _ => aim.fraction == f

/-- The area of a parcel: length x columns x density factor, of its entry as the table holds it, 1 without an
entry (R12, R137). -/
def Parcel.area (table : Vector ClassEntry 64) (p : Parcel) : Nat :=
  (p.trail - p.lead).toNat * (p.lastColumn.val - p.firstColumn.val + 1) *
    (match p.entry with | some i => table[i].density | none => 1)

/-- The lot record `b` is `a` with the removal of the detected parcel `p` with outcome `o` counted, from the
fields of the parcel (R12, R137). -/
structure LotRecord.Removed (table : Vector ClassEntry 64) (p : Parcel) (o : Outcome) (a b : LotRecord) :
    Prop where
  outcome : ∀ k : Outcome, b.outcomes[k.code] = a.outcomes[k.code] + (if k = o then 1 else 0)
  ejected : ∀ c : ChuteFraction, b.ejected[c.code] = a.ejected[c.code] +
    (if (o = .ejected ∨ o = .isPartial) ∧ p.ofFraction c.fraction = true then 1 else 0)
  estimated : b.estimated = a.estimated + (if p.estimated then 1 else 0)
  area : ∀ f : Fraction, b.areas[f.code] = a.areas[f.code] +
    (if p.ofFraction f then BitVec.ofNat 64 (p.area table) else 0)
  rest : b = { a with
    outcomes := b.outcomes, ejected := b.ejected, estimated := b.estimated, areas := b.areas }

/-- The lot record `b` is `a` with the parcels `ps` of its lot counted as LOST (R22, R137, R147). -/
structure LotRecord.Lost (table : Vector ClassEntry 64) (ps : List Parcel) (a b : LotRecord) : Prop where
  lost : b.outcomes[Outcome.lost.code] = a.outcomes[Outcome.lost.code] + BitVec.ofNat 32 ps.length
  outcome : ∀ k : Outcome, k ≠ .lost → b.outcomes[k.code] = a.outcomes[k.code]
  estimated : b.estimated = a.estimated + BitVec.ofNat 32 (ps.filter (·.estimated)).length
  area : ∀ f : Fraction, b.areas[f.code] =
    a.areas[f.code] + BitVec.ofNat 64 ((ps.filter (·.ofFraction f)).map (·.area table)).sum
  rest : b = { a with outcomes := b.outcomes, estimated := b.estimated, areas := b.areas }

/-- No parcel of the lot remains: its eight outcome counts sum to its formed count (R140). -/
def LotRecord.Done (r : LotRecord) : Prop := r.outcomes.toList.sum = r.formed

/-- The lot unit with its draining lot `d` completed into the ring of four (R140, R144). -/
def LotUnit.completed (u : LotUnit) (now : Time) (d : LotRecord) : LotUnit :=
  let ring := u.ring ++ [{ d with doneTime := some now, completion := some u.nextCompletion }]
  { u with draining := none, ring := ring.drop (ring.length - 4), nextCompletion := u.nextCompletion + 1 }

/-- What follows a removal from the draining lot `d` of the lot unit `u`: while parcels of it remain,
nothing; otherwise its completion with LOT_DONE (R140), and after it a pending close, whose lot completes in
turn if none of its parcels remains (R142). -/
def LotUnit.Ends (lane : LaneId) (now : Time) (u : LotUnit) (d : LotRecord) (v : LotUnit)
    (es : List Effect) : Prop :=
  (¬d.Done → v = u ∧ es = []) ∧
  ∀ cause : CloseCause, d.closeCause = some cause → d.Done →
    let done : Effect := .event (.lotDone lane d.id cause u.nextCompletion)
    (u.pendingClose = false → v = u.completed now d ∧ es = [done]) ∧
    (u.pendingClose = true →
      let c : LotRecord := { u.filling with closeTime := some now, closeCause := some .limit }
      let w : LotUnit := { u.completed now d with
        draining := some c, filling := .fresh lane (u.filling.id + 1) now, pendingClose := false }
      (¬c.Done → v = w ∧ es = [done]) ∧
      (c.Done → v = w.completed now c ∧
        es = [done, .event (.lotDone lane c.id .limit (u.nextCompletion + 1))]))

/-- The parcel is a detected one of the lot. -/
def Parcel.ofLot (lot : LotId) (p : Parcel) : Bool := !p.test && p.lot == some lot

/-- The formed count of a lot is the sum of its outcome counts and the number of its parcels in the queue
(R137). -/
def LotRecord.Agrees (q : List Parcel) (r : LotRecord) : Prop :=
  r.formed = r.outcomes.toList.sum + BitVec.ofNat 32 (q.filter (·.ofLot r.id)).length

/-- The lots of a lane agree with its queue: both counts balance (R137), the draining lot is another than the
filling lot (R139, R141) and has a close cause (R135), and a close is pending only beside a draining lot
(R141, R142); the serials of the queue are distinct (R16). -/
structure Lane.LotsAgree (ln : Lane) : Prop where
  serials : (ln.queue.map (·.serial)).Nodup
  filling : ln.lots.filling.Agrees ln.queue
  draining : ∀ d : LotRecord, ln.lots.draining = some d →
    d.Agrees ln.queue ∧ d.id ≠ ln.lots.filling.id ∧ d.closeCause ≠ none
  pending : ln.lots.pendingClose = true → ln.lots.draining ≠ none

/-- The flush of lane `a` leaves lane `b`: an empty queue and empty firing lists (R22, R110); every test
parcel counted LOST in the test tally (R13, R130); and, where the lots agree with the queue, every detected
parcel counted LOST in its lot, with a draining lot completed, and a pending close taken and completed too
(R140, R142, R147). -/
structure Lane.Flushes (env : LaneEnv) (a b : Lane) : Prop where
  queue : b.queue = []
  lists : (a.queue.map (·.serial)).Nodup → ∀ st : StationId, (∀ e ∈ a.stations[st].list, ∃ p ∈ a.queue,
    p.serial = e.serial ∧ p.station? = some st) → b.stations[st].list = []
  tally : (a.queue.map (·.serial)).Nodup → b.testTally[Outcome.lost.code].toNat =
    min 65535 (a.testTally[Outcome.lost.code].toNat + (a.queue.filter (·.test)).length)
  otherTally : ∀ k : Outcome, k ≠ .lost → b.testTally[k.code] = a.testTally[k.code]
  lots : a.LotsAgree → ∃ r : LotRecord,
    a.lots.filling.Lost env.table (a.queue.filter (·.ofLot a.lots.filling.id)) r ∧ r.Done ∧
    (a.lots.draining = none → b.lots = { a.lots with filling := r }) ∧
    (∀ d : LotRecord, a.lots.draining = some d → ∃ (d' : LotRecord) (es : List Effect),
      d.Lost env.table (a.queue.filter (·.ofLot d.id)) d' ∧ d'.Done ∧
      LotUnit.Ends env.id env.now { a.lots with filling := r, draining := some d' } d' b.lots es) ∧
    b.lots.draining = none ∧ b.lots.pendingClose = false

/-! ## What a step sends: the ports, the rests and the trace -/

/-- A port that is offered a changed open-column set: one that equals the last sent set is not sent again;
another is sent by an idle port under the next sequence number, and marks a busy one as waiting (R112). -/
def Port.Offered (lane : LaneId) (st : StationId) (set : Columns) (p q : Port) : Prop :=
  (set = p.lastSent → q = p) ∧
  (set ≠ p.lastSent → p.sending = none →
    q = ⟨set, p.sequence + 1, some (valveFrame lane st (p.sequence + 1) set), p.waiting⟩) ∧
  (set ≠ p.lastSent → p.sending ≠ none → q = { p with waiting := true })

/-- The ports of a lane after a step from `a` to `b`: one whose open-column set the step has changed is
offered it, another stays as it was (R96, R112). -/
def Lane.PortsFollow (lane : LaneId) (a b : Lane) : Prop :=
  ∀ st : StationId,
    (b.openSet st = a.openSet st → b.stations[st].port = a.stations[st].port) ∧
    (b.openSet st ≠ a.openSet st →
      Port.Offered lane st (b.openSet st) a.stations[st].port b.stations[st].port)

/-- The columns that a step from `a` to `b` closes rest from now for the column rest in force; the rest-until
times of the others stay (R95, R105). -/
def Lane.ClosedRest (now : Time) (a b : Lane) : Prop :=
  ∀ (st : StationId) (c : Fin 32), b.stations[st].restUntil[c] =
    if (a.openSet st).getLsbD c.val = true ∧ (b.openSet st).getLsbD c.val = false
    then some (now + BitVec.ofNat 32 a.cfg.stations[st].columnRest) else a.stations[st].restUntil[c]

/-- The trace takes the entries given, oldest first, as far as it has room: the first that it takes carries
the gap mark and clears it, and one that it drops sets it (R167, R168). The entries are given without the
mark. -/
def State.Traces (s t : State) (es : List TraceEntry) : Prop :=
  ∃ fits drops : List TraceEntry, es = fits ++ drops ∧
    (fits = [] ∨ s.trace.length + fits.length ≤ 512) ∧ (drops = [] ∨ 512 ≤ s.trace.length + fits.length) ∧
    t.trace = s.trace ++ (match fits with
      | [] => []
      | e :: rest => { e with gap := s.gapPending } :: rest) ∧
    t.gapPending = if drops = [] then s.gapPending && fits.isEmpty else true

/-- The entry that a station makes of a parcel (R166), without the gap mark. -/
def Parcel.entryOf (p : Parcel) (now : Time) (lane : LaneId) (st : StationId) (reason : TraceReason) :
    TraceEntry := ⟨now, lane, reason, some p.serial, p.lot, p.test, some st, none, false⟩

/-- The entries of a cut with the reason given: one for each FIRING parcel, in queue order (R106, R108, R167). -/
def cutEntries (now : Time) (l : LaneId) (reason : TraceReason) (q : List Parcel) : List TraceEntry :=
  q.flatMap fun p => match p.phase with
    | .firing aim _ => [p.entryOf now l aim.station reason]
    | _ => []

/-- The LOST entry of a flush of lane `l` from `a` to `b`: no serial, the filling lot after the flush, the
number of parcels removed (R122). -/
def lostEntry (now : Time) (l : LaneId) (a b : Lane) : TraceEntry :=
  ⟨now, l, .lost, none, some b.lots.filling.id, false, none, some a.queue.length, false⟩

/-- What a debounced edge of line `i` to the level given leaves (R151, R153, R155, R157): the debounced state
at the level with no candidate, the mill-trip latch as the edge has it, and LINE_EDGE raised exactly if the
line's selection asks for the edge. At the lane of a DRIVE_RUN line a rise starts the generator at 0, with a
pending rate that was set while it stood still in force (R30; the mark of such a rate is the model's, log 11), a
fall stops it, and the encoder monitor arms or disarms by the conditions of R34. -/
structure State.EdgeTaken (s : State) (i : DebouncedId) (level : Bool) (t : State) : Prop where
  lines : t.lines = ⟨s.lines.raw.set i.castSucc level, s.lines.debounced.set i level,
    s.lines.candidate.set i none⟩
  latch : t.millTripLatch = (s.millTripLatch || (i == millTripLine && level))
  millTrip : t.deviceFlag 4 = (s.deviceFlag 4 || (i == millTripLine && level))
  lineEdge : t.deviceFlag 6 = (s.deviceFlag 6 || match s.device.edges[i.castSucc] with
    | .ignore => false
    | .rise => level
    | .fall => !level
    | .both => true)
  drive : ∀ l : LaneId, i = driveLine l →
    t.lanes[l].tb.accumulator = (if level then some 0 else none) ∧
    t.lanes[l].WatchedFrom level (s.lanes[l].keptTime s.lineTime) ∧
    (∀ r : PendingRate, s.lanes[l].tb.pendingRate = some r → r.setWhileStopped = true → level = true →
      t.lanes[l].cfg.rate = r.rate ∧ t.lanes[l].tb.pendingRate = none) ∧
    (level = false → t.lanes[l].cfg.rate = s.lanes[l].cfg.rate ∧
      t.lanes[l].tb.pendingRate = s.lanes[l].tb.pendingRate) ∧
    t.lanes[l].state = s.lanes[l].state ∧ t.lanes[l].tb.source = s.lanes[l].tb.source ∧
    s.lanes[l].ScaleKept t.lanes[l] ∧
    t.lanes[l].queue = s.lanes[l].queue ∧ t.lanes[l].tb.p = s.lanes[l].tb.p
  store : t.store = s.store
  device : t.device = s.device
  time : t.lineTime = s.lineTime

/-! ## The geometry checks (R117) -/

/-- Two enabled stations that follow each other in belt order, the disabled ones left out. -/
def Geometry.Next (g : Geometry) (a b : StationId) : Prop :=
  a < b ∧ g.stationEnable[a] = true ∧ g.stationEnable[b] = true ∧
    ∀ k : StationId, a < k → k < b → g.stationEnable[k] = false

/-- A check of R117 fails and names the station given, or none; `reach` is H, the greatest head offset among
the enabled heads. Checks 1 and 2 name the first such station in belt order; check 4 the second station of
the first pair: A with B, A with C, B with C. -/
def Geometry.Fails (g : Geometry) (reach : Nat) : Nat → Option StationId → Prop
  | 1, some b =>
    (∃ a : StationId, g.Next a b ∧ g.stationDistance[b] ≤ g.stationDistance[a]) ∧
    ∀ x y : StationId, y < b → g.Next x y → g.stationDistance[x] < g.stationDistance[y]
  | 2, some b =>
    (g.stationEnable[b] = true ∧ g.stationDistance[b] < reach + g.window + 1) ∧
    ∀ x : StationId, x < b → g.stationEnable[x] = true → reach + g.window + 1 ≤ g.stationDistance[x]
  | 3, none =>
    (∃ z : StationId, g.stationEnable[z] = true ∧ (∀ k : StationId, z < k → g.stationEnable[k] = false) ∧
      g.exitDistance < g.stationDistance[z] + 256) ∨
    ((∀ k : StationId, g.stationEnable[k] = false) ∧ g.exitDistance < reach + g.window + 256)
  | 4, some b => ∃ a : StationId, a < b ∧ g.stationEnable[a] = true ∧ g.stationEnable[b] = true ∧
    g.stationFraction[a] = g.stationFraction[b] ∧
    ∀ x y : StationId, x < y → g.stationEnable[x] = true → g.stationEnable[y] = true →
      x < a ∨ (x = a ∧ y < b) → g.stationFraction[x] ≠ g.stationFraction[y]
  | _, _ => False

/-- The geometry passes the checks of R117 up to the number given. -/
def Geometry.PassesTo (g : Geometry) (reach n : Nat) : Prop :=
  ∀ k : Nat, k ≤ n → ∀ st : Option StationId, ¬g.Fails reach k st

/-! ## Events (R171 to R173) -/

/-- The row of an event in the tables of R171 and R173: the number of its kind, the lane whose flag it sets
(none for a device-wide kind) and the bytes of its particulars (R179). -/
def Event.row : Event → Fin 13 × Option LaneId × List Byte
  | .laneState l state cause => (0, some l, [byte l.val, byte state.code, byte cause.code])
  | .encoderLost l => (1, some l, [byte l.val])
  | .sourceSwitched l source => (2, some l, [byte l.val, byte source.code])
  | .lotDone l lot cause number =>
    (3, some l, [byte l.val] ++ beBytes 2 lot.toNat ++ [byte cause.code] ++ beBytes 2 number.toNat)
  | .headLinkError l h cause => (4, some l, [byte l.val, byte h.val, byte cause.code])
  | .powerOn cause => (5, none, [byte cause.code])
  | .storeInvalid => (6, none, [])
  | .traceHalf => (7, none, [0x01, 0x01])
  | .traceFull => (8, none, [0x02, 0x00])
  | .millTrip => (9, none, [])
  | .plantStop => (10, none, [])
  | .lineEdge n asserted => (11, none, [byte n.val, if asserted then 1 else 0])
  | .saveDone ok => (12, none, [if ok then 0 else 1])

/-- The state with the flag of a kind set: of the lane for a per-lane kind (R171). -/
def State.flagged (s : State) (kind : Fin 13) : Option LaneId → State
  | some l => { s with laneFlags := s.laneFlags.set l (s.laneFlags[l] ||| BitVec.ofNat 5 (2 ^ kind.val)) }
  | none => { s with deviceFlags := s.deviceFlags ||| BitVec.ofNat 8 (2 ^ (kind.val - 5)) }

/-- What raising an event of the row given does: its flag is set; with the kind's notice enable on, the
notice with the kind byte, the line time and the particulars is queued if fewer than 24 notices stand, and
dropped and counted if not (R171 to R173, R188). -/
def State.Raises (s : State) (kind : Fin 13) (lane? : Option LaneId) (particulars : List Byte) (t : State) :
    Prop :=
  (s.device.noticeEnables[kind] = false → t = s.flagged kind lane?) ∧
  (s.device.noticeEnables[kind] = true →
    ((s.link.output.filter (·.isNotice)).length < 24 →
      t = { s.flagged kind lane? with link := { s.link with output := s.link.output ++
        [⟨0, byte (0xF0 + kind.val), beBytes 4 s.lineTime.toNat ++ particulars⟩] } }) ∧
    (24 ≤ (s.link.output.filter (·.isNotice)).length →
      t = { s.flagged kind lane? with link := { s.link with dropped := holdInc s.link.dropped } }))

/-- A state right after steps 1 to 3 of a start-up of `s` with the cause given (R194). -/
structure State.StartedUp (s : State) (cause : ResetCause) (t : State) : Prop where
  phase : t.phase = .starting
  cause : t.resetCause = cause
  time : t.lineTime = 0
  device : t.device = s.store.loaded.device
  store : t.store = { s.store with saving := none }
  cfg : ∀ l : LaneId, t.lanes[l].cfg = s.store.loaded.lanes[l]
  stopped : ∀ l : LaneId, t.lanes[l].state = .stopped ∧ t.lanes[l].haltCause = .none
  queue : ∀ l : LaneId, t.lanes[l].queue = [] ∧ t.lanes[l].nextSerial = 0
  belt : ∀ l : LaneId, t.lanes[l].tb.p = 0 ∧ t.lanes[l].tb.pmax = 0 ∧
    t.lanes[l].tb.source = s.store.loaded.lanes[l].setup.source ∧ t.lanes[l].tb.encoderLost = false
  lots : ∀ l : LaneId, t.lanes[l].lots = .powerOn l
  timebase : ∀ l : LaneId, t.lanes[l].tb.pendingScale = none ∧ t.lanes[l].tb.residue = 0 ∧
    t.lanes[l].tb.pendingRate = none ∧ t.lanes[l].tb.accumulator = none ∧ t.lanes[l].tb.monitor = none ∧
    t.lanes[l].tb.pendingSwitch = none ∧ t.lanes[l].tb.phaseErrors = 0
  receivers : ∀ (l : LaneId) (h : HeadId), t.lanes[l].receivers[h] = ⟨⟨.hunt, [], none⟩, 0, 0, none⟩
  stations : ∀ (l : LaneId) (st : StationId), t.lanes[l].stations[st].list = [] ∧
    t.lanes[l].stations[st].history = [] ∧ (∀ c : Fin 32, t.lanes[l].stations[st].restUntil[c] = none) ∧
    t.lanes[l].openSet st = 0
  ports : ∀ (l : LaneId) (st : StationId), t.lanes[l].stations[st].port = ⟨0, 0, none, false⟩
  tallies : ∀ l : LaneId, t.lanes[l].discarded = 0 ∧ t.lanes[l].skipped = 0 ∧
    ∀ k : Fin 8, t.lanes[l].testTally[k] = 0
  injection : ∀ l : LaneId, t.lanes[l].injection = none
  hostHold : ∀ l : LaneId, t.lanes[l].hostHold = false
  laneFlags : ∀ (l : LaneId) (kind : Nat), t.laneFlag l kind = false
  trace : t.trace = [] ∧ t.gapPending = false
  latch : t.millTripLatch = false
  held : ∀ l : LaneId, t.held[l] = []
  input : t.link.input = [] ∧ t.link.asm = .hunting ∧ t.link.resetTaken = false
  counters : t.link.goodFrames = 0 ∧ t.link.badFrames = 0 ∧ t.link.discarded = 0 ∧
    t.link.repliesSent = 0 ∧ t.link.noticesSent = 0 ∧ t.link.dropped = 0
  notices : ∀ f ∈ t.link.output, f.isNotice = true
  powerOn : t.deviceFlag 0 = true
  invalid : t.deviceFlag 1 = !s.store.valid
  lines : t.lines.debounced = Vector.replicate 25 false ∧ t.lines.raw = s.lines.raw
  statusDue : t.statusDue = none

end Sys2Proof.Machine
end

