-- ==== Sys2Proof/Certificates/Slice0/Obligations.lean ====
section
/-! DEFINITION. The statements for the provers. -/

section Statements

open Sys2Proof Sys2Proof.Machine

/-! ## The queue of commands, reset and power -/

/-- A step runs the command at the front of the queue on the state with the queue's rest. -/
def Obligations.StepRunsFrontCommand : Prop :=
  ∀ (c : Instr) (rest : List Instr) (s : State),
    step { s with pending := c :: rest } = exec c { s with pending := rest }

/-- On an empty queue (the model's choice, log 1): a part held in reset idles; one without supply stays so
or is given its supply, at a moment that is free (the model's choice, log 4); one whose clock runs takes a
due step into the queue, or, with none due, lets one µs pass in which every running generator gains its
rate (R29). -/
def Obligations.EmptyQueueRunsClock : Prop :=
  ∀ s : State, s.pending = [] →
    (s.live = false → s.phase ≠ .unpowered → step s = .next s) ∧
    (s.phase = .unpowered → ∃ phase : Phase, (phase = .unpowered ∨ phase = .settling) ∧
      step s = .next { s with phase := phase, choices := s.choices + 1 }) ∧
    (s.live = true → s.due = [] →
      step s = .next { s with
        micros := s.micros + 1
        lanes := Vector.ofFn fun l : Fin 4 => { s.lanes[l] with tb := { s.lanes[l].tb with
          accumulator := s.lanes[l].tb.accumulator.map (· + s.lanes[l].cfg.rate) } } }) ∧
    (s.live = true → s.due ≠ [] →
      ∃ c ∈ s.due, step s = .next { s with pending := [c], choices := s.choices + 1 })

/-- The state after reset, where the spec gives the values: every lane STOPPED with an empty queue and
next serial 0 (R24), P and Pmax 0 on the configured source (R47), no flag but POWER_ON and STORE_INVALID
(R177), link queues and counters empty (R191), an empty trace (R170), debounced states not asserted
(R165). The levels, the store and the time are the model's choice (log 2). -/
def Obligations.ResetValues : Prop :=
  State.reset.phase = .working ∧ State.reset.resetCause = .powerOn ∧ State.reset.lineTime = 0 ∧
  State.reset.pending = [] ∧ State.reset.trace = [] ∧ State.reset.gapPending = false ∧
  State.reset.millTripLatch = false ∧ State.reset.deviceFlags = 0b11 ∧
  State.reset.laneFlags = Vector.replicate 4 0 ∧ State.reset.statusDue = none ∧
  State.reset.link = .powerOn ∧ State.reset.lines.debounced = Vector.replicate 25 false ∧
  State.reset.device = .factory ∧ State.reset.store.valid = false ∧
  ∀ l : LaneId, State.reset.lanes[l].state = .stopped ∧ State.reset.lanes[l].queue = [] ∧
    State.reset.lanes[l].nextSerial = 0 ∧ State.reset.lanes[l].tb.p = 0 ∧
    State.reset.lanes[l].tb.pmax = 0 ∧ State.reset.lanes[l].tb.source = .encoder ∧
    State.reset.lanes[l].cfg = .factory ∧ State.reset.lanes[l].lots = .powerOn l ∧
    State.reset.lanes[l].haltCause = .none

/-- Each of the three causes runs steps 1 to 3 of the start-up: POWER_APPLIED, RST_N_RELEASED, and the
last byte of the RESET_DEVICE reply (R189, R194, R195). RST_N held through the application of power keeps
the part in reset, and the start-up that follows records POWER_ON (R195). -/
def Obligations.StartUpFromEachCause : Prop :=
  ∀ s : State,
    (s.phase = .unpowered ∨ s.phase = .settling → s.rstAsserted = false →
      ∃ t, exec .powerApplied s = .next t ∧ s.StartedUp .powerOn t) ∧
    (s.phase = .unpowered ∨ s.phase = .settling → s.rstAsserted = true →
      exec .powerApplied s = .next { s with phase := .held .powerOn }) ∧
    (∀ cause, s.phase = .held cause →
      ∃ t, exec .rstNReleased s = .next t ∧ t.rstAsserted = false ∧ s.StartedUp cause t) ∧
    (∀ (tag : Byte) (fs : List Frame), s.phase = .working → s.link.resetTaken = true →
      s.link.output = ⟨tag, 0x82, [0x00]⟩ :: fs →
      ∃ t, exec .frameSent s = .next t ∧ s.StartedUp .resetRequest t)

/-- RST_N_ASSERTED on a part with a settled supply, and POWER_LOST: the link's queues are emptied, every
frame on a valve bar line is cut off, a save ends without its result with the store INVALID as it was
(R114, R187, R194, R196; that the image stays as it was is the model's choice, log 21). Before the supply
has settled RST_N_ASSERTED is the level at the pin alone. From the application of the supply to its
settling, and held in reset, all five feed holds are asserted, the receivers take nothing and the ports
send nothing (R194). -/
def Obligations.ResetAndPowerLossCutOff : Prop :=
  ∀ s : State,
    (s.phase ≠ .unpowered → s.phase ≠ .settling →
      ∃ t, exec .rstNAsserted s = .next t ∧ t.rstAsserted = true ∧
      t.phase = .held (match s.phase with | .held c => c | _ => .resetLine) ∧
      t.millFeedHold = true ∧ (∀ l : LaneId, t.feedHold l = true) ∧
      t.link.input = [] ∧ t.link.output = [] ∧ t.store = { s.store with saving := none } ∧
      ∀ (l : LaneId) (st : StationId), t.lanes[l].stations[st].port.sending = none) ∧
    (s.phase = .unpowered ∨ s.phase = .settling →
      exec .rstNAsserted s = .next { s with rstAsserted := true }) ∧
    (∃ t, exec .powerLost s = .next t ∧ t.phase = .unpowered ∧
      t.link.input = [] ∧ t.link.output = [] ∧ t.store = { s.store with saving := none } ∧
      ∀ (l : LaneId) (st : StationId), t.lanes[l].stations[st].port.sending = none) ∧
    (s.phase = .settling ∨ (∃ cause, s.phase = .held cause) →
      s.millFeedHold = true ∧ (∀ l : LaneId, s.feedHold l = true) ∧
      ∀ bytes : List LineByte, exec (.plantLinkFrame bytes) s = .next s ∧ exec .frameSent s = .next s ∧
        ∀ l : LaneId, (∀ h : HeadId, exec (.sensorFrameRejected l h bytes) s = .next s) ∧
          ∀ st : StationId, exec (.valveBarFrameSent l st) s = .next s)

/-- Step 4 of a start-up: the part works, each valve bar port sends the empty set with sequence number 0,
and the status due time counts from this step (R114, R175, R194). -/
def Obligations.PartBeginsToWork : Prop :=
  ∀ s : State, s.phase = .starting →
    ∃ t, exec .partBeginsToWork s = .next t ∧ t.phase = .working ∧ t.lineTime = s.lineTime ∧
      t.link = s.link ∧ t.device = s.device ∧
      t.statusDue = (if s.device.statusPeriod = 0 then none
        else some (s.lineTime + BitVec.ofNat 32 s.device.statusPeriod)) ∧
      ∀ (l : LaneId) (st : StationId),
        t.lanes[l].stations[st].port = ⟨0, 0, some (valveFrame l st 0 0), false⟩ ∧
        t.lanes[l].cfg = s.lanes[l].cfg ∧ t.lanes[l].state = s.lanes[l].state ∧
        t.lanes[l].queue = s.lanes[l].queue ∧ t.lanes[l].tb = s.lanes[l].tb

/-! ## The plant link -/

/-- A good frame, laid out as R179 gives it, is counted and joins the input queue, or is discarded and
counted when four requests wait (R180, R181). A frame is bad if its CRC bytes are not those of its length byte
and body, if its length byte is not 3 to 250, if a stop bit is missing from the length byte to the last CRC
byte, or at a gap of more than 2 ms inside it: it is counted, the assembler is in HUNT, and no other block is
reached (R178, R180). In HUNT a byte that is no marker, or whose stop bit is missing, changes nothing (R178,
R180). -/
def Obligations.PlantLinkReception : Prop :=
  (∀ (s : State) (r : Request), s.phase = .working → s.link.asm = ⟨.hunt, [], none⟩ →
    payloadWf r.payload = true →
    exec (.plantLinkFrame (onLine (requestBytes r))) s = .next { s with link := { s.link with
      goodFrames := holdInc s.link.goodFrames
      input := if s.link.input.length < 4 then s.link.input ++ [r] else s.link.input
      discarded := if s.link.input.length < 4 then s.link.discarded else holdInc s.link.discarded } }) ∧
  (∀ s : State, s.phase = .working →
    let bad : State := { s with link := { s.link with
      asm := ⟨.hunt, [], none⟩, badFrames := holdInc s.link.badFrames } }
    (∀ (body : List Byte) (high low : Byte), s.link.asm = ⟨.hunt, [], none⟩ → 3 ≤ body.length →
      body.length ≤ 250 → [high, low] ≠ crcBytes (byte body.length :: body) →
      exec (.plantLinkFrame (onLine (0xC3 :: byte body.length :: body ++ [high, low]))) s = .next bad) ∧
    (∀ n : Byte, s.link.asm = ⟨.hunt, [], none⟩ → n.toNat < 3 ∨ 250 < n.toNat →
      exec (.plantLinkFrame (onLine [0xC3, n])) s = .next bad) ∧
    (∀ b : Byte, s.link.asm.phase ≠ .hunt → exec (.plantLinkFrame [⟨b, false⟩]) s = .next bad) ∧
    (∀ b : LineByte, s.link.asm = ⟨.hunt, [], none⟩ → b.data ≠ 0xC3 ∨ b.stopBit = false →
      exec (.plantLinkFrame [b]) s = .next s) ∧
    (∀ t : Time, s.link.asm.lastByte = some t → 2 < (s.lineTime - t).toNat →
      exec .plantLinkGapTimeout s = .next bad))

/-- A request whose kind is no request code is answered UNKNOWN_REQUEST under kind 0x80, with the kind
received, and changes nothing else (R182). -/
def Obligations.UnknownRequestAnswered : Prop :=
  ∀ (s : State) (tag kind : Byte) (payload : List Byte), s.takeable ⟨tag, kind, payload⟩ = true →
    isRequestCode kind = false →
    exec (.unknownRequest tag kind payload) s = .next (s.answered ⟨tag, 0x80, [0x02, kind]⟩)

/-- Every request whose payload length is not the one R186 gives for its code is answered BAD_LENGTH and
changes nothing else (R182). One of that length that names a lane above 3, or a station other than A, B or
C, is answered BAD_VALUE and changes nothing else (R28, R38, R41, R44, R91, R92, R109, R113, R116, R119,
R123 to R127, R129, R132, R139, R143, R145, R146, R159 to R161). A request that is not the oldest one
waiting, or that may not be taken now, changes nothing (the model's choice for such a command, log 6). -/
def Obligations.RequestTakerChecks : Prop :=
  (∀ (s : State) (i : Instr) (code tag : Byte) (payload : List Byte) (n : Nat),
    codedRequest code tag payload = some i → (code.toNat, n) ∈ requestLengths →
    s.takeable ⟨tag, code, payload⟩ = true →
    (payload.length ≠ n → exec i s = .next (s.answered ⟨tag, code ||| 0x80, [0x03]⟩)) ∧
    (payload.length = n → code.toNat ∈ laneCodes → 3 < item payload 0 1 →
      exec i s = .next (s.answered ⟨tag, code ||| 0x80, [0x04]⟩)) ∧
    (payload.length = n → code.toNat ∈ stationCodes → 2 < item payload 1 1 →
      exec i s = .next (s.answered ⟨tag, code ||| 0x80, [0x04]⟩))) ∧
  (∀ (s : State) (i : Instr) (code tag : Byte) (payload : List Byte),
    codedRequest code tag payload = some i → s.takeable ⟨tag, code, payload⟩ = false →
    exec i s = .next s)

/-- The frame on the line has gone out: it leaves the queue, and the sent count of its sort rises
(R187, R190). After a RESET_DEVICE has been taken this holds of every frame that stands ahead of its reply:
they are sent first, and the part works on (R189). The reply itself is StartUpFromEachCause's. -/
def Obligations.FrameSentLeavesQueue : Prop :=
  ∀ (s : State) (f : Frame) (fs : List Frame), s.phase = .working → s.link.output = f :: fs →
    (s.link.resetTaken = true → ∀ tag : Byte, f ≠ ⟨tag, 0x82, [0x00]⟩) →
    exec .frameSent s = .next { s with link := { s.link with
      output := fs
      noticesSent := if f.isNotice then holdInc s.link.noticesSent else s.link.noticesSent
      repliesSent := if f.isNotice then s.link.repliesSent else holdInc s.link.repliesSent } }

/-! ## Device requests and the settings store -/

/-- IDENTIFY replies with the codes, the reset cause, the store and save states and the line time, and
changes nothing (R195). GET_LINK_STATUS replies with the six counters and the three occupancies, and with
the clear option sets the counters to 0 (R190). GET_LINES answers at any time with the lines as they stand
and changes nothing (R164). The bytes of IDENTIFY's two states (log 15), the order of GET_LINES's items
(State.lineItems, log 15) and the 1 that stands for yes in them (log 14) are the model's choice. -/
def Obligations.DeviceReadsReply : Prop :=
  (∀ (s : State) (tag b : Byte), s.takeable ⟨tag, 0x01, [b]⟩ = true →
    exec (.identify tag [b]) s = .next (s.answered ⟨tag, 0x81,
      ([0x00, 0x3D, 0x01, 0xB0, 0x01,
       (match s.resetCause with | .powerOn => 0 | .resetLine => 1 | .resetRequest => 2),
       if s.store.valid then 0 else 1, if s.store.saving.isSome then 1 else 0] : List Byte) ++
      beBytes 4 s.lineTime.toNat⟩)) ∧
  (∀ (s : State) (tag clear : Byte), s.takeable ⟨tag, 0x04, [clear]⟩ = true →
    ∃ t, exec (.getLinkStatus tag [clear]) s = .next t ∧
      t.link.output = s.link.output ++ [⟨tag, 0x84, 0x00 ::
        ([s.link.goodFrames, s.link.badFrames, s.link.discarded, s.link.repliesSent,
          s.link.noticesSent, s.link.dropped].flatMap (fun c => beBytes 2 c.toNat) ++
        [byte (s.link.input.length - 1), byte s.link.output.length, byte s.link.notices])⟩] ∧
      t.link.input = s.link.input.drop 1 ∧
      (clear = 0 → t = s.answered ((t.link.output.getLast?).getD ⟨0, 0, []⟩)) ∧
      (clear ≠ 0 → t.link.goodFrames = 0 ∧ t.link.badFrames = 0 ∧ t.link.discarded = 0 ∧
        t.link.repliesSent = 0 ∧ t.link.noticesSent = 0 ∧ t.link.dropped = 0 ∧
        t.lanes = s.lanes ∧ t.device = s.device ∧ t.trace = s.trace)) ∧
  (∀ (s : State) (tag b : Byte), s.takeable ⟨tag, 0x41, [b]⟩ = true →
    exec (.getLines tag [b]) s = .next (s.answered ⟨tag, 0xC1, 0x00 :: s.lineItems⟩))

/-- RESET_DEVICE is answered OK, and from its step on no request is taken (R189). -/
def Obligations.ResetDeviceAnswered : Prop :=
  ∀ (s : State) (tag b : Byte), s.takeable ⟨tag, 0x02, [b]⟩ = true →
    ∃ t, exec (.resetDevice tag [b]) s = .next t ∧
      t = { s.answered ⟨tag, 0x82, [0x00]⟩ with
        link := { (s.answered ⟨tag, 0x82, [0x00]⟩).link with resetTaken := true } } ∧
      ∀ r : Request, t.takeable r = false

/-- SAVE_SETTINGS: BUSY while a save is writing; otherwise the snapshot of every configuration item, the
store INVALID, and ACCEPTED (R192, R193). SAVE_WRITE_END makes the store VALID with the snapshot as its
image exactly if the image read back agrees, and raises SAVE_DONE (R193); that a save which FAILED leaves
the snapshot as the image of the INVALID store is the model's choice (log 21). -/
def Obligations.SavingSettings : Prop :=
  (∀ (s : State) (tag b : Byte), s.takeable ⟨tag, 0x03, [b]⟩ = true →
    exec (.saveSettings tag [b]) s = .next
      (if s.store.saving.isSome then s.answered ⟨tag, 0x83, [0x08]⟩
      else { s.answered ⟨tag, 0x83, [0x01]⟩ with
        store := ⟨s.store.image, false,
          some ⟨Vector.ofFn fun l : Fin 4 => s.lanes[l].cfg, s.device⟩⟩ })) ∧
  (∀ (s : State) (agrees : Bool) (im : Image), s.store.saving = some im →
    ∃ t, exec (.saveWriteEnd agrees) s = .next t ∧ t.store = ⟨im, agrees, none⟩ ∧
      t.deviceFlag 7 = true ∧ t.lanes = s.lanes ∧ t.trace = s.trace ∧ t.device = s.device)

/-! ## Lanes -/

/-- GET_LANE_STATUS replies in every lane state, and with the clear option sets the lane tallies to 0 in
the same step (R131, R132). The layout of the reply (State.laneStatus) is the model's choice where R132 does
not give it byte by byte (log 15), as is the 1 it sends for yes (log 14). -/
def Obligations.GetLaneStatusReplies : Prop :=
  ∀ (s : State) (tag clear : Byte) (l : LaneId), s.takeable ⟨tag, 0x10, [byte l.val, clear]⟩ = true →
    ∃ t, exec (.getLaneStatus tag [byte l.val, clear]) s = .next t ∧
      t.link = (s.answered ⟨tag, 0x90, 0x00 :: s.laneStatus l⟩).link ∧
      (clear = 0 → t.lanes = s.lanes) ∧
      (clear ≠ 0 → t.lanes[l].discarded = 0 ∧ t.lanes[l].skipped = 0 ∧
        t.lanes[l].testTally = Vector.replicate 8 0 ∧ t.lanes[l].tb.phaseErrors = 0 ∧
        (∀ h : HeadId, t.lanes[l].receivers[h] = { s.lanes[l].receivers[h] with errors := 0 }) ∧
        t.lanes[l].queue = s.lanes[l].queue ∧ t.lanes[l].stations = s.lanes[l].stations ∧
        t.lanes[l].cfg = s.lanes[l].cfg ∧ t.lanes[l].lots = s.lanes[l].lots ∧
        t.lanes[l].tb.p = s.lanes[l].tb.p ∧
        ∀ k : LaneId, k ≠ l → t.lanes[k] = s.lanes[k]) ∧
      t.trace = s.trace ∧ t.device = s.device ∧ t.laneFlags = s.laneFlags

/-- A STOPPED lane takes every geometry in range, whole, and GET_LANE_GEOMETRY returns it with the
timebase setup (R125, R126). Whatever the payload: items that are in range are taken, any on-byte other than
0 meaning on, and on a lane that is not STOPPED they are refused with WRONG_STATE; a payload with an item out
of range is refused with BAD_VALUE (R125, R179). That the reply sends on as 1 is the model's choice (log
14). -/
def Obligations.LaneGeometrySetAndRead : Prop :=
  ∀ (s : State) (tag : Byte) (l : LaneId),
    (∀ g : Geometry, g.inRange → s.lanes[l].state = .stopped →
      s.takeable ⟨tag, 0x11, byte l.val :: g.encode⟩ = true →
      exec (.setLaneGeometry tag (byte l.val :: g.encode)) s = .next
        { s.answered ⟨tag, 0x91, [0x00]⟩ with
          lanes := s.lanes.set l { s.lanes[l] with cfg := { s.lanes[l].cfg with geometry := g } } }) ∧
    (∀ p : List Byte, p.length = 27 → item p 0 1 = l.val → s.takeable ⟨tag, 0x11, p⟩ = true →
      (∀ g : Geometry, g.spelledBy p → g.inRange → s.lanes[l].state = .stopped →
        exec (.setLaneGeometry tag p) s = .next
          { s.answered ⟨tag, 0x91, [0x00]⟩ with
            lanes := s.lanes.set l { s.lanes[l] with cfg := { s.lanes[l].cfg with geometry := g } } }) ∧
      (∀ g : Geometry, g.spelledBy p → g.inRange → s.lanes[l].state ≠ .stopped →
        exec (.setLaneGeometry tag p) s = .next (s.answered ⟨tag, 0x91, [0x05]⟩)) ∧
      ((∀ g : Geometry, g.spelledBy p → ¬g.inRange) →
        exec (.setLaneGeometry tag p) s = .next (s.answered ⟨tag, 0x91, [0x04]⟩))) ∧
    (s.takeable ⟨tag, 0x12, [byte l.val]⟩ = true →
      exec (.getLaneGeometry tag [byte l.val]) s = .next
        (s.answered ⟨tag, 0x92, 0x00 :: (s.lanes[l].cfg.geometry.encode ++ s.lanes[l].cfg.setup.encode)⟩))

/-- START_LANE of a STOPPED lane with a head enabled whose geometry passes the four checks of R117
(Geometry.Fails says each): RUNNING, the run's source as R45 gives it, encoder-lost clear, P and Pmax as they
were, LANE_STATE raised; the encoder monitor, which is disarmed on a STOPPED lane, arms in the step with the
line time kept exactly if that source is ENCODER and the debounced DRIVE_RUN is asserted (R34, R45, R118). The
scale, the residue, the rates and the generator stay (R47). -/
def Obligations.StartLaneRuns : Prop :=
  ∀ (s : State) (tag : Byte) (l : LaneId), s.takeable ⟨tag, 0x17, [byte l.val]⟩ = true →
    s.lanes[l].state = .stopped → s.plantStop = false →
    (∃ h : HeadId, s.lanes[l].cfg.geometry.headEnable[h] = true) →
    ∀ reach : Nat, s.lanes[l].cfg.geometry.Reaches reach → s.lanes[l].cfg.geometry.PassesTo reach 4 →
    ∃ t, exec (.startLane tag [byte l.val]) s = .next t ∧
      t.lanes[l].state = .running ∧ t.lanes[l].tb.encoderLost = false ∧
      t.lanes[l].tb.source = (if s.lanes[l].cfg.setup.twoStage then .nominal
        else s.lanes[l].cfg.setup.source) ∧
      t.lanes[l].tb.pendingSwitch =
        (if s.lanes[l].cfg.setup.source = .encoder ∧ s.lanes[l].cfg.setup.twoStage = true
        then some (.toEncoder ⟨s.lineTime, 0, 0, false, false, 0⟩) else none) ∧
      t.lanes[l].WatchedFrom s.lines.debounced[driveLine l] (s.lanes[l].keptTime s.lineTime) ∧
      s.lanes[l].ScaleKept t.lanes[l] ∧ s.lanes[l].TimebaseKept t.lanes[l] ∧
      t.lanes[l].tb.p = s.lanes[l].tb.p ∧ t.lanes[l].tb.pmax = s.lanes[l].tb.pmax ∧
      t.lanes[l].injection = none ∧ t.lanes[l].queue = s.lanes[l].queue ∧
      t.lanes[l].nextSerial = s.lanes[l].nextSerial ∧ t.lanes[l].lots = s.lanes[l].lots ∧
      t.lanes[l].testTally = s.lanes[l].testTally ∧ s.lanes[l].BeltFrame t.lanes[l] ∧
      t.laneFlag l 0 = true ∧ t.trace = s.trace ∧
      (s.answered ⟨tag, 0x97, [0x00]⟩).LaneFrame l t

/-- The refusals of START_LANE in the order of R116: BAD_VALUE, WRONG_STATE, NO_HEADS, GEOMETRY with the
number of the first check that fails and the station it names. The checks are said from the geometry: (1) the
distances of the enabled stations rise in belt order, (2) each is at least H + W + 1, (3) the exit distance is
at least that of the last plus 256, or H + W + 256 without one, (4) their fractions are distinct
(Geometry.Fails; R116, R117, R183). -/
def Obligations.StartLaneRefusals : Prop :=
  ∀ (s : State) (tag b : Byte), s.takeable ⟨tag, 0x17, [b]⟩ = true →
    (3 < b.toNat → exec (.startLane tag [b]) s = .next (s.answered ⟨tag, 0x97, [0x04]⟩)) ∧
    ∀ l : LaneId, b = byte l.val →
      ((s.lanes[l].state ≠ .stopped ∨ s.plantStop = true) →
        exec (.startLane tag [b]) s = .next (s.answered ⟨tag, 0x97, [0x05]⟩)) ∧
      (s.lanes[l].state = .stopped → s.plantStop = false →
        ((∀ h : HeadId, s.lanes[l].cfg.geometry.headEnable[h] = false) →
          exec (.startLane tag [b]) s = .next (s.answered ⟨tag, 0x97, [0x0A]⟩)) ∧
        ((∃ h : HeadId, s.lanes[l].cfg.geometry.headEnable[h] = true) →
          ∀ (reach check : Nat) (st : Option StationId), s.lanes[l].cfg.geometry.Reaches reach →
          s.lanes[l].cfg.geometry.PassesTo reach (check - 1) →
          s.lanes[l].cfg.geometry.Fails reach check st →
          exec (.startLane tag [b]) s = .next (s.answered ⟨tag, 0x97,
            [0x09, byte check] ++ (match st with | some x => [1, byte x.val] | none => [0, 0])⟩)))

/-- STOP_LANE of a RUNNING lane: DRAINING, or, with an empty queue, through DRAINING to STOPPED; the
injection and a pending switch end (R119, R120). A drain that completes sets Pmax to P, brings a pending scale
into force with a residue of 0 and disarms the monitor (R28, R34, R120); otherwise the scale and the residue
stay, and the monitor stays armed on ENCODER with DRIVE_RUN asserted (R119). The source, encoder-lost and the
rest of the timebase stay (R47). In other states it changes nothing (R119). -/
def Obligations.StopLaneDrains : Prop :=
  ∀ (s : State) (tag : Byte) (l : LaneId), s.takeable ⟨tag, 0x18, [byte l.val]⟩ = true →
    (s.lanes[l].state = .running →
      ∃ t, exec (.stopLane tag [byte l.val]) s = .next t ∧
        t.lanes[l].state = (if s.lanes[l].queue = [] then .stopped else .draining) ∧
        t.lanes[l].injection = none ∧ t.lanes[l].tb.pendingSwitch = none ∧
        t.lanes[l].tb.p = s.lanes[l].tb.p ∧
        t.lanes[l].tb.pmax = (if s.lanes[l].queue = [] then s.lanes[l].tb.p else s.lanes[l].tb.pmax) ∧
        (s.lanes[l].queue = [] → s.lanes[l].ScaleTaken t.lanes[l]) ∧
        (s.lanes[l].queue ≠ [] → s.lanes[l].ScaleKept t.lanes[l]) ∧
        t.lanes[l].WatchedFrom s.lines.debounced[driveLine l] (s.lanes[l].keptTime s.lineTime) ∧
        t.lanes[l].tb.source = s.lanes[l].tb.source ∧
        t.lanes[l].tb.encoderLost = s.lanes[l].tb.encoderLost ∧ s.lanes[l].TimebaseKept t.lanes[l] ∧
        t.lanes[l].queue = s.lanes[l].queue ∧ t.lanes[l].lots = s.lanes[l].lots ∧
        t.laneFlag l 0 = true ∧ t.trace = s.trace ∧
        (s.answered ⟨tag, 0x98, [0x00, 0x03]⟩).LaneFrame l t) ∧
    (s.lanes[l].state = .draining →
      exec (.stopLane tag [byte l.val]) s = .next (s.answered ⟨tag, 0x98, [0x00, 0x00]⟩)) ∧
    (s.lanes[l].state = .stopped ∨ s.lanes[l].state = .halted →
      exec (.stopLane tag [byte l.val]) s = .next (s.answered ⟨tag, 0x98, [0x05]⟩))

/-- R123: a number above 3 is refused with BAD_VALUE; a lane that is not HALTED, or raw PLANT_STOP
asserted, with WRONG_STATE; otherwise the lane becomes STOPPED with LANE_STATE raised and nothing else of
it changed, the halt cause included (its monitor is disarmed, as R34 has it in HALTED already). -/
def Obligations.ClearHaltReturnsToStopped : Prop :=
  ∀ (s : State) (tag b : Byte), s.takeable ⟨tag, 0x19, [b]⟩ = true →
    (3 < b.toNat → exec (.clearHalt tag [b]) s = .next (s.answered ⟨tag, 0x99, [0x04]⟩)) ∧
    ∀ l : LaneId, b = byte l.val →
      ((s.lanes[l].state ≠ .halted ∨ s.plantStop = true) →
        exec (.clearHalt tag [b]) s = .next (s.answered ⟨tag, 0x99, [0x05]⟩)) ∧
      (s.lanes[l].state = .halted → s.plantStop = false →
        exec (.clearHalt tag [b]) s = .next (State.raise
          { s.answered ⟨tag, 0x99, [0x00]⟩ with
            lanes := s.lanes.set l { s.lanes[l] with
              state := .stopped, tb := { s.lanes[l].tb with monitor := none } } }
          (.laneState l .stopped .clear)))

/-- RESET_LANE in every lane state: STOPPED, the configured source, no switch, no injection, encoder-lost
clear, Pmax equal to P with P unchanged, a pending scale in force with a residue of 0 (without one the scale and
the residue stay), the monitor disarmed, the rates and the generator as they were (R28, R34, R47, R124). On a lane that ran or drained the flush: an empty queue
and empty firing lists, every parcel counted LOST in its lot or in the test tally, and, where the lots agree
with the queue, a draining lot completed, with a set pending auto-close taken and its lot completed too (two
completions, the new filling lot's id the old plus one, Lane.Flushes and LotUnit.Ends; R13, R22, R122, R140,
R142, R147); the columns freed close and rest and the set is sent (R105, R110, R112); one LOST entry with no
serial, the filling lot after the flush and the number of parcels removed (R122). On a lane at rest there is
no flush and no entry, and a draining lot, with no close pending, completes in any case (R124, R147). -/
def Obligations.ResetLaneEndsAll : Prop :=
  ∀ (s : State) (tag : Byte) (l : LaneId), s.takeable ⟨tag, 0x1A, [byte l.val]⟩ = true →
    ∃ t, exec (.resetLane tag [byte l.val]) s = .next t ∧
      t.lanes[l].state = .stopped ∧ t.lanes[l].tb.source = s.lanes[l].cfg.setup.source ∧
      t.lanes[l].tb.pendingSwitch = none ∧ t.lanes[l].tb.encoderLost = false ∧
      t.lanes[l].injection = none ∧ t.lanes[l].tb.p = s.lanes[l].tb.p ∧
      t.lanes[l].tb.pmax = s.lanes[l].tb.p ∧ s.lanes[l].ScaleTaken t.lanes[l] ∧
      t.lanes[l].tb.monitor = none ∧ s.lanes[l].TimebaseKept t.lanes[l] ∧
      (s.lanes[l].lots.pendingClose = false → t.lanes[l].lots.draining = none) ∧
      (s.lanes[l].active = true → s.lanes[l].Flushes (s.env l) t.lanes[l] ∧
        s.lanes[l].PortsFollow l t.lanes[l] ∧ s.lanes[l].ClosedRest s.lineTime t.lanes[l] ∧
        (s.lanes[l].LotsAgree → s.Traces t [lostEntry s.lineTime l s.lanes[l] t.lanes[l]] ∧
          (s.lanes[l].lots.draining ≠ none → t.laneFlag l 3 = true) ∧
          (s.lanes[l].lots.pendingClose = true →
            t.lanes[l].lots.nextCompletion = s.lanes[l].lots.nextCompletion + 2 ∧
            t.lanes[l].lots.filling =
              .fresh l (s.lanes[l].lots.filling.id + 1) s.lineTime))) ∧
      (s.lanes[l].active = false → t.lanes[l].queue = s.lanes[l].queue ∧
        t.lanes[l].stations = s.lanes[l].stations ∧ t.lanes[l].testTally = s.lanes[l].testTally ∧
        s.Traces t [] ∧ ∀ d cause, s.lanes[l].lots.draining = some d → d.closeCause = some cause →
          s.lanes[l].lots.pendingClose = false →
          t.lanes[l].lots = s.lanes[l].lots.completed s.lineTime d ∧ t.laneFlag l 3 = true) ∧
      (s.lanes[l].state ≠ .stopped → t.laneFlag l 0 = true) ∧
      t.lanes[l].nextSerial = s.lanes[l].nextSerial ∧ t.lanes[l].haltCause = s.lanes[l].haltCause ∧
      t.lanes[l].receivers = s.lanes[l].receivers ∧ t.lanes[l].discarded = s.lanes[l].discarded ∧
      (∀ st : StationId, t.lanes[l].stations[st].history = s.lanes[l].stations[st].history) ∧
      t.lanes[l].cfg.geometry = s.lanes[l].cfg.geometry ∧
      (s.answered ⟨tag, 0x9A, [0x00]⟩).LaneFrame l t

/-- INJECT_START on a RUNNING lane with items in range: the generator takes the record, its next position
one spacing past Pmax; an item out of range is refused with BAD_VALUE, a lane that is not RUNNING with
WRONG_STATE; INJECT_STOP in every state makes it idle (R127, R129). -/
def Obligations.InjectionStartsAndStops : Prop :=
  ∀ (s : State) (tag : Byte) (l : LaneId),
    (∀ (st : StationId) (first last : Fin 32) (len count spacing : Nat),
      first.val ≤ last.val → 1 ≤ len → len ≤ 4095 → count ≤ 65535 → 16 ≤ spacing → spacing ≤ 16383 →
      s.lanes[l].state = .running →
      s.takeable ⟨tag, 0x38, [byte l.val, byte st.val, byte first.val, byte last.val] ++
        beBytes 2 len ++ beBytes 2 count ++ beBytes 2 spacing⟩ = true →
      exec (.injectStart tag ([byte l.val, byte st.val, byte first.val, byte last.val] ++
        beBytes 2 len ++ beBytes 2 count ++ beBytes 2 spacing)) s = .next
        { s.answered ⟨tag, 0xB8, [0x00, if s.lanes[l].injection.isSome then 8 else 7]⟩ with
          lanes := s.lanes.set l { s.lanes[l] with
            injection := some (⟨st, first, last, len, spacing, if count = 0 then none else some count,
              s.lanes[l].tb.pmax + BitVec.ofNat 32 spacing⟩ : Injection) } }) ∧
    (∀ p : List Byte, p.length = 10 → item p 0 1 = l.val → s.takeable ⟨tag, 0x38, p⟩ = true →
      ((∀ inj : Injection, inj.spelledBy s.lanes[l].tb.pmax p → ¬inj.inRange) →
        exec (.injectStart tag p) s = .next (s.answered ⟨tag, 0xB8, [0x04]⟩)) ∧
      (∀ inj : Injection, inj.spelledBy s.lanes[l].tb.pmax p → inj.inRange → s.lanes[l].state ≠ .running →
        exec (.injectStart tag p) s = .next (s.answered ⟨tag, 0xB8, [0x05]⟩))) ∧
    (s.takeable ⟨tag, 0x39, [byte l.val]⟩ = true →
      exec (.injectStop tag [byte l.val]) s = .next
        { s.answered ⟨tag, 0xB9, [0x00, if s.lanes[l].injection.isSome then 9 else 0]⟩ with
          lanes := s.lanes.set l { s.lanes[l] with injection := none } })

/-! ## Timebase -/

/-- SET_TIMEBASE of a STOPPED lane with no switch pending sets every item together and changes nothing
else (R44). Whatever the payload: an item out of range is refused with BAD_VALUE, then a pending switch with
SWITCH_PENDING, then a lane that is not STOPPED with WRONG_STATE (R42, R44). -/
def Obligations.TimebaseSet : Prop :=
  ∀ (s : State) (tag : Byte) (l : LaneId),
    (∀ setup : TimebaseSetup, setup.inRange →
      s.lanes[l].state = .stopped → s.lanes[l].tb.pendingSwitch = none →
      s.takeable ⟨tag, 0x13, byte l.val :: setup.encode⟩ = true →
      exec (.setTimebase tag (byte l.val :: setup.encode)) s = .next
        { s.answered ⟨tag, 0x93, [0x00]⟩ with
          lanes := s.lanes.set l { s.lanes[l] with cfg := { s.lanes[l].cfg with setup := setup } } }) ∧
    (∀ p : List Byte, p.length = 8 → item p 0 1 = l.val → s.takeable ⟨tag, 0x13, p⟩ = true →
      ((∀ t : TimebaseSetup, t.spelledBy p → ¬t.inRange) →
        exec (.setTimebase tag p) s = .next (s.answered ⟨tag, 0x93, [0x04]⟩)) ∧
      (∀ t : TimebaseSetup, t.spelledBy p → t.inRange →
        exec (.setTimebase tag p) s = .next
          (if s.lanes[l].tb.pendingSwitch ≠ none then s.answered ⟨tag, 0x93, [0x06]⟩
          else if s.lanes[l].state ≠ .stopped then s.answered ⟨tag, 0x93, [0x05]⟩
          else { s.answered ⟨tag, 0x93, [0x00]⟩ with
            lanes := s.lanes.set l { s.lanes[l] with cfg := { s.lanes[l].cfg with setup := t } } })))

/-- SET_SCALE with values in range and no switch pending: on a STOPPED or HALTED lane the scale is in
force at once with residue 0, on another it becomes the pending scale; the rate becomes the pending rate
(R28, R30; the mark of a rate set on a stopped generator is the model's, log 11). With a switch pending
it is refused and changes nothing (R42). A scale or rate out of range is refused with BAD_VALUE (R28). -/
def Obligations.ScaleSet : Prop :=
  (∀ (s : State) (tag : Byte) (p : List Byte), p.length = 4 → s.takeable ⟨tag, 0x14, p⟩ = true →
    item p 1 1 = 0 ∨ 64 < item p 1 1 ∨ item p 2 2 = 0 ∨ 10000 < item p 2 2 →
    exec (.setScale tag p) s = .next (s.answered ⟨tag, 0x94, [0x04]⟩)) ∧
  ∀ (s : State) (tag : Byte) (l : LaneId) (scale rate : Nat), 1 ≤ scale → scale ≤ 64 → 1 ≤ rate →
    rate ≤ 10000 → s.takeable ⟨tag, 0x14, [byte l.val, byte scale] ++ beBytes 2 rate⟩ = true →
    (s.lanes[l].tb.pendingSwitch ≠ none →
      exec (.setScale tag ([byte l.val, byte scale] ++ beBytes 2 rate)) s = .next
        (s.answered ⟨tag, 0x94, [0x06]⟩)) ∧
    (s.lanes[l].tb.pendingSwitch = none →
      exec (.setScale tag ([byte l.val, byte scale] ++ beBytes 2 rate)) s = .next
        { s.answered ⟨tag, 0x94, [0x00]⟩ with
          lanes := s.lanes.set l { s.lanes[l] with
            cfg := { s.lanes[l].cfg with
              scale := if s.lanes[l].active then s.lanes[l].cfg.scale else scale }
            tb := { s.lanes[l].tb with
              pendingScale := if s.lanes[l].active then some scale else none
              residue := if s.lanes[l].active then s.lanes[l].tb.residue else 0
              pendingRate := some ⟨rate, s.lanes[l].tb.accumulator.isNone⟩ } } })

/-- SWITCH_SOURCE on a RUNNING lane ends any pending switch as replaced and creates the one asked for,
unless the target is the active source; a target other than the two is refused with BAD_VALUE, and a lane
that is not RUNNING with WRONG_STATE; ABORT_SWITCH removes a pending switch in every state (R38, R41). That
the reply's item "replaced" is sent as 1 for yes is the model's choice (log 14). -/
def Obligations.SourceSwitchRequested : Prop :=
  ∀ (s : State) (tag : Byte) (l : LaneId),
    (∀ target : Source, s.lanes[l].state = .running →
      s.takeable ⟨tag, 0x15, [byte l.val, if target = .encoder then 0 else 1]⟩ = true →
      exec (.switchSource tag [byte l.val, if target = .encoder then 0 else 1]) s = .next
        { s.answered ⟨tag, 0x95, [0x00, if target = s.lanes[l].tb.source then 0 else 1,
            if s.lanes[l].tb.pendingSwitch.isSome then 1 else 0]⟩ with
          lanes := s.lanes.set l { s.lanes[l] with tb := { s.lanes[l].tb with
            pendingSwitch := (if target = s.lanes[l].tb.source then none
              else if target = .encoder then some (.toEncoder ⟨s.lineTime, 0, 0, false, false, 0⟩)
              else some .toNominal) } } }) ∧
    (∀ b : Byte, s.takeable ⟨tag, 0x15, [byte l.val, b]⟩ = true →
      (1 < b.toNat → exec (.switchSource tag [byte l.val, b]) s = .next (s.answered ⟨tag, 0x95, [0x04]⟩)) ∧
      (b.toNat ≤ 1 → s.lanes[l].state ≠ .running →
        exec (.switchSource tag [byte l.val, b]) s = .next (s.answered ⟨tag, 0x95, [0x05]⟩))) ∧
    (s.takeable ⟨tag, 0x16, [byte l.val]⟩ = true →
      exec (.abortSwitch tag [byte l.val]) s = .next
        { s.answered ⟨tag, 0x96, [0x00, if s.lanes[l].tb.pendingSwitch.isSome then 2 else 0]⟩ with
          lanes := s.lanes.set l { s.lanes[l] with tb := { s.lanes[l].tb with
            pendingSwitch := none } } })

/-- A sample of the encoder phases of a lane. It is held back, nothing else changed, only where the queued
samples carry P past the reverse limit with it before the reversal's cut can be taken (R33; the model's choice,
log 19). Any other is taken on the lane as it stands, or, where it carries P past the limit (Lane.Outruns), as
the held samples leave it. The same pair is no count; a change of both is a phase error and nothing else; one
step along the cycle of R26 is a count up, one against it a count down, to divider, monitor and switch
controller (Lane.countedUp, Lane.countedDown). The scale in force changes at a completion alone, to a pending
one (R28). A lane RUNNING or DRAINING on ENCODER with DRIVE_RUN asserted after the sample has its monitor armed,
its time the line time after a count, else kept; any other is disarmed (R34, R39). At a completion on an ENCODER
source P steps up (Lane.StepsUp) or down (Lane.StepsDown); else nothing else happens (R26 to R28, R31, R34,
R40). A step up onto new ground raises Pmax and each block acts on the advance, once (R31); below Pmax no
parcel, list or lot changes (R32). Taking a DRAINING lane's last parcel completes the drain (Lane.Drains; R120).
A step down on a lane that runs or drains leaves no parcel FIRING; the columns freed close, rest from now and
the set is sent (R32, R96, R105, R108, R112). Within the reverse limit the FIRING parcels, and no other, are cut
with CUT_REVERSE entries. Past it, for any limit, the queue empties, Pmax is P and the lane is HALTED with cause
REVERSE_LIMIT, in one of two orders: every parcel is LOST, or the FIRING ones are cut first (R33); a cut that
completes a drain leaves the lane STOPPED (R120). A step down of a lane at rest lowers Pmax too (R31). A pending
switch to NOMINAL completes at a step of P (R39). The order of the blocks with work at one step, and that a
drain completes before the next block acts, are the model's choices (logs 3, 13). -/
def Obligations.EncoderMovesP : Prop :=
  ∀ (s : State) (l : LaneId) (a b : Bool), s.phase = .working →
    ∃ t : State, exec (.encoderPhaseChange l a b) s = .next t ∧
      ((t = { s with held := s.held.set l (s.held[l] ++ [(a, b)]), choices := s.choices + 1 } ∧
          s.OutrunAhead l (s.held[l] ++ [(a, b)])) ∨
        ∃ (ln : Lane) (out : LaneOut), t = State.stepped { s with held := s.held.set l [] } l out ∧
      (s.lanes[l].Outruns s.lineTime s.held[l] (a, b) →
        ln = s.held[l].foldl (Lane.sunk s.lineTime) s.lanes[l] ∧ t.lanes[l].tb.p =
          s.lanes[l].tb.pmax - BitVec.ofNat 32 (s.lanes[l].cfg.geometry.reverseLimit + 1)) ∧
      (¬s.lanes[l].Outruns s.lineTime s.held[l] (a, b) → ln = s.lanes[l]) ∧
      State.LaneFrame l { s with held := s.held.set l [] } t ∧
      t.lanes[l] = out.lane ∧ t.lanes[l].tb.phases = (a, b) ∧
      ((a, b) = ln.tb.phases ∨ (a, b) = (!ln.tb.phases.1, !ln.tb.phases.2) →
        t.lanes[l].WatchedFrom s.lines.debounced[driveLine l] (ln.keptTime s.lineTime) ∧
        ln.ScaleKept t.lanes[l]) ∧
      ((a, b) = (!ln.tb.phases.2, ln.tb.phases.1) ∨ (a, b) = (ln.tb.phases.2, !ln.tb.phases.1) →
        t.lanes[l].WatchedFrom s.lines.debounced[driveLine l] s.lineTime) ∧
      ((a, b) = ln.tb.phases → out = (ln.syncMonitor (s.env l)).quiet) ∧
      ((a, b) = (!ln.tb.phases.1, !ln.tb.phases.2) →
        out = (Lane.syncMonitor (s.env l) { ln with tb := { ln.tb with
          phases := (a, b), phaseErrors := holdInc ln.tb.phaseErrors } }).quiet ∧
        t.lanes[l].tb.p = ln.tb.p ∧ t.lanes[l].tb.residue = ln.tb.residue ∧
        t.lanes[l].tb.phaseErrors = holdInc ln.tb.phaseErrors ∧ t.lanes[l].queue = ln.queue) ∧
      (((a, b) = (!ln.tb.phases.2, ln.tb.phases.1)) →
        (¬(ln.tb.source = .encoder ∧ ln.cfg.scale ≤ ln.tb.residue + 1) →
          out = ((ln.countedUp (a, b) s.lineTime).syncMonitor (s.env l)).quiet) ∧
        (ln.tb.source = .encoder → ln.cfg.scale ≤ ln.tb.residue + 1 →
          (ln.countedUp (a, b) s.lineTime).StepsUp (s.env l) s.lanes[l] out ∧ ln.MovesUp t.lanes[l] ∧
          (ln.countedUp (a, b) s.lineTime).Drains t.lanes[l] (t.laneFlag l 0 = true) ∧
          (ln.tb.pendingSwitch = some .toNominal → t.lanes[l].tb.source = .nominal ∧
            t.lanes[l].tb.pendingSwitch = none ∧ t.laneFlag l 2 = true)) ∧
        t.lanes[l].tb.residue = (if ln.cfg.scale ≤ ln.tb.residue + 1 then 0 else ln.tb.residue + 1) ∧
        t.lanes[l].cfg.scale = (if ln.cfg.scale ≤ ln.tb.residue + 1
          then ln.tb.pendingScale.getD ln.cfg.scale else ln.cfg.scale) ∧
        t.lanes[l].tb.pendingScale = (if ln.cfg.scale ≤ ln.tb.residue + 1 then none
          else ln.tb.pendingScale) ∧
        t.lanes[l].tb.p = (if ln.tb.source = .encoder ∧ ln.cfg.scale ≤ ln.tb.residue + 1 then ln.tb.p + 1
          else ln.tb.p) ∧
        t.lanes[l].tb.phaseErrors = ln.tb.phaseErrors) ∧
      (((a, b) = (ln.tb.phases.2, !ln.tb.phases.1)) →
        (¬(ln.tb.source = .encoder ∧ ln.tb.residue = 0) →
          out = ((ln.countedDown (a, b) s.lineTime).syncMonitor (s.env l)).quiet) ∧
        (ln.tb.source = .encoder → ln.tb.residue = 0 →
          (ln.countedDown (a, b) s.lineTime).StepsDown (s.env l) s.lanes[l] out ∧
          (ln.active = false → t.lanes[l].tb.pmax = ln.tb.p - 1 ∧ t.lanes[l].queue = ln.queue ∧
            t.lanes[l].state = ln.state) ∧
          (ln.active = true →
            let cut : List TraceEntry := cutEntries s.lineTime l .cutReverse ln.queue
            let drained : Prop := ln.state = .draining ∧ ln.Firing ∧ t.lanes[l].state = .stopped ∧
              t.lanes[l].queue = []
            (∀ p ∈ t.lanes[l].queue, p.isFiring = false) ∧
            s.lanes[l].PortsFollow l t.lanes[l] ∧ s.lanes[l].ClosedRest s.lineTime t.lanes[l] ∧
            (ln.Passes → t.lanes[l].queue = [] ∧ t.lanes[l].tb.pmax = ln.tb.p - 1 ∧
              (drained ∨ t.lanes[l].state = .halted ∧ t.lanes[l].haltCause = .reverseLimit ∧
                t.lanes[l].injection = none ∧ t.lanes[l].tb.pendingSwitch = none ∧
                t.laneFlag l 0 = true)) ∧
            (ln.Passes → (ln.queue.map (·.serial)).Nodup → ln.queue.Pairwise Parcel.StandsBefore →
              (t.lanes[l].state = .stopped ∧ s.Traces t cut) ∨
              (t.lanes[l].state = .halted ∧ s.Traces t [lostEntry s.lineTime l ln t.lanes[l]]) ∨
              (t.lanes[l].state = .halted ∧ s.Traces t (cut ++ [lostEntry s.lineTime l
                { ln with queue := ln.queue.filter fun p => !p.isFiring } t.lanes[l]]))) ∧
            (¬ln.Passes →
              (¬ln.Firing → t.lanes[l].queue = ln.queue ∧ t.lanes[l].stations = ln.stations ∧
                t.lanes[l].lots = ln.lots) ∧
              ((ln.queue.map (·.serial)).Nodup → t.lanes[l].queue = ln.queue.filter fun p => !p.isFiring) ∧
              ((ln.queue.map (·.serial)).Nodup → ln.queue.Pairwise Parcel.StandsBefore → s.Traces t cut) ∧
              (drained ∨ t.lanes[l].state = ln.state ∧ t.lanes[l].tb.pmax = ln.tb.pmax))) ∧
          (ln.tb.pendingSwitch = some .toNominal → (ln.active = false ∨ ¬ln.Passes) →
            t.lanes[l].tb.source = .nominal ∧ t.lanes[l].tb.pendingSwitch = none ∧
            t.laneFlag l 2 = true)) ∧
        t.lanes[l].tb.residue = (if ln.tb.residue = 0 then ln.tb.pendingScale.getD ln.cfg.scale - 1
          else ln.tb.residue - 1) ∧
        t.lanes[l].cfg.scale = (if ln.tb.residue = 0 then ln.tb.pendingScale.getD ln.cfg.scale
          else ln.cfg.scale) ∧
        t.lanes[l].tb.pendingScale = (if ln.tb.residue = 0 then none else ln.tb.pendingScale) ∧
        t.lanes[l].tb.p = (if ln.tb.source = .encoder ∧ ln.tb.residue = 0 then ln.tb.p - 1 else ln.tb.p) ∧
        t.lanes[l].tb.phaseErrors = ln.tb.phaseErrors))

/-- A nominal count that is due: the accumulator loses 1,000,000, a pending rate comes into force, and on a
NOMINAL source a current advance is counted (Lane.countedNominal). On an ENCODER source nothing else happens;
on a NOMINAL source P steps up by one (Lane.StepsUp): onto new ground Pmax follows and each block acts on the
advance by its own rule, once; below Pmax no parcel, list or lot changes (R29 to R32, R40). An agreed switch
to ENCODER completes at the step and clears encoder-lost (R40); the encoder monitor of a lane that runs or drains
then arms if the debounced DRIVE_RUN is asserted, with the line time kept (R34). A step that takes the last
parcel of a DRAINING lane completes the drain, with a pending scale in force (Lane.Drains; R28, R120). The order in which blocks with work at one
step act, and that a drain completes before the next of them acts, are the model's choices (logs 3, 13). -/
def Obligations.NominalCountMovesP : Prop :=
  ∀ (s : State) (l : LaneId) (acc : Nat), s.phase = .working →
    s.lanes[l].tb.accumulator = some acc → 1000000 ≤ acc →
    ∃ (out : LaneOut) (t : State), exec (.nominalCount l) s = .next t ∧ t = s.stepped l out ∧
      t.lanes[l] = out.lane ∧ t.lanes[l].tb.accumulator = some (acc - 1000000) ∧
      t.lanes[l].tb.pendingRate = none ∧
      t.lanes[l].cfg.rate = ((s.lanes[l].tb.pendingRate.map (·.rate)).getD s.lanes[l].cfg.rate) ∧
      t.lanes[l].tb.p = (if s.lanes[l].tb.source = .nominal then s.lanes[l].tb.p + 1
        else s.lanes[l].tb.p) ∧
      (s.lanes[l].tb.source = .encoder → out = (s.lanes[l].countedNominal.syncMonitor (s.env l)).quiet) ∧
      (s.lanes[l].tb.source = .nominal →
        s.lanes[l].countedNominal.StepsUp (s.env l) s.lanes[l] out ∧
        s.lanes[l].MovesUp t.lanes[l] ∧ s.lanes[l].Drains t.lanes[l] (t.laneFlag l 0 = true) ∧
        (∀ st : Settle, s.lanes[l].tb.pendingSwitch = some (.toEncoder st) → st.agreed = true →
          t.lanes[l].tb.source = .encoder ∧ t.lanes[l].tb.pendingSwitch = none ∧
          t.lanes[l].tb.encoderLost = false ∧ t.laneFlag l 2 = true)) ∧
      t.lanes[l].WatchedFrom s.lines.debounced[driveLine l] (s.lanes[l].keptTime s.lineTime) ∧
      t.lanes[l].cfg.geometry = s.lanes[l].cfg.geometry ∧ t.lanes[l].receivers = s.lanes[l].receivers ∧
      t.lanes[l].hostHold = s.lanes[l].hostHold ∧ s.LaneFrame l t

/-- The end of a settle period: with E and N the two advances, agreed if N is at least 1, no count down
was seen and the difference times 100 is at most the tolerance times N; otherwise failed periods rise and
a new period begins back to back (R40; that a late end keeps the period's own boundary is the model's
choice, log 12). -/
def Obligations.SettlePeriodJudged : Prop :=
  ∀ (s : State) (l : LaneId) (st : Settle), s.phase = .working →
    s.lanes[l].tb.pendingSwitch = some (.toEncoder st) → st.agreed = false →
    s.lanes[l].cfg.setup.settlePeriod ≤ (s.lineTime - st.periodStart).toNat →
    ∃ t, exec (.settlePeriodEnd l) s = .next t ∧
      t.lanes[l].tb.pendingSwitch = some (.toEncoder
        (if 1 ≤ st.currentAdvance.toNat ∧ st.backwardSeen = false ∧
          ((st.encoderAdvance.toNat : Int) - st.currentAdvance.toNat).natAbs * 100 ≤
            s.lanes[l].cfg.setup.tolerance * st.currentAdvance.toNat
        then { st with agreed := true }
        else ⟨st.periodStart + BitVec.ofNat 32 s.lanes[l].cfg.setup.settlePeriod, 0, 0, false, false,
          holdInc st.failedPeriods⟩)) ∧
      t.lanes[l].tb.source = s.lanes[l].tb.source ∧ t.lanes[l].tb.p = s.lanes[l].tb.p ∧
      t.lanes[l].queue = s.lanes[l].queue ∧ s.lanes[l].BeltFrame t.lanes[l] ∧ t.trace = s.trace ∧
      s.LaneFrame l t

/-- The expiry of the encoder monitor: NOMINAL at once, encoder-lost set, no pending switch, the monitor
disarmed, ENCODER_LOST raised, and P, Pmax and the parcels as they were (R35, R43). -/
def Obligations.MonitorExpiryLosesEncoder : Prop :=
  ∀ (s : State) (l : LaneId) (since : Time), s.phase = .working →
    s.lanes[l].tb.monitor = some since →
    s.lanes[l].cfg.setup.watchTime ≤ (s.lineTime - since).toNat →
    ∃ t, exec (.encoderMonitorExpiry l) s = .next t ∧ t.lanes[l].tb.source = .nominal ∧
      t.lanes[l].tb.encoderLost = true ∧ t.lanes[l].tb.pendingSwitch = none ∧
      t.lanes[l].tb.monitor = none ∧ t.laneFlag l 1 = true ∧ t.lanes[l].tb.p = s.lanes[l].tb.p ∧
      t.lanes[l].tb.pmax = s.lanes[l].tb.pmax ∧ t.lanes[l].queue = s.lanes[l].queue ∧
      t.lanes[l].state = s.lanes[l].state ∧ s.lanes[l].BeltFrame t.lanes[l] ∧ t.trace = s.trace ∧
      s.LaneFrame l t

/-! ## Tables and stations -/

/-- SET_CLASS_ENTRY with fields in range replaces the whole entry and nothing else; with an index above 63
or a field out of range it is refused with BAD_VALUE; GET_CLASS_ENTRY returns the entry as it stands and
refuses an index above 63 (R72). That the reply sends valid as 1 is the model's choice (log 14). -/
def Obligations.ClassEntrySetAndRead : Prop :=
  ∀ (s : State) (tag : Byte) (i : Fin 64),
    (∀ e : ClassEntry, e.inRange → s.takeable ⟨tag, 0x20, byte i.val :: e.encode⟩ = true →
      exec (.setClassEntry tag (byte i.val :: e.encode)) s = .next
        { s.answered ⟨tag, 0xA0, [0x00]⟩ with
          device := { s.device with classTable := s.device.classTable.set i e } }) ∧
    (∀ p : List Byte, p.length = 18 → s.takeable ⟨tag, 0x20, p⟩ = true →
      (∀ e : ClassEntry, item p 0 1 = i.val → e.spelledBy p → e.inRange →
        exec (.setClassEntry tag p) s = .next { s.answered ⟨tag, 0xA0, [0x00]⟩ with
          device := { s.device with classTable := s.device.classTable.set i e } }) ∧
      (63 < item p 0 1 ∨ (∀ e : ClassEntry, e.spelledBy p → ¬e.inRange) →
        exec (.setClassEntry tag p) s = .next (s.answered ⟨tag, 0xA0, [0x04]⟩))) ∧
    (∀ b : Byte, 63 < b.toNat → s.takeable ⟨tag, 0x21, [b]⟩ = true →
      exec (.getClassEntry tag [b]) s = .next (s.answered ⟨tag, 0xA1, [0x04]⟩)) ∧
    (s.takeable ⟨tag, 0x21, [byte i.val]⟩ = true →
      exec (.getClassEntry tag [byte i.val]) s = .next
        (s.answered ⟨tag, 0xA1, 0x00 :: s.device.classTable[i].encode⟩))

/-- R73: SET_PROFILE with a number above 7, a spread above 3 or a max open time of 0 or above 250 is
refused with BAD_VALUE and nothing changes; otherwise the four fields are replaced together. GET_PROFILE
refuses a number above 7 and otherwise returns the four fields. -/
def Obligations.ProfileSetAndRead : Prop :=
  ∀ (s : State) (tag n lead lag spread open_ : Byte),
    (s.takeable ⟨tag, 0x22, [n, lead, lag, spread, open_]⟩ = true →
      ((7 < n.toNat ∨ 3 < spread.toNat ∨ open_.toNat = 0 ∨ 250 < open_.toNat) →
        exec (.setProfile tag [n, lead, lag, spread, open_]) s = .next
          (s.answered ⟨tag, 0xA2, [0x04]⟩)) ∧
      (∀ i : Fin 8, n = byte i.val → spread.toNat ≤ 3 → 1 ≤ open_.toNat → open_.toNat ≤ 250 →
        exec (.setProfile tag [n, lead, lag, spread, open_]) s = .next
          { s.answered ⟨tag, 0xA2, [0x00]⟩ with
            device := { s.device with
              profiles := (s.device.profiles.set i
                (⟨lead.toNat, lag.toNat, spread.toNat, open_.toNat⟩ : Profile)) } })) ∧
    (s.takeable ⟨tag, 0x23, [n]⟩ = true →
      (7 < n.toNat → exec (.getProfile tag [n]) s = .next (s.answered ⟨tag, 0xA3, [0x04]⟩)) ∧
      (∀ i : Fin 8, n = byte i.val → exec (.getProfile tag [n]) s = .next
        (s.answered ⟨tag, 0xA3, [0x00, byte s.device.profiles[i].leadMargin,
          byte s.device.profiles[i].lagMargin, byte s.device.profiles[i].spread,
          byte s.device.profiles[i].maxOpen]⟩)))

/-- SET_STATION with items in range replaces the column rest and the four rules together in every lane
state, and with an item out of range it is refused with BAD_VALUE; GET_STATION_STATUS answers in every state
and changes nothing (R91, R113). The layout of the status reply (State.stationStatus) is the model's choice
where R113 does not give it byte by byte (log 15), as is the 1 it sends for yes (log 14). -/
def Obligations.StationSetAndRead : Prop :=
  ∀ (s : State) (tag : Byte) (l : LaneId) (st : StationId),
    (∀ c : StationConfig, c.inRange →
      s.takeable ⟨tag, 0x28, [byte l.val, byte st.val, byte c.columnRest] ++
        c.rules.toList.flatMap (fun r => byte r.count :: beBytes 2 r.window)⟩ = true →
      exec (.setStation tag ([byte l.val, byte st.val, byte c.columnRest] ++
        c.rules.toList.flatMap (fun r => byte r.count :: beBytes 2 r.window))) s = .next
        { s.answered ⟨tag, 0xA8, [0x00]⟩ with
          lanes := s.lanes.set l { s.lanes[l] with cfg := { s.lanes[l].cfg with
            stations := s.lanes[l].cfg.stations.set st c } } }) ∧
    (∀ p : List Byte, p.length = 15 → item p 0 1 = l.val → item p 1 1 = st.val →
      s.takeable ⟨tag, 0x28, p⟩ = true →
      (∀ c : StationConfig, c.spelledBy p → c.inRange →
        exec (.setStation tag p) s = .next { s.answered ⟨tag, 0xA8, [0x00]⟩ with
          lanes := s.lanes.set l { s.lanes[l] with cfg := { s.lanes[l].cfg with
            stations := s.lanes[l].cfg.stations.set st c } } }) ∧
      ((∀ c : StationConfig, c.spelledBy p → ¬c.inRange) →
        exec (.setStation tag p) s = .next (s.answered ⟨tag, 0xA8, [0x04]⟩))) ∧
    (s.takeable ⟨tag, 0x2B, [byte l.val, byte st.val]⟩ = true →
      exec (.getStationStatus tag [byte l.val, byte st.val]) s = .next
        (s.answered ⟨tag, 0xAB, 0x00 :: s.stationStatus l st⟩))

/-- ENABLE_STATION turns a disabled station's enable on and changes nothing else (R92). DISABLE_STATION of an
enabled one turns it off and settles the parcels of its list: a FIRING one is removed CUT, a SCHEDULED one
becomes TRAVELLING DENIED (removed at once if its exit position is at or behind Pmax, R7), each with its entry
CUT_STATION_OFF or DENIED_STATION_OFF, in queue order, and every other parcel stays as it is; the list is
empty (R109). Each removal is counted by its lot or the test tally (R11, R137); the freed columns rest from
now for the column rest in force, and the set, if it changed, is sent or waits (R96, R105, R112). Where the last
parcel of a DRAINING lane goes, the drain completes (Lane.Drains; R28, R34, R120). -/
def Obligations.StationEnabledAndDisabled : Prop :=
  ∀ (s : State) (tag : Byte) (l : LaneId) (st : StationId),
    (s.takeable ⟨tag, 0x29, [byte l.val, byte st.val]⟩ = true →
      exec (.enableStation tag [byte l.val, byte st.val]) s = .next
        (if s.lanes[l].cfg.geometry.stationEnable[st] then s.answered ⟨tag, 0xA9, [0x00, 0x00]⟩
        else { s.answered ⟨tag, 0xA9, [0x00, 0x05]⟩ with
          lanes := s.lanes.set l { s.lanes[l] with cfg := { s.lanes[l].cfg with
            geometry := { s.lanes[l].cfg.geometry with
              stationEnable := s.lanes[l].cfg.geometry.stationEnable.set st true } } } })) ∧
    (s.takeable ⟨tag, 0x2A, [byte l.val, byte st.val]⟩ = true →
      (s.lanes[l].cfg.geometry.stationEnable[st] = false →
        exec (.disableStation tag [byte l.val, byte st.val]) s = .next
          (s.answered ⟨tag, 0xAA, [0x00, 0x00]⟩)) ∧
      (s.lanes[l].cfg.geometry.stationEnable[st] = true →
        ∃ t, exec (.disableStation tag [byte l.val, byte st.val]) s = .next t ∧
          t.lanes[l].cfg.geometry.stationEnable[st] = false ∧
          (∀ p ∈ t.lanes[l].queue, p.station? ≠ some st) ∧
          ((s.lanes[l].queue.map (·.serial)).Nodup →
            t.lanes[l].queue = (s.lanes[l].queue.filterMap fun p => match p.phase with
              | .firing aim _ => if aim.station = st then none else some p
              | .scheduled aim =>
                if aim.station ≠ st then some p
                else if atOrBehind (p.trail + BitVec.ofNat 32 s.lanes[l].cfg.geometry.exitDistance)
                  s.lanes[l].tb.pmax then none
                else some { p with phase := .travelling aim.fraction .denied }
              | _ => some p) ∧
            (∀ removed : LaneOut, removed = runEach (fun x => removeParcel (s.env l) x.1 x.2)
              (s.lanes[l].queue.filterMap fun p => match p.phase with
                | .firing aim _ => if aim.station = st then some (p.serial, .cut) else none
                | .scheduled aim =>
                  if aim.station = st ∧
                    atOrBehind (p.trail + BitVec.ofNat 32 s.lanes[l].cfg.geometry.exitDistance)
                      s.lanes[l].tb.pmax = true
                  then some (p.serial, .denied) else none
                | _ => none) s.lanes[l] →
              t.lanes[l].lots = removed.lane.lots ∧ t.lanes[l].testTally = removed.lane.testTally) ∧
            ((∀ e ∈ s.lanes[l].stations[st].list, ∃ p ∈ s.lanes[l].queue,
              p.serial = e.serial ∧ p.station? = some st) → t.lanes[l].stations[st].list = [])) ∧
          (s.lanes[l].queue.Pairwise Parcel.StandsBefore →
            s.Traces t (s.lanes[l].queue.flatMap fun p => match p.phase with
              | .firing aim _ =>
                if aim.station = st then [p.entryOf s.lineTime l st .cutStationOff] else []
              | .scheduled aim =>
                if aim.station = st then [p.entryOf s.lineTime l st .deniedStationOff] else []
              | _ => [])) ∧
          s.lanes[l].PortsFollow l t.lanes[l] ∧ s.lanes[l].ClosedRest s.lineTime t.lanes[l] ∧
          s.lanes[l].Drains t.lanes[l] (t.laneFlag l 0 = true) ∧
          t.lanes[l].WatchedFrom s.lines.debounced[driveLine l] (s.lanes[l].keptTime s.lineTime) ∧
          t.lanes[l].tb.p = s.lanes[l].tb.p ∧ t.lanes[l].receivers = s.lanes[l].receivers ∧
          t.lanes[l].stations[st].history = s.lanes[l].stations[st].history ∧
          (s.answered ⟨tag, 0xAA, [0x00, 0x06]⟩).LaneFrame l t))

/-- A firing that has lasted the max open time its list holds ends, with outcome PARTIAL: the parcel leaves
the queue and its list and no other does, its lot or the test tally counts it PARTIAL, and a CUT_MAXOPEN entry
is made (R104, R137, R167); the columns it frees close and rest from now for the column rest in force (R105),
and the set, if it changed, is sent or waits (R96, R112). Where it was the last parcel of a DRAINING lane, the
drain completes (Lane.Drains; R28, R34, R120). -/
def Obligations.MaxOpenTimeEndsFiring : Prop :=
  ∀ (s : State) (l : LaneId) (p : Parcel) (aim : Aim) (shot : Shot) (m : Nat), s.phase = .working →
    s.lanes[l].find p.serial = some p → p.phase = .firing aim shot →
    s.lanes[l].maxOpenOf aim.station p.serial = some m → m ≤ (s.lineTime - shot.openTime).toNat →
    ∃ t, exec (.maxOpenTimeExpiry l p.serial) s = .next t ∧
      t.lanes[l].queue = s.lanes[l].queue.filter (·.serial != p.serial) ∧
      t.lanes[l].tb.p = s.lanes[l].tb.p ∧ t.lanes[l].receivers = s.lanes[l].receivers ∧
      t.lanes[l].cfg.geometry = s.lanes[l].cfg.geometry ∧ t.lanes[l].hostHold = s.lanes[l].hostHold ∧
      t.lanes[l].stations[aim.station].list =
        s.lanes[l].stations[aim.station].list.filter (·.serial != p.serial) ∧
      t.lanes[l].lots = (removeParcel (s.env l) p.serial .isPartial s.lanes[l]).lane.lots ∧
      t.lanes[l].testTally = (removeParcel (s.env l) p.serial .isPartial s.lanes[l]).lane.testTally ∧
      s.Traces t [p.entryOf s.lineTime l aim.station .cutMaxopen] ∧
      s.lanes[l].PortsFollow l t.lanes[l] ∧ s.lanes[l].ClosedRest s.lineTime t.lanes[l] ∧
      s.lanes[l].Drains t.lanes[l] (t.laneFlag l 0 = true) ∧
      t.lanes[l].WatchedFrom s.lines.debounced[driveLine l] (s.lanes[l].keptTime s.lineTime) ∧
      s.LaneFrame l t

/-- The frame on a valve bar line finishes: a waiting changed set follows at once under the next sequence
number, and otherwise the port is idle; nothing else changes (R112). The open-column set is the union of the
firing columns of the station's FIRING parcels (R96). -/
def Obligations.ValveBarFrameFinishes : Prop :=
  (∀ (ln : Lane) (st : StationId) (c : Fin 32), (ln.openSet st).getLsbD c.val = true ↔
    ∃ p ∈ ln.queue, ∃ aim shot, p.phase = .firing aim shot ∧ aim.station = st ∧
      shot.columns.getLsbD c.val = true) ∧
  ∀ (s : State) (l : LaneId) (st : StationId), s.phase = .working →
    s.lanes[l].stations[st].port.sending ≠ none →
    let port : Port := s.lanes[l].stations[st].port
    let next : Port :=
      if port.waiting = true ∧ s.lanes[l].openSet st ≠ port.lastSent
      then ⟨s.lanes[l].openSet st, port.sequence + 1,
        some (valveFrame l st (port.sequence + 1) (s.lanes[l].openSet st)), false⟩
      else ⟨port.lastSent, port.sequence, none, false⟩
    exec (.valveBarFrameSent l st) s = .next { s with
      lanes := s.lanes.set l { s.lanes[l] with
        stations := s.lanes[l].stations.set st { s.lanes[l].stations[st] with port := next } } }

/-! ## Lots and parcels -/

/-- CLOSE_LOT in the order of R139's checks, a lane number above 3 first; a close taken makes the filling
lot the draining lot and opens a new one, and with no parcel left it completes into the ring in the same step
(R139, R140). -/
def Obligations.CloseLotTaken : Prop :=
  (∀ (s : State) (tag b : Byte) (id : LotId), 3 < b.toNat →
    s.takeable ⟨tag, 0x30, b :: beBytes 2 id.toNat⟩ = true →
    exec (.closeLot tag (b :: beBytes 2 id.toNat)) s = .next (s.answered ⟨tag, 0xB0, [0x04]⟩)) ∧
  ∀ (s : State) (tag : Byte) (l : LaneId) (id : LotId),
    s.takeable ⟨tag, 0x30, byte l.val :: beBytes 2 id.toNat⟩ = true →
    (id = s.lanes[l].lots.filling.id →
      exec (.closeLot tag (byte l.val :: beBytes 2 id.toNat)) s = .next (s.answered ⟨tag, 0xB0, [0x04]⟩)) ∧
    (id ≠ s.lanes[l].lots.filling.id → s.lanes[l].lots.draining ≠ none →
      exec (.closeLot tag (byte l.val :: beBytes 2 id.toNat)) s = .next (s.answered ⟨tag, 0xB0, [0x07]⟩)) ∧
    (id ≠ s.lanes[l].lots.filling.id → s.lanes[l].lots.draining = none →
      ∃ t, exec (.closeLot tag (byte l.val :: beBytes 2 id.toNat)) s = .next t ∧
        t.lanes[l].lots.filling = .fresh l id s.lineTime ∧ t.lanes[l].lots.pendingClose = false ∧
        (s.lanes[l].lots.filling.allRemoved = false →
          t.lanes[l].lots.draining = some { s.lanes[l].lots.filling with
            closeTime := some s.lineTime, closeCause := some .host } ∧
          (s.answered ⟨tag, 0xB0, [0x00, 0x03]⟩).LaneFrame l t) ∧
        (s.lanes[l].lots.filling.allRemoved = true →
          t.lanes[l].lots.draining = none ∧
          t.lanes[l].lots.nextCompletion = s.lanes[l].lots.nextCompletion + 1 ∧
          t.lanes[l].lots.ring.getLast? = some { s.lanes[l].lots.filling with
            closeTime := some s.lineTime, closeCause := some .host, doneTime := some s.lineTime
            completion := some s.lanes[l].lots.nextCompletion } ∧
          t.laneFlag l 3 = true ∧ (s.answered ⟨tag, 0xB0, [0x00, 0x04]⟩).LaneFrame l t) ∧
        t.lanes[l].queue = s.lanes[l].queue ∧ t.lanes[l].tb.p = s.lanes[l].tb.p ∧ t.trace = s.trace)

/-- SET_LOT_LIMIT replaces the limit, and clears a set pending auto-close mark if the limit is 0 or
greater than the filling lot's formed count, counts compared modulo 2^32 (R135, R143). GET_LOT_RESULT
returns the newest record of the ring with the id, or NOT_FOUND; GET_LOT_PROGRESS answers for either choice
and refuses another with BAD_VALUE; neither changes anything (R145, R146). The layouts of the two replies
(LotRecord.encode, Lane.lotProgress) are the model's choice where the rules do not give them byte by byte
(log 15). -/
def Obligations.LotLimitSetAndLotsRead : Prop :=
  (∀ (s : State) (tag : Byte) (l : LaneId) (limit : Nat), limit ≤ 16777215 →
    s.takeable ⟨tag, 0x31, byte l.val :: beBytes 3 limit⟩ = true →
    exec (.setLotLimit tag (byte l.val :: beBytes 3 limit)) s = .next
      { s.answered ⟨tag, 0xB1, [0x00]⟩ with
        lanes := s.lanes.set l { s.lanes[l] with
          cfg := { s.lanes[l].cfg with lotLimit := limit }
          lots := { s.lanes[l].lots with
            pendingClose :=
              if limit = 0 ∨ ahead s.lanes[l].lots.filling.formed (BitVec.ofNat 32 limit) = true then false
              else s.lanes[l].lots.pendingClose } } }) ∧
  (∀ (s : State) (tag : Byte) (l : LaneId),
    (∀ id : LotId, s.takeable ⟨tag, 0x33, byte l.val :: beBytes 2 id.toNat⟩ = true →
      (∀ (older newer : List LotRecord) (r : LotRecord),
        s.lanes[l].lots.ring = older ++ r :: newer → r.id = id → (∀ x ∈ newer, x.id ≠ id) →
        exec (.getLotResult tag (byte l.val :: beBytes 2 id.toNat)) s = .next
          (s.answered ⟨tag, 0xB3, 0x00 :: r.encode⟩)) ∧
      ((∀ x ∈ s.lanes[l].lots.ring, x.id ≠ id) →
        exec (.getLotResult tag (byte l.val :: beBytes 2 id.toNat)) s = .next
          (s.answered ⟨tag, 0xB3, [0x0B]⟩))) ∧
    (∀ b : Byte, 1 < b.toNat → s.takeable ⟨tag, 0x32, [byte l.val, b]⟩ = true →
      exec (.getLotProgress tag [byte l.val, b]) s = .next (s.answered ⟨tag, 0xB2, [0x04]⟩)) ∧
    (∀ draining : Bool,
      s.takeable ⟨tag, 0x32, [byte l.val, if draining then 1 else 0]⟩ = true →
      exec (.getLotProgress tag [byte l.val, if draining then 1 else 0]) s = .next
        (s.answered ⟨tag, 0xB2, 0x00 :: s.lanes[l].lotProgress draining⟩)))

/-- R13: the removal of a test parcel is counted in the test tally under its outcome and reaches no lot: a
removal on its own (removeParcel), and one in a flush (loseParcel), whose outcome is LOST. The removal of a
detected parcel is counted in its lot, the draining or the filling lot of its id, from the fields of its
record (LotRecord.Removed: its outcome, the ejected count of its fraction if EJECTED or PARTIAL, the estimated
count if it is marked, the area of its fraction, R12, R137), and not in the test tally; one from the draining
lot that leaves none of its parcels completes it, with a pending close taken after it (LotUnit.Ends; R140,
R142). In a flush the completion waits for the last removal (R147). -/
def Obligations.RemovalReported : Prop :=
  ∀ (env : LaneEnv) (ln : Lane) (p : Parcel), ln.find p.serial = some p →
    (∀ o : Outcome, (removeParcel env p.serial o ln).lane.queue =
      ln.queue.filter (·.serial != p.serial)) ∧
    (loseParcel env ln p.serial).queue = ln.queue.filter (·.serial != p.serial) ∧
    (p.test = true →
      (∀ o : Outcome, (removeParcel env p.serial o ln).lane.lots = ln.lots ∧
        (removeParcel env p.serial o ln).lane.testTally =
          ln.testTally.set o.code (holdInc ln.testTally[o.code]) ∧
        (removeParcel env p.serial o ln).effects = []) ∧
      (loseParcel env ln p.serial).lots = ln.lots ∧
      (loseParcel env ln p.serial).testTally =
        ln.testTally.set Outcome.lost.code (holdInc ln.testTally[Outcome.lost.code])) ∧
    (∀ lot : LotId, p.test = false → p.lot = some lot →
      (∀ (o : Outcome) (out : LaneOut), out = removeParcel env p.serial o ln →
        out.lane.testTally = ln.testTally ∧
        (∀ d : LotRecord, ln.lots.draining = some d → d.id = lot → ∃ d' : LotRecord,
          d.Removed env.table p o d' ∧
          LotUnit.Ends env.id env.now { ln.lots with draining := some d' } d' out.lane.lots out.effects) ∧
        ((∀ d : LotRecord, ln.lots.draining = some d → d.id ≠ lot) → ln.lots.filling.id = lot →
          ∃ r : LotRecord, ln.lots.filling.Removed env.table p o r ∧
            out.lane.lots = { ln.lots with filling := r } ∧ out.effects = [])) ∧
      (loseParcel env ln p.serial).testTally = ln.testTally ∧
      (∀ d : LotRecord, ln.lots.draining = some d → d.id = lot → ∃ d' : LotRecord,
        d.Removed env.table p .lost d' ∧
        (loseParcel env ln p.serial).lots = { ln.lots with draining := some d' }) ∧
      ((∀ d : LotRecord, ln.lots.draining = some d → d.id ≠ lot) → ln.lots.filling.id = lot →
        ∃ r : LotRecord, ln.lots.filling.Removed env.table p .lost r ∧
          (loseParcel env ln p.serial).lots = { ln.lots with filling := r }))

/-- A serial handed out is held by no parcel of the queue (R3, R16). -/
def Obligations.SerialHandedOutIsFree : Prop :=
  ∀ ln : Lane, ln.queue.length ≤ 256 → ∀ p ∈ ln.queue, p.serial ≠ ln.takenSerial

/-! ## Field lines and feed holds -/

/-- SET_LINE_CONFIG replaces the four debounce times and the 26 edge selections together; with no
candidate present nothing else changes (R152). A candidate present is kept if it has not yet held for its
line's new debounce time; one that has is delivered in the same step: the debounced state takes the raw
level, the candidate is absent, MILL_TRIP's latch and DRIVE_RUN's generators and encoder monitors follow (R34,
R151, R152, R155, R157). A selection beyond the four is refused with BAD_VALUE (R152). -/
def Obligations.LineConfigSet : Prop :=
  (∀ (s : State) (tag : Byte) (times : Vector Byte 4) (edges : Vector EdgeSelection 26),
    s.takeable ⟨tag, 0x40, times.toList ++ edges.toList.map fun e => byte e.code⟩ = true →
    ((∀ i : DebouncedId, s.lines.candidate[i] = none) →
      exec (.setLineConfig tag (times.toList ++ edges.toList.map fun e => byte e.code)) s = .next
        { s.answered ⟨tag, 0xC0, [0x00]⟩ with
          device := { s.device with debounce := times.map (·.toNat), edges := edges } }) ∧
    ∃ t, exec (.setLineConfig tag (times.toList ++ edges.toList.map fun e => byte e.code)) s = .next t ∧
      t.device = { s.device with debounce := times.map (·.toNat), edges := edges } ∧
      t.lines.raw = s.lines.raw ∧ t.trace = s.trace ∧ t.lineTime = s.lineTime ∧
      (∀ i : DebouncedId, (∀ since : Time, s.lines.candidate[i] = some since →
          (s.lineTime - since).toNat < times[debounceGroup i].toNat) →
        t.lines.debounced[i] = s.lines.debounced[i] ∧ t.lines.candidate[i] = s.lines.candidate[i] ∧
        (i = millTripLine → t.millTripLatch = s.millTripLatch) ∧
        (∀ l : LaneId, i = driveLine l → t.lanes[l] = s.lanes[l])) ∧
      (∀ (i : DebouncedId) (since : Time), s.lines.candidate[i] = some since →
        times[debounceGroup i].toNat ≤ (s.lineTime - since).toNat →
        t.lines.debounced[i] = s.lines.raw[i.castSucc] ∧ t.lines.candidate[i] = none ∧
        (i = millTripLine → t.millTripLatch = (s.millTripLatch || s.lines.raw[i.castSucc])) ∧
        (∀ l : LaneId, i = driveLine l → t.lanes[l].tb.accumulator =
            (if s.lines.raw[i.castSucc] then some 0 else none) ∧
          t.lanes[l].WatchedFrom s.lines.raw[i.castSucc] (s.lanes[l].keptTime s.lineTime)))) ∧
  (∀ (s : State) (tag : Byte) (p : List Byte), p.length = 30 → s.takeable ⟨tag, 0x40, p⟩ = true →
    (∃ i : LineId, 3 < item p (4 + i.val) 1) →
    exec (.setLineConfig tag p) s = .next (s.answered ⟨tag, 0xC0, [0x04]⟩))

/-- SET_CHUTE_POLICY and SET_BUSY_ENABLES replace their items together in every lane state, and nothing
else; a policy other than the two is refused with BAD_VALUE (R159, R160). HOLD_FEED sets a lane's host hold
and RELEASE_FEED clears it, in every lane state, with CHANGED or NO_CHANGE; nothing else changes (R161). -/
def Obligations.FieldItemsSet : Prop :=
  (∀ (s : State) (tag : Byte) (l : LaneId),
    (∀ m p f : ChutePolicy,
      s.takeable ⟨tag, 0x42, [byte l.val, byte m.code, byte p.code, byte f.code]⟩ = true →
      exec (.setChutePolicy tag [byte l.val, byte m.code, byte p.code, byte f.code]) s = .next
        { s.answered ⟨tag, 0xC2, [0x00]⟩ with
          lanes := s.lanes.set l { s.lanes[l] with cfg := { s.lanes[l].cfg with
            policies := #v[m, p, f] } } }) ∧
    (∀ m p f : Byte, 1 < m.toNat ∨ 1 < p.toNat ∨ 1 < f.toNat →
      s.takeable ⟨tag, 0x42, [byte l.val, m, p, f]⟩ = true →
      exec (.setChutePolicy tag [byte l.val, m, p, f]) s = .next (s.answered ⟨tag, 0xC2, [0x04]⟩)) ∧
    (∀ (b : Vector Byte 7) (coupled : Byte),
      s.takeable ⟨tag, 0x43, byte l.val :: b.toList ++ [coupled]⟩ = true →
      exec (.setBusyEnables tag (byte l.val :: b.toList ++ [coupled])) s = .next
        { s.answered ⟨tag, 0xC3, [0x00]⟩ with
          lanes := s.lanes.set l { s.lanes[l] with cfg := { s.lanes[l].cfg with
            busyEnables := b.map (· != 0), coupled := coupled != 0 } } })) ∧
  (∀ (s : State) (tag : Byte) (l : LaneId),
    (s.takeable ⟨tag, 0x44, [byte l.val]⟩ = true →
      exec (.holdFeed tag [byte l.val]) s = .next
        { s.answered ⟨tag, 0xC4, [0x00, if s.lanes[l].hostHold then 0 else 10]⟩ with
          lanes := s.lanes.set l { s.lanes[l] with hostHold := true } }) ∧
    (s.takeable ⟨tag, 0x45, [byte l.val]⟩ = true →
      exec (.releaseFeed tag [byte l.val]) s = .next
        { s.answered ⟨tag, 0xC5, [0x00, if s.lanes[l].hostHold then 10 else 0]⟩ with
          lanes := s.lanes.set l { s.lanes[l] with hostHold := false } }))

/-- RELEASE_MILL_TRIP by the table of R158: refused while the debounced MILL_TRIP is asserted, whatever
the raw level; otherwise the latch is cleared, with RELEASED or NO_CHANGE. -/
def Obligations.MillTripReleased : Prop :=
  ∀ (s : State) (tag b : Byte), s.takeable ⟨tag, 0x46, [b]⟩ = true →
    (s.lines.debounced[millTripLine] = true →
      exec (.releaseMillTrip tag [b]) s = .next (s.answered ⟨tag, 0xC6, [0x05]⟩)) ∧
    (s.lines.debounced[millTripLine] = false →
      exec (.releaseMillTrip tag [b]) s = .next
        { s.answered ⟨tag, 0xC6, [0x00, if s.millTripLatch then 11 else 0]⟩ with
          millTripLatch := false })

/-- The feed-hold outputs of a part that works: a lane's is asserted while the lane is not RUNNING or any
busy source of it is active, which is while its enable is on and its condition holds: a chute's debounced
full line with policy HOLD (M, P, F), the residue chute's debounced full line, the debounced AIR_OK not
asserted, encoder-lost, the host hold (R160, R162); the mill's while the latch is set, raw PLANT_STOP is
asserted or a coupled lane's feed hold is asserted (R163). From the application of the supply until the part
works all five are asserted (R194). -/
def Obligations.FeedHoldOutputs : Prop :=
  ∀ s : State,
    (s.phase = .working →
      (∀ l : LaneId, s.feedHold l = true ↔ (s.lanes[l].state ≠ .running ∨
        (∃ f : Fin 3, s.lanes[l].cfg.busyEnables[f.castLE (by decide : 3 ≤ 7)] = true ∧
          s.lines.debounced[chuteLine l f] = true ∧ s.lanes[l].cfg.policies[f] = .hold) ∨
        (s.lanes[l].cfg.busyEnables[3] = true ∧ s.lines.debounced[residueLine l] = true) ∨
        (s.lanes[l].cfg.busyEnables[4] = true ∧ s.lines.debounced[airLine l] = false) ∨
        (s.lanes[l].cfg.busyEnables[5] = true ∧ s.lanes[l].tb.encoderLost = true) ∨
        (s.lanes[l].cfg.busyEnables[6] = true ∧ s.lanes[l].hostHold = true))) ∧
      (s.millFeedHold = true ↔ (s.millTripLatch = true ∨ s.lines.raw[plantStopLine] = true ∨
        ∃ l : LaneId, s.lanes[l].cfg.coupled = true ∧ s.feedHold l = true))) ∧
    (s.phase = .settling ∨ s.phase = .starting ∨ (∃ cause, s.phase = .held cause) →
      s.millFeedHold = true ∧ ∀ l : LaneId, s.feedHold l = true)

/-- A raw change of a debounced line, the AIR_OK lines included: with a debounce time above 0, the candidate
starts at the line time if the level differs from the debounced state and is absent if not, and the debounced
states do not change (R151); for a line other than AIR_OK nothing else changes. For an AIR_OK line these are
the effects of RAW_AIR_OK_CHANGE; that RAW_LINE_CHANGE of an AIR_OK line, a form that Instr.wf shuts out, acts
as RAW_AIR_OK_CHANGE of its lane does is the model's choice (log 5). With a debounce time of 0 a level that
differs from the debounced state gives the debounced edge in the same step, and one that equals it gives none
(R151). A candidate that has held for its debounce time: the debounced state takes the raw level, the
candidate is absent, a rise of MILL_TRIP sets the latch and raises its event, and an edge of DRIVE_RUN starts
or stops its lane's generator, with a pending rate that was set while it stood still in force at the start,
and arms or disarms its lane's encoder monitor by the conditions of R34, an arming one keeping the line time
(R30, R34, R151, R155, R157; the mark of such a rate is the model's, log 11). An edge raises LINE_EDGE by its
line's selection: a rise for RISE or BOTH, a fall for FALL or BOTH, none for IGNORE, and the flag is as it was
otherwise (R153). -/
def Obligations.Debouncing : Prop :=
  (∀ (s : State) (i : DebouncedId) (level : Bool), s.phase = .working →
    s.lines.raw[i.castSucc] ≠ level →
    let candidates : State := { s with lines := { s.lines with
      raw := s.lines.raw.set i.castSucc level
      candidate := s.lines.candidate.set i
        (if s.lines.debounced[i] = level then none else some s.lineTime) } }
    (0 < s.debounceOf i ∨ s.lines.debounced[i] = level →
      ((∀ l : LaneId, i ≠ airLine l) → exec (.rawLineChange i.castSucc level) s = .next candidates) ∧
      (∀ l : LaneId, i = airLine l →
        ∃ t, exec (.rawAirOkChange l level) s = .next t ∧ exec (.rawLineChange i.castSucc level) s = .next t ∧
          t.lines = candidates.lines)) ∧
    (s.debounceOf i = 0 → s.lines.debounced[i] ≠ level →
      ∃ t, exec (.rawLineChange i.castSucc level) s = .next t ∧ s.EdgeTaken i level t ∧
        ((∀ l : LaneId, i ≠ airLine l) → t.trace = s.trace ∧
          ∀ l : LaneId, i ≠ driveLine l → t.lanes[l] = s.lanes[l]) ∧
        ∀ l : LaneId, i = airLine l → exec (.rawAirOkChange l level) s = .next t)) ∧
  (∀ (s : State) (i : DebouncedId) (since : Time), s.phase = .working →
    s.lines.candidate[i] = some since → s.debounceOf i ≤ (s.lineTime - since).toNat →
    ∃ t, exec (.debounceExpiry i) s = .next t ∧ s.EdgeTaken i s.lines.raw[i.castSucc] t ∧
      (∀ l : LaneId, i ≠ driveLine l → t.lanes[l] = s.lanes[l]) ∧ t.trace = s.trace)

/-- The loss of raw AIR_OK cuts every firing of the lane in one step: the FIRING parcels leave the queue, which
is otherwise as it was, each removed CUT, counted by its lot or the test tally, with a CUT_AIR entry in queue
order (R11, R106, R137, R167); every column that closes rests from now for the column rest in force, and the
sets, now empty, are sent or wait (R96, R105, R112). Where the last parcel of a DRAINING lane is cut, the drain
completes (Lane.Drains; R28, R34, R120). The return of air changes no parcel (R106, R154). -/
def Obligations.AirLossCutsFirings : Prop :=
  ∀ (s : State) (l : LaneId), s.phase = .working →
    (s.lines.raw[(airLine l).castSucc] = true →
      ∃ t, exec (.rawAirOkChange l false) s = .next t ∧ t.lines.raw[(airLine l).castSucc] = false ∧
        (∀ p ∈ t.lanes[l].queue, p.isFiring = false) ∧ (∀ st : StationId, t.lanes[l].openSet st = 0) ∧
        (∀ p ∈ s.lanes[l].queue, p.isFiring = false → (∀ q ∈ s.lanes[l].queue, q.isFiring = true →
          q.serial ≠ p.serial) → p ∈ t.lanes[l].queue) ∧
        ((s.lanes[l].queue.map (·.serial)).Nodup →
          t.lanes[l].queue = s.lanes[l].queue.filter fun p => !p.isFiring) ∧
        (∀ removed : LaneOut, removed = runEach (fun p => removeParcel (s.env l) p.serial .cut)
            (s.lanes[l].queue.filter (·.isFiring)) s.lanes[l] →
          t.lanes[l].lots = removed.lane.lots ∧ t.lanes[l].testTally = removed.lane.testTally ∧
          ∀ st : StationId, t.lanes[l].stations[st].list = removed.lane.stations[st].list) ∧
        (s.lanes[l].queue.Pairwise Parcel.StandsBefore → s.Traces t (s.lanes[l].queue.flatMap fun p =>
          match p.phase with
          | .firing aim _ => [p.entryOf s.lineTime l aim.station .cutAir]
          | _ => [])) ∧
        s.lanes[l].PortsFollow l t.lanes[l] ∧ s.lanes[l].ClosedRest s.lineTime t.lanes[l] ∧
        s.lanes[l].Drains t.lanes[l] (t.laneFlag l 0 = true) ∧
        t.lanes[l].WatchedFrom s.lines.debounced[driveLine l] (s.lanes[l].keptTime s.lineTime) ∧
        t.lanes[l].tb.p = s.lanes[l].tb.p ∧ ∀ k : LaneId, k ≠ l → t.lanes[k] = s.lanes[k]) ∧
    (s.lines.raw[(airLine l).castSucc] = false →
      ∃ t, exec (.rawAirOkChange l true) s = .next t ∧ t.lines.raw[(airLine l).castSucc] = true ∧
        ∀ k : LaneId, t.lanes[k] = s.lanes[k])

/-- The assertion of raw PLANT_STOP halts every lane that runs or drains, with cause PLANT_STOP and Pmax equal
to P, by a flush: an empty queue and empty firing lists, every parcel counted LOST in its lot or the test
tally, a draining lot and a pending close completed where the lots agree with the queue (Lane.Flushes; R13,
R22, R140, R142, R147), the freed columns resting and the sets sent (R105, R110, R112), and one LOST entry for
each lane flushed, with no serial, the filling lot after the flush and the number of parcels removed (R122).
That the entries of several lanes stand in lane order is the model's choice (log 17): R121, R156 and R167 order
no lanes. A pending scale of a lane that halts comes into force with a residue of 0 (without one the scale and
the residue stay) and its monitor disarms; its source, encoder-lost and the rest of its timebase stay (R28, R34,
R47, R122). It leaves other lanes' state, halt cause, scale and residue, raises PLANT_STOP and asserts the mill
feed hold; the release changes the level (R121, R156). -/
def Obligations.PlantStopHalts : Prop :=
  ∀ s : State, s.phase = .working →
    (s.lines.raw[plantStopLine] = false →
      ∃ t, exec .rawPlantStopAsserted s = .next t ∧ t.lines.raw[plantStopLine] = true ∧
        t.deviceFlag 5 = true ∧ t.millFeedHold = true ∧
        s.Traces t (((List.finRange 4).filter fun l => s.lanes[l].active).map fun l =>
          lostEntry s.lineTime l s.lanes[l] t.lanes[l]) ∧
        (∀ l : LaneId, s.lanes[l].active = true → t.lanes[l].state = .halted ∧ t.laneFlag l 0 = true ∧
          s.lanes[l].Flushes (s.env l) t.lanes[l] ∧
          (s.lanes[l].LotsAgree → s.lanes[l].lots.draining ≠ none → t.laneFlag l 3 = true) ∧
          s.lanes[l].PortsFollow l t.lanes[l] ∧ s.lanes[l].ClosedRest s.lineTime t.lanes[l] ∧
          t.lanes[l].haltCause = .plantStop ∧ t.lanes[l].injection = none ∧
          t.lanes[l].tb.pendingSwitch = none ∧ t.lanes[l].tb.p = s.lanes[l].tb.p ∧
          t.lanes[l].tb.pmax = s.lanes[l].tb.p ∧ t.lanes[l].nextSerial = s.lanes[l].nextSerial ∧
          s.lanes[l].ScaleTaken t.lanes[l] ∧ t.lanes[l].tb.monitor = none ∧
          t.lanes[l].tb.source = s.lanes[l].tb.source ∧
          t.lanes[l].tb.encoderLost = s.lanes[l].tb.encoderLost ∧ s.lanes[l].TimebaseKept t.lanes[l]) ∧
        (∀ l : LaneId, s.lanes[l].active = false → t.lanes[l].state = s.lanes[l].state ∧
          t.lanes[l].haltCause = s.lanes[l].haltCause ∧ t.lanes[l].queue = s.lanes[l].queue ∧
          s.lanes[l].ScaleKept t.lanes[l])) ∧
    (s.lines.raw[plantStopLine] = true →
      ∃ t, exec .rawPlantStopReleased s = .next t ∧ t.lines.raw[plantStopLine] = false ∧
        t.lanes = s.lanes ∧ t.trace = s.trace ∧ t.millTripLatch = s.millTripLatch)

/-! ## Trace and events -/

/-- READ_TRACE of n entries, 1 to 12, returns and removes the oldest n, or all if fewer; CLEAR_TRACE
empties the trace; both leave the gap pending mark (R168, R170). That an entry sends its test and gap marks
as 1 for yes is the model's choice (log 14). -/
def Obligations.TraceReadAndCleared : Prop :=
  ∀ (s : State) (tag n : Byte),
    (1 ≤ n.toNat → n.toNat ≤ 12 → s.takeable ⟨tag, 0x50, [n]⟩ = true →
      exec (.readTrace tag [n]) s = .next
        { s.answered ⟨tag, 0xD0, [0x00, byte (min n.toNat s.trace.length)] ++
            (s.trace.take n.toNat).flatMap TraceEntry.encode ++
            beBytes 2 (s.trace.length - n.toNat)⟩ with
          trace := s.trace.drop n.toNat }) ∧
    (n.toNat = 0 ∨ 12 < n.toNat → s.takeable ⟨tag, 0x50, [n]⟩ = true →
      exec (.readTrace tag [n]) s = .next (s.answered ⟨tag, 0xD0, [0x04]⟩)) ∧
    (s.takeable ⟨tag, 0x51, [n]⟩ = true →
      exec (.clearTrace tag [n]) s = .next
        { s.answered ⟨tag, 0xD1, 0x00 :: beBytes 2 s.trace.length⟩ with trace := [] })

/-- R168: an entry made while the trace holds 512 is not added and sets the gap pending mark; one that is
added carries the mark and clears it; READ_TRACE and CLEAR_TRACE leave the mark. R169: the added entry that
takes the occupancy from 256 to 257 raises TRACE_HALF, the one that takes it from 511 to 512 raises TRACE_FULL,
with the occupancy as the notice's particulars, and no other entry, added or dropped, raises either. -/
def Obligations.GapMarkFollowsDrops : Prop :=
  (∀ (s : State) (l : LaneId) (d : TraceDraft), s.trace.length = 512 →
    s.addTrace l d = { s with gapPending := true }) ∧
  (∀ (s : State) (l : LaneId) (d : TraceDraft), s.trace.length < 512 →
    ∀ added : State, added = { s with
      trace := s.trace ++ [⟨s.lineTime, l, d.reason, d.serial, d.lot, d.test, d.station, d.detail,
        s.gapPending⟩]
      gapPending := false } →
    (s.trace.length = 256 → added.Raises 7 none (beBytes 2 257) (s.addTrace l d)) ∧
    (s.trace.length = 511 → added.Raises 8 none (beBytes 2 512) (s.addTrace l d)) ∧
    (s.trace.length ≠ 256 → s.trace.length ≠ 511 → s.addTrace l d = added)) ∧
  (∀ (s : State) (tag n : Byte), ∃ t u, exec (.readTrace tag [n]) s = .next t ∧
    exec (.clearTrace tag [n]) s = .next u ∧ t.gapPending = s.gapPending ∧ u.gapPending = s.gapPending)

/-- GET_EVENTS returns the flags, the enables, the period and the due time; CLEAR_EVENTS clears exactly
the flags named, and is refused with BAD_VALUE where a lane's byte names a kind that does not exist;
SET_NOTICES replaces the thirteen enables (R171, R172, R174). An occurrence sets its flag, and with its kind's
enable on its notice, of kind byte, line time and particulars, is queued if fewer than 24 notices stand and
dropped and counted if not (Event.row, State.Raises; R171 to R173, R188). The layout of the GET_EVENTS reply
(State.eventItems: the flags as five bytes) is the model's choice (log 15), as is the 1 it sends for yes
(log 14). -/
def Obligations.EventRequestsTaken : Prop :=
  ∀ (s : State) (tag : Byte),
    (∀ (e : Event) (kind : Fin 13) (lane? : Option LaneId) (particulars : List Byte),
      e.row = (kind, lane?, particulars) → s.Raises kind lane? particulars (s.raise e)) ∧
    (∀ b : Byte, s.takeable ⟨tag, 0x52, [b]⟩ = true →
      exec (.getEvents tag [b]) s = .next (s.answered ⟨tag, 0xD2, 0x00 :: s.eventItems⟩)) ∧
    (∀ (f : Vector (BitVec 5) 4) (d : Byte),
      s.takeable ⟨tag, 0x53, (f.toList.map fun x => byte x.toNat) ++ [d]⟩ = true →
      exec (.clearEvents tag ((f.toList.map fun x => byte x.toNat) ++ [d])) s = .next
        { s.answered ⟨tag, 0xD3, [0x00]⟩ with
          laneFlags := Vector.ofFn fun l : Fin 4 => s.laneFlags[l] &&& ~~~ f[l]
          deviceFlags := s.deviceFlags &&& ~~~ d }) ∧
    (∀ p : List Byte, p.length = 5 → s.takeable ⟨tag, 0x53, p⟩ = true → (∃ l : LaneId, 31 < item p l.val 1) →
      exec (.clearEvents tag p) s = .next (s.answered ⟨tag, 0xD3, [0x04]⟩)) ∧
    (∀ e : Vector Byte 13, s.takeable ⟨tag, 0x54, e.toList⟩ = true →
      exec (.setNotices tag e.toList) s = .next
        { s.answered ⟨tag, 0xD4, [0x00]⟩ with
          device := { s.device with noticeEnables := e.map (· != 0) } })

/-- SET_STATUS_PERIOD of 0 or 10 to 60,000 sets the period and the due time afresh, and refuses others;
at the due time a STATUS notice is queued if fewer than 24 notices stand, or dropped and counted, and the
due time rises by the period (R175, R188). That the notice sends the feed hold as 1 for asserted is the
model's choice (log 14). -/
def Obligations.StatusPeriodAndNotice : Prop :=
  ∀ s : State,
    (∀ (tag : Byte) (period : Nat), period ≤ 65535 →
      s.takeable ⟨tag, 0x55, beBytes 2 period⟩ = true →
      exec (.setStatusPeriod tag (beBytes 2 period)) s = .next
        (if (1 ≤ period ∧ period ≤ 9) ∨ 60000 < period then s.answered ⟨tag, 0xD5, [0x04]⟩
        else { s.answered ⟨tag, 0xD5, [0x00]⟩ with
          device := { s.device with statusPeriod := period }
          statusDue := if period = 0 then none else some (s.lineTime + BitVec.ofNat 32 period) })) ∧
    (s.phase = .working → s.statusDue = some s.lineTime →
      exec .statusDue s = .next { s with
        statusDue := some (s.lineTime + BitVec.ofNat 32 s.device.statusPeriod)
        link := if s.link.notices < 24 then
            { s.link with output := s.link.output ++ [s.statusNotice] }
          else { s.link with dropped := holdInc s.link.dropped } })

/-! ## Sensor links -/

/-- A HEAD_IDLE frame at a receiver in HUNT: with the link's own head number it is counted as a good record;
with another the link's error count rises and the HEAD_LINK_ERROR flag is set; the queue, the lots, the
discarded tally and the trace do not change (R51 to R54). -/
def Obligations.HeadIdleCounted : Prop :=
  ∀ (s : State) (l : LaneId) (h : HeadId) (n : Byte), s.phase = .working →
    s.lanes[l].receivers[h].asm = ⟨.hunt, [], none⟩ →
    ∃ t, exec (.headIdle l h n) s = .next t ∧
      t.lanes[l].receivers[h] = (if n.toNat = h.val
        then { s.lanes[l].receivers[h] with
          records := s.lanes[l].receivers[h].records + 1, lastRecord := some s.lineTime }
        else { s.lanes[l].receivers[h] with errors := holdInc s.lanes[l].receivers[h].errors }) ∧
      (n.toNat ≠ h.val → t.laneFlag l 4 = true) ∧
      t.lanes[l].queue = s.lanes[l].queue ∧ t.lanes[l].lots = s.lanes[l].lots ∧
      t.lanes[l].cfg = s.lanes[l].cfg ∧ t.lanes[l].discarded = s.lanes[l].discarded ∧
      t.lanes[l].tb.p = s.lanes[l].tb.p ∧ t.trace = s.trace ∧ s.LaneFrame l t

/-- Every DETECTION frame at a receiver in HUNT completes: discarded with an error by a check of R52; or
counted as a good record and tallied on a lane that is not RUNNING (R55); or counted and taken by the forming
unit at its belt coordinates, captured at P (R56, R57): the next state is that of the unit's act on the lane
with the record counted (R52 to R57). -/
def Obligations.DetectionReceived : Prop :=
  ∀ (s : State) (l : LaneId) (h : HeadId) (r : DetectionRecord), s.phase = .working →
    s.lanes[l].receivers[h].asm = ⟨.hunt, [], none⟩ →
    ∃ t, exec (.detection l h r) s = .next t ∧ s.LaneFrame l t ∧
      t.lanes[l].tb.p = s.lanes[l].tb.p ∧ t.lanes[l].cfg = s.lanes[l].cfg ∧
      (∀ good : Bool, good = decide (r.headNumber.toNat = h.val ∧ r.lastColumn.toNat ≤ 31 ∧
          r.firstColumn.toNat ≤ r.lastColumn.toNat ∧ 1 ≤ r.length.toNat ∧ r.length.toNat ≤ 4095 ∧
          s.lanes[l].cfg.geometry.headEnable[h] = true) →
        (good = false → t.lanes[l].receivers[h] = { s.lanes[l].receivers[h] with
            errors := holdInc s.lanes[l].receivers[h].errors } ∧ t.laneFlag l 4 = true ∧
          t.lanes[l].queue = s.lanes[l].queue ∧ t.lanes[l].discarded = s.lanes[l].discarded) ∧
        (good = true → t.lanes[l].receivers[h] = { s.lanes[l].receivers[h] with
            records := s.lanes[l].receivers[h].records + 1, lastRecord := some s.lineTime }) ∧
        (good = true → s.lanes[l].state ≠ .running →
          t.lanes[l].discarded = holdInc s.lanes[l].discarded ∧
          t.lanes[l].queue = s.lanes[l].queue) ∧
        (good = true → s.lanes[l].state = .running →
          t.lanes[l].discarded = s.lanes[l].discarded ∧
          ∀ (first last : Fin 32) (d : Detection) (out : LaneOut), first.val = r.firstColumn.toNat →
            last.val = r.lastColumn.toNat → d.firstColumn = first → d.lastColumn = last →
            d.lead = s.lanes[l].tb.p - BitVec.ofNat 32 r.length.toNat - BitVec.ofNat 32 r.trailLag.toNat -
              BitVec.ofNat 32 s.lanes[l].cfg.geometry.headOffset[h] →
            d.trail = d.lead + BitVec.ofNat 32 r.length.toNat →
            d.item = ⟨h, r.classCode, r.intensity, r.length.toNat⟩ →
            out = laneStep (fun env _ => formDetection env d { s.lanes[l] with
              receivers := s.lanes[l].receivers.set h { s.lanes[l].receivers[h] with
                records := s.lanes[l].receivers[h].records + 1, lastRecord := some s.lineTime } })
              (s.env l) s.lanes[l] →
            t = (s.setLane l out.lane).commit l out.effects))

/-- The forming unit on a detection, which a good record on a RUNNING lane reaches (DetectionReceived). One
that matches no parcel is admitted in a queue with room: a new parcel under the next serial stands at its
place in the queue, in the filling lot, which counts it; in a full queue it is dropped: an overflow of the
filling lot and a QUEUE_FULL entry, no serial taken (R17, R18, R58, R62). One that matches is fused into the
parcel with most columns shared, then the lowest serial, which moves in the queue only if its lead_ref
changed (R14, R15, R58 to R61). The parcel closes at once, and is classified, if every enabled head has
contributed to it or the detection's close position is at or behind Pmax; otherwise it stays FORMING (R63,
R64). -/
def Obligations.DetectionAdmittedOrDropped : Prop :=
  ∀ (env : LaneEnv) (d : Detection) (ln : Lane) (reach : Nat), ln.cfg.geometry.Reaches reach →
    let closes (p : Parcel) : Prop := p.Complete ln.cfg.geometry ∨
      atOrBehind (d.trail + BitVec.ofNat 32 reach + BitVec.ofNat 32 ln.cfg.geometry.window) ln.tb.pmax = true
    ((∀ p ∈ ln.queue, ¬d.Meets ln.cfg.geometry.window p) →
      (256 ≤ ln.queue.length → formDetection env d ln =
        ⟨{ ln with lots := { ln.lots with filling := { ln.lots.filling with
            overflow := ln.lots.filling.overflow + 1 } } },
          [.trace ⟨.queueFull, none, some ln.lots.filling.id, false, none, none, none⟩]⟩) ∧
      (ln.queue.length < 256 →
        (formDetection env d ln).lane.nextSerial = ln.takenSerial + 1 ∧
        (∀ p ∈ ln.queue, p.serial ≠ ln.takenSerial → p ∈ (formDetection env d ln).lane.queue) ∧
        (formDetection env d ln).lane.tb = ln.tb ∧
        ∀ p : Parcel, p = d.newParcel ln.takenSerial ln.lots.filling.id
            (d.trail + BitVec.ofNat 32 reach + BitVec.ofNat 32 ln.cfg.geometry.window) →
          ∃ (q : List Parcel) (lots : LotUnit), PlacedIn p ln.queue q ∧
            ln.lots.Counts env.id env.now ln.cfg.lotLimit p.serial lots ∧
            (¬closes p → formDetection env d ln =
              ⟨{ ln with queue := q, nextSerial := p.serial + 1, lots := lots }, []⟩) ∧
            (closes p → formDetection env d ln =
              classify env p.serial { ln with queue := q, nextSerial := p.serial + 1, lots := lots }))) ∧
    (∀ p ∈ ln.queue, (ln.queue.map (·.serial)).Nodup → d.Meets ln.cfg.geometry.window p →
      (∀ x ∈ ln.queue, d.Meets ln.cfg.geometry.window x → x ≠ p → d.Takes p x) →
      ∃ (fused : Parcel) (q : List Parcel), d.Fuses ln.cfg.geometry reach p fused ∧
        (fused.lead = p.lead → q = ln.queue.map fun x => if x = p then fused else x) ∧
        (fused.lead ≠ p.lead → PlacedIn fused (ln.queue.filter fun x => decide (x ≠ p)) q) ∧
        (¬closes fused → formDetection env d ln = ⟨{ ln with queue := q }, []⟩) ∧
        (closes fused → formDetection env d ln = classify env p.serial { ln with queue := q }))

/-- A frame is discarded at a sensor link at a body length that is neither 2 nor 10, at a missing stop bit
inside it, at CRC bytes that are not those of its length byte and body, at a record type that does not fit the
length of a body whose CRC agrees (not type 0x01 with 10, nor 0x02 with 2), and at a gap of more than 1 ms
inside it: the link's error count rises by one, HEAD_LINK_ERROR is raised with cause FRAME, the receiver is in
HUNT, and no parcel, lot or other tally is touched (R49, R51, R53). In HUNT a byte that is no marker, or whose
stop bit is missing, changes no receiver (R49). -/
def Obligations.SensorFrameRejectedCounted : Prop :=
  ∀ (s : State) (l : LaneId) (h : HeadId), s.phase = .working →
    let hunting : Prop := s.lanes[l].receivers[h].asm = ⟨.hunt, [], none⟩
    let discards (t : State) : Prop :=
      t.lanes[l].receivers[h] = { s.lanes[l].receivers[h] with
        asm := ⟨.hunt, [], none⟩, errors := holdInc s.lanes[l].receivers[h].errors } ∧
      t.laneFlag l 4 = true ∧ t.link.output = (s.raise (.headLinkError l h .frame)).link.output ∧
      t.lanes[l].queue = s.lanes[l].queue ∧ t.lanes[l].lots = s.lanes[l].lots ∧
      t.lanes[l].discarded = s.lanes[l].discarded ∧ t.lanes[l].testTally = s.lanes[l].testTally ∧
      t.trace = s.trace ∧ s.LaneFrame l t
    (∀ n : Byte, n.toNat ≠ 2 → n.toNat ≠ 10 → hunting →
      ∃ t, exec (.sensorFrameRejected l h (onLine [0xA5, n])) s = .next t ∧ discards t) ∧
    (∀ b : Byte, s.lanes[l].receivers[h].asm.phase ≠ .hunt →
      ∃ t, exec (.sensorFrameRejected l h [⟨b, false⟩]) s = .next t ∧ discards t) ∧
    (∀ (body : List Byte) (high low : Byte), hunting → body.length = 2 ∨ body.length = 10 →
      [high, low] ≠ crcBytes (byte body.length :: body) →
      ∃ t, exec (.sensorFrameRejected l h (onLine (0xA5 :: byte body.length :: body ++ [high, low]))) s =
        .next t ∧ discards t) ∧
    (∀ (kind : Byte) (rest : List Byte), hunting →
      (rest.length = 1 ∧ kind.toNat ≠ 2) ∨ (rest.length = 9 ∧ kind.toNat ≠ 1) →
      ∃ t, exec (.sensorFrameRejected l h (onLine (0xA5 :: byte (rest.length + 1) :: kind :: rest ++
        crcBytes (byte (rest.length + 1) :: kind :: rest)))) s = .next t ∧ discards t) ∧
    (∀ since : Time, s.lanes[l].receivers[h].asm.lastByte = some since → 1 < (s.lineTime - since).toNat →
      ∃ t, exec (.sensorLinkGapTimeout l h) s = .next t ∧ discards t) ∧
    (∀ b : LineByte, hunting → b.data ≠ 0xA5 ∨ b.stopBit = false →
      ∃ t, exec (.sensorFrameRejected l h [b]) s = .next t ∧
        t.lanes[l].receivers = s.lanes[l].receivers ∧ t.lanes[l].queue = s.lanes[l].queue ∧
        t.laneFlags = s.laneFlags ∧ s.LaneFrame l t)

/-! ## What the blocks of a lane do to its parcels

The works of an advance that EncoderMovesP and NominalCountMovesP name (Lane.WorkDue) are these. -/

/-- Classification. A FORMING parcel that closes takes the entry that the scan of its contributions gives,
that entry's fraction, or RESIDUE without one, the enabled station of that fraction and that entry's profile,
and is settled by the tests of R78 in their order (Lane.Settles; R66, R75 to R87). A test parcel is admitted
under the next serial at its place in the queue, with lead_ref at Pmax, and settled in the same step with the
fraction of its injection's station, that station if it is enabled, and profile 0; in a full queue it is
skipped and counted (R2, R14, R15, R19, R86, R128). The generator of a RUNNING lane whose next position is at
or behind Pmax asks for one: the next position rises by the spacing, and the remaining count, unless
unlimited, falls by one, the generator idle when it reaches 0; otherwise it does nothing (R128, R129).

Firing. The start of a SCHEDULED parcel does what Lane.FiringStart says (R97 to R102; by which comparison a
column rests is the model's choice, log 20). At an advance a station controller takes the starts of its list
whose fire position is at or behind Pmax, in list order, then the ends whose end position is, in list order
(R97): each ends EJECTED, or PARTIAL if a column was left out (R103), and the columns that close rest from now
for the column rest in force (R105).

Exits. At an advance every TRAVELLING parcel whose exit position is at or behind Pmax is removed with its
outcome, in queue order (R21). The forming unit closes the FORMING parcels whose close position is, in queue
order (R65). -/
def Obligations.ParcelClassifiedFiredAndRemoved : Prop :=
  ∀ (env : LaneEnv) (ln : Lane),
    (∀ (p : Parcel) (i? : Option (Fin 64)) (f : Fraction) (st? : Option StationId) (prof : Profile),
      ln.find p.serial = some p → Scanned env.table p.contributions i? →
      (i? = none → f = .residue) →
      (∀ i : Fin 64, i? = some i → f = env.table[i].fraction ∧ prof = env.profiles[env.table[i].profile]) →
      ln.StationOf f st? →
      Lane.Settles env { ln with queue := ln.queue.map fun q =>
        if q.serial = p.serial then { q with entry := i? } else q } p f st? prof (classify env p.serial ln)) ∧
    (∀ inj : Injection,
      (256 ≤ ln.queue.length → createTest env inj ln = ⟨{ ln with skipped := holdInc ln.skipped }, []⟩) ∧
      (ln.queue.length < 256 → ∃ (p : Parcel) (q : List Parcel), PlacedIn p ln.queue q ∧
        p.serial = ln.takenSerial ∧ p.lot = none ∧ p.test = true ∧ p.lead = ln.tb.pmax ∧
        p.trail = ln.tb.pmax + BitVec.ofNat 32 inj.length ∧ p.firstColumn = inj.firstColumn ∧
        p.lastColumn = inj.lastColumn ∧ p.contributions = [] ∧ p.entry = none ∧ p.estimated = false ∧
        Lane.Settles env { ln with queue := q, nextSerial := p.serial + 1 } p
          ln.cfg.geometry.stationFraction[inj.station].fraction
          (if ln.cfg.geometry.stationEnable[inj.station] then some inj.station else none) env.profiles[0]
          (createTest env inj ln))) ∧
    (∀ inj : Injection, ln.state = .running → ln.injection = some inj →
      atOrBehind inj.nextPos ln.tb.pmax = true →
      injectAdvance env ln = createTest env inj { ln with
        injection := if inj.remaining = some 1 then none else some { inj with
          nextPos := inj.nextPos + BitVec.ofNat 32 inj.spacing
          remaining := inj.remaining.map (· - 1) } }) ∧
    ((ln.state ≠ .running ∨ ∀ inj : Injection, ln.injection = some inj →
      atOrBehind inj.nextPos ln.tb.pmax = false) → injectAdvance env ln = ⟨ln, []⟩) ∧
    (∀ (st : StationId) (e : ListEntry) (p : Parcel) (aim : Aim), ln.find e.serial = some p →
      p.phase = .scheduled aim → ln.FiringStart env st p aim e (fireStart env st e ln)) ∧
    (∀ (st : StationId) (due : ListEntry → Bool),
      (∀ e, due e = true ↔ ∃ p aim, ln.find e.serial = some p ∧ p.phase = .scheduled aim ∧
        atOrBehind aim.firePos ln.tb.pmax = true) →
      stationAdvance env st ln =
        (runEach (fireStart env st) (ln.stations[st].list.filter due) ln).andThen (stationEnds env st)) ∧
    (∀ (st : StationId) (due : ListEntry → Option Outcome),
      (∀ e o, due e = some o ↔ ∃ p aim shot, ln.find e.serial = some p ∧ p.phase = .firing aim shot ∧
        atOrBehind aim.endPos ln.tb.pmax = true ∧ o = if shot.isPartial then .isPartial else .ejected) →
      ∀ removed : LaneOut, removed = runEach (fun x => removeParcel env x.1 x.2)
          (ln.stations[st].list.filterMap fun e => (due e).map fun o => (e.serial, o)) ln →
        (stationEnds env st ln).effects = removed.effects ∧
        (stationEnds env st ln).lane.queue = ln.queue.filter (fun p =>
          !ln.stations[st].list.any fun e => (due e).isSome && e.serial == p.serial) ∧
        (stationEnds env st ln).lane.lots = removed.lane.lots ∧
        (stationEnds env st ln).lane.testTally = removed.lane.testTally ∧
        (stationEnds env st ln).lane.tb = ln.tb ∧ (stationEnds env st ln).lane.cfg = ln.cfg ∧
        (stationEnds env st ln).lane.state = ln.state ∧
        ∀ k : StationId,
          (stationEnds env st ln).lane.stations[k].list = removed.lane.stations[k].list ∧
          (stationEnds env st ln).lane.stations[k].history = ln.stations[k].history ∧
          ∀ c : Fin 32, (stationEnds env st ln).lane.stations[k].restUntil[c] =
            if (ln.openSet k).getLsbD c.val = true ∧
                ((stationEnds env st ln).lane.openSet k).getLsbD c.val = false
            then some (env.now + BitVec.ofNat 32 ln.cfg.stations[k].columnRest)
            else ln.stations[k].restUntil[c]) ∧
    (∀ due : Parcel → Option Outcome, (∀ p o, due p = some o ↔ ln.ExitDue p o) →
      exits env ln = runEach (fun x => removeParcel env x.1 x.2)
        (ln.queue.filterMap fun p => (due p).map fun o => (p.serial, o)) ln ∧
      ((ln.queue.map (·.serial)).Nodup →
        (exits env ln).lane.queue = ln.queue.filter fun p => !(due p).isSome)) ∧
    (∀ due : Parcel → Bool, (∀ p, due p = true ↔ ∃ c, p.phase = .forming c ∧
        atOrBehind c ln.tb.pmax = true) →
      formingAdvance env ln = runEach (classify env) ((ln.queue.filter due).map (·.serial)) ln)

/-! ## Time -/

/-- When the clock has counted the µs of a ms, line time rises by one and each RUNNING lane's filling lot
gains one ms, to its hold ms if the lane's feed hold is asserted and to its live ms if not; no other lane
or lot accrues time, and nothing else changes (R138; the clock is the model's choice, log 1). -/
def Obligations.LotTimeAccrues : Prop :=
  ∀ s : State, s.phase = .working → s.micros = 1000 →
    exec .lotTimeAccrual s = .next { s with
      lineTime := s.lineTime + 1
      micros := 0
      lanes := Vector.ofFn fun l : Fin 4 =>
        if s.lanes[l].state = .running then
          { s.lanes[l] with lots := { s.lanes[l].lots with filling := { s.lanes[l].lots.filling with
            holdMs := s.lanes[l].lots.filling.holdMs + (if s.feedHold l then 1 else 0)
            liveMs := s.lanes[l].lots.filling.liveMs + (if s.feedHold l then 0 else 1) } } }
        else s.lanes[l] }

/-! ## Invariants -/

/-- Every step keeps every list within the bound the rules give it, and the serials of a lane's parcels
distinct (R16, R93, R94, R134, R167, R181, R187, R188). -/
def Obligations.StepKeepsBounds : Prop :=
  ∀ s t : State, s.bounded → step s = .next t → t.bounded

/-- The invariants hold right after reset. -/
def Obligations.ResetIsBoundedAndSafe : Prop := State.reset.bounded ∧ State.reset.safe

/-- Every step keeps the invariant of the valves (State.safe): on a part whose clock runs, no parcel of a lane
is FIRING while its raw AIR_OK level is not asserted, while P is below Pmax, or while the lane is neither
RUNNING nor DRAINING (R96, R107, with R31, R41, R129 for what it rests on); and a lane holds samples back only
while the samples that outrun the cut with them are the next commands of the queue (the model's choice, log
19). -/
def Obligations.StepKeepsValvesSafe : Prop :=
  ∀ s t : State, s.safe → step s = .next t → t.safe

/-- In a state with that invariant no column of a lane is open while raw AIR_OK is not asserted, while P
is below Pmax, or while the lane is neither RUNNING nor DRAINING (R96). -/
def Obligations.NoColumnOpenWhenForbidden : Prop :=
  ∀ (s : State) (l : LaneId) (st : StationId), s.safe → s.live = true →
    (s.lines.raw[(airLine l).castSucc] = false ∨ s.lanes[l].reversing = true ∨
      (s.lanes[l].state ≠ .running ∧ s.lanes[l].state ≠ .draining)) →
    s.lanes[l].openSet st = 0

/-- The command that the request taker is due for a request is the one that takes it: for every
well-formed request command (R182, R186). -/
def Obligations.RequestsNameTheirCommands : Prop :=
  ∀ (i : Instr) (r : Request), i.wf = true → i.request? = some r → takingOf r = i

end Statements
end

