-- ==== Sys2Proof/Decode.lean ====
section
/-! DEFINITION. The commands that words spell: none, since no row of spec/opcode_table.json gives bits. -/

namespace Sys2Proof

/-- The command that a word spells by the bits of spec/opcode_table.json. Every row's bits are empty
there (the commands are frames, events and timers, not words), so no word spells one. -/
def decodeTableWord (_nbits _w : Nat) : Option Instr := none

end Sys2Proof
end

