-- ==== Sys2Proof/Laws/State.lean ====
section
/-! SUPPORT. One lemma per field and per update of the state: what each named update of State leaves.
All are true by rfl or by cases on the update's own test. -/

namespace Sys2Proof.Machine.State

variable (s : State)

/-! ### setLane -/

@[simp] theorem setLane_phase (l : LaneId) (ln : Lane) : (s.setLane l ln).phase = s.phase := rfl
@[simp] theorem setLane_rstAsserted (l : LaneId) (ln : Lane) : (s.setLane l ln).rstAsserted = s.rstAsserted := rfl
@[simp] theorem setLane_resetCause (l : LaneId) (ln : Lane) : (s.setLane l ln).resetCause = s.resetCause := rfl
@[simp] theorem setLane_lineTime (l : LaneId) (ln : Lane) : (s.setLane l ln).lineTime = s.lineTime := rfl
@[simp] theorem setLane_micros (l : LaneId) (ln : Lane) : (s.setLane l ln).micros = s.micros := rfl
@[simp] theorem setLane_lanes (l : LaneId) (ln : Lane) : (s.setLane l ln).lanes = s.lanes.set l ln := rfl
@[simp] theorem setLane_device (l : LaneId) (ln : Lane) : (s.setLane l ln).device = s.device := rfl
@[simp] theorem setLane_lines (l : LaneId) (ln : Lane) : (s.setLane l ln).lines = s.lines := rfl
@[simp] theorem setLane_millTripLatch (l : LaneId) (ln : Lane) : (s.setLane l ln).millTripLatch = s.millTripLatch := rfl
@[simp] theorem setLane_trace (l : LaneId) (ln : Lane) : (s.setLane l ln).trace = s.trace := rfl
@[simp] theorem setLane_gapPending (l : LaneId) (ln : Lane) : (s.setLane l ln).gapPending = s.gapPending := rfl
@[simp] theorem setLane_laneFlags (l : LaneId) (ln : Lane) : (s.setLane l ln).laneFlags = s.laneFlags := rfl
@[simp] theorem setLane_deviceFlags (l : LaneId) (ln : Lane) : (s.setLane l ln).deviceFlags = s.deviceFlags := rfl
@[simp] theorem setLane_statusDue (l : LaneId) (ln : Lane) : (s.setLane l ln).statusDue = s.statusDue := rfl
@[simp] theorem setLane_link (l : LaneId) (ln : Lane) : (s.setLane l ln).link = s.link := rfl
@[simp] theorem setLane_store (l : LaneId) (ln : Lane) : (s.setLane l ln).store = s.store := rfl
@[simp] theorem setLane_choices (l : LaneId) (ln : Lane) : (s.setLane l ln).choices = s.choices := rfl
@[simp] theorem setLane_held (l : LaneId) (ln : Lane) : (s.setLane l ln).held = s.held := rfl
@[simp] theorem setLane_pending (l : LaneId) (ln : Lane) : (s.setLane l ln).pending = s.pending := rfl

/-! ### editLane -/

@[simp] theorem editLane_phase (l : LaneId) (f : Lane → Lane) : (s.editLane l f).phase = s.phase := rfl
@[simp] theorem editLane_rstAsserted (l : LaneId) (f : Lane → Lane) : (s.editLane l f).rstAsserted = s.rstAsserted := rfl
@[simp] theorem editLane_resetCause (l : LaneId) (f : Lane → Lane) : (s.editLane l f).resetCause = s.resetCause := rfl
@[simp] theorem editLane_lineTime (l : LaneId) (f : Lane → Lane) : (s.editLane l f).lineTime = s.lineTime := rfl
@[simp] theorem editLane_micros (l : LaneId) (f : Lane → Lane) : (s.editLane l f).micros = s.micros := rfl
@[simp] theorem editLane_lanes (l : LaneId) (f : Lane → Lane) : (s.editLane l f).lanes = s.lanes.set l (f s.lanes[l]) := rfl
@[simp] theorem editLane_device (l : LaneId) (f : Lane → Lane) : (s.editLane l f).device = s.device := rfl
@[simp] theorem editLane_lines (l : LaneId) (f : Lane → Lane) : (s.editLane l f).lines = s.lines := rfl
@[simp] theorem editLane_millTripLatch (l : LaneId) (f : Lane → Lane) : (s.editLane l f).millTripLatch = s.millTripLatch := rfl
@[simp] theorem editLane_trace (l : LaneId) (f : Lane → Lane) : (s.editLane l f).trace = s.trace := rfl
@[simp] theorem editLane_gapPending (l : LaneId) (f : Lane → Lane) : (s.editLane l f).gapPending = s.gapPending := rfl
@[simp] theorem editLane_laneFlags (l : LaneId) (f : Lane → Lane) : (s.editLane l f).laneFlags = s.laneFlags := rfl
@[simp] theorem editLane_deviceFlags (l : LaneId) (f : Lane → Lane) : (s.editLane l f).deviceFlags = s.deviceFlags := rfl
@[simp] theorem editLane_statusDue (l : LaneId) (f : Lane → Lane) : (s.editLane l f).statusDue = s.statusDue := rfl
@[simp] theorem editLane_link (l : LaneId) (f : Lane → Lane) : (s.editLane l f).link = s.link := rfl
@[simp] theorem editLane_store (l : LaneId) (f : Lane → Lane) : (s.editLane l f).store = s.store := rfl
@[simp] theorem editLane_choices (l : LaneId) (f : Lane → Lane) : (s.editLane l f).choices = s.choices := rfl
@[simp] theorem editLane_held (l : LaneId) (f : Lane → Lane) : (s.editLane l f).held = s.held := rfl
@[simp] theorem editLane_pending (l : LaneId) (f : Lane → Lane) : (s.editLane l f).pending = s.pending := rfl

/-! ### pushFrame -/

@[simp] theorem pushFrame_phase (f : Frame) : (s.pushFrame f).phase = s.phase := rfl
@[simp] theorem pushFrame_rstAsserted (f : Frame) : (s.pushFrame f).rstAsserted = s.rstAsserted := rfl
@[simp] theorem pushFrame_resetCause (f : Frame) : (s.pushFrame f).resetCause = s.resetCause := rfl
@[simp] theorem pushFrame_lineTime (f : Frame) : (s.pushFrame f).lineTime = s.lineTime := rfl
@[simp] theorem pushFrame_micros (f : Frame) : (s.pushFrame f).micros = s.micros := rfl
@[simp] theorem pushFrame_lanes (f : Frame) : (s.pushFrame f).lanes = s.lanes := rfl
@[simp] theorem pushFrame_device (f : Frame) : (s.pushFrame f).device = s.device := rfl
@[simp] theorem pushFrame_lines (f : Frame) : (s.pushFrame f).lines = s.lines := rfl
@[simp] theorem pushFrame_millTripLatch (f : Frame) : (s.pushFrame f).millTripLatch = s.millTripLatch := rfl
@[simp] theorem pushFrame_trace (f : Frame) : (s.pushFrame f).trace = s.trace := rfl
@[simp] theorem pushFrame_gapPending (f : Frame) : (s.pushFrame f).gapPending = s.gapPending := rfl
@[simp] theorem pushFrame_laneFlags (f : Frame) : (s.pushFrame f).laneFlags = s.laneFlags := rfl
@[simp] theorem pushFrame_deviceFlags (f : Frame) : (s.pushFrame f).deviceFlags = s.deviceFlags := rfl
@[simp] theorem pushFrame_statusDue (f : Frame) : (s.pushFrame f).statusDue = s.statusDue := rfl
@[simp] theorem pushFrame_link (f : Frame) : (s.pushFrame f).link = { s.link with output := s.link.output ++ [f] } := rfl
@[simp] theorem pushFrame_store (f : Frame) : (s.pushFrame f).store = s.store := rfl
@[simp] theorem pushFrame_choices (f : Frame) : (s.pushFrame f).choices = s.choices := rfl
@[simp] theorem pushFrame_held (f : Frame) : (s.pushFrame f).held = s.held := rfl
@[simp] theorem pushFrame_pending (f : Frame) : (s.pushFrame f).pending = s.pending := rfl

/-! ### popInput -/

@[simp] theorem popInput_phase : (s.popInput).phase = s.phase := rfl
@[simp] theorem popInput_rstAsserted : (s.popInput).rstAsserted = s.rstAsserted := rfl
@[simp] theorem popInput_resetCause : (s.popInput).resetCause = s.resetCause := rfl
@[simp] theorem popInput_lineTime : (s.popInput).lineTime = s.lineTime := rfl
@[simp] theorem popInput_micros : (s.popInput).micros = s.micros := rfl
@[simp] theorem popInput_lanes : (s.popInput).lanes = s.lanes := rfl
@[simp] theorem popInput_device : (s.popInput).device = s.device := rfl
@[simp] theorem popInput_lines : (s.popInput).lines = s.lines := rfl
@[simp] theorem popInput_millTripLatch : (s.popInput).millTripLatch = s.millTripLatch := rfl
@[simp] theorem popInput_trace : (s.popInput).trace = s.trace := rfl
@[simp] theorem popInput_gapPending : (s.popInput).gapPending = s.gapPending := rfl
@[simp] theorem popInput_laneFlags : (s.popInput).laneFlags = s.laneFlags := rfl
@[simp] theorem popInput_deviceFlags : (s.popInput).deviceFlags = s.deviceFlags := rfl
@[simp] theorem popInput_statusDue : (s.popInput).statusDue = s.statusDue := rfl
@[simp] theorem popInput_link : (s.popInput).link = { s.link with input := s.link.input.drop 1 } := rfl
@[simp] theorem popInput_store : (s.popInput).store = s.store := rfl
@[simp] theorem popInput_choices : (s.popInput).choices = s.choices := rfl
@[simp] theorem popInput_held : (s.popInput).held = s.held := rfl
@[simp] theorem popInput_pending : (s.popInput).pending = s.pending := rfl

/-! ### withLink -/

@[simp] theorem withLink_phase (f : Link → Link) : (s.withLink f).phase = s.phase := rfl
@[simp] theorem withLink_rstAsserted (f : Link → Link) : (s.withLink f).rstAsserted = s.rstAsserted := rfl
@[simp] theorem withLink_resetCause (f : Link → Link) : (s.withLink f).resetCause = s.resetCause := rfl
@[simp] theorem withLink_lineTime (f : Link → Link) : (s.withLink f).lineTime = s.lineTime := rfl
@[simp] theorem withLink_micros (f : Link → Link) : (s.withLink f).micros = s.micros := rfl
@[simp] theorem withLink_lanes (f : Link → Link) : (s.withLink f).lanes = s.lanes := rfl
@[simp] theorem withLink_device (f : Link → Link) : (s.withLink f).device = s.device := rfl
@[simp] theorem withLink_lines (f : Link → Link) : (s.withLink f).lines = s.lines := rfl
@[simp] theorem withLink_millTripLatch (f : Link → Link) : (s.withLink f).millTripLatch = s.millTripLatch := rfl
@[simp] theorem withLink_trace (f : Link → Link) : (s.withLink f).trace = s.trace := rfl
@[simp] theorem withLink_gapPending (f : Link → Link) : (s.withLink f).gapPending = s.gapPending := rfl
@[simp] theorem withLink_laneFlags (f : Link → Link) : (s.withLink f).laneFlags = s.laneFlags := rfl
@[simp] theorem withLink_deviceFlags (f : Link → Link) : (s.withLink f).deviceFlags = s.deviceFlags := rfl
@[simp] theorem withLink_statusDue (f : Link → Link) : (s.withLink f).statusDue = s.statusDue := rfl
@[simp] theorem withLink_link (f : Link → Link) : (s.withLink f).link = f s.link := rfl
@[simp] theorem withLink_store (f : Link → Link) : (s.withLink f).store = s.store := rfl
@[simp] theorem withLink_choices (f : Link → Link) : (s.withLink f).choices = s.choices := rfl
@[simp] theorem withLink_held (f : Link → Link) : (s.withLink f).held = s.held := rfl
@[simp] theorem withLink_pending (f : Link → Link) : (s.withLink f).pending = s.pending := rfl

/-! ### withDevice -/

@[simp] theorem withDevice_phase (f : DeviceConfig → DeviceConfig) : (s.withDevice f).phase = s.phase := rfl
@[simp] theorem withDevice_rstAsserted (f : DeviceConfig → DeviceConfig) : (s.withDevice f).rstAsserted = s.rstAsserted := rfl
@[simp] theorem withDevice_resetCause (f : DeviceConfig → DeviceConfig) : (s.withDevice f).resetCause = s.resetCause := rfl
@[simp] theorem withDevice_lineTime (f : DeviceConfig → DeviceConfig) : (s.withDevice f).lineTime = s.lineTime := rfl
@[simp] theorem withDevice_micros (f : DeviceConfig → DeviceConfig) : (s.withDevice f).micros = s.micros := rfl
@[simp] theorem withDevice_lanes (f : DeviceConfig → DeviceConfig) : (s.withDevice f).lanes = s.lanes := rfl
@[simp] theorem withDevice_device (f : DeviceConfig → DeviceConfig) : (s.withDevice f).device = f s.device := rfl
@[simp] theorem withDevice_lines (f : DeviceConfig → DeviceConfig) : (s.withDevice f).lines = s.lines := rfl
@[simp] theorem withDevice_millTripLatch (f : DeviceConfig → DeviceConfig) : (s.withDevice f).millTripLatch = s.millTripLatch := rfl
@[simp] theorem withDevice_trace (f : DeviceConfig → DeviceConfig) : (s.withDevice f).trace = s.trace := rfl
@[simp] theorem withDevice_gapPending (f : DeviceConfig → DeviceConfig) : (s.withDevice f).gapPending = s.gapPending := rfl
@[simp] theorem withDevice_laneFlags (f : DeviceConfig → DeviceConfig) : (s.withDevice f).laneFlags = s.laneFlags := rfl
@[simp] theorem withDevice_deviceFlags (f : DeviceConfig → DeviceConfig) : (s.withDevice f).deviceFlags = s.deviceFlags := rfl
@[simp] theorem withDevice_statusDue (f : DeviceConfig → DeviceConfig) : (s.withDevice f).statusDue = s.statusDue := rfl
@[simp] theorem withDevice_link (f : DeviceConfig → DeviceConfig) : (s.withDevice f).link = s.link := rfl
@[simp] theorem withDevice_store (f : DeviceConfig → DeviceConfig) : (s.withDevice f).store = s.store := rfl
@[simp] theorem withDevice_choices (f : DeviceConfig → DeviceConfig) : (s.withDevice f).choices = s.choices := rfl
@[simp] theorem withDevice_held (f : DeviceConfig → DeviceConfig) : (s.withDevice f).held = s.held := rfl
@[simp] theorem withDevice_pending (f : DeviceConfig → DeviceConfig) : (s.withDevice f).pending = s.pending := rfl

/-! ### answer -/

@[simp] theorem answer_phase (code tag : Byte) (st : Status) (items : List Byte) : (s.answer code tag st items).phase = s.phase := rfl
@[simp] theorem answer_rstAsserted (code tag : Byte) (st : Status) (items : List Byte) : (s.answer code tag st items).rstAsserted = s.rstAsserted := rfl
@[simp] theorem answer_resetCause (code tag : Byte) (st : Status) (items : List Byte) : (s.answer code tag st items).resetCause = s.resetCause := rfl
@[simp] theorem answer_lineTime (code tag : Byte) (st : Status) (items : List Byte) : (s.answer code tag st items).lineTime = s.lineTime := rfl
@[simp] theorem answer_micros (code tag : Byte) (st : Status) (items : List Byte) : (s.answer code tag st items).micros = s.micros := rfl
@[simp] theorem answer_lanes (code tag : Byte) (st : Status) (items : List Byte) : (s.answer code tag st items).lanes = s.lanes := rfl
@[simp] theorem answer_device (code tag : Byte) (st : Status) (items : List Byte) : (s.answer code tag st items).device = s.device := rfl
@[simp] theorem answer_lines (code tag : Byte) (st : Status) (items : List Byte) : (s.answer code tag st items).lines = s.lines := rfl
@[simp] theorem answer_millTripLatch (code tag : Byte) (st : Status) (items : List Byte) : (s.answer code tag st items).millTripLatch = s.millTripLatch := rfl
@[simp] theorem answer_trace (code tag : Byte) (st : Status) (items : List Byte) : (s.answer code tag st items).trace = s.trace := rfl
@[simp] theorem answer_gapPending (code tag : Byte) (st : Status) (items : List Byte) : (s.answer code tag st items).gapPending = s.gapPending := rfl
@[simp] theorem answer_laneFlags (code tag : Byte) (st : Status) (items : List Byte) : (s.answer code tag st items).laneFlags = s.laneFlags := rfl
@[simp] theorem answer_deviceFlags (code tag : Byte) (st : Status) (items : List Byte) : (s.answer code tag st items).deviceFlags = s.deviceFlags := rfl
@[simp] theorem answer_statusDue (code tag : Byte) (st : Status) (items : List Byte) : (s.answer code tag st items).statusDue = s.statusDue := rfl
@[simp] theorem answer_link (code tag : Byte) (st : Status) (items : List Byte) : (s.answer code tag st items).link = { s.link with output := s.link.output ++ [⟨tag, replyKind code, st.code :: items⟩] } := rfl
@[simp] theorem answer_store (code tag : Byte) (st : Status) (items : List Byte) : (s.answer code tag st items).store = s.store := rfl
@[simp] theorem answer_choices (code tag : Byte) (st : Status) (items : List Byte) : (s.answer code tag st items).choices = s.choices := rfl
@[simp] theorem answer_held (code tag : Byte) (st : Status) (items : List Byte) : (s.answer code tag st items).held = s.held := rfl
@[simp] theorem answer_pending (code tag : Byte) (st : Status) (items : List Byte) : (s.answer code tag st items).pending = s.pending := rfl

/-! ### ok -/

@[simp] theorem ok_phase (code tag : Byte) (items : List Byte) : (s.ok code tag items).phase = s.phase := rfl
@[simp] theorem ok_rstAsserted (code tag : Byte) (items : List Byte) : (s.ok code tag items).rstAsserted = s.rstAsserted := rfl
@[simp] theorem ok_resetCause (code tag : Byte) (items : List Byte) : (s.ok code tag items).resetCause = s.resetCause := rfl
@[simp] theorem ok_lineTime (code tag : Byte) (items : List Byte) : (s.ok code tag items).lineTime = s.lineTime := rfl
@[simp] theorem ok_micros (code tag : Byte) (items : List Byte) : (s.ok code tag items).micros = s.micros := rfl
@[simp] theorem ok_lanes (code tag : Byte) (items : List Byte) : (s.ok code tag items).lanes = s.lanes := rfl
@[simp] theorem ok_device (code tag : Byte) (items : List Byte) : (s.ok code tag items).device = s.device := rfl
@[simp] theorem ok_lines (code tag : Byte) (items : List Byte) : (s.ok code tag items).lines = s.lines := rfl
@[simp] theorem ok_millTripLatch (code tag : Byte) (items : List Byte) : (s.ok code tag items).millTripLatch = s.millTripLatch := rfl
@[simp] theorem ok_trace (code tag : Byte) (items : List Byte) : (s.ok code tag items).trace = s.trace := rfl
@[simp] theorem ok_gapPending (code tag : Byte) (items : List Byte) : (s.ok code tag items).gapPending = s.gapPending := rfl
@[simp] theorem ok_laneFlags (code tag : Byte) (items : List Byte) : (s.ok code tag items).laneFlags = s.laneFlags := rfl
@[simp] theorem ok_deviceFlags (code tag : Byte) (items : List Byte) : (s.ok code tag items).deviceFlags = s.deviceFlags := rfl
@[simp] theorem ok_statusDue (code tag : Byte) (items : List Byte) : (s.ok code tag items).statusDue = s.statusDue := rfl
@[simp] theorem ok_link (code tag : Byte) (items : List Byte) : (s.ok code tag items).link = { s.link with output := s.link.output ++ [⟨tag, replyKind code, Status.ok.code :: items⟩] } := rfl
@[simp] theorem ok_store (code tag : Byte) (items : List Byte) : (s.ok code tag items).store = s.store := rfl
@[simp] theorem ok_choices (code tag : Byte) (items : List Byte) : (s.ok code tag items).choices = s.choices := rfl
@[simp] theorem ok_held (code tag : Byte) (items : List Byte) : (s.ok code tag items).held = s.held := rfl
@[simp] theorem ok_pending (code tag : Byte) (items : List Byte) : (s.ok code tag items).pending = s.pending := rfl

/-! ### refuse -/

@[simp] theorem refuse_phase (code tag : Byte) (st : Status) : (s.refuse code tag st).phase = s.phase := rfl
@[simp] theorem refuse_rstAsserted (code tag : Byte) (st : Status) : (s.refuse code tag st).rstAsserted = s.rstAsserted := rfl
@[simp] theorem refuse_resetCause (code tag : Byte) (st : Status) : (s.refuse code tag st).resetCause = s.resetCause := rfl
@[simp] theorem refuse_lineTime (code tag : Byte) (st : Status) : (s.refuse code tag st).lineTime = s.lineTime := rfl
@[simp] theorem refuse_micros (code tag : Byte) (st : Status) : (s.refuse code tag st).micros = s.micros := rfl
@[simp] theorem refuse_lanes (code tag : Byte) (st : Status) : (s.refuse code tag st).lanes = s.lanes := rfl
@[simp] theorem refuse_device (code tag : Byte) (st : Status) : (s.refuse code tag st).device = s.device := rfl
@[simp] theorem refuse_lines (code tag : Byte) (st : Status) : (s.refuse code tag st).lines = s.lines := rfl
@[simp] theorem refuse_millTripLatch (code tag : Byte) (st : Status) : (s.refuse code tag st).millTripLatch = s.millTripLatch := rfl
@[simp] theorem refuse_trace (code tag : Byte) (st : Status) : (s.refuse code tag st).trace = s.trace := rfl
@[simp] theorem refuse_gapPending (code tag : Byte) (st : Status) : (s.refuse code tag st).gapPending = s.gapPending := rfl
@[simp] theorem refuse_laneFlags (code tag : Byte) (st : Status) : (s.refuse code tag st).laneFlags = s.laneFlags := rfl
@[simp] theorem refuse_deviceFlags (code tag : Byte) (st : Status) : (s.refuse code tag st).deviceFlags = s.deviceFlags := rfl
@[simp] theorem refuse_statusDue (code tag : Byte) (st : Status) : (s.refuse code tag st).statusDue = s.statusDue := rfl
@[simp] theorem refuse_link (code tag : Byte) (st : Status) : (s.refuse code tag st).link = { s.link with output := s.link.output ++ [⟨tag, replyKind code, [st.code]⟩] } := rfl
@[simp] theorem refuse_store (code tag : Byte) (st : Status) : (s.refuse code tag st).store = s.store := rfl
@[simp] theorem refuse_choices (code tag : Byte) (st : Status) : (s.refuse code tag st).choices = s.choices := rfl
@[simp] theorem refuse_held (code tag : Byte) (st : Status) : (s.refuse code tag st).held = s.held := rfl
@[simp] theorem refuse_pending (code tag : Byte) (st : Status) : (s.refuse code tag st).pending = s.pending := rfl

/-! ### setRaw -/

@[simp] theorem setRaw_phase (i : LineId) (b : Bool) : (s.setRaw i b).phase = s.phase := rfl
@[simp] theorem setRaw_rstAsserted (i : LineId) (b : Bool) : (s.setRaw i b).rstAsserted = s.rstAsserted := rfl
@[simp] theorem setRaw_resetCause (i : LineId) (b : Bool) : (s.setRaw i b).resetCause = s.resetCause := rfl
@[simp] theorem setRaw_lineTime (i : LineId) (b : Bool) : (s.setRaw i b).lineTime = s.lineTime := rfl
@[simp] theorem setRaw_micros (i : LineId) (b : Bool) : (s.setRaw i b).micros = s.micros := rfl
@[simp] theorem setRaw_lanes (i : LineId) (b : Bool) : (s.setRaw i b).lanes = s.lanes := rfl
@[simp] theorem setRaw_device (i : LineId) (b : Bool) : (s.setRaw i b).device = s.device := rfl
@[simp] theorem setRaw_lines (i : LineId) (b : Bool) : (s.setRaw i b).lines = { s.lines with raw := s.lines.raw.set i b } := rfl
@[simp] theorem setRaw_millTripLatch (i : LineId) (b : Bool) : (s.setRaw i b).millTripLatch = s.millTripLatch := rfl
@[simp] theorem setRaw_trace (i : LineId) (b : Bool) : (s.setRaw i b).trace = s.trace := rfl
@[simp] theorem setRaw_gapPending (i : LineId) (b : Bool) : (s.setRaw i b).gapPending = s.gapPending := rfl
@[simp] theorem setRaw_laneFlags (i : LineId) (b : Bool) : (s.setRaw i b).laneFlags = s.laneFlags := rfl
@[simp] theorem setRaw_deviceFlags (i : LineId) (b : Bool) : (s.setRaw i b).deviceFlags = s.deviceFlags := rfl
@[simp] theorem setRaw_statusDue (i : LineId) (b : Bool) : (s.setRaw i b).statusDue = s.statusDue := rfl
@[simp] theorem setRaw_link (i : LineId) (b : Bool) : (s.setRaw i b).link = s.link := rfl
@[simp] theorem setRaw_store (i : LineId) (b : Bool) : (s.setRaw i b).store = s.store := rfl
@[simp] theorem setRaw_choices (i : LineId) (b : Bool) : (s.setRaw i b).choices = s.choices := rfl
@[simp] theorem setRaw_held (i : LineId) (b : Bool) : (s.setRaw i b).held = s.held := rfl
@[simp] theorem setRaw_pending (i : LineId) (b : Bool) : (s.setRaw i b).pending = s.pending := rfl

/-! ### chosen -/

@[simp] theorem chosen_phase : (s.chosen).phase = s.phase := rfl
@[simp] theorem chosen_rstAsserted : (s.chosen).rstAsserted = s.rstAsserted := rfl
@[simp] theorem chosen_resetCause : (s.chosen).resetCause = s.resetCause := rfl
@[simp] theorem chosen_lineTime : (s.chosen).lineTime = s.lineTime := rfl
@[simp] theorem chosen_micros : (s.chosen).micros = s.micros := rfl
@[simp] theorem chosen_lanes : (s.chosen).lanes = s.lanes := rfl
@[simp] theorem chosen_device : (s.chosen).device = s.device := rfl
@[simp] theorem chosen_lines : (s.chosen).lines = s.lines := rfl
@[simp] theorem chosen_millTripLatch : (s.chosen).millTripLatch = s.millTripLatch := rfl
@[simp] theorem chosen_trace : (s.chosen).trace = s.trace := rfl
@[simp] theorem chosen_gapPending : (s.chosen).gapPending = s.gapPending := rfl
@[simp] theorem chosen_laneFlags : (s.chosen).laneFlags = s.laneFlags := rfl
@[simp] theorem chosen_deviceFlags : (s.chosen).deviceFlags = s.deviceFlags := rfl
@[simp] theorem chosen_statusDue : (s.chosen).statusDue = s.statusDue := rfl
@[simp] theorem chosen_link : (s.chosen).link = s.link := rfl
@[simp] theorem chosen_store : (s.chosen).store = s.store := rfl
@[simp] theorem chosen_choices : (s.chosen).choices = s.choices + 1 := rfl
@[simp] theorem chosen_held : (s.chosen).held = s.held := rfl
@[simp] theorem chosen_pending : (s.chosen).pending = s.pending := rfl

/-! ### setFlag -/

@[simp] theorem setFlag_phase (e : Event) : (s.setFlag e).phase = s.phase := by unfold setFlag; split <;> rfl
@[simp] theorem setFlag_rstAsserted (e : Event) : (s.setFlag e).rstAsserted = s.rstAsserted := by unfold setFlag; split <;> rfl
@[simp] theorem setFlag_resetCause (e : Event) : (s.setFlag e).resetCause = s.resetCause := by unfold setFlag; split <;> rfl
@[simp] theorem setFlag_lineTime (e : Event) : (s.setFlag e).lineTime = s.lineTime := by unfold setFlag; split <;> rfl
@[simp] theorem setFlag_micros (e : Event) : (s.setFlag e).micros = s.micros := by unfold setFlag; split <;> rfl
@[simp] theorem setFlag_lanes (e : Event) : (s.setFlag e).lanes = s.lanes := by unfold setFlag; split <;> rfl
@[simp] theorem setFlag_device (e : Event) : (s.setFlag e).device = s.device := by unfold setFlag; split <;> rfl
@[simp] theorem setFlag_lines (e : Event) : (s.setFlag e).lines = s.lines := by unfold setFlag; split <;> rfl
@[simp] theorem setFlag_millTripLatch (e : Event) : (s.setFlag e).millTripLatch = s.millTripLatch := by unfold setFlag; split <;> rfl
@[simp] theorem setFlag_trace (e : Event) : (s.setFlag e).trace = s.trace := by unfold setFlag; split <;> rfl
@[simp] theorem setFlag_gapPending (e : Event) : (s.setFlag e).gapPending = s.gapPending := by unfold setFlag; split <;> rfl
@[simp] theorem setFlag_statusDue (e : Event) : (s.setFlag e).statusDue = s.statusDue := by unfold setFlag; split <;> rfl
@[simp] theorem setFlag_link (e : Event) : (s.setFlag e).link = s.link := by unfold setFlag; split <;> rfl
@[simp] theorem setFlag_store (e : Event) : (s.setFlag e).store = s.store := by unfold setFlag; split <;> rfl
@[simp] theorem setFlag_choices (e : Event) : (s.setFlag e).choices = s.choices := by unfold setFlag; split <;> rfl
@[simp] theorem setFlag_held (e : Event) : (s.setFlag e).held = s.held := by unfold setFlag; split <;> rfl
@[simp] theorem setFlag_pending (e : Event) : (s.setFlag e).pending = s.pending := by unfold setFlag; split <;> rfl

/-! ### offerNotice -/

@[simp] theorem offerNotice_phase (f : Frame) : (s.offerNotice f).phase = s.phase := by unfold offerNotice pushFrame; split <;> rfl
@[simp] theorem offerNotice_rstAsserted (f : Frame) : (s.offerNotice f).rstAsserted = s.rstAsserted := by unfold offerNotice pushFrame; split <;> rfl
@[simp] theorem offerNotice_resetCause (f : Frame) : (s.offerNotice f).resetCause = s.resetCause := by unfold offerNotice pushFrame; split <;> rfl
@[simp] theorem offerNotice_lineTime (f : Frame) : (s.offerNotice f).lineTime = s.lineTime := by unfold offerNotice pushFrame; split <;> rfl
@[simp] theorem offerNotice_micros (f : Frame) : (s.offerNotice f).micros = s.micros := by unfold offerNotice pushFrame; split <;> rfl
@[simp] theorem offerNotice_lanes (f : Frame) : (s.offerNotice f).lanes = s.lanes := by unfold offerNotice pushFrame; split <;> rfl
@[simp] theorem offerNotice_device (f : Frame) : (s.offerNotice f).device = s.device := by unfold offerNotice pushFrame; split <;> rfl
@[simp] theorem offerNotice_lines (f : Frame) : (s.offerNotice f).lines = s.lines := by unfold offerNotice pushFrame; split <;> rfl
@[simp] theorem offerNotice_millTripLatch (f : Frame) : (s.offerNotice f).millTripLatch = s.millTripLatch := by unfold offerNotice pushFrame; split <;> rfl
@[simp] theorem offerNotice_trace (f : Frame) : (s.offerNotice f).trace = s.trace := by unfold offerNotice pushFrame; split <;> rfl
@[simp] theorem offerNotice_gapPending (f : Frame) : (s.offerNotice f).gapPending = s.gapPending := by unfold offerNotice pushFrame; split <;> rfl
@[simp] theorem offerNotice_laneFlags (f : Frame) : (s.offerNotice f).laneFlags = s.laneFlags := by unfold offerNotice pushFrame; split <;> rfl
@[simp] theorem offerNotice_deviceFlags (f : Frame) : (s.offerNotice f).deviceFlags = s.deviceFlags := by unfold offerNotice pushFrame; split <;> rfl
@[simp] theorem offerNotice_statusDue (f : Frame) : (s.offerNotice f).statusDue = s.statusDue := by unfold offerNotice pushFrame; split <;> rfl
@[simp] theorem offerNotice_store (f : Frame) : (s.offerNotice f).store = s.store := by unfold offerNotice pushFrame; split <;> rfl
@[simp] theorem offerNotice_choices (f : Frame) : (s.offerNotice f).choices = s.choices := by unfold offerNotice pushFrame; split <;> rfl
@[simp] theorem offerNotice_held (f : Frame) : (s.offerNotice f).held = s.held := by unfold offerNotice pushFrame; split <;> rfl
@[simp] theorem offerNotice_pending (f : Frame) : (s.offerNotice f).pending = s.pending := by unfold offerNotice pushFrame; split <;> rfl

/-! ### raise -/

@[simp] theorem raise_phase (e : Event) : (s.raise e).phase = s.phase := by unfold raise; dsimp only; split <;> simp
@[simp] theorem raise_rstAsserted (e : Event) : (s.raise e).rstAsserted = s.rstAsserted := by unfold raise; dsimp only; split <;> simp
@[simp] theorem raise_resetCause (e : Event) : (s.raise e).resetCause = s.resetCause := by unfold raise; dsimp only; split <;> simp
@[simp] theorem raise_lineTime (e : Event) : (s.raise e).lineTime = s.lineTime := by unfold raise; dsimp only; split <;> simp
@[simp] theorem raise_micros (e : Event) : (s.raise e).micros = s.micros := by unfold raise; dsimp only; split <;> simp
@[simp] theorem raise_lanes (e : Event) : (s.raise e).lanes = s.lanes := by unfold raise; dsimp only; split <;> simp
@[simp] theorem raise_device (e : Event) : (s.raise e).device = s.device := by unfold raise; dsimp only; split <;> simp
@[simp] theorem raise_lines (e : Event) : (s.raise e).lines = s.lines := by unfold raise; dsimp only; split <;> simp
@[simp] theorem raise_millTripLatch (e : Event) : (s.raise e).millTripLatch = s.millTripLatch := by unfold raise; dsimp only; split <;> simp
@[simp] theorem raise_trace (e : Event) : (s.raise e).trace = s.trace := by unfold raise; dsimp only; split <;> simp
@[simp] theorem raise_gapPending (e : Event) : (s.raise e).gapPending = s.gapPending := by unfold raise; dsimp only; split <;> simp
@[simp] theorem raise_statusDue (e : Event) : (s.raise e).statusDue = s.statusDue := by unfold raise; dsimp only; split <;> simp
@[simp] theorem raise_store (e : Event) : (s.raise e).store = s.store := by unfold raise; dsimp only; split <;> simp
@[simp] theorem raise_choices (e : Event) : (s.raise e).choices = s.choices := by unfold raise; dsimp only; split <;> simp
@[simp] theorem raise_held (e : Event) : (s.raise e).held = s.held := by unfold raise; dsimp only; split <;> simp
@[simp] theorem raise_pending (e : Event) : (s.raise e).pending = s.pending := by unfold raise; dsimp only; split <;> simp

/-! ### addTrace -/

@[simp] theorem addTrace_phase (l : LaneId) (d : TraceDraft) : (s.addTrace l d).phase = s.phase := by
  unfold addTrace; dsimp only; split
  · split
    · simp
    · split <;> simp
  · rfl
@[simp] theorem addTrace_rstAsserted (l : LaneId) (d : TraceDraft) : (s.addTrace l d).rstAsserted = s.rstAsserted := by
  unfold addTrace; dsimp only; split
  · split
    · simp
    · split <;> simp
  · rfl
@[simp] theorem addTrace_resetCause (l : LaneId) (d : TraceDraft) : (s.addTrace l d).resetCause = s.resetCause := by
  unfold addTrace; dsimp only; split
  · split
    · simp
    · split <;> simp
  · rfl
@[simp] theorem addTrace_lineTime (l : LaneId) (d : TraceDraft) : (s.addTrace l d).lineTime = s.lineTime := by
  unfold addTrace; dsimp only; split
  · split
    · simp
    · split <;> simp
  · rfl
@[simp] theorem addTrace_micros (l : LaneId) (d : TraceDraft) : (s.addTrace l d).micros = s.micros := by
  unfold addTrace; dsimp only; split
  · split
    · simp
    · split <;> simp
  · rfl
@[simp] theorem addTrace_lanes (l : LaneId) (d : TraceDraft) : (s.addTrace l d).lanes = s.lanes := by
  unfold addTrace; dsimp only; split
  · split
    · simp
    · split <;> simp
  · rfl
@[simp] theorem addTrace_device (l : LaneId) (d : TraceDraft) : (s.addTrace l d).device = s.device := by
  unfold addTrace; dsimp only; split
  · split
    · simp
    · split <;> simp
  · rfl
@[simp] theorem addTrace_lines (l : LaneId) (d : TraceDraft) : (s.addTrace l d).lines = s.lines := by
  unfold addTrace; dsimp only; split
  · split
    · simp
    · split <;> simp
  · rfl
@[simp] theorem addTrace_millTripLatch (l : LaneId) (d : TraceDraft) : (s.addTrace l d).millTripLatch = s.millTripLatch := by
  unfold addTrace; dsimp only; split
  · split
    · simp
    · split <;> simp
  · rfl
@[simp] theorem addTrace_statusDue (l : LaneId) (d : TraceDraft) : (s.addTrace l d).statusDue = s.statusDue := by
  unfold addTrace; dsimp only; split
  · split
    · simp
    · split <;> simp
  · rfl
@[simp] theorem addTrace_store (l : LaneId) (d : TraceDraft) : (s.addTrace l d).store = s.store := by
  unfold addTrace; dsimp only; split
  · split
    · simp
    · split <;> simp
  · rfl
@[simp] theorem addTrace_choices (l : LaneId) (d : TraceDraft) : (s.addTrace l d).choices = s.choices := by
  unfold addTrace; dsimp only; split
  · split
    · simp
    · split <;> simp
  · rfl
@[simp] theorem addTrace_held (l : LaneId) (d : TraceDraft) : (s.addTrace l d).held = s.held := by
  unfold addTrace; dsimp only; split
  · split
    · simp
    · split <;> simp
  · rfl
@[simp] theorem addTrace_pending (l : LaneId) (d : TraceDraft) : (s.addTrace l d).pending = s.pending := by
  unfold addTrace; dsimp only; split
  · split
    · simp
    · split <;> simp
  · rfl

/-! ### effect -/

@[simp] theorem effect_phase (l : LaneId) (e : Effect) : (State.effect l s e).phase = s.phase := by cases e <;> simp [effect]
@[simp] theorem effect_rstAsserted (l : LaneId) (e : Effect) : (State.effect l s e).rstAsserted = s.rstAsserted := by cases e <;> simp [effect]
@[simp] theorem effect_resetCause (l : LaneId) (e : Effect) : (State.effect l s e).resetCause = s.resetCause := by cases e <;> simp [effect]
@[simp] theorem effect_lineTime (l : LaneId) (e : Effect) : (State.effect l s e).lineTime = s.lineTime := by cases e <;> simp [effect]
@[simp] theorem effect_micros (l : LaneId) (e : Effect) : (State.effect l s e).micros = s.micros := by cases e <;> simp [effect]
@[simp] theorem effect_lanes (l : LaneId) (e : Effect) : (State.effect l s e).lanes = s.lanes := by cases e <;> simp [effect]
@[simp] theorem effect_device (l : LaneId) (e : Effect) : (State.effect l s e).device = s.device := by cases e <;> simp [effect]
@[simp] theorem effect_lines (l : LaneId) (e : Effect) : (State.effect l s e).lines = s.lines := by cases e <;> simp [effect]
@[simp] theorem effect_millTripLatch (l : LaneId) (e : Effect) : (State.effect l s e).millTripLatch = s.millTripLatch := by cases e <;> simp [effect]
@[simp] theorem effect_statusDue (l : LaneId) (e : Effect) : (State.effect l s e).statusDue = s.statusDue := by cases e <;> simp [effect]
@[simp] theorem effect_store (l : LaneId) (e : Effect) : (State.effect l s e).store = s.store := by cases e <;> simp [effect]
@[simp] theorem effect_choices (l : LaneId) (e : Effect) : (State.effect l s e).choices = s.choices := by cases e <;> simp [effect]
@[simp] theorem effect_held (l : LaneId) (e : Effect) : (State.effect l s e).held = s.held := by cases e <;> simp [effect]
@[simp] theorem effect_pending (l : LaneId) (e : Effect) : (State.effect l s e).pending = s.pending := by cases e <;> simp [effect]

/-! ### commit -/

@[simp] theorem commit_phase (l : LaneId) (es : List Effect) : (s.commit l es).phase = s.phase := by
  unfold commit; induction es generalizing s with
  | nil => rfl
  | cons e es ih => simp [ih]
@[simp] theorem commit_rstAsserted (l : LaneId) (es : List Effect) : (s.commit l es).rstAsserted = s.rstAsserted := by
  unfold commit; induction es generalizing s with
  | nil => rfl
  | cons e es ih => simp [ih]
@[simp] theorem commit_resetCause (l : LaneId) (es : List Effect) : (s.commit l es).resetCause = s.resetCause := by
  unfold commit; induction es generalizing s with
  | nil => rfl
  | cons e es ih => simp [ih]
@[simp] theorem commit_lineTime (l : LaneId) (es : List Effect) : (s.commit l es).lineTime = s.lineTime := by
  unfold commit; induction es generalizing s with
  | nil => rfl
  | cons e es ih => simp [ih]
@[simp] theorem commit_micros (l : LaneId) (es : List Effect) : (s.commit l es).micros = s.micros := by
  unfold commit; induction es generalizing s with
  | nil => rfl
  | cons e es ih => simp [ih]
@[simp] theorem commit_lanes (l : LaneId) (es : List Effect) : (s.commit l es).lanes = s.lanes := by
  unfold commit; induction es generalizing s with
  | nil => rfl
  | cons e es ih => simp [ih]
@[simp] theorem commit_device (l : LaneId) (es : List Effect) : (s.commit l es).device = s.device := by
  unfold commit; induction es generalizing s with
  | nil => rfl
  | cons e es ih => simp [ih]
@[simp] theorem commit_lines (l : LaneId) (es : List Effect) : (s.commit l es).lines = s.lines := by
  unfold commit; induction es generalizing s with
  | nil => rfl
  | cons e es ih => simp [ih]
@[simp] theorem commit_millTripLatch (l : LaneId) (es : List Effect) : (s.commit l es).millTripLatch = s.millTripLatch := by
  unfold commit; induction es generalizing s with
  | nil => rfl
  | cons e es ih => simp [ih]
@[simp] theorem commit_statusDue (l : LaneId) (es : List Effect) : (s.commit l es).statusDue = s.statusDue := by
  unfold commit; induction es generalizing s with
  | nil => rfl
  | cons e es ih => simp [ih]
@[simp] theorem commit_store (l : LaneId) (es : List Effect) : (s.commit l es).store = s.store := by
  unfold commit; induction es generalizing s with
  | nil => rfl
  | cons e es ih => simp [ih]
@[simp] theorem commit_choices (l : LaneId) (es : List Effect) : (s.commit l es).choices = s.choices := by
  unfold commit; induction es generalizing s with
  | nil => rfl
  | cons e es ih => simp [ih]
@[simp] theorem commit_held (l : LaneId) (es : List Effect) : (s.commit l es).held = s.held := by
  unfold commit; induction es generalizing s with
  | nil => rfl
  | cons e es ih => simp [ih]
@[simp] theorem commit_pending (l : LaneId) (es : List Effect) : (s.commit l es).pending = s.pending := by
  unfold commit; induction es generalizing s with
  | nil => rfl
  | cons e es ih => simp [ih]

end Sys2Proof.Machine.State
end

