-- ==== Sys2Proof/Laws/Belt.lean ====
section
/-! SUPPORT. What the acts on a lane's parcels leave alone: the belt, the configuration, the lane state
and the receivers; and which of them can make a parcel FIRING. -/

namespace Sys2Proof.Machine

/-! ## Combinators -/

@[simp] theorem quiet_lane (ln : Lane) : ln.quiet.lane = ln := rfl
@[simp] theorem quiet_effects (ln : Lane) : ln.quiet.effects = [] := rfl
@[simp] theorem andThen_lane (o : LaneOut) (f : Lane → LaneOut) : (o.andThen f).lane = (f o.lane).lane := rfl
@[simp] theorem withLots_lane (ln : Lane) (o : LotOut) : (ln.withLots o).lane = { ln with lots := o.unit } := rfl
@[simp] theorem withClosing_lane (env : LaneEnv) (f : Lane → LaneOut) (ln : Lane) :
    (withClosing env f ln).lane = closeColumns env ln (f ln).lane := rfl

/-- A property that every act keeps is kept by acts run one after another. -/
theorem foldl_andThen_keeps {α : Type} {Φ : Lane → Prop} {f : α → Lane → LaneOut}
    (h : ∀ x ln, Φ ln → Φ (f x ln).lane) (xs : List α) (o : LaneOut) (ho : Φ o.lane) :
    Φ (xs.foldl (fun o x => o.andThen (f x)) o).lane := by
  induction xs generalizing o with
  | nil => exact ho
  | cons x xs ih => exact ih _ (h x _ ho)

/-- A property that every act keeps is kept by runEach. -/
theorem runEach_keeps {α : Type} {Φ : Lane → Prop} {f : α → Lane → LaneOut}
    (h : ∀ x ln, Φ ln → Φ (f x ln).lane) (xs : List α) (ln : Lane) (hl : Φ ln) :
    Φ (runEach f xs ln).lane := foldl_andThen_keeps h xs _ hl

/-! ## What parcels' acts leave alone -/

/-- Two lanes agree on everything but the parcels, the stations, the lots and the test tally. -/
structure Lane.SameBelt (a b : Lane) : Prop where
  cfg : b.cfg = a.cfg
  tb : b.tb = a.tb
  state : b.state = a.state
  haltCause : b.haltCause = a.haltCause
  injection : b.injection = a.injection
  receivers : b.receivers = a.receivers
  discarded : b.discarded = a.discarded
  hostHold : b.hostHold = a.hostHold

theorem Lane.SameBelt.refl (a : Lane) : a.SameBelt a := ⟨rfl, rfl, rfl, rfl, rfl, rfl, rfl, rfl⟩

theorem Lane.SameBelt.trans {a b c : Lane} (h : a.SameBelt b) (k : b.SameBelt c) : a.SameBelt c :=
  ⟨k.cfg.trans h.cfg, k.tb.trans h.tb, k.state.trans h.state, k.haltCause.trans h.haltCause,
    k.injection.trans h.injection, k.receivers.trans h.receivers, k.discarded.trans h.discarded,
    k.hostHold.trans h.hostHold⟩

theorem Lane.SameBelt.active {a b : Lane} (h : a.SameBelt b) : b.active = a.active := by
  simp [Lane.active, h.state]

theorem Lane.SameBelt.mayOpen {a b : Lane} (h : a.SameBelt b) (air : Bool) :
    b.mayOpen air = a.mayOpen air := by
  simp [Lane.mayOpen, Lane.reversing, Lane.active, h.state, h.tb]

/-- Acts that leave the belt alone do so one after another. -/
theorem runEach_sameBelt {α : Type} {f : α → Lane → LaneOut} (h : ∀ x (ln : Lane), ln.SameBelt (f x ln).lane)
    (xs : List α) (ln : Lane) : ln.SameBelt (runEach f xs ln).lane :=
  runEach_keeps (Φ := ln.SameBelt) (fun x _ hk => hk.trans (h x _)) xs ln (.refl ln)

theorem revise_sameBelt (ln : Lane) (s : Serial) (f : Parcel → Parcel) : ln.SameBelt (ln.revise s f) :=
  ⟨rfl, rfl, rfl, rfl, rfl, rfl, rfl, rfl⟩

theorem modStation_sameBelt (ln : Lane) (st : StationId) (f : Station → Station) :
    ln.SameBelt (ln.modStation st f) := ⟨rfl, rfl, rfl, rfl, rfl, rfl, rfl, rfl⟩

theorem leaveList_sameBelt (ln : Lane) (p : Parcel) : ln.SameBelt (ln.leaveList p) := by
  unfold Lane.leaveList
  split
  · exact modStation_sameBelt ln _ _
  · exact .refl ln

theorem drop_sameBelt (ln : Lane) (p : Parcel) : ln.SameBelt (ln.drop p) := by
  have h := leaveList_sameBelt ln p
  exact ⟨h.cfg, h.tb, h.state, h.haltCause, h.injection, h.receivers, h.discarded, h.hostHold⟩

theorem closeColumns_sameBelt (env : LaneEnv) (a b : Lane) : b.SameBelt (closeColumns env a b) :=
  ⟨rfl, rfl, rfl, rfl, rfl, rfl, rfl, rfl⟩

theorem removeParcel_sameBelt (env : LaneEnv) (s : Serial) (o : Outcome) (ln : Lane) :
    ln.SameBelt (removeParcel env s o ln).lane := by
  unfold removeParcel
  split
  · exact .refl ln
  · rename_i p _
    have h := drop_sameBelt ln p
    have mk : ∀ b : Lane, b.cfg = (ln.drop p).cfg → b.tb = (ln.drop p).tb → b.state = (ln.drop p).state →
        b.haltCause = (ln.drop p).haltCause → b.injection = (ln.drop p).injection →
        b.receivers = (ln.drop p).receivers → b.discarded = (ln.drop p).discarded →
        b.hostHold = (ln.drop p).hostHold → ln.SameBelt b := fun b a1 a2 a3 a4 a5 a6 a7 a8 =>
      h.trans ⟨a1, a2, a3, a4, a5, a6, a7, a8⟩
    split
    · exact mk _ rfl rfl rfl rfl rfl rfl rfl rfl
    · split
      · exact h
      · exact mk _ rfl rfl rfl rfl rfl rfl rfl rfl

theorem travel_sameBelt (env : LaneEnv) (p : Parcel) (f : Fraction) (o : Outcome) (ln : Lane) :
    ln.SameBelt (travel env p f o ln).lane := by
  unfold travel
  have h := (leaveList_sameBelt ln p).trans (revise_sameBelt (ln.leaveList p) p.serial
    fun q => { q with phase := .travelling f o })
  dsimp only
  split
  · exact h.trans (removeParcel_sameBelt env _ _ _)
  · exact h

theorem settleVerdict_sameBelt (env : LaneEnv) (p : Parcel) (f : Fraction) (v : Verdict) (ln : Lane) :
    ln.SameBelt (settleVerdict env p f v ln).lane := by
  unfold settleVerdict
  cases v with
  | scheduled aim w m => exact ⟨rfl, rfl, rfl, rfl, rfl, rfl, rfl, rfl⟩
  | _ => exact travel_sameBelt env p f _ ln

theorem classify_sameBelt (env : LaneEnv) (s : Serial) (ln : Lane) :
    ln.SameBelt (classify env s ln).lane := by
  unfold classify
  split
  · exact .refl ln
  · exact (revise_sameBelt ln _ _).trans (settleVerdict_sameBelt env _ _ _ _)

theorem classifyTest_sameBelt (env : LaneEnv) (p : Parcel) (st : StationId) (ln : Lane) :
    ln.SameBelt (classifyTest env p st ln).lane := settleVerdict_sameBelt env _ _ _ ln

theorem exits_sameBelt (env : LaneEnv) (ln : Lane) : ln.SameBelt (exits env ln).lane :=
  runEach_sameBelt (fun _ _ => removeParcel_sameBelt env _ _ _) _ ln

theorem fireStart_sameBelt (env : LaneEnv) (st : StationId) (e : ListEntry) (ln : Lane) :
    ln.SameBelt (fireStart env st e ln).lane := by
  unfold fireStart
  split
  · exact .refl ln
  · split
    · split
      · exact travel_sameBelt env _ _ _ ln
      · exact ⟨rfl, rfl, rfl, rfl, rfl, rfl, rfl, rfl⟩
    · exact .refl ln

theorem stationStarts_sameBelt (env : LaneEnv) (st : StationId) (ln : Lane) :
    ln.SameBelt (stationStarts env st ln).lane := runEach_sameBelt (fireStart_sameBelt env st) _ ln

theorem withClosing_sameBelt (env : LaneEnv) (f : Lane → LaneOut) (ln : Lane)
    (h : ln.SameBelt (f ln).lane) : ln.SameBelt (withClosing env f ln).lane :=
  h.trans (closeColumns_sameBelt env _ _)

theorem stationEnds_sameBelt (env : LaneEnv) (st : StationId) (ln : Lane) :
    ln.SameBelt (stationEnds env st ln).lane :=
  withClosing_sameBelt env _ ln (runEach_sameBelt (fun _ _ => removeParcel_sameBelt env _ _ _) _ ln)

theorem stationAdvance_sameBelt (env : LaneEnv) (st : StationId) (ln : Lane) :
    ln.SameBelt (stationAdvance env st ln).lane :=
  (stationStarts_sameBelt env st ln).trans (stationEnds_sameBelt env st _)

theorem endFiring_sameBelt (env : LaneEnv) (r : TraceReason) (o : Outcome) (p : Parcel) (ln : Lane) :
    ln.SameBelt (endFiring env r o p ln).lane := by
  unfold endFiring
  split
  · exact removeParcel_sameBelt env _ _ ln
  · exact .refl ln

theorem cutLane_sameBelt (env : LaneEnv) (r : TraceReason) (ln : Lane) :
    ln.SameBelt (cutLane env r ln).lane :=
  withClosing_sameBelt env _ ln (runEach_sameBelt (fun _ _ => endFiring_sameBelt env _ _ _ _) _ ln)

theorem endByMaxOpen_sameBelt (env : LaneEnv) (p : Parcel) (ln : Lane) :
    ln.SameBelt (endByMaxOpen env p ln).lane :=
  withClosing_sameBelt env _ ln (endFiring_sameBelt env _ _ p ln)

theorem formingAdvance_sameBelt (env : LaneEnv) (ln : Lane) : ln.SameBelt (formingAdvance env ln).lane :=
  runEach_sameBelt (classify_sameBelt env) _ ln

theorem stationOff_sameBelt (env : LaneEnv) (st : StationId) (p : Parcel) (ln : Lane) :
    ln.SameBelt (stationOff env st p ln).lane := by
  unfold stationOff
  split
  · exact endFiring_sameBelt env _ _ p ln
  · exact travel_sameBelt env p _ _ ln
  · exact .refl ln

/-! ## Which parcels fire -/

/-- No parcel of the lane is FIRING. -/
def Lane.NoFire (ln : Lane) : Prop := ∀ p ∈ ln.queue, p.isFiring = false

@[simp] theorem leaveList_queue (ln : Lane) (p : Parcel) : (ln.leaveList p).queue = ln.queue := by
  unfold Lane.leaveList; split <;> rfl

@[simp] theorem drop_queue (ln : Lane) (p : Parcel) :
    (ln.drop p).queue = ln.queue.filter (·.serial != p.serial) := rfl

@[simp] theorem closeColumns_queue (env : LaneEnv) (a b : Lane) : (closeColumns env a b).queue = b.queue := rfl

/-- A removal takes out the parcels of the serial and leaves the order of the rest (R11). -/
theorem removeParcel_queue (env : LaneEnv) (s : Serial) (o : Outcome) (ln : Lane) :
    (removeParcel env s o ln).lane.queue = ln.queue.filter (·.serial != s) := by
  unfold removeParcel
  split
  · rename_i h
    simp only [Lane.find, List.find?_eq_none] at h
    rw [quiet_lane, List.filter_eq_self.mpr]
    intro p hp
    have := h p hp
    simpa using this
  · rename_i p h
    have hs : p.serial = s := by simpa using List.find?_some h
    subst hs
    split
    · rfl
    · split <;> rfl

theorem NoFire.filter {ln b : Lane} (h : ln.NoFire) (q : Parcel → Bool) (hb : b.queue = ln.queue.filter q) :
    b.NoFire := by
  intro p hp
  rw [hb] at hp
  exact h p (List.mem_filter.mp hp).1

theorem removeParcel_noFire (env : LaneEnv) (s : Serial) (o : Outcome) (ln : Lane) (h : ln.NoFire) :
    (removeParcel env s o ln).lane.NoFire := NoFire.filter h _ (removeParcel_queue env s o ln)

/-- Revising a parcel to one that does not fire makes nothing fire. -/
theorem revise_noFire {ln : Lane} (s : Serial) (f : Parcel → Parcel)
    (hf : ∀ q, q.isFiring = false → (f q).isFiring = false) (h : ln.NoFire) : (ln.revise s f).NoFire := by
  intro p hp
  simp only [Lane.revise, List.mem_map] at hp
  obtain ⟨q, hq, rfl⟩ := hp
  split
  · exact hf q (h q hq)
  · exact h q hq

theorem travel_noFire (env : LaneEnv) (p : Parcel) (f : Fraction) (o : Outcome) (ln : Lane) (h : ln.NoFire) :
    (travel env p f o ln).lane.NoFire := by
  unfold travel
  have h1 : (ln.leaveList p).NoFire := by
    intro q hq
    rw [leaveList_queue] at hq
    exact h q hq
  have h2 := revise_noFire (ln := ln.leaveList p) p.serial (fun q => { q with phase := .travelling f o })
    (fun _ _ => rfl) h1
  dsimp only
  split
  · exact removeParcel_noFire env _ _ _ h2
  · exact h2

theorem settleVerdict_noFire (env : LaneEnv) (p : Parcel) (f : Fraction) (v : Verdict) (ln : Lane)
    (h : ln.NoFire) : (settleVerdict env p f v ln).lane.NoFire := by
  unfold settleVerdict
  cases v with
  | scheduled aim w m =>
    exact revise_noFire (ln := ln) p.serial (fun q => { q with phase := .scheduled aim }) (fun _ _ => rfl) h
  | _ => exact travel_noFire env p f _ ln h

theorem classify_noFire (env : LaneEnv) (s : Serial) (ln : Lane) (h : ln.NoFire) :
    (classify env s ln).lane.NoFire := by
  unfold classify
  split
  · exact h
  · exact settleVerdict_noFire env _ _ _ _ (revise_noFire (ln := ln) _ _ (fun _ hq => hq) h)

theorem exits_noFire (env : LaneEnv) (ln : Lane) (h : ln.NoFire) : (exits env ln).lane.NoFire :=
  runEach_keeps (fun _ _ hl => removeParcel_noFire env _ _ _ hl) _ ln h

theorem endFiring_noFire (env : LaneEnv) (r : TraceReason) (o : Outcome) (p : Parcel) (ln : Lane)
    (h : ln.NoFire) : (endFiring env r o p ln).lane.NoFire := by
  unfold endFiring
  split
  · exact removeParcel_noFire env _ _ ln h
  · exact h

theorem formingAdvance_noFire (env : LaneEnv) (ln : Lane) (h : ln.NoFire) :
    (formingAdvance env ln).lane.NoFire := runEach_keeps (classify_noFire env) _ ln h

theorem stationOff_noFire (env : LaneEnv) (st : StationId) (p : Parcel) (ln : Lane) (h : ln.NoFire) :
    (stationOff env st p ln).lane.NoFire := by
  unfold stationOff
  split
  · exact endFiring_noFire env _ _ p ln h
  · exact travel_noFire env p _ _ ln h
  · exact h

theorem stationEnds_noFire (env : LaneEnv) (st : StationId) (ln : Lane) (h : ln.NoFire) :
    (stationEnds env st ln).lane.NoFire :=
  runEach_keeps (Φ := Lane.NoFire) (fun _ _ hl => removeParcel_noFire env _ _ _ hl) _ ln h

/-- A removal of each firing parcel, whatever is removed besides, leaves none firing. -/
theorem cutLane_noFire (env : LaneEnv) (r : TraceReason) (ln : Lane) : (cutLane env r ln).lane.NoFire := by
  unfold cutLane
  suffices h : ∀ (xs : List Parcel), (∀ p ∈ xs, p.isFiring = true) → ∀ x : Lane,
      (∀ q ∈ x.queue, q.isFiring = true → ∃ p ∈ xs, p.serial = q.serial) →
      (runEach (endFiring env r .cut) xs x).lane.NoFire by
    refine h _ ?_ ln ?_
    · intro p hp
      exact (List.mem_filter.mp hp).2
    · intro q hq hf
      exact ⟨q, List.mem_filter.mpr ⟨hq, hf⟩, rfl⟩
  intro xs hxs x hx
  unfold runEach
  suffices h : ∀ (o : LaneOut), (∀ q ∈ o.lane.queue, q.isFiring = true → ∃ p ∈ xs, p.serial = q.serial) →
      (xs.foldl (fun o p => o.andThen (endFiring env r .cut p)) o).lane.NoFire from h _ hx
  clear hx
  induction xs with
  | nil =>
    intro o ho p hp
    by_contra hc
    obtain ⟨_, h0, _⟩ := ho p hp (by simpa using hc)
    cases h0
  | cons p ps ih =>
    intro o ho
    refine ih (fun q hq => hxs q (List.mem_cons_of_mem _ hq)) _ ?_
    intro q hq hf
    have hpf := hxs p (List.mem_cons_self ..)
    have hqueue : ((o.andThen (endFiring env r .cut p)).lane).queue =
        o.lane.queue.filter (·.serial != p.serial) := by
      rw [andThen_lane]
      unfold endFiring
      unfold Parcel.isFiring at hpf
      split
      · rw [andThen_lane, removeParcel_queue]
      · rename_i hne
        split at hpf
        · rename_i aim shot hph
          exact absurd hph (hne aim shot)
        · cases hpf
    rw [hqueue, List.mem_filter] at hq
    obtain ⟨p', hp', hs⟩ := ho q hq.1 hf
    rcases List.mem_cons.mp hp' with rfl | hmem
    · simp [hs] at hq
    · exact ⟨p', hmem, hs⟩

end Sys2Proof.Machine
end

