-- ==== Sys2Proof/Laws/Rest.lean ====
section
/-! SUPPORT. What a flush, a halt and a lane's step leave; and that every act of a lane's blocks keeps the
lane settled, with no parcel FIRING where the lane may not have columns open. -/

namespace Sys2Proof.Machine

/-! ## Works in any order -/

/-- The order in which the works are done holds each of them and no other. -/
theorem mem_arrange {α : Type} (pick : Nat → Nat) (n : Nat) (xs : List α) (x : α) :
    x ∈ arrange pick n xs ↔ x ∈ xs := by
  induction n generalizing xs with
  | zero => rfl
  | succ n ih =>
    match xs with
    | [] => rfl
    | [y] => rfl
    | y :: z :: zs =>
      have hi : pick n % (y :: z :: zs).length < (y :: z :: zs).length := Nat.mod_lt _ (by simp)
      have key : ∀ (all : List α) (i : Nat), i < all.length →
          (x ∈ (all.drop i).take 1 ++ arrange pick n (all.take i ++ all.drop (i + 1)) ↔ x ∈ all) := by
        intro all i hi
        rw [List.mem_append, ih, List.mem_append]
        have h1 : all = all.take i ++ ((all.drop i).take 1 ++ all.drop (i + 1)) := by
          have h2 : (all.drop i).take 1 ++ all.drop (i + 1) = all.drop i := by
            rw [show all.drop (i + 1) = (all.drop i).drop 1 by rw [List.drop_drop]]
            exact List.take_append_drop 1 _
          rw [h2, List.take_append_drop]
        conv_rhs => rw [h1]
        simp only [List.mem_append]
        tauto
      exact key _ _ hi

/-- What one member of a list establishes and every member keeps holds at the end. -/
theorem runEach_establishes {α : Type} {Φ Ψ : Lane → Prop} {f : α → Lane → LaneOut} {xs : List α} {x : α}
    (hx : x ∈ xs) (hΨ : ∀ y ∈ xs, ∀ ln, Ψ ln → Ψ (f y ln).lane)
    (hΦ : ∀ y ∈ xs, ∀ ln, Ψ ln → Φ ln → Φ (f y ln).lane) (he : ∀ ln, Ψ ln → Φ (f x ln).lane)
    {ln : Lane} (h : Ψ ln) : Φ (runEach f xs ln).lane ∧ Ψ (runEach f xs ln).lane := by
  have keep : ∀ (ys : List α), (∀ y ∈ ys, y ∈ xs) → ∀ o : LaneOut, Ψ o.lane ∧ Φ o.lane →
      Ψ (ys.foldl (fun o x => o.andThen (f x)) o).lane ∧ Φ (ys.foldl (fun o x => o.andThen (f x)) o).lane := by
    intro ys
    induction ys with
    | nil => exact fun _ _ h => h
    | cons y ys ih =>
      intro hm o ho
      have hy := hm y (List.mem_cons_self ..)
      exact ih (fun z hz => hm z (List.mem_cons_of_mem _ hz)) _
        ⟨hΨ y hy _ ho.1, hΦ y hy _ ho.1 ho.2⟩
  have go : ∀ (ys : List α), (∀ y ∈ ys, y ∈ xs) → x ∈ ys → ∀ o : LaneOut, Ψ o.lane →
      Ψ (ys.foldl (fun o x => o.andThen (f x)) o).lane ∧ Φ (ys.foldl (fun o x => o.andThen (f x)) o).lane := by
    intro ys
    induction ys with
    | nil => intro _ h; cases h
    | cons y ys ih =>
      intro hm hmem o ho
      have hy := hm y (List.mem_cons_self ..)
      have hys := fun z hz => hm z (List.mem_cons_of_mem _ hz)
      rcases List.mem_cons.mp hmem with rfl | hmem
      · exact keep ys hys _ ⟨hΨ _ hy _ ho, he _ ho⟩
      · exact ih hys hmem _ (hΨ y hy _ ho)
  exact (go xs (fun _ h => h) hx _ h).symm

/-- What every member of a list keeps is kept. -/
theorem runEach_keeps_mem {α : Type} {Φ : Lane → Prop} {f : α → Lane → LaneOut} (xs : List α)
    (h : ∀ x ∈ xs, ∀ ln, Φ ln → Φ (f x ln).lane) (ln : Lane) (hl : Φ ln) : Φ (runEach f xs ln).lane := by
  unfold runEach
  suffices ∀ o : LaneOut, Φ o.lane → Φ (xs.foldl (fun o x => o.andThen (f x)) o).lane from this _ hl
  induction xs with
  | nil => exact fun _ h => h
  | cons x xs ih =>
    exact fun o ho => ih (fun y hy => h y (List.mem_cons_of_mem _ hy)) _ (h x (List.mem_cons_self ..) _ ho)

/-! ## The flush (R22, R122) -/

/-- What a flush leaves alone. -/
structure Lane.SameRun (a b : Lane) : Prop where
  cfg : b.cfg = a.cfg
  tb : b.tb = a.tb
  state : b.state = a.state
  haltCause : b.haltCause = a.haltCause
  injection : b.injection = a.injection
  receivers : b.receivers = a.receivers
  discarded : b.discarded = a.discarded
  hostHold : b.hostHold = a.hostHold
  nextSerial : b.nextSerial = a.nextSerial
  skipped : b.skipped = a.skipped

theorem Lane.SameRun.refl (a : Lane) : a.SameRun a := ⟨rfl, rfl, rfl, rfl, rfl, rfl, rfl, rfl, rfl, rfl⟩

theorem Lane.SameRun.trans {a b c : Lane} (h : a.SameRun b) (k : b.SameRun c) : a.SameRun c :=
  ⟨k.cfg.trans h.cfg, k.tb.trans h.tb, k.state.trans h.state, k.haltCause.trans h.haltCause,
    k.injection.trans h.injection, k.receivers.trans h.receivers, k.discarded.trans h.discarded,
    k.hostHold.trans h.hostHold, k.nextSerial.trans h.nextSerial, k.skipped.trans h.skipped⟩

theorem drop_sameRun (ln : Lane) (p : Parcel) : ln.SameRun (ln.drop p) := by
  have h : ln.SameRun (ln.leaveList p) := by
    unfold Lane.leaveList
    split
    · exact ⟨rfl, rfl, rfl, rfl, rfl, rfl, rfl, rfl, rfl, rfl⟩
    · exact .refl ln
  exact ⟨h.cfg, h.tb, h.state, h.haltCause, h.injection, h.receivers, h.discarded, h.hostHold,
    h.nextSerial, h.skipped⟩

theorem loseParcel_sameRun (env : LaneEnv) (ln : Lane) (s : Serial) : ln.SameRun (loseParcel env ln s) := by
  unfold loseParcel
  split
  · exact .refl ln
  · rename_i p _
    have h := drop_sameRun ln p
    split
    · exact h.trans ⟨rfl, rfl, rfl, rfl, rfl, rfl, rfl, rfl, rfl, rfl⟩
    · split
      · exact h
      · exact h.trans ⟨rfl, rfl, rfl, rfl, rfl, rfl, rfl, rfl, rfl, rfl⟩

/-- A loss takes the parcels of the serial out of the queue. -/
theorem loseParcel_queue (env : LaneEnv) (ln : Lane) (s : Serial) :
    (loseParcel env ln s).queue = ln.queue.filter (·.serial != s) := by
  unfold loseParcel
  split
  · rename_i h
    simp only [Lane.find, List.find?_eq_none] at h
    rw [List.filter_eq_self.mpr]
    intro p hp
    simpa using h p hp
  · rename_i p h
    have hs : p.serial = s := by simpa using List.find?_some h
    subst hs
    split
    · rfl
    · split <;> rfl

theorem loseAll_sameRun (env : LaneEnv) (ln : Lane) : ln.SameRun (loseAll env ln) := by
  have : ∀ (xs : List Serial) (x : Lane), ln.SameRun x → ln.SameRun (xs.foldl (loseParcel env) x) := by
    intro xs
    induction xs with
    | nil => exact fun _ h => h
    | cons s xs ih => exact fun x h => ih _ (h.trans (loseParcel_sameRun env x s))
  have h := this (ln.queue.map (·.serial)) ln (.refl ln)
  exact ⟨h.cfg, h.tb, h.state, h.haltCause, h.injection, h.receivers, h.discarded, h.hostHold,
    h.nextSerial, h.skipped⟩

/-- After the losses the queue is empty. -/
theorem loseAll_queue (env : LaneEnv) (ln : Lane) : (loseAll env ln).queue = [] := by
  have : ∀ (xs : List Serial) (x : Lane), (∀ p ∈ x.queue, p.serial ∈ xs) →
      (xs.foldl (loseParcel env) x).queue = [] := by
    intro xs
    induction xs with
    | nil =>
      intro x h
      exact List.eq_nil_iff_forall_not_mem.mpr fun p hp => List.not_mem_nil (h p hp)
    | cons s xs ih =>
      intro x h
      refine ih _ fun p hp => ?_
      rw [loseParcel_queue, List.mem_filter] at hp
      rcases List.mem_cons.mp (h p hp.1) with he | hm
      · simp [he] at hp
      · exact hm
  exact this _ ln fun p hp => List.mem_map.mpr ⟨p, hp, rfl⟩

/-- What coming to rest leaves: Pmax at P and no pending scale; the scale and the residue apart, the rest as
it was (R28, R31). -/
theorem rest_lane (ln : Lane) :
    ln.rest.queue = ln.queue ∧ ln.rest.injection = ln.injection ∧
    ln.rest.tb.pendingSwitch = ln.tb.pendingSwitch ∧ ln.rest.tb.pendingScale = none ∧
    ln.rest.tb.pmax = ln.tb.p ∧ ln.rest.tb.p = ln.tb.p ∧ ln.rest.state = ln.state ∧
    ln.rest.haltCause = ln.haltCause ∧ ln.rest.cfg.geometry = ln.cfg.geometry ∧
    ln.rest.cfg.setup = ln.cfg.setup ∧ ln.rest.nextSerial = ln.nextSerial ∧
    ln.rest.receivers = ln.receivers ∧ ln.rest.discarded = ln.discarded ∧ ln.rest.lots = ln.lots := by
  unfold Lane.rest Lane.takeScale
  split
  · rename_i h
    exact ⟨rfl, rfl, rfl, h, rfl, rfl, rfl, rfl, rfl, rfl, rfl, rfl, rfl, rfl⟩
  · exact ⟨rfl, rfl, rfl, rfl, rfl, rfl, rfl, rfl, rfl, rfl, rfl, rfl, rfl, rfl⟩

/-- What a flush leaves: an empty queue, no injection, no pending switch, no pending scale, Pmax at P; the
state, the geometry, P, the serials and the receivers as they were (R22, R28, R31, R122, R129). -/
theorem flush_lane (env : LaneEnv) (ln : Lane) :
    (flush env ln).lane.queue = [] ∧ (flush env ln).lane.injection = none ∧
    (flush env ln).lane.tb.pendingSwitch = none ∧ (flush env ln).lane.tb.pendingScale = none ∧
    (flush env ln).lane.tb.pmax = ln.tb.p ∧ (flush env ln).lane.tb.p = ln.tb.p ∧
    (flush env ln).lane.state = ln.state ∧ (flush env ln).lane.haltCause = ln.haltCause ∧
    (flush env ln).lane.cfg.geometry = ln.cfg.geometry ∧ (flush env ln).lane.cfg.setup = ln.cfg.setup ∧
    (flush env ln).lane.nextSerial = ln.nextSerial ∧ (flush env ln).lane.receivers = ln.receivers ∧
    (flush env ln).lane.discarded = ln.discarded := by
  have hq := loseAll_queue env { ln with injection := none }
  have hs := loseAll_sameRun env { ln with injection := none }
  obtain ⟨h1, h2, h3, h4, h5, h6, h7, h8, h9, h10, h11, h12, h13, _⟩ := rest_lane (Lane.dropSwitch
    { loseAll env { ln with injection := none } with
      lots := ((loseAll env { ln with injection := none }).lots.settle env.id env.now).unit })
  have hp : (loseAll env { ln with injection := none }).tb.p = ln.tb.p := congrArg Timebase.p hs.tb
  exact ⟨h1.trans hq, h2.trans hs.injection, h3, h4, h5.trans hp, h6.trans hp, h7.trans hs.state, h8.trans hs.haltCause,
    h9.trans (congrArg LaneConfig.geometry hs.cfg), h10.trans (congrArg LaneConfig.setup hs.cfg),
    h11.trans hs.nextSerial, h12.trans hs.receivers, h13.trans hs.discarded⟩

/-- What a halt of a lane that runs or drains leaves (R121, R122). -/
theorem halt_lane (cause : HaltCause) (env : LaneEnv) (ln : Lane) (ha : ln.active = true) :
    (halt cause env ln).lane.state = .halted ∧ (halt cause env ln).lane.haltCause = cause ∧
    (halt cause env ln).lane.queue = [] ∧ (halt cause env ln).lane.injection = none ∧
    (halt cause env ln).lane.tb.pendingSwitch = none ∧ (halt cause env ln).lane.tb.pendingScale = none ∧
    (halt cause env ln).lane.tb.p = ln.tb.p ∧ (halt cause env ln).lane.tb.pmax = ln.tb.p ∧
    (halt cause env ln).lane.nextSerial = ln.nextSerial ∧
    (halt cause env ln).lane.cfg.geometry = ln.cfg.geometry := by
  unfold halt
  rw [if_pos ha]
  obtain ⟨h1, h2, h3, h4, h5, h6, h7, h8, h9, _, h11, _⟩ :=
    flush_lane env { ln with state := .halted, haltCause := cause }
  exact ⟨h7, h8, h1, h2, h3, h4, h6, h5, h11, h9⟩

/-- A halt leaves a lane at rest as it is (R121). -/
theorem halt_rest (cause : HaltCause) (env : LaneEnv) (ln : Lane) (ha : ln.active = false) :
    halt cause env ln = ln.quiet := by
  simp [halt, ha]

/-! ## What the settled and safe lanes depend on -/

theorem Lane.active_of_running {ln : Lane} (h : ln.state = .running) : ln.active = true := by
  simp [Lane.active, h]

/-- The part of `settled` that does not speak of how far P lies below Pmax. -/
def Lane.orderly (ln : Lane) : Prop :=
  (ln.state ≠ .running → ln.injection = none ∧ ln.tb.pendingSwitch = none) ∧
  (ln.active = false → ln.queue = [] ∧ ln.tb.pmax = ln.tb.p ∧ ln.tb.pendingScale = none) ∧
  ln.cfg.geometry.reverseLimit ≤ maxReverseLimit

theorem settled_iff (ln : Lane) :
    ln.settled ↔ ln.orderly ∧ (ln.tb.pmax - ln.tb.p).toNat ≤ maxReverseLimit := by
  unfold Lane.settled Lane.orderly
  tauto

/-- A lane at rest that is orderly is settled. -/
theorem Lane.orderly.settled {ln : Lane} (h : ln.orderly) (ha : ln.active = false) : ln.settled := by
  refine (settled_iff ln).mpr ⟨h, ?_⟩
  rw [(h.2.1 ha).2.1, BitVec.sub_self]
  simp

/-- A lane that is not FIRING anything is safe. -/
theorem Lane.NoFire.safe {ln : Lane} (h : ln.NoFire) (air : Bool) : ln.safe air := fun _ => h

theorem NoFire_of_empty {ln : Lane} (h : ln.queue = []) : ln.NoFire := by
  intro p hp
  rw [h] at hp
  cases hp

/-- Two lanes of one state, source of motion and queue: what an act outside the belt leaves. -/
theorem Lane.settled.same {a b : Lane} (h : a.settled) (hs : b.state = a.state)
    (hi : b.injection = a.injection) (hq : b.queue = a.queue) (hw : b.tb.pendingSwitch = a.tb.pendingSwitch)
    (hk : b.tb.pendingScale = a.tb.pendingScale) (hp : b.tb.p = a.tb.p) (hm : b.tb.pmax = a.tb.pmax)
    (hg : b.cfg.geometry.reverseLimit = a.cfg.geometry.reverseLimit) : b.settled := by
  obtain ⟨h1, h2, h3, h4⟩ := h
  refine ⟨?_, ?_, ?_, ?_⟩
  · rw [hs, hi, hw]; exact h1
  · unfold Lane.active at *
    rw [hs, hq, hm, hp, hk]; exact h2
  · rw [hm, hp]; exact h3
  · rw [hg]; exact h4

theorem mayOpen_congr {a b : Lane} {air : Bool} (hs : b.state = a.state) (hp : b.tb.p = a.tb.p)
    (hm : b.tb.pmax = a.tb.pmax) : b.mayOpen air = a.mayOpen air := by
  simp [Lane.mayOpen, Lane.reversing, Lane.active, hs, hp, hm]

theorem Lane.safe.same {a b : Lane} {air : Bool} (h : a.safe air) (hs : b.state = a.state)
    (hq : b.queue = a.queue) (hp : b.tb.p = a.tb.p) (hm : b.tb.pmax = a.tb.pmax) : b.safe air := by
  unfold Lane.safe
  rw [mayOpen_congr hs hp hm, hq]
  exact h

/-- An act on the parcels of a lane: the belt as it was, an empty queue left empty, and nothing made
FIRING where the lane may not have columns open. -/
structure Lane.Tame (air : Bool) (a b : Lane) : Prop where
  belt : a.SameBelt b
  empty : a.queue = [] → b.queue = []
  fire : a.mayOpen air = false → a.NoFire → b.NoFire

theorem Lane.Tame.refl (air : Bool) (a : Lane) : a.Tame air a := ⟨.refl a, fun h => h, fun _ h => h⟩

theorem Lane.Tame.trans {air : Bool} {a b c : Lane} (h : a.Tame air b) (k : b.Tame air c) : a.Tame air c :=
  ⟨h.belt.trans k.belt, fun e => k.empty (h.empty e), fun m n =>
    k.fire (by rw [h.belt.mayOpen]; exact m) (h.fire m n)⟩

theorem Lane.Tame.orderly {air : Bool} {a b : Lane} (t : a.Tame air b) (h : a.orderly) : b.orderly := by
  obtain ⟨h1, h2, h3⟩ := h
  refine ⟨?_, ?_, ?_⟩
  · rw [t.belt.state, t.belt.injection, t.belt.tb]; exact h1
  · intro ha
    have := h2 (by rw [← t.belt.active]; exact ha)
    rw [t.belt.tb]
    exact ⟨t.empty this.1, this.2⟩
  · rw [t.belt.cfg]; exact h3

theorem Lane.Tame.settled {air : Bool} {a b : Lane} (t : a.Tame air b) (h : a.settled) : b.settled := by
  rw [settled_iff] at *
  exact ⟨t.orderly h.1, by rw [t.belt.tb]; exact h.2⟩

theorem Lane.Tame.safe {air : Bool} {a b : Lane} (t : a.Tame air b) (h : a.safe air) : b.safe air := by
  intro hm
  have hm' : a.mayOpen air = false := by rw [← t.belt.mayOpen]; exact hm
  exact t.fire hm' (h hm')

/-- Tame acts one after another are a tame act. -/
theorem runEach_tame {α : Type} {air : Bool} {f : α → Lane → LaneOut}
    (h : ∀ x (ln : Lane), ln.Tame air (f x ln).lane) (xs : List α) (ln : Lane) :
    ln.Tame air (runEach f xs ln).lane :=
  runEach_keeps (Φ := ln.Tame air) (fun x _ hk => hk.trans (h x _)) xs ln (.refl air ln)

/-! ## The tame acts -/

theorem removeParcel_tame (air : Bool) (env : LaneEnv) (s : Serial) (o : Outcome) (ln : Lane) :
    ln.Tame air (removeParcel env s o ln).lane :=
  ⟨removeParcel_sameBelt env s o ln, fun h => by rw [removeParcel_queue, h]; rfl,
    fun _ h => removeParcel_noFire env s o ln h⟩

theorem travel_tame (air : Bool) (env : LaneEnv) (p : Parcel) (f : Fraction) (o : Outcome) (ln : Lane) :
    ln.Tame air (travel env p f o ln).lane := by
  refine ⟨travel_sameBelt env p f o ln, fun h => ?_, fun _ h => travel_noFire env p f o ln h⟩
  unfold travel
  dsimp only
  have hr : ((ln.leaveList p).revise p.serial fun q => { q with phase := .travelling f o }).queue = [] := by
    simp [Lane.revise, h]
  split
  · rw [removeParcel_queue, hr]; rfl
  · exact hr

theorem settleVerdict_tame (air : Bool) (env : LaneEnv) (p : Parcel) (f : Fraction) (v : Verdict) (ln : Lane) :
    ln.Tame air (settleVerdict env p f v ln).lane := by
  refine ⟨settleVerdict_sameBelt env p f v ln, fun h => ?_, fun _ h => settleVerdict_noFire env p f v ln h⟩
  unfold settleVerdict
  cases v with
  | scheduled aim w m => simp [Lane.quiet, Lane.modStation, Lane.revise, h]
  | _ => exact (travel_tame air env p f _ ln).empty h

theorem classify_tame (air : Bool) (env : LaneEnv) (s : Serial) (ln : Lane) :
    ln.Tame air (classify env s ln).lane := by
  refine ⟨classify_sameBelt env s ln, fun h => ?_, fun _ h => classify_noFire env s ln h⟩
  simp [classify, Lane.find, h, Lane.quiet]

theorem exits_tame (air : Bool) (env : LaneEnv) (ln : Lane) : ln.Tame air (exits env ln).lane :=
  runEach_tame (fun _ _ => removeParcel_tame air env _ _ _) _ ln

theorem closeColumns_tame {air : Bool} (env : LaneEnv) (a : Lane) {b c : Lane} (h : c.Tame air b) :
    c.Tame air (closeColumns env a b) :=
  ⟨h.belt.trans (closeColumns_sameBelt env a b), h.empty, h.fire⟩

theorem endFiring_tame (air : Bool) (env : LaneEnv) (r : TraceReason) (o : Outcome) (p : Parcel) (ln : Lane) :
    ln.Tame air (endFiring env r o p ln).lane := by
  unfold endFiring
  split
  · exact removeParcel_tame air env _ _ _
  · exact .refl air ln

theorem cutLane_tame (air : Bool) (env : LaneEnv) (r : TraceReason) (ln : Lane) :
    ln.Tame air (cutLane env r ln).lane :=
  closeColumns_tame env ln (runEach_tame (fun _ _ => endFiring_tame air env _ _ _ _) _ ln)

theorem endByMaxOpen_tame (air : Bool) (env : LaneEnv) (p : Parcel) (ln : Lane) :
    ln.Tame air (endByMaxOpen env p ln).lane := closeColumns_tame env ln (endFiring_tame air env _ _ p ln)

theorem formingAdvance_tame (air : Bool) (env : LaneEnv) (ln : Lane) :
    ln.Tame air (formingAdvance env ln).lane := runEach_tame (classify_tame air env) _ ln

theorem stationOff_tame (air : Bool) (env : LaneEnv) (st : StationId) (p : Parcel) (ln : Lane) :
    ln.Tame air (stationOff env st p ln).lane := by
  unfold stationOff
  split
  · exact endFiring_tame air env _ _ p ln
  · exact travel_tame air env p _ _ ln
  · exact .refl air ln

theorem stationEnds_tame (air : Bool) (env : LaneEnv) (st : StationId) (ln : Lane) :
    ln.Tame air (stationEnds env st ln).lane :=
  closeColumns_tame env ln (runEach_tame (fun _ _ => removeParcel_tame air env _ _ _) _ ln)

/-- A firing start is tame on a lane that is not reversing and that holds no parcel at rest: it denies
without air (R98). -/
theorem fireStart_tame (env : LaneEnv) (st : StationId) (e : ListEntry) (ln : Lane)
    (hr : ln.reversing = false) (ha : ln.active = false → ln.queue = []) :
    ln.Tame env.airOk (fireStart env st e ln).lane := by
  refine ⟨fireStart_sameBelt env st e ln, fun h => ?_, fun hm hn => ?_⟩
  · simp [fireStart, Lane.find, h, Lane.quiet]
  · unfold fireStart
    split
    · exact hn
    · rename_i p hf
      have hact : ln.active = true := by
        by_contra hc
        have := ha (by simpa using hc)
        simp [Lane.find, this] at hf
      have hair : env.airOk = false := by simpa [Lane.mayOpen, hr, hact] using hm
      split
      · split
        · exact travel_noFire env p _ _ ln hn
        · rename_i hc
          simp [Lane.checkStart, hair] at hc
      · exact hn

theorem stationAdvance_tame (env : LaneEnv) (st : StationId) (ln : Lane)
    (hr : ln.reversing = false) (ha : ln.active = false → ln.queue = []) :
    ln.Tame env.airOk (stationAdvance env st ln).lane := by
  have key : ln.Tame env.airOk (stationStarts env st ln).lane :=
    runEach_keeps (Φ := ln.Tame env.airOk) (fun e x hx => hx.trans (fireStart_tame env st e x
      (by
        have : x.reversing = ln.reversing := by
          simp [Lane.reversing, Lane.active, hx.belt.state, hx.belt.tb]
        rw [this]; exact hr)
      (fun h => hx.empty (ha (by rw [← hx.belt.active]; exact h))))) _ ln (.refl _ ln)
  exact key.trans (stationEnds_tame env.airOk env st _)

/-! ## The works of a step -/

/-- A lane that is settled and safe. -/
def Lane.Good (air : Bool) (ln : Lane) : Prop := ln.settled ∧ ln.safe air

theorem Lane.Tame.good {air : Bool} {a b : Lane} (t : a.Tame air b) (h : a.Good air) : b.Good air :=
  ⟨t.settled h.1, t.safe h.2⟩

/-- A lane at rest and orderly is settled and safe. -/
theorem Lane.orderly.good {ln : Lane} (h : ln.orderly) (ha : ln.active = false) (air : Bool) : ln.Good air :=
  ⟨h.settled ha, (NoFire_of_empty (h.2.1 ha).1).safe air⟩

/-! ## The completion of a drain (R120) -/

/-- A lane comes to rest from any state in which it holds no parcel and no switch. -/
theorem rest_good {ln : Lane} (air : Bool) (ha : ln.active = false) (hq : ln.queue = [])
    (hi : ln.injection = none) (hw : ln.tb.pendingSwitch = none)
    (hg : ln.cfg.geometry.reverseLimit ≤ maxReverseLimit) : ln.rest.Good air := by
  obtain ⟨h1, h2, h3, h4, h5, h6, h7, _, h9, _⟩ := rest_lane ln
  have ho : ln.rest.orderly := by
    refine ⟨fun _ => ⟨h2.trans hi, h3.trans hw⟩, fun _ => ⟨h1.trans hq, h5.trans h6.symm, h4⟩, ?_⟩
    rw [h9]
    exact hg
  exact ho.good (by simpa [Lane.active, h7] using ha) air

theorem completeDrain_good {env : LaneEnv} {ln : Lane} (air : Bool) (h : ln.settled)
    (hs : ln.state ≠ .running) (hq : ln.queue = []) : (completeDrain env ln).lane.Good air :=
  rest_good (ln := { ln with state := .stopped }) air rfl hq (h.1 hs).1 (h.1 hs).2 h.2.2.2

theorem drainIfEmpty_good {env : LaneEnv} {air : Bool} (a : Lane) {b : Lane} (h : b.Good air) :
    (drainIfEmpty env a b).lane.Good air := by
  unfold drainIfEmpty
  split
  · rename_i hc
    exact completeDrain_good air h.1 (by rw [hc.1]; decide) hc.2.2
  · exact h

/-- A drain completes, or the lane is left as it is. -/
theorem drainIfEmpty_cases (env : LaneEnv) (a b : Lane) :
    drainIfEmpty env a b = b.quiet ∨
    b.state = .draining ∧ b.queue = [] ∧ drainIfEmpty env a b = completeDrain env b := by
  unfold drainIfEmpty
  split
  · rename_i h
    exact .inr ⟨h.1, h.2.2, rfl⟩
  · exact .inl rfl

/-- What the completion of a drain leaves of an orderly lane, settled or not. -/
theorem drainIfEmpty_orderly (env : LaneEnv) (a : Lane) {b : Lane} (h : b.orderly) :
    (drainIfEmpty env a b).lane.orderly := by
  rcases drainIfEmpty_cases env a b with e | ⟨hs, hq, e⟩
  · rw [e]
    exact h
  · rw [e]
    have hi := h.1 (by rw [hs]; decide)
    exact ((settled_iff _).mp (rest_good (ln := { b with state := .stopped }) true rfl hq hi.1 hi.2 h.2.2).1).1

/-- The completion of a drain leaves the parcels, P, and Pmax as it was or at P. -/
theorem drainIfEmpty_same (env : LaneEnv) (a b : Lane) :
    (drainIfEmpty env a b).lane.queue = b.queue ∧ (drainIfEmpty env a b).lane.tb.p = b.tb.p ∧
    ((drainIfEmpty env a b).lane.tb.pmax = b.tb.pmax ∨ (drainIfEmpty env a b).lane.tb.pmax = b.tb.p) := by
  rcases drainIfEmpty_cases env a b with e | ⟨_, _, e⟩
  · rw [e]
    exact ⟨rfl, rfl, .inl rfl⟩
  · rw [e]
    obtain ⟨h1, _, _, _, h5, h6, _⟩ := rest_lane { b with state := .stopped }
    exact ⟨h1, h6, .inr h5⟩

/-- A lane that is at rest stays so. -/
theorem drainIfEmpty_rest (env : LaneEnv) (a : Lane) {b : Lane} (h : b.active = false) :
    (drainIfEmpty env a b).lane = b := by
  unfold drainIfEmpty
  rw [if_neg]
  · rfl
  · intro hc
    simp [Lane.active, hc.1] at h

/-- The completion of a switch changes the source and the switch alone. -/
theorem completeSwitch_lane (env : LaneEnv) (ln : Lane) :
    (completeSwitch env ln).lane = ln ∨ ∃ src lost, (completeSwitch env ln).lane =
      { ln with tb := { ln.tb with source := src, pendingSwitch := none, encoderLost := lost } } := by
  unfold completeSwitch
  split
  · exact .inl rfl
  · exact .inr ⟨_, _, rfl⟩

/-- A change of the source that ends a pending switch. -/
theorem orderly_switch {ln : Lane} (h : ln.orderly) (src : Source) (lost : Bool) :
    ({ ln with tb := { ln.tb with source := src, pendingSwitch := none, encoderLost := lost } } : Lane).orderly :=
  ⟨fun hs => ⟨(h.1 hs).1, rfl⟩, h.2.1, h.2.2⟩

theorem completeSwitch_orderly (env : LaneEnv) {ln : Lane} (h : ln.orderly) :
    (completeSwitch env ln).lane.orderly := by
  rcases completeSwitch_lane env ln with e | ⟨src, lost, e⟩
  · rw [e]; exact h
  · rw [e]; exact orderly_switch h src lost

theorem completeSwitch_same (env : LaneEnv) (ln : Lane) :
    (completeSwitch env ln).lane.queue = ln.queue ∧ (completeSwitch env ln).lane.state = ln.state ∧
    (completeSwitch env ln).lane.tb.p = ln.tb.p ∧ (completeSwitch env ln).lane.tb.pmax = ln.tb.pmax ∧
    (completeSwitch env ln).lane.cfg = ln.cfg := by
  rcases completeSwitch_lane env ln with e | ⟨src, lost, e⟩
  · rw [e]; exact ⟨rfl, rfl, rfl, rfl, rfl⟩
  · rw [e]; exact ⟨rfl, rfl, rfl, rfl, rfl⟩

theorem insertParcel_mem {p q : Parcel} {xs : List Parcel} : q ∈ insertParcel p xs ↔ q = p ∨ q ∈ xs := by
  induction xs with
  | nil => simp [insertParcel]
  | cons x xs ih =>
    unfold insertParcel
    split
    · simp
    · simp only [List.mem_cons, ih]
      tauto

/-- The generator's work on a RUNNING lane keeps it settled and safe; on another it has none. -/
theorem injectAdvance_good (env : LaneEnv) {ln : Lane} (air : Bool) (h : ln.Good air) :
    (injectAdvance env ln).lane.Good air ∧ (injectAdvance env ln).lane.state = ln.state ∧
    (injectAdvance env ln).lane.tb = ln.tb := by
  unfold injectAdvance
  split
  · exact ⟨h, rfl, rfl⟩
  · rename_i inj hd
    have hrun : ln.state = .running := by
      by_contra hc
      simp [Lane.injectionDue, hc] at hd
    have h0 : ({ ln with injection := inj.next } : Lane).Good air := by
      refine ⟨⟨fun hs => absurd hrun hs, fun ha => ?_, h.1.2.2.1, h.1.2.2.2⟩, h.2⟩
      have : ln.active = true := Lane.active_of_running hrun
      rw [show ({ ln with injection := inj.next } : Lane).active = ln.active from rfl, this] at ha
      cases ha
    unfold createTest
    split
    · generalize hp : testParcel { ln with injection := inj.next } inj = p
      have hfire : p.isFiring = false := by rw [← hp]; rfl
      have h1 : (Lane.enqueue { ln with injection := inj.next } p).Good air := by
        refine ⟨⟨fun hs => absurd hrun hs, fun ha => ?_, h.1.2.2.1, h.1.2.2.2⟩, fun hm q hq => ?_⟩
        · have : ln.active = true := Lane.active_of_running hrun
          rw [show (Lane.enqueue { ln with injection := inj.next } p).active = ln.active from rfl, this] at ha
          cases ha
        · simp only [Lane.enqueue, insertParcel_mem] at hq
          rcases hq with rfl | hq
          · exact hfire
          · exact h.2 hm q hq
      have t := settleVerdict_tame air env p
        (Lane.enqueue { ln with injection := inj.next } p).cfg.geometry.stationFraction[inj.station].fraction
        (Lane.judge env (Lane.enqueue { ln with injection := inj.next } p) p
          (Lane.enqueue { ln with injection := inj.next } p).cfg.geometry.stationFraction[inj.station].fraction
          (if (Lane.enqueue { ln with injection := inj.next } p).cfg.geometry.stationEnable[inj.station]
            then some inj.station else none) env.profiles[0])
        (Lane.enqueue { ln with injection := inj.next } p)
      exact ⟨t.good h1, t.belt.state, t.belt.tb⟩
    · exact ⟨⟨h0.1.same rfl rfl rfl rfl rfl rfl rfl rfl, h0.2.same rfl rfl rfl rfl⟩, rfl, rfl⟩

/-- A lane on new ground, or at rest: P at Pmax. -/
def Lane.Ground (air : Bool) (ln : Lane) : Prop := ln.Good air ∧ ahead ln.tb.p ln.tb.pmax = false

/-- The works of an advance keep a lane on new ground settled and safe. -/
theorem work_ground (env : LaneEnv) (w : Work) (hw : w ≠ .cut ∧ w ≠ .limitHalt) {ln : Lane}
    (h : ln.Ground env.airOk) : (Work.run env w ln).lane.Ground env.airOk := by
  have hr : ln.reversing = false := by simp [Lane.reversing, h.2]
  have tame : ∀ {b : Lane}, ln.Tame env.airOk b → b.Ground env.airOk := fun t =>
    ⟨t.good h.1, by rw [t.belt.tb]; exact h.2⟩
  cases w with
  | forming => exact tame (formingAdvance_tame env.airOk env ln)
  | station st => exact tame (stationAdvance_tame env st ln hr fun ha => (h.1.1.2.1 ha).1)
  | exitLine => exact tame (exits_tame env.airOk env ln)
  | inject =>
    obtain ⟨h1, _, h3⟩ := injectAdvance_good env env.airOk h.1
    refine ⟨h1, ?_⟩
    show ahead (injectAdvance env ln).lane.tb.p (injectAdvance env ln).lane.tb.pmax = false
    rw [h3]
    exact h.2
  | switchDone =>
    obtain ⟨e1, e2, e3, e4, e5⟩ := completeSwitch_same env ln
    have ho := completeSwitch_orderly env ((settled_iff ln).mp h.1.1).1
    refine ⟨⟨(settled_iff _).mpr ⟨ho, ?_⟩, h.1.2.same e2 e1 e3 e4⟩, ?_⟩
    · show ((completeSwitch env ln).lane.tb.pmax - (completeSwitch env ln).lane.tb.p).toNat ≤ _
      rw [e3, e4]
      exact h.1.1.2.2.1
    · show ahead (completeSwitch env ln).lane.tb.p (completeSwitch env ln).lane.tb.pmax = false
      rw [e3, e4]
      exact h.2
  | cut => exact absurd rfl hw.1
  | limitHalt => exact absurd rfl hw.2

theorem not_ahead_self (p : Pos) : ahead p p = false := by simp [ahead]

/-- A work with the drain it completes keeps a lane on new ground settled and safe. -/
theorem act_ground (env : LaneEnv) (w : Work) (hw : w ≠ .cut ∧ w ≠ .limitHalt) {ln : Lane}
    (h : ln.Ground env.airOk) : (Work.act env w ln).lane.Ground env.airOk := by
  have hg := work_ground env w hw h
  refine ⟨drainIfEmpty_good ln hg.1, ?_⟩
  obtain ⟨_, hp, hm⟩ := drainIfEmpty_same env ln (Work.run env w ln).lane
  show ahead (drainIfEmpty env ln (Work.run env w ln).lane).lane.tb.p
    (drainIfEmpty env ln (Work.run env w ln).lane).lane.tb.pmax = false
  rw [hp]
  rcases hm with e | e
  · rw [e]
    exact hg.2
  · rw [e]
    exact not_ahead_self _

theorem mem_runWorks {env : LaneEnv} {ws : List Work} {w : Work} :
    w ∈ arrange (Config.pick env.seed) ws.length ws ↔ w ∈ ws := mem_arrange _ _ _ _

theorem runWorks_ground (env : LaneEnv) (ws : List Work) (hw : ∀ w ∈ ws, w ≠ .cut ∧ w ≠ .limitHalt) {ln : Lane}
    (h : ln.Ground env.airOk) : (runWorks env ws ln).lane.Ground env.airOk :=
  runEach_keeps_mem _ (fun w hm _ hl => act_ground env w (hw w (mem_runWorks.mp hm)) hl) ln h

theorem switchWorks_plain (ln : Lane) : ∀ w ∈ ln.switchWorks, w = .switchDone := by
  intro w h
  unfold Lane.switchWorks at h
  split at h
  · simpa using h
  · cases h

theorem advanceWorks_plain (ln : Lane) : ∀ w ∈ ln.advanceWorks, w ≠ .cut ∧ w ≠ .limitHalt := by
  intro w h
  simp only [Lane.advanceWorks, List.mem_append, List.mem_map] at h
  rcases h with ((h | ⟨st, _, rfl⟩) | h) | h
  · split at h
    · simp at h; subst h; exact ⟨by simp, by simp⟩
    · cases h
  · exact ⟨by simp, by simp⟩
  · split at h
    · simp at h; subst h; exact ⟨by simp, by simp⟩
    · cases h
  · split at h
    · simp at h; subst h; exact ⟨by simp, by simp⟩
    · cases h

/-! ## Steps of P (R31 to R33) -/

/-- A step of P up keeps a lane settled and safe. -/
theorem stepForward_good (env : LaneEnv) {ln : Lane} (h : ln.Good env.airOk) :
    (stepForward env ln).lane.Good env.airOk := by
  unfold stepForward
  dsimp only
  split
  · rename_i hg
    refine (runWorks_ground env _ ?_ ?_).1
    · intro w hw
      rcases List.mem_append.mp hw with hw | hw
      · rw [switchWorks_plain _ w hw]
        exact ⟨by simp, by simp⟩
      · exact advanceWorks_plain _ w hw
    · refine ⟨⟨⟨h.1.1, fun ha => ⟨(h.1.2.1 ha).1, rfl, (h.1.2.1 ha).2.2⟩, ?_, h.1.2.2.2⟩, ?_⟩,
        not_ahead_self _⟩
      · simp
      · intro hm
        refine h.2 ?_
        simp only [Lane.mayOpen, Lane.reversing, Lane.active, not_ahead_self] at hm ⊢
        revert hm
        cases env.airOk <;> cases ln.state <;> simp
  · rename_i hg
    simp only [Bool.or_eq_true, Bool.not_eq_true', not_or, Bool.not_eq_false, Bool.not_eq_true] at hg
    obtain ⟨hact, hna⟩ := hg
    have hd := h.1.2.2.1
    have hne : ln.tb.pmax ≠ ln.tb.p := by
      intro e
      rw [e] at hna
      have : ahead ln.tb.p (ln.tb.p + 1) = true := by
        unfold ahead
        have : ln.tb.p + 1 - ln.tb.p = 1 := by
          rw [BitVec.add_comm, BitVec.add_sub_cancel]
        rw [this]
        decide
      rw [this] at hna
      cases hna
    have hpos : 1 ≤ (ln.tb.pmax - ln.tb.p).toNat := by
      by_contra hc
      have h0 : (ln.tb.pmax - ln.tb.p).toNat = 0 := by omega
      have : ln.tb.pmax - ln.tb.p = 0 := BitVec.eq_of_toNat_eq (by simpa using h0)
      exact hne (by have := congrArg (· + ln.tb.p) this; simpa [BitVec.sub_add_cancel] using this)
    have hdist : (ln.tb.pmax - (ln.tb.p + 1)).toNat = (ln.tb.pmax - ln.tb.p).toNat - 1 := by
      have e : ln.tb.pmax - (ln.tb.p + 1) = (ln.tb.pmax - ln.tb.p) - 1#32 := sub_add_eq_sub_sub _ _ _
      have hlt := (ln.tb.pmax - ln.tb.p).isLt
      rw [e, BitVec.toNat_sub, show (1#32).toNat = 1 from rfl]
      omega
    have hrev : ln.reversing = true := by
      simp only [Lane.reversing, hact, Bool.true_and, ahead, Bool.and_eq_true, decide_eq_true_eq]
      unfold maxReverseLimit at hd
      exact ⟨hpos, by omega⟩
    have hnf : ln.NoFire := h.2 (by simp [Lane.mayOpen, hrev])
    have good : ({ ln with tb := { ln.tb with p := ln.tb.p + 1 } } : Lane).Good env.airOk := by
      refine ⟨⟨h.1.1, fun ha => ?_, ?_, h.1.2.2.2⟩, fun _ => hnf⟩
      · have : ln.active = false := ha
        rw [hact] at this
        cases this
      · show (ln.tb.pmax - (ln.tb.p + 1)).toNat ≤ _
        omega
    have keep : ∀ w ∈ Lane.switchWorks { ln with tb := { ln.tb with p := ln.tb.p + 1 } }, ∀ x : Lane,
        x.Good env.airOk → (Work.act env w x).lane.Good env.airOk := by
      intro w hw x hx
      refine drainIfEmpty_good x ?_
      rw [switchWorks_plain _ w hw]
      obtain ⟨e1, e2, e3, e4, e5⟩ := completeSwitch_same env x
      have ho := completeSwitch_orderly env ((settled_iff x).mp hx.1).1
      refine ⟨(settled_iff _).mpr ⟨ho, ?_⟩, hx.2.same e2 e1 e3 e4⟩
      show ((completeSwitch env x).lane.tb.pmax - (completeSwitch env x).lane.tb.p).toNat ≤ _
      rw [e3, e4]
      exact hx.1.2.2.1
    exact runEach_keeps_mem _ (fun w hm x hx => keep w (mem_runWorks.mp hm) x hx) _ good

/-- The works of a step of P down: they keep a lane orderly, and what does not fire does not begin to. -/
theorem backWork_keeps (env : LaneEnv) (w : Work) (hw : w = .switchDone ∨ w = .cut ∨ w = .limitHalt)
    {ln : Lane} (h : ln.orderly) :
    (Work.run env w ln).lane.orderly ∧ (ln.NoFire → (Work.run env w ln).lane.NoFire) ∧
    (ln.active = false → (Work.run env w ln).lane.active = false) ∧
    (w ≠ .limitHalt → (Work.run env w ln).lane.tb.p = ln.tb.p ∧
      (Work.run env w ln).lane.tb.pmax = ln.tb.pmax) := by
  rcases hw with rfl | rfl | rfl
  · obtain ⟨e1, e2, e3, e4, e5⟩ := completeSwitch_same env ln
    refine ⟨completeSwitch_orderly env h, fun hn => ?_, fun ha => ?_, fun _ => ⟨e3, e4⟩⟩
    · intro p hp
      have hp' : p ∈ (completeSwitch env ln).lane.queue := hp
      rw [e1] at hp'
      exact hn p hp'
    · show (completeSwitch env ln).lane.active = false
      simpa [Lane.active, e2] using ha
  · have t := cutLane_tame true env .cutReverse ln
    refine ⟨t.orderly h, fun _ => cutLane_noFire env _ ln, fun ha => ?_, fun _ => ?_⟩
    · show (cutLane env .cutReverse ln).lane.active = false
      rw [t.belt.active]
      exact ha
    · show (cutLane env .cutReverse ln).lane.tb.p = _ ∧ _
      rw [show (Work.run env .cut ln).lane.tb = ln.tb from t.belt.tb]
      exact ⟨by rw [t.belt.tb], rfl⟩
  · show (halt .reverseLimit env ln).lane.orderly ∧ (ln.NoFire → (halt .reverseLimit env ln).lane.NoFire) ∧
      (ln.active = false → (halt .reverseLimit env ln).lane.active = false) ∧ _
    by_cases ha : ln.active = true
    · obtain ⟨h1, _, h3, h4, h5, h6, h7, h8, _, h10⟩ := halt_lane .reverseLimit env ln ha
      refine ⟨⟨fun _ => ⟨h4, h5⟩, fun _ => ⟨h3, by rw [h7, h8], h6⟩, by rw [h10]; exact h.2.2⟩,
        fun _ => NoFire_of_empty h3, fun hc => ?_, fun hc => absurd rfl hc⟩
      rw [ha] at hc
      cases hc
    · have ha' : ln.active = false := by simpa using ha
      rw [halt_rest _ _ _ ha']
      exact ⟨h, fun hn => hn, fun _ => ha', fun hc => absurd rfl hc⟩

/-- The works of a step of P down, each with the drain it completes. Where none is the limit's halt, P is
not taken further below Pmax. -/
theorem backAct_keeps (env : LaneEnv) (w : Work) (hw : w = .switchDone ∨ w = .cut ∨ w = .limitHalt)
    {ln : Lane} (h : ln.orderly) :
    (Work.act env w ln).lane.orderly ∧ (ln.NoFire → (Work.act env w ln).lane.NoFire) ∧
    (ln.active = false → (Work.act env w ln).lane.active = false) ∧
    (w ≠ .limitHalt → ((Work.act env w ln).lane.tb.pmax - (Work.act env w ln).lane.tb.p).toNat ≤
      (ln.tb.pmax - ln.tb.p).toNat) := by
  obtain ⟨h1, h2, h3, h4⟩ := backWork_keeps env w hw h
  obtain ⟨hq, hp, hm⟩ := drainIfEmpty_same env ln (Work.run env w ln).lane
  refine ⟨drainIfEmpty_orderly env ln h1, fun hn p hp' => ?_, fun ha => ?_, fun hl => ?_⟩
  · have hp'' : p ∈ (drainIfEmpty env ln (Work.run env w ln).lane).lane.queue := hp'
    rw [hq] at hp''
    exact h2 hn p hp''
  · show (drainIfEmpty env ln (Work.run env w ln).lane).lane.active = false
    rw [drainIfEmpty_rest env ln (h3 ha)]
    exact h3 ha
  · show ((drainIfEmpty env ln (Work.run env w ln).lane).lane.tb.pmax -
      (drainIfEmpty env ln (Work.run env w ln).lane).lane.tb.p).toNat ≤ _
    obtain ⟨ep, em⟩ := h4 hl
    rw [hp]
    rcases hm with e | e
    · rw [e, ep, em]
    · rw [e, BitVec.sub_self]
      exact Nat.zero_le _

/-- The works of a step of P down: the switch, the cut where parcels are FIRING, and the halt past the
limit. -/
theorem mem_backWorks (ln : Lane) (w : Work) : w ∈ ln.backWorks ↔
    (w = .switchDone ∧ ln.completing.isSome = true) ∨ (w = .cut ∧ ln.queue.any (·.isFiring) = true) ∨
    (w = .limitHalt ∧ ln.limitPassed = true) := by
  unfold Lane.backWorks Lane.switchWorks Lane.cutWorks
  cases ln.completing.isSome <;> cases ln.queue.any (·.isFiring) <;> cases ln.limitPassed <;> simp

/-- A step of P down leaves a lane that runs or drains settled and with no parcel FIRING, wherever P stood
below Pmax: every firing is cut, and a lane that passes the reverse limit is halted. -/
theorem stepBackward_orderly (env : LaneEnv) {ln : Lane} (hact : ln.active = true) (h : ln.orderly) :
    (stepBackward env ln).lane.Good env.airOk := by
  unfold stepBackward
  rw [if_pos hact]
  set stepped : Lane := ln.lowered with hst
  set ws := stepped.backWorks with hws
  have hord : stepped.orderly := by
    refine ⟨h.1, fun ha => ?_, h.2.2⟩
    have : ln.active = false := ha
    rw [hact] at this
    cases this
  have kind' : ∀ w ∈ arrange (Config.pick env.seed) ws.length ws, w = .switchDone ∨ w = .cut ∨ w = .limitHalt := by
    intro w hw
    rw [mem_runWorks, hws, mem_backWorks] at hw
    tauto
  -- nothing fires at the end
  have hnf : (runWorks env ws stepped).lane.NoFire := by
    cases hf : stepped.queue.any (·.isFiring) with
    | true =>
      exact (runEach_establishes (Φ := Lane.NoFire) (Ψ := Lane.orderly)
        (mem_runWorks.mpr ((mem_backWorks stepped .cut).mpr (.inr (.inl ⟨rfl, hf⟩))))
        (fun w hw _ hl => (backAct_keeps env w (kind' w hw) hl).1)
        (fun w hw _ hl hn => (backAct_keeps env w (kind' w hw) hl).2.1 hn)
        (fun x _ p hp => cutLane_noFire env _ x p
          ((drainIfEmpty_same env x (cutLane env .cutReverse x).lane).1 ▸ hp)) hord).1
    | false =>
      have h0 : stepped.NoFire := fun p hp => by simpa using (List.any_eq_false.mp hf) p hp
      exact (runEach_keeps_mem (Φ := fun x => x.orderly ∧ x.NoFire) _
        (fun w hw x hx => ⟨(backAct_keeps env w (kind' w hw) hx.1).1,
          (backAct_keeps env w (kind' w hw) hx.1).2.1 hx.2⟩) stepped ⟨hord, h0⟩).2
  have hfin : (runWorks env ws stepped).lane.orderly :=
    runEach_keeps_mem (Φ := Lane.orderly) _
      (fun w hw x hx => (backAct_keeps env w (kind' w hw) hx).1) stepped hord
  refine ⟨?_, hnf.safe _⟩
  by_cases hl : stepped.limitPassed = true
  · have hc : Work.limitHalt ∈ arrange (Config.pick env.seed) ws.length ws := by
      exact mem_runWorks.mpr ((mem_backWorks stepped .limitHalt).mpr (.inr (.inr ⟨rfl, hl⟩)))
    refine hfin.settled (runEach_establishes (Φ := fun x => x.active = false) (Ψ := Lane.orderly) hc
      (fun w hw _ hl => (backAct_keeps env w (kind' w hw) hl).1)
      (fun w hw _ hl hn => (backAct_keeps env w (kind' w hw) hl).2.2.1 hn)
      (fun x _ => ?_) hord).1
    have hh : (halt .reverseLimit env x).lane.active = false := by
      by_cases ha : x.active = true
      · simp [Lane.active, (halt_lane .reverseLimit env x ha).1]
      · have ha' : x.active = false := by simpa using ha
        rw [halt_rest _ _ _ ha']
        exact ha'
    show (drainIfEmpty env x (halt .reverseLimit env x).lane).lane.active = false
    rw [drainIfEmpty_rest env x hh]
    exact hh
  · have hno : ∀ w ∈ arrange (Config.pick env.seed) ws.length ws, w ≠ .limitHalt := by
      rintro w hw rfl
      rw [mem_runWorks, hws, mem_backWorks] at hw
      simp [hl] at hw
    have hpos := runEach_keeps_mem (Φ := fun x => x.orderly ∧
        (x.tb.pmax - x.tb.p).toNat ≤ (stepped.tb.pmax - stepped.tb.p).toNat) _
      (fun w hw x hx => ⟨(backAct_keeps env w (kind' w hw) hx.1).1,
        ((backAct_keeps env w (kind' w hw) hx.1).2.2.2 (hno w hw)).trans hx.2⟩) stepped ⟨hord, le_rfl⟩
    refine (settled_iff _).mpr ⟨hfin, hpos.2.trans ?_⟩
    have h1 := h.2.2
    have h2 : ¬ln.cfg.geometry.reverseLimit < (ln.tb.pmax - (ln.tb.p - 1)).toNat := by
      simpa [Lane.limitPassed, Lane.lowered, hst] using hl
    show (ln.tb.pmax - (ln.tb.p - 1)).toNat ≤ _
    omega

/-- A step of P down keeps a lane settled and safe. -/
theorem stepBackward_good (env : LaneEnv) {ln : Lane} (h : ln.Good env.airOk) :
    (stepBackward env ln).lane.Good env.airOk := by
  by_cases hact : ln.active = true
  · exact stepBackward_orderly env hact ((settled_iff ln).mp h.1).1
  · unfold stepBackward
    rw [if_neg hact]
    dsimp only
    have ha : ln.active = false := by simpa using hact
    have hidle := h.1.2.1 ha
    have hnr : ln.state ≠ .running := by
      intro e
      rw [Lane.active_of_running e] at ha
      cases ha
    have hsw := (h.1.1 hnr).2
    have : Lane.switchWorks { ln with tb := { ln.tb with p := ln.tb.p - 1, pmax := ln.tb.p - 1 } } = [] := by
      simp [Lane.switchWorks, Lane.completing, hsw]
    rw [this]
    show Lane.Good env.airOk { ln with tb := { ln.tb with p := ln.tb.p - 1, pmax := ln.tb.p - 1 } }
    have ho : ({ ln with tb := { ln.tb with p := ln.tb.p - 1, pmax := ln.tb.p - 1 } } : Lane).orderly :=
      ⟨h.1.1, fun _ => ⟨hidle.1, rfl, hidle.2.2⟩, h.1.2.2.2⟩
    exact ho.good ha _

end Sys2Proof.Machine
end

