-- ==== Sys2Proof/Laws/LaneSteps.lean ====
section
/-! SUPPORT. Every act that a command sets going in a lane keeps the lane settled and safe (Lane.Good). -/

namespace Sys2Proof.Machine

/-! ## Acts outside the belt -/

/-- A lane whose state, motion and queue are those of a settled and safe lane is settled and safe. -/
theorem Lane.Good.same {a b : Lane} {air : Bool} (h : a.Good air) (hs : b.state = a.state)
    (hi : b.injection = a.injection) (hq : b.queue = a.queue) (hw : b.tb.pendingSwitch = a.tb.pendingSwitch)
    (hk : b.tb.pendingScale = a.tb.pendingScale) (hp : b.tb.p = a.tb.p) (hm : b.tb.pmax = a.tb.pmax)
    (hg : b.cfg.geometry.reverseLimit = a.cfg.geometry.reverseLimit) : b.Good air :=
  ⟨h.1.same hs hi hq hw hk hp hm hg, h.2.same hs hq hp hm⟩

/-- On a RUNNING lane the injection, the switch and a pending scale are free, and parcels that do not fire
may come and go. -/
theorem Lane.Good.running {a b : Lane} {air : Bool} (h : a.Good air) (ha : a.state = .running)
    (hs : b.state = .running) (hp : b.tb.p = a.tb.p) (hm : b.tb.pmax = a.tb.pmax)
    (hg : b.cfg.geometry.reverseLimit = a.cfg.geometry.reverseLimit) (hn : a.NoFire → b.NoFire) :
    b.Good air := by
  refine ⟨⟨fun hc => absurd hs hc, fun hc => ?_, by rw [hp, hm]; exact h.1.2.2.1, by rw [hg]; exact h.1.2.2.2⟩,
    fun hc => ?_⟩
  · rw [Lane.active_of_running hs] at hc
    cases hc
  · rw [mayOpen_congr (a := a) (hs.trans ha.symm) hp hm] at hc
    exact hn (h.2 hc)

/-- A settled lane is orderly. -/
theorem Lane.settled.orderly {ln : Lane} (h : ln.settled) : ln.orderly := ((settled_iff ln).mp h).1

/-- A pending switch may end on any settled lane. -/
theorem Lane.Good.dropSwitch {ln b : Lane} {air : Bool} (h : ln.Good air) (hs : b.state = ln.state)
    (hi : b.injection = ln.injection) (hq : b.queue = ln.queue) (hw : b.tb.pendingSwitch = none)
    (hk : b.tb.pendingScale = ln.tb.pendingScale) (hp : b.tb.p = ln.tb.p) (hm : b.tb.pmax = ln.tb.pmax)
    (hg : b.cfg.geometry.reverseLimit = ln.cfg.geometry.reverseLimit) : b.Good air := by
  refine ⟨⟨fun hr => ?_, fun ha => ?_, by rw [hp, hm]; exact h.1.2.2.1, by rw [hg]; exact h.1.2.2.2⟩,
    h.2.same hs hq hp hm⟩
  · rw [hs] at hr
    exact ⟨by rw [hi]; exact (h.1.1 hr).1, hw⟩
  · have : ln.active = false := by simpa [Lane.active, hs] using ha
    have := h.1.2.1 this
    rw [hq, hm, hp, hk]
    exact this

/-! ## The frame of a lane's step -/

/-- The frame of a lane's step keeps the lane settled and safe if what its blocks do does so. -/
theorem laneStep_good {f : LaneEnv → Lane → LaneOut} {env : LaneEnv} {ln : Lane} {air : Bool}
    (h : (f env ln).lane.Good air) : (laneStep f env ln).lane.Good air := by
  have hd := drainIfEmpty_good (env := env) ln h
  exact hd.same rfl rfl rfl rfl rfl rfl rfl rfl

/-- What the frame of a lane's step leaves of the queue: what its blocks leave. -/
theorem laneStep_queue (f : LaneEnv → Lane → LaneOut) (env : LaneEnv) (ln : Lane) :
    (laneStep f env ln).lane.queue = (f env ln).lane.queue := by
  show (drainIfEmpty env ln (f env ln).lane).lane.queue = _
  unfold drainIfEmpty
  split
  · exact (rest_lane _).1
  · rfl

/-- Where no drain completes, the frame of a lane's step touches the monitor and the ports alone. -/
theorem laneStep_lane {f : LaneEnv → Lane → LaneOut} {env : LaneEnv} {ln : Lane}
    (h : ¬((f env ln).lane.state = .draining ∧ ln.queue ≠ [] ∧ (f env ln).lane.queue = [])) :
    (laneStep f env ln).lane = syncPorts env.id ln ((f env ln).lane.syncMonitor env) := by
  show syncPorts env.id ln ((drainIfEmpty env ln (f env ln).lane).lane.syncMonitor env) = _
  rw [drainIfEmpty, if_neg h]
  rfl

/-- A step whose blocks leave the queue as it is completes no drain. -/
theorem laneStep_lane_of_queue {f : LaneEnv → Lane → LaneOut} {env : LaneEnv} {ln : Lane}
    (h : (f env ln).lane.queue = ln.queue) :
    (laneStep f env ln).lane = syncPorts env.id ln ((f env ln).lane.syncMonitor env) :=
  laneStep_lane fun hc => hc.2.1 (h ▸ hc.2.2)

/-- A step that leaves the queue as it is leaves every open-column set, so no port is offered one. -/
theorem syncPorts_same {id : LaneId} {a b : Lane} (hq : b.queue = a.queue) : syncPorts id a b = b := by
  have ho : ∀ st, a.openSet st = b.openSet st := fun st => by simp [Lane.openSet, hq]
  have : (Vector.ofFn fun st : Fin 3 =>
      ({ b.stations[st] with
        port := if a.openSet st = b.openSet st then b.stations[st].port
          else b.stations[st].port.offer id st (b.openSet st) } : Station)) = b.stations := by
    ext i hi
    simp only [Vector.getElem_ofFn]
    rw [if_pos (ho ⟨i, hi⟩)]
    rfl
  simp only [syncPorts, this]

/-- A step that leaves the queue as it is changes, around what the blocks do, the monitor alone. -/
theorem laneStep_lane_of_same_queue {f : LaneEnv → Lane → LaneOut} {env : LaneEnv} {ln : Lane}
    (h : (f env ln).lane.queue = ln.queue) :
    (laneStep f env ln).lane = (f env ln).lane.syncMonitor env := by
  rw [laneStep_lane_of_queue h]
  exact syncPorts_same h

/-- Effects that are events alone stand in the order in which they were raised. -/
theorem inQueueOrder_events {es : List Effect} (h : ∀ e ∈ es, ∃ x, e = .event x) : inQueueOrder es = es := by
  have h1 : es.filterMap Effect.parcelDraft? = [] := by
    rw [List.filterMap_eq_nil_iff]
    intro e he
    obtain ⟨x, rfl⟩ := h e he
    rfl
  have h2 : (es.filter fun e => e.parcelDraft?.isNone) = es := by
    rw [List.filter_eq_self]
    intro e he
    obtain ⟨x, rfl⟩ := h e he
    rfl
  simp [inQueueOrder, h1, h2]

/-- A single effect stands in its order. -/
theorem inQueueOrder_single (e : Effect) : inQueueOrder [e] = [e] := by
  unfold inQueueOrder
  cases h : e.parcelDraft? with
  | none => simp [h]
  | some d =>
    have : e = .trace d := by
      unfold Effect.parcelDraft? at h
      split at h
      · split at h
        · simpa using h
        · cases h
      · cases h
    subst this
    simp [insertDraft, h]

/-! ## The lane controller -/

theorem startRun_good {env : LaneEnv} {ln : Lane} (air : Bool) (h : ln.settled) (hs : ln.state = .stopped) :
    (startRun env ln).lane.Good air := by
  have hr := h.2.1 (by simp [Lane.active, hs])
  refine ⟨⟨fun hc => absurd rfl hc, fun hc => by simp [startRun, Lane.active] at hc, h.2.2.1, h.2.2.2⟩, ?_⟩
  exact (NoFire_of_empty (ln := (startRun env ln).lane) hr.1).safe air

theorem beginDrain_good {env : LaneEnv} {ln : Lane} {air : Bool} (h : ln.Good air) (hs : ln.state = .running) :
    (beginDrain env ln).lane.Good air := by
  have hd : (Lane.dropSwitch { ln with state := .draining, injection := none }).Good air := by
    refine ⟨⟨fun _ => ⟨rfl, rfl⟩, fun hc => by simp [Lane.dropSwitch, Lane.active] at hc, h.1.2.2.1, h.1.2.2.2⟩,
      fun hc => h.2 ?_⟩
    simpa [Lane.mayOpen, Lane.reversing, Lane.active, Lane.dropSwitch, hs] using hc
  unfold beginDrain
  rw [andThen_lane]
  dsimp only
  split
  · rename_i hq
    exact completeDrain_good air hd.1 (by simp [Lane.dropSwitch]) hq
  · exact hd

theorem clearHalt_good {env : LaneEnv} {ln : Lane} (air : Bool) (h : ln.settled) (hs : ln.state = .halted) :
    (clearHalt env ln).lane.Good air := by
  have hr := h.2.1 (by simp [Lane.active, hs])
  have ho : (clearHalt env ln).lane.orderly :=
    ⟨fun _ => h.1 (by rw [hs]; decide), fun _ => hr, h.2.2.2⟩
  exact ho.good rfl air

theorem halt_good {cause : HaltCause} {env : LaneEnv} {ln : Lane} {air : Bool} (h : ln.Good air) :
    (halt cause env ln).lane.Good air := by
  by_cases ha : ln.active = true
  · obtain ⟨h1, _, h3, h4, h5, h6, h7, h8, _, h10⟩ := halt_lane cause env ln ha
    have ho : (halt cause env ln).lane.orderly :=
      ⟨fun _ => ⟨h4, h5⟩, fun _ => ⟨h3, h8.trans h7.symm, h6⟩, by rw [h10]; exact h.1.2.2.2⟩
    exact ho.good (by simp [Lane.active, h1]) air
  · rw [halt_rest cause env ln (by simpa using ha)]
    exact h

/-- What RESET_LANE leaves of a settled lane (R47, R124). -/
theorem resetLane_good {env : LaneEnv} {ln : Lane} (air : Bool) (h : ln.settled) :
    (resetLane env ln).lane.Good air := by
  have key : ∀ x : Lane, x.queue = [] → x.cfg.geometry.reverseLimit ≤ maxReverseLimit →
      (Lane.rest { x.dropSwitch with
        state := .stopped
        injection := none
        tb := { x.dropSwitch.tb with source := x.cfg.setup.source, encoderLost := false } }).Good air :=
    fun x hq hg => rest_good air rfl hq rfl rfl hg
  unfold resetLane
  dsimp only [andThen_lane, withLots_lane]
  by_cases ha : ln.active = true
  · rw [if_pos ha]
    obtain ⟨h1, _, _, _, _, _, _, _, h9, _⟩ := flush_lane env ln
    exact key { (flush env ln).lane with
      lots := ((flush env ln).lane.lots.finish env.id env.now).unit } h1 (by
        show (flush env ln).lane.cfg.geometry.reverseLimit ≤ _
        rw [h9]
        exact h.2.2.2)
  · rw [if_neg ha]
    exact key { ln with lots := (ln.lots.finish env.id env.now).unit } (h.2.1 (by simpa using ha)).1 h.2.2.2

theorem disableStation_good {env : LaneEnv} {st : StationId} {ln : Lane} {air : Bool} (h : ln.Good air) :
    (disableStation env st ln).lane.Good air := by
  have h0 : ({ ln with cfg := { ln.cfg with geometry :=
      { ln.cfg.geometry with stationEnable := ln.cfg.geometry.stationEnable.set st false } } } : Lane).Good air :=
    h.same rfl rfl rfl rfl rfl rfl rfl rfl
  exact (closeColumns_tame env _ (runEach_tame (fun p x => stationOff_tame air env st p x) _ _)).good h0

/-! ## The timebase -/

theorem judged_good {ln : Lane} {air : Bool} (h : ln.Good air) (f : Settle → Settle) : (ln.judged f).Good air := by
  unfold Lane.judged
  split
  · rename_i st hst
    split
    · exact h
    · have hr : ln.state = .running := by
        by_contra hc
        rw [(h.1.1 hc).2] at hst
        cases hst
      exact h.running hr hr rfl rfl rfl fun hn => hn
  · exact h
  · exact h

theorem takeScale_good {ln : Lane} {air : Bool} (h : ln.Good air) (f : Nat → Nat) : (ln.takeScale f).Good air := by
  unfold Lane.takeScale
  split
  · exact h
  · exact ⟨⟨h.1.1, fun ha => ⟨(h.1.2.1 ha).1, (h.1.2.1 ha).2.1, rfl⟩, h.1.2.2.1, h.1.2.2.2⟩, h.2⟩

theorem boundary_good {ln : Lane} {air : Bool} (h : ln.Good air) (forward : Bool) :
    (ln.boundary forward).Good air := by
  unfold Lane.boundary
  dsimp only
  split
  · exact judged_good (takeScale_good h _) _
  · exact takeScale_good h _

theorem counted_good {ln : Lane} {air : Bool} (h : ln.Good air) (up : Bool) (now : Time) :
    (ln.counted up now).1.Good air := by
  have ht : (ln.touchMonitor now).Good air := h.same rfl rfl rfl rfl rfl rfl rfl rfl
  have hs : (if up then ln.touchMonitor now
      else (ln.touchMonitor now).judged fun st => { st with backwardSeen := true }).Good air := by
    split
    · exact ht
    · exact judged_good ht _
  unfold Lane.counted
  dsimp only
  split
  · exact hs.same rfl rfl rfl rfl rfl rfl rfl rfl
  · refine boundary_good ?_ _
    exact hs.same rfl rfl rfl rfl rfl rfl rfl rfl

theorem decoderCount_good {up : Bool} {env : LaneEnv} {ln : Lane} (h : ln.Good env.airOk) :
    (decoderCount up env ln).lane.Good env.airOk := by
  have hc := counted_good h up env.now
  unfold decoderCount
  dsimp only
  split
  · exact stepForward_good env hc
  · exact stepBackward_good env hc
  · exact hc

theorem phaseSample_good {a b : Bool} {env : LaneEnv} {ln : Lane} (h : ln.Good env.airOk) :
    (phaseSample a b env ln).lane.Good env.airOk := by
  have hs : (ln.sampled (a, b)).Good env.airOk := h.same rfl rfl rfl rfl rfl rfl rfl rfl
  unfold phaseSample
  dsimp only
  split
  · exact hs
  · exact decoderCount_good hs
  · exact decoderCount_good hs
  · exact h.same rfl rfl rfl rfl rfl rfl rfl rfl

theorem takeRate_good {ln : Lane} {air : Bool} (h : ln.Good air) : ln.takeRate.Good air := by
  unfold Lane.takeRate
  split
  · exact h
  · exact h.same rfl rfl rfl rfl rfl rfl rfl rfl

theorem nominalCount_good {env : LaneEnv} {ln : Lane} (h : ln.Good env.airOk) :
    (nominalCount env ln).lane.Good env.airOk := by
  have h0 : ({ ln with tb := { ln.tb with
      accumulator := ln.tb.accumulator.map (· - fullAccumulator) } } : Lane).Good env.airOk :=
    h.same rfl rfl rfl rfl rfl rfl rfl rfl
  have hc := takeRate_good h0
  unfold nominalCount
  dsimp only
  split
  · exact stepForward_good env (judged_good hc _)
  · exact hc

theorem driveEdge_good {rise : Bool} {env : LaneEnv} {ln : Lane} {air : Bool} (h : ln.Good air) :
    (driveEdge rise env ln).lane.Good air := by
  unfold driveEdge
  split
  · dsimp only
    have hr : (if (ln.tb.pendingRate.map (·.setWhileStopped)).getD false then ln.takeRate else ln).Good air := by
      split
      · exact takeRate_good h
      · exact h
    exact hr.same rfl rfl rfl rfl rfl rfl rfl rfl
  · exact h.same rfl rfl rfl rfl rfl rfl rfl rfl

theorem settleEnd_good {env : LaneEnv} {ln : Lane} {air : Bool} (h : ln.Good air) :
    (settleEnd env ln).lane.Good air := judged_good h _

theorem monitorExpires_good {env : LaneEnv} {ln : Lane} {air : Bool} (h : ln.Good air) :
    (monitorExpires env ln).lane.Good air := h.dropSwitch rfl rfl rfl rfl rfl rfl rfl rfl

/-! ## Receivers and the forming unit -/

theorem modReceiver_good {ln : Lane} {air : Bool} (h : ln.Good air) (i : HeadId) (f : Receiver → Receiver) :
    (ln.modReceiver i f).Good air := h.same rfl rfl rfl rfl rfl rfl rfl rfl

theorem discardRecord_good {i : HeadId} {c : LinkCause} {env : LaneEnv} {ln : Lane} {air : Bool}
    (h : ln.Good air) : (discardRecord i c env ln).lane.Good air := modReceiver_good h _ _

theorem place_noFire {ln : Lane} {old new : Parcel} (hn : new.isFiring = false) (h : ln.NoFire) :
    (ln.place old new).NoFire := by
  unfold Lane.place
  split
  · exact revise_noFire old.serial (fun _ => new) (fun _ _ => hn) h
  · intro p hp
    simp only [insertParcel_mem] at hp
    rcases hp with rfl | hp
    · exact hn
    · exact h p (List.mem_filter.mp hp).1

/-- A fused or formed parcel does not fire. -/
theorem fuse_not_firing (g : Geometry) (d : Detection) (p : Parcel) : (d.fuse g p).isFiring = false := rfl

theorem parcel_not_firing (d : Detection) (ln : Lane) : (d.parcel ln).isFiring = false := rfl

theorem closeIfComplete_good {env : LaneEnv} {d : Detection} {p : Parcel} {ln : Lane} {air : Bool}
    (h : ln.Good air) : (closeIfComplete env d p ln).lane.Good air := by
  unfold closeIfComplete
  split
  · exact (classify_tame air env _ ln).good h
  · exact h

theorem place_same (ln : Lane) (old new : Parcel) :
    (ln.place old new).state = ln.state ∧ (ln.place old new).tb = ln.tb ∧ (ln.place old new).cfg = ln.cfg := by
  unfold Lane.place
  split
  · exact ⟨rfl, rfl, rfl⟩
  · exact ⟨rfl, rfl, rfl⟩

theorem formDetection_good {env : LaneEnv} {d : Detection} {ln : Lane} {air : Bool} (h : ln.Good air)
    (hr : ln.state = .running) : (formDetection env d ln).lane.Good air := by
  unfold formDetection
  split
  · rename_i p hp
    obtain ⟨e1, e2, e3⟩ := place_same ln p (d.fuse ln.cfg.geometry p)
    exact closeIfComplete_good (h.running hr (e1.trans hr) (by rw [e2]) (by rw [e2]) (by rw [e3])
      (place_noFire (fuse_not_firing _ _ _)))
  · split
    · refine closeIfComplete_good (h.running hr hr rfl rfl rfl fun hn p hp => ?_)
      simp only [Lane.admitFormed, Lane.enqueue, insertParcel_mem] at hp
      rcases hp with rfl | hp
      · rfl
      · exact hn p hp
    · exact h.same rfl rfl rfl rfl rfl rfl rfl rfl

theorem checkRecord_good {i : HeadId} {body : List Byte} {env : LaneEnv} {ln : Lane} {air : Bool}
    (h : ln.Good air) : (checkRecord i body env ln).lane.Good air := by
  unfold checkRecord
  split
  · unfold checkDetection
    split
    · exact discardRecord_good h
    · split
      · split
        · exact discardRecord_good h
        · split
          · exact discardRecord_good h
          · split
            · unfold takeDetection
              have hc : (ln.countRecord i env.now).Good air := modReceiver_good h _ _
              split
              · exact formDetection_good hc ‹_›
              · exact hc.same rfl rfl rfl rfl rfl rfl rfl rfl
            · exact discardRecord_good h
      · exact discardRecord_good h
  · split
    · unfold checkIdle
      split
      · exact discardRecord_good h
      · exact modReceiver_good h _ _
    · exact discardRecord_good h

theorem receiveByte_good {i : HeadId} {env : LaneEnv} {b : LineByte} {ln : Lane} {air : Bool}
    (h : ln.Good air) : (receiveByte i env b ln).lane.Good air := by
  unfold receiveByte
  dsimp only
  generalize (Assembler.take sensorFormat env.now b ln.receivers[i].asm).2 = fate
  generalize (Assembler.take sensorFormat env.now b ln.receivers[i].asm).1 = asm
  have hm := modReceiver_good h i fun r => { r with asm := asm }
  cases fate with
  | underway => exact hm
  | abandoned => exact discardRecord_good hm
  | complete body => exact checkRecord_good hm

theorem receiveBytes_good {i : HeadId} {bytes : List LineByte} {env : LaneEnv} {ln : Lane} {air : Bool}
    (h : ln.Good air) : (receiveBytes i bytes env ln).lane.Good air :=
  runEach_keeps (Φ := Lane.Good air) (fun _ _ hl => receiveByte_good hl) _ ln h

theorem receiverGap_good {i : HeadId} {env : LaneEnv} {ln : Lane} {air : Bool} (h : ln.Good air) :
    (receiverGap i env ln).lane.Good air := discardRecord_good (modReceiver_good h _ _)

end Sys2Proof.Machine
end

