-- ==== Sys2Proof/Laws/Shared.lean ====
section
/-! SUPPORT. What each shared operation can do, said once: the request taker, notices, the trace, a lane's
step in the part, numbers in payloads, frames at an assembler, and serials. -/

namespace Sys2Proof.Machine

/-! ## The request taker (R182) -/

/-- A request that may be taken and has its length acts on the state it has left. -/
theorem takeRequest_taken {s : State} {code tag : Byte} {payload : List Byte} {len : Nat}
    (act : State → State) (h : s.takeable ⟨tag, code, payload⟩ = true) (hl : payload.length = len) :
    s.takeRequest code len tag payload act = act s.popInput := by
  simp [State.takeRequest, h, hl]

/-- A request that may be taken and has another length is refused. -/
theorem takeRequest_badLength {s : State} {code tag : Byte} {payload : List Byte} {len : Nat}
    (act : State → State) (h : s.takeable ⟨tag, code, payload⟩ = true) (hl : payload.length ≠ len) :
    s.takeRequest code len tag payload act = s.popInput.refuse code tag .badLength := by
  simp [State.takeRequest, h, hl]

/-- A request that may not be taken leaves the state as it is. -/
theorem takeRequest_idle {s : State} {code tag : Byte} {payload : List Byte} {len : Nat}
    (act : State → State) (h : s.takeable ⟨tag, code, payload⟩ = false) :
    s.takeRequest code len tag payload act = s := by
  simp [State.takeRequest, h]

/-- A property of states holds after a request if it holds of the state, of what a refusal leaves, and of
what the act leaves. -/
theorem takeRequest_keeps {Φ : State → Prop} {s : State} {code tag : Byte} {payload : List Byte}
    {len : Nat} {act : State → State} (hs : Φ s)
    (hr : s.takeable ⟨tag, code, payload⟩ = true → Φ (s.popInput.refuse code tag .badLength))
    (ha : s.takeable ⟨tag, code, payload⟩ = true → payload.length = len → Φ (act s.popInput)) :
    Φ (s.takeRequest code len tag payload act) := by
  unfold State.takeRequest
  split
  · rename_i h
    split
    · rename_i hl
      exact ha h hl
    · exact hr h
  · exact hs

/-- The reply of a request on the state it has left is the state `answered`. -/
theorem answer_popInput (s : State) (code tag : Byte) (st : Status) (items : List Byte) :
    s.popInput.answer code tag st items = s.answered ⟨tag, code ||| 0x80, st.code :: items⟩ := rfl

theorem ok_popInput (s : State) (code tag : Byte) (items : List Byte) :
    s.popInput.ok code tag items = s.answered ⟨tag, code ||| 0x80, 0x00 :: items⟩ := rfl

theorem refuse_popInput (s : State) (code tag : Byte) (st : Status) :
    s.popInput.refuse code tag st = s.answered ⟨tag, code ||| 0x80, [st.code]⟩ := rfl

/-- What may be taken is a request of a part that works, with no reply waiting and no reset taken. -/
theorem takeable_elim {s : State} {r : Request} (h : s.takeable r = true) :
    s.phase = .working ∧ s.link.replyWaits = false ∧ s.link.resetTaken = false ∧
      ∃ rest, s.link.input = r :: rest := by
  simp only [State.takeable, State.mayTake, State.works, Bool.and_eq_true, Bool.not_eq_true',
    beq_iff_eq] at h
  obtain ⟨⟨⟨h1, h2⟩, h3⟩, h4⟩ := h
  refine ⟨h1, h2, h3, ?_⟩
  cases hi : s.link.input with
  | nil => simp [hi] at h4
  | cons x xs => exact ⟨xs, by simp [hi] at h4; rw [h4]⟩

/-! ## The output queue (R182, R187, R188) -/

@[simp] theorem Event.notice_isNotice (now : Time) (e : Event) : (e.notice now).isNotice = true := by
  cases e <;> rfl

@[simp] theorem State.statusNotice_isNotice (s : State) : s.statusNotice.isNotice = true := rfl

/-- A reply's kind byte is not a notice's: the low seven bits of every request code are below 0x70. -/
theorem replyKind_not_notice {code : Byte} (h : code.toNat % 0x80 < 0x70) (tag : Byte) (items : List Byte) :
    (⟨tag, replyKind code, items⟩ : Frame).isNotice = false := by
  revert h
  have key : ∀ c : Byte, c.toNat % 0x80 < 0x70 → ¬ (0xF0 ≤ (c ||| 0x80).toNat) := by decide
  intro h
  simpa [Frame.isNotice, replyKind] using key code h

/-- With room a notice is queued (R188). -/
theorem offerNotice_room {s : State} (f : Frame) (h : s.link.notices < 24) :
    s.offerNotice f = s.pushFrame f := by simp [State.offerNotice, h]

/-- Without room it is dropped and counted (R188). -/
theorem offerNotice_full {s : State} (f : Frame) (h : 24 ≤ s.link.notices) :
    s.offerNotice f = { s with link := { s.link with dropped := holdInc s.link.dropped } } := by
  simp [State.offerNotice, Nat.not_lt.mpr h]

theorem replyFilter_push_notice {fs : List Frame} {f : Frame} (hf : f.isNotice = true) :
    (((fs ++ [f]).drop 1).filter fun x => !x.isNotice) = (fs.drop 1).filter fun x => !x.isNotice := by
  cases fs with
  | nil => simp
  | cons x xs => simp [List.filter_append, hf]

/-- A notice keeps the bounds of the link's queues (R188). -/
theorem offerNotice_bounded {s : State} {f : Frame} (hf : f.isNotice = true) (h : s.link.bounded) :
    (s.offerNotice f).link.bounded := by
  obtain ⟨h1, h2, h3⟩ := h
  unfold State.offerNotice
  split
  · rename_i hn
    refine ⟨h1, ?_, ?_⟩
    · have : ((s.link.output ++ [f]).filter (·.isNotice)).length = s.link.notices + 1 := by
        simp [Link.notices, List.filter_append, hf]
      show ((s.link.output ++ [f]).filter (·.isNotice)).length ≤ 24
      omega
    · show (((s.link.output ++ [f]).drop 1).filter fun x => !x.isNotice).length ≤ 1
      rw [replyFilter_push_notice hf]
      exact h3
  · exact ⟨h1, h2, h3⟩

/-- A reply keeps them when no reply waits (R182). -/
theorem answer_bounded {s : State} {code tag : Byte} {st : Status} {items : List Byte}
    (hf : (⟨tag, replyKind code, st.code :: items⟩ : Frame).isNotice = false)
    (hw : s.link.replyWaits = false) (h : s.link.bounded) :
    (s.answer code tag st items).link.bounded := by
  obtain ⟨h1, h2, _⟩ := h
  refine ⟨h1, ?_, ?_⟩
  · simpa [Link.notices, List.filter_append, hf] using h2
  · have h0 : ∀ x ∈ s.link.output.drop 1, x.isNotice = true := by
      simpa [Link.replyWaits] using hw
    simp only [State.answer_link]
    cases ho : s.link.output with
    | nil => simp
    | cons x xs =>
      rw [ho] at h0
      have : (xs.filter fun x => !x.isNotice) = [] := by
        simpa [List.filter_eq_nil_iff] using h0
      simp only [List.cons_append, List.drop_succ_cons, List.drop_zero, List.filter_append, this]
      simp [hf]

/-! ## Events (R171, R172) -/

/-- The raise of an event sets its flag. -/
theorem raise_flags (s : State) (e : Event) :
    (s.raise e).laneFlags = (s.setFlag e).laneFlags ∧ (s.raise e).deviceFlags = (s.setFlag e).deviceFlags := by
  unfold State.raise
  dsimp only
  split <;> simp

/-- A raise keeps the bounds of the link's queues. -/
theorem raise_bounded {s : State} (e : Event) (h : s.link.bounded) : (s.raise e).link.bounded := by
  unfold State.raise
  dsimp only
  split
  · exact offerNotice_bounded (by simp) (by simpa using h)
  · simpa using h

/-! ## The trace (R167 to R169) -/

/-- A full trace drops the entry and takes the gap mark. -/
theorem addTrace_full {s : State} (l : LaneId) (d : TraceDraft) (h : traceCapacity ≤ s.trace.length) :
    s.addTrace l d = { s with gapPending := true } := by
  simp [State.addTrace, Nat.not_lt.mpr h]

/-- With room the entry is appended with the gap mark, which is cleared. -/
theorem addTrace_room {s : State} (l : LaneId) (d : TraceDraft) (h : s.trace.length < traceCapacity) :
    (s.addTrace l d).trace = s.trace ++ [d.entry l s.lineTime s.gapPending] ∧
    (s.addTrace l d).gapPending = false := by
  unfold State.addTrace
  rw [if_pos h]
  dsimp only
  split
  · simp
  · split <;> simp

/-- An entry keeps the trace within its bound. -/
theorem addTrace_trace_le {s : State} (l : LaneId) (d : TraceDraft) (h : s.trace.length ≤ traceCapacity) :
    (s.addTrace l d).trace.length ≤ traceCapacity := by
  by_cases hr : s.trace.length < traceCapacity
  · rw [(addTrace_room l d hr).1]
    simpa using hr
  · rw [addTrace_full l d (by omega)]
    exact h

/-- An entry keeps the bounds of the link's queues. -/
theorem addTrace_bounded {s : State} (l : LaneId) (d : TraceDraft) (h : s.link.bounded) :
    (s.addTrace l d).link.bounded := by
  unfold State.addTrace
  dsimp only
  split
  · split
    · exact raise_bounded _ h
    · split
      · exact raise_bounded _ h
      · exact h
  · exact h

/-! ## The effects of a lane's step -/

theorem commit_nil (s : State) (l : LaneId) : s.commit l [] = s := rfl

theorem commit_cons (s : State) (l : LaneId) (e : Effect) (es : List Effect) :
    s.commit l (e :: es) = (State.effect l s e).commit l es := rfl

theorem commit_append (s : State) (l : LaneId) (es fs : List Effect) :
    s.commit l (es ++ fs) = (s.commit l es).commit l fs := by simp [State.commit]

/-- A property that every effect keeps is kept by the effects of a step. -/
theorem commit_keeps {Φ : State → Prop} (l : LaneId) (h : ∀ s e, Φ s → Φ (State.effect l s e))
    (es : List Effect) (s : State) (hs : Φ s) : Φ (s.commit l es) := by
  induction es generalizing s with
  | nil => exact hs
  | cons e es ih => exact ih _ (h s e hs)

theorem effect_bounded (l : LaneId) (s : State) (e : Effect)
    (h : s.trace.length ≤ traceCapacity ∧ s.link.bounded) :
    (State.effect l s e).trace.length ≤ traceCapacity ∧ (State.effect l s e).link.bounded := by
  cases e with
  | event e => exact ⟨by simpa [State.effect] using h.1, raise_bounded e h.2⟩
  | trace d => exact ⟨addTrace_trace_le l d h.1, addTrace_bounded l d h.2⟩

/-- The effects of a step keep the bounds of the trace and of the link's queues. -/
theorem commit_bounded (l : LaneId) (es : List Effect) (s : State)
    (h : s.trace.length ≤ traceCapacity ∧ s.link.bounded) :
    (s.commit l es).trace.length ≤ traceCapacity ∧ (s.commit l es).link.bounded :=
  commit_keeps (Φ := fun s => s.trace.length ≤ traceCapacity ∧ s.link.bounded) l
    (effect_bounded l) es s h

/-- Effects leave the trace alone where none of them is an entry. -/
theorem commit_trace_of_events (l : LaneId) (es : List Effect) (s : State)
    (h : ∀ e ∈ es, ∃ x, e = .event x) :
    (s.commit l es).trace = s.trace ∧ (s.commit l es).gapPending = s.gapPending := by
  induction es generalizing s with
  | nil => exact ⟨rfl, rfl⟩
  | cons e es ih =>
    obtain ⟨x, rfl⟩ := h e (List.mem_cons_self ..)
    have := ih (State.effect l s (.event x)) fun e he => h e (List.mem_cons_of_mem _ he)
    simpa [commit_cons, State.effect] using this

/-! ## Frames of a step of one lane -/

theorem State.LaneFrame.refl (l : LaneId) (s : State) : s.LaneFrame l s :=
  ⟨fun _ _ => rfl, rfl, rfl, rfl, rfl, rfl, rfl, rfl, rfl, rfl, rfl, rfl, rfl, rfl, rfl, rfl⟩

theorem State.LaneFrame.trans {l : LaneId} {a b c : State} (h : a.LaneFrame l b) (k : b.LaneFrame l c) :
    a.LaneFrame l c :=
  ⟨fun i hi => (k.lanes i hi).trans (h.lanes i hi), k.phase.trans h.phase, k.rst.trans h.rst,
    k.cause.trans h.cause, k.time.trans h.time, k.micros.trans h.micros, k.device.trans h.device,
    k.lines.trans h.lines, k.latch.trans h.latch, k.due.trans h.due, k.store.trans h.store,
    k.pending.trans h.pending, k.held.trans h.held, k.asm.trans h.asm, k.input.trans h.input, k.resetTaken.trans h.resetTaken⟩

/-- What an event leaves of the link: reception and the reset mark. -/
theorem raise_link (s : State) (e : Event) :
    (s.raise e).link.asm = s.link.asm ∧ (s.raise e).link.input = s.link.input ∧
    (s.raise e).link.resetTaken = s.link.resetTaken := by
  unfold State.raise
  dsimp only
  split
  · unfold State.offerNotice
    split <;> simp
  · simp

theorem raise_frame (l : LaneId) (s : State) (e : Event) : s.LaneFrame l (s.raise e) := by
  obtain ⟨h1, h2, h3⟩ := raise_link s e
  constructor <;> first | exact h1 | exact h2 | exact h3 | simp

theorem addTrace_frame (l k : LaneId) (s : State) (d : TraceDraft) : s.LaneFrame l (s.addTrace k d) := by
  have h : (s.addTrace k d).link.asm = s.link.asm ∧ (s.addTrace k d).link.input = s.link.input ∧
      (s.addTrace k d).link.resetTaken = s.link.resetTaken := by
    unfold State.addTrace
    dsimp only
    split
    · split
      · exact raise_link _ _
      · split
        · exact raise_link _ _
        · exact ⟨rfl, rfl, rfl⟩
    · exact ⟨rfl, rfl, rfl⟩
  obtain ⟨h1, h2, h3⟩ := h
  constructor <;> first | exact h1 | exact h2 | exact h3 | simp

theorem commit_frame (l k : LaneId) (es : List Effect) (s : State) : s.LaneFrame l (s.commit k es) :=
  commit_keeps (Φ := s.LaneFrame l) k
    (fun x e h => h.trans (by cases e with
      | event e => exact raise_frame l x e
      | trace d => exact addTrace_frame l k x d)) es s (.refl l s)

theorem setLane_frame (l : LaneId) (s : State) (ln : Lane) : s.LaneFrame l (s.setLane l ln) := by
  constructor <;> try rfl
  intro k hk
  simp only [State.setLane_lanes]
  exact Vector.getElem_set_ne l.isLt k.isLt (fun h => hk (Fin.ext h.symm))

/-- A step of a lane within the part changes its lane and what the lane reports, and nothing else. -/
theorem onLane_frame (s : State) (l : LaneId) (f : LaneEnv → Lane → LaneOut) : s.LaneFrame l (s.onLane l f) :=
  (setLane_frame l s _).trans (commit_frame l l _ _)

theorem stepLane_frame (s : State) (l : LaneId) (f : LaneEnv → Lane → LaneOut) :
    s.LaneFrame l (s.stepLane l f) := onLane_frame s l _

theorem editLane_frame (s : State) (l : LaneId) (f : Lane → Lane) : s.LaneFrame l (s.editLane l f) :=
  setLane_frame l s _

theorem chosen_frame (l : LaneId) (s : State) : s.LaneFrame l s.chosen := by
  constructor <;> first | rfl | exact fun _ _ => rfl

/-- The lane after a step of it within the part. -/
theorem onLane_lane (s : State) (l : LaneId) (f : LaneEnv → Lane → LaneOut) :
    (s.onLane l f).lanes[l] = (f (s.env l) s.lanes[l]).lane := by
  simp [State.onLane]

@[simp] theorem onLane_lane_val (s : State) (l : LaneId) (f : LaneEnv → Lane → LaneOut) :
    (s.onLane l f).lanes[l.val] = (f (s.env l) s.lanes[l]).lane := onLane_lane s l f

theorem stepLane_lane (s : State) (l : LaneId) (f : LaneEnv → Lane → LaneOut) :
    (s.stepLane l f).lanes[l] = (laneStep f (s.env l) s.lanes[l]).lane := onLane_lane s l _

@[simp] theorem stepLane_lane_val (s : State) (l : LaneId) (f : LaneEnv → Lane → LaneOut) :
    (s.stepLane l f).lanes[l.val] = (laneStep f (s.env l) s.lanes[l]).lane := onLane_lane s l _

theorem onLane_lanes (s : State) (l : LaneId) (f : LaneEnv → Lane → LaneOut) :
    (s.onLane l f).lanes = s.lanes.set l (f (s.env l) s.lanes[l]).lane := by
  simp [State.onLane]

/-- A step of one lane keeps the bounds of the part if it keeps those of the lane. -/
theorem onLane_bounded {s : State} {l : LaneId} {f : LaneEnv → Lane → LaneOut} (h : s.bounded)
    (hf : (f (s.env l) s.lanes[l]).lane.bounded) : (s.onLane l f).bounded := by
  obtain ⟨h1, h2, h3⟩ := h
  have hc := commit_bounded l (f (s.env l) s.lanes[l]).effects (s.setLane l (f (s.env l) s.lanes[l]).lane)
    ⟨h1, h2⟩
  refine ⟨hc.1, hc.2, fun k => ?_⟩
  by_cases hk : k = l
  · subst hk
    rw [onLane_lane]
    exact hf
  · rw [(onLane_frame s l f).lanes k hk]
    exact h3 k

/-! ## Numbers in payloads (R179) -/

@[simp] theorem beBytes_length (n x : Nat) : (beBytes n x).length = n := by
  induction n generalizing x with
  | zero => rfl
  | succ n ih => simp [beBytes, ih]

theorem fromBe_append (as bs : List Byte) : fromBe (as ++ bs) = fromBe as * 256 ^ bs.length + fromBe bs := by
  unfold fromBe
  rw [List.foldl_append]
  generalize List.foldl (fun acc b => acc * 256 + b.toNat) 0 as = x
  induction bs using List.reverseRecOn with
  | nil => simp
  | append_singleton bs b ih =>
    simp only [List.foldl_append, List.foldl_cons, List.foldl_nil, ih, List.length_append,
      List.length_cons, List.length_nil]
    ring

/-- The number that the bytes of a number spell is that number, as far as its bytes reach. -/
theorem fromBe_beBytes (n x : Nat) : fromBe (beBytes n x) = x % 256 ^ n := by
  induction n with
  | zero => simp [beBytes, fromBe, Nat.mod_one]
  | succ n ih =>
    rw [beBytes, ← List.singleton_append, fromBe_append, ih]
    simp only [fromBe, List.foldl_cons, List.foldl_nil, beBytes_length, BitVec.toNat_ofNat]
    have h : x % 256 ^ (n + 1) = x % 256 ^ n + 256 ^ n * (x / 256 ^ n % 256) := by
      rw [pow_succ, Nat.mod_mul]
    rw [h, show (2 : Nat) ^ 8 = 256 from rfl]
    ring

/-- Two bytes carry every number below 2^16. -/
theorem fromBe_beBytes_of_lt {n x : Nat} (h : x < 256 ^ n) : fromBe (beBytes n x) = x := by
  rw [fromBe_beBytes, Nat.mod_eq_of_lt h]

/-- The item that a payload holds behind `off` bytes. -/
theorem item_append (pre bs post : List Byte) : item (pre ++ (bs ++ post)) pre.length bs.length = fromBe bs := by
  simp [item]

theorem fromBe_singleton (b : Byte) : fromBe [b] = b.toNat := by simp [fromBe]

@[simp] theorem byte_toNat (n : Nat) : (byte n).toNat = n % 256 := by simp [byte]

/-- The lane item that a lane number spells is that lane. -/
@[simp] theorem laneItem_byte (l : LaneId) (rest : List Byte) : laneItem (byte l.val :: rest) 0 = some l := by
  have h : item (byte l.val :: rest) 0 1 = l.val := by
    simp [item, fromBe]
    omega
  simp [laneItem, h]

/-- A lane item above 3 names no lane. -/
theorem laneItem_high {b : Byte} (h : 3 < b.toNat) (rest : List Byte) : laneItem (b :: rest) 0 = none := by
  have h' : item (b :: rest) 0 1 = b.toNat := by simp [item, fromBe]
  simp [laneItem, h']
  omega

@[simp] theorem stationItem_byte (a : Byte) (st : StationId) (rest : List Byte) :
    stationItem (a :: byte st.val :: rest) 1 = some st := by
  have h : item (a :: byte st.val :: rest) 1 1 = st.val := by
    simp [item, fromBe]
    omega
  simp [stationItem, h]

@[simp] theorem profileItem_byte (i : Fin 8) (rest : List Byte) : profileItem (byte i.val :: rest) 0 = some i := by
  have h : item (byte i.val :: rest) 0 1 = i.val := by
    simp [item, fromBe]
    omega
  simp [profileItem, h]

@[simp] theorem entryItem_byte (i : Fin 64) (rest : List Byte) : entryItem (byte i.val :: rest) 0 = some i := by
  have h : item (byte i.val :: rest) 0 1 = i.val := by
    simp [item, fromBe]
    omega
  simp [entryItem, h]

theorem beBytes_one (x : Nat) : beBytes 1 x = [byte x] := by simp [beBytes, byte]

theorem beBytes_two (x : Nat) : beBytes 2 x = [byte (x / 256), byte x] := by simp [beBytes, byte]

theorem beBytes_three (x : Nat) : beBytes 3 x = [byte (x / 65536), byte (x / 256), byte x] := by
  simp [beBytes, byte]

/-- An on/off item as sent reads as what was sent. -/
theorem onOff_bit (b : Bool) : ((if b then 1 else 0 : Byte).toNat != 0) = b := by
  revert b
  decide

/-- An item of one byte is the byte that stands there. -/
theorem item_one {payload : List Byte} {off : Nat} {b : Byte} (h : payload[off]? = some b) :
    item payload off 1 = b.toNat := by
  have hlt : off < payload.length := by
    by_contra hc
    rw [List.getElem?_eq_none (by omega)] at h
    cases h
  have hb : payload[off] = b := by
    rw [List.getElem?_eq_getElem hlt] at h
    exact Option.some.inj h
  unfold item
  rw [List.drop_eq_getElem_cons hlt, hb]
  simp [fromBe]

/-- An item of two bytes is the number that the two bytes spell. -/
theorem item_two {payload : List Byte} {off : Nat} {a b : Byte} (ha : payload[off]? = some a)
    (hb : payload[off + 1]? = some b) : item payload off 2 = a.toNat * 256 + b.toNat := by
  have h1 := item_one ha
  have h2 := item_one hb
  have e : item payload off 2 = fromBe ((payload.drop off).take 1 ++ (payload.drop (off + 1)).take 1) := by
    rw [item, ← List.drop_drop, ← List.take_add]
  rw [e, fromBe_append]
  have hl : ((payload.drop (off + 1)).take 1).length = 1 := by
    have : off + 1 < payload.length := by
      by_contra hc
      rw [List.getElem?_eq_none (by omega)] at hb
      cases hb
    simp only [List.length_take, List.length_drop]
    omega
  rw [hl]
  unfold item at h1 h2
  rw [h1, h2, pow_one]

/-- A vector of three or four is what its members spell. -/
theorem vector_three {α : Type} (v : Vector α 3) : ∃ a b c, v = #v[a, b, c] :=
  ⟨v[0], v[1], v[2], by ext i hi; interval_cases i <;> rfl⟩

theorem vector_four {α : Type} (v : Vector α 4) : ∃ a b c d, v = #v[a, b, c, d] :=
  ⟨v[0], v[1], v[2], v[3], by ext i hi; interval_cases i <;> rfl⟩

/-! ## Whole frames at an assembler (R49, R180) -/

/-- The bytes leave the frame under way and lead one assembler to another. -/
inductive Assembler.Runs (fmt : FrameFormat) (now : Time) : Assembler → List LineByte → Assembler → Prop
  | nil (a : Assembler) : Assembler.Runs fmt now a [] a
  | cons {a b c : Assembler} {x : LineByte} {xs : List LineByte} (h : a.take fmt now x = (b, .underway))
      (k : Assembler.Runs fmt now b xs c) : Assembler.Runs fmt now a (x :: xs) c

theorem Assembler.Runs.append {fmt : FrameFormat} {now : Time} {a b c : Assembler} {xs ys : List LineByte}
    (h : Runs fmt now a xs b) (k : Runs fmt now b ys c) : Runs fmt now a (xs ++ ys) c := by
  induction h with
  | nil => exact k
  | cons h _ ih => exact .cons h (ih k)

/-- A byte with its stop bit at an assembler whose last byte came at the same line time is collected. -/
theorem take_now (fmt : FrameFormat) (now : Time) (b : Byte) (ph : AsmPhase) (buf : List Byte)
    (hp : ph ≠ .hunt) :
    (⟨ph, buf, some now⟩ : Assembler).take fmt now ⟨b, true⟩ =
      (⟨ph, buf, some now⟩ : Assembler).collect fmt now ⟨b, true⟩ := by
  have h : elapsed now now = 0 := by rw [elapsed, BitVec.sub_self]; rfl
  simp [Assembler.take, hp, Assembler.gapDue, h]

/-- The bytes of a body, from the length byte on, lead to CHECK. -/
theorem body_runs (fmt : FrameFormat) (now : Time) (len : Byte) (done rest : List Byte) (hr : rest ≠ [])
    (hl : len.toNat = done.length + rest.length) :
    Assembler.Runs fmt now ⟨.body, len :: done, some now⟩ (onLine rest)
      ⟨.check, len :: (done ++ rest), some now⟩ := by
  induction rest generalizing done with
  | nil => exact absurd rfl hr
  | cons x xs ih =>
    have hx : (⟨.body, len :: done, some now⟩ : Assembler).take fmt now ⟨x, true⟩ =
        (⟨if xs = [] then .check else .body, len :: (done ++ [x]), some now⟩, .underway) := by
      rw [take_now _ _ _ _ _ (by decide)]
      simp only [Assembler.collect, bodyLength, List.cons_append, List.headD_cons, List.length_cons,
        List.length_append, List.length_nil, hl]
      cases xs <;> simp
    by_cases hn : xs = []
    · subst hn
      exact .cons (by simpa using hx) (.nil _)
    · refine .cons (b := ⟨.body, len :: (done ++ [x]), some now⟩) (by simpa [hn] using hx) ?_
      have := ih (done ++ [x]) hn (by simp at hl ⊢; omega)
      simpa [onLine] using this

/-- A whole frame at an assembler in HUNT, with any two bytes in the place of its CRC: all but its last byte
run, and at the last one the frame is complete if they are the CRC, and abandoned if not. -/
theorem frame_fate (fmt : FrameFormat) (now : Time) (body : List Byte) (high low : Byte) (hb : body ≠ [])
    (h256 : body.length < 256) (ha : fmt.allowed body.length = true) :
    ∃ (front : List LineByte) (last : LineByte) (a : Assembler),
      onLine (fmt.marker :: byte body.length :: body ++ [high, low]) = front ++ [last] ∧
      Assembler.Runs fmt now .hunting front a ∧ a.take fmt now last = (.hunting,
        if [high, low] = crcBytes (byte body.length :: body) then .complete body else .abandoned) := by
  have hlen : (byte body.length).toNat = body.length := by
    simpa [byte] using Nat.mod_eq_of_lt h256
  generalize byte body.length = len at hlen ⊢
  refine ⟨onLine (fmt.marker :: len :: body ++ [high]), ⟨low, true⟩,
    ⟨.check, len :: (body ++ [high]), some now⟩, by simp [onLine], ?_, ?_⟩
  · have h1 : (Assembler.hunting).take fmt now ⟨fmt.marker, true⟩ = (⟨.length, [], some now⟩, .underway) := by
      simp [Assembler.take, Assembler.hunting, Assembler.hunt]
    have h2 : (⟨.length, [], some now⟩ : Assembler).take fmt now ⟨len, true⟩ =
        (⟨.body, [len], some now⟩, .underway) := by
      rw [take_now _ _ _ _ _ (by decide)]
      simp [Assembler.collect, hlen, ha]
    have h3 := body_runs fmt now len [] body hb (by simp [hlen])
    have h4 : (⟨.check, len :: body, some now⟩ : Assembler).take fmt now ⟨high, true⟩ =
        (⟨.check, len :: (body ++ [high]), some now⟩, .underway) := by
      rw [take_now _ _ _ _ _ (by decide)]
      simp [Assembler.collect, bodyLength, hlen]
    have := Assembler.Runs.cons h1 (.cons h2 ((by simpa using h3 : Assembler.Runs fmt now
      ⟨.body, [len], some now⟩ (onLine body) ⟨.check, len :: body, some now⟩).append (.cons h4 (.nil _))))
    simpa [onLine] using this
  · rw [take_now _ _ _ _ _ (by decide)]
    have hc : checkFrame (len :: (body ++ [high, low])) =
        if [high, low] = crcBytes (len :: body) then .complete body else .abandoned := by
      simp [checkFrame, bodyLength, hlen]
    simp [Assembler.collect, bodyLength, hlen]
    simpa using hc

/-- A whole frame at an assembler in HUNT: all but its last byte run, and the last one completes it. -/
theorem frame_runs (fmt : FrameFormat) (now : Time) (body : List Byte) (hb : body ≠ [])
    (h256 : body.length < 256) (ha : fmt.allowed body.length = true) :
    ∃ (front : List LineByte) (last : LineByte) (a : Assembler),
      onLine (frameOf fmt.marker body) = front ++ [last] ∧
      Assembler.Runs fmt now .hunting front a ∧ a.take fmt now last = (.hunting, .complete body) := by
  obtain ⟨high, low, hc⟩ : ∃ high low, crcBytes (byte body.length :: body) = [high, low] := ⟨_, _, rfl⟩
  obtain ⟨front, last, a, h1, h2, h3⟩ := frame_fate fmt now body high low hb h256 ha
  rw [hc, if_pos rfl] at h3
  exact ⟨front, last, a, (by rw [← h1, ← hc]; rfl), h2, h3⟩

/-- The plant link while a frame is under way. -/
theorem receiveAll_runs {now : Time} {a b : Assembler} {xs : List LineByte}
    (h : Assembler.Runs plantFormat now a xs b) (k : Link) (hk : k.asm = a) :
    k.receiveAll now xs = { k with asm := b } := by
  induction h generalizing k with
  | nil a => subst hk; rfl
  | cons h _ ih =>
    subst hk
    show Link.receiveAll now (Link.receive now k _) _ = _
    rw [show Link.receive now k _ = _ by rw [Link.receive, h]]
    rw [ih _ rfl]
    rfl

/-- A good frame at a plant link in HUNT (R180, R181). -/
theorem receiveAll_frame (now : Time) (k : Link) (body : List Byte) (hk : k.asm = .hunting)
    (hb : 3 ≤ body.length) (hb' : body.length ≤ 250) :
    k.receiveAll now (onLine (frameOf plantMarker body)) =
      Link.offer (requestOf body) { k with goodFrames := holdInc k.goodFrames } := by
  obtain ⟨front, last, a, h1, h2, h3⟩ := frame_runs plantFormat now body
    (by rintro rfl; simp at hb) (by omega) (by simp [plantFormat]; omega)
  show k.receiveAll now (onLine (frameOf plantFormat.marker body)) = _
  rw [h1]
  have : k.receiveAll now (front ++ [last]) = Link.receive now (k.receiveAll now front) last := by
    simp [Link.receiveAll]
  rw [this, receiveAll_runs h2 k hk]
  simp only [Link.receive, h3, Link.fate]
  rw [← hk]

/-- A frame with wrong CRC bytes at a plant link in HUNT is counted as bad (R180). -/
theorem receiveAll_wrongCrc (now : Time) (k : Link) (body : List Byte) (high low : Byte)
    (hk : k.asm = .hunting) (hb : 3 ≤ body.length) (hb' : body.length ≤ 250)
    (hc : [high, low] ≠ crcBytes (byte body.length :: body)) :
    k.receiveAll now (onLine (plantMarker :: byte body.length :: body ++ [high, low])) =
      { k with badFrames := holdInc k.badFrames } := by
  obtain ⟨front, last, a, h1, h2, h3⟩ := frame_fate plantFormat now body high low
    (by rintro rfl; simp at hb) (by omega) (by simp [plantFormat]; omega)
  rw [if_neg hc] at h3
  show k.receiveAll now (onLine (plantFormat.marker :: byte body.length :: body ++ [high, low])) = _
  rw [h1]
  have : k.receiveAll now (front ++ [last]) = Link.receive now (k.receiveAll now front) last := by
    simp [Link.receiveAll]
  rw [this, receiveAll_runs h2 k hk]
  simp only [Link.receive, h3, Link.fate]
  rw [← hk]

/-- A receiver's assembler set to what it is leaves the lane as it is. -/
theorem modReceiver_same (ln : Lane) (h : HeadId) (a : Assembler) (ha : ln.receivers[h].asm = a) :
    (ln.modReceiver h fun r => { r with asm := a }) = ln := by
  have : ({ ln.receivers[h] with asm := a } : Receiver) = ln.receivers[h] := by rw [← ha]
  simp only [Lane.modReceiver, this]
  simp

theorem modReceiver_receiver (ln : Lane) (h : HeadId) (f : Receiver → Receiver) :
    (ln.modReceiver h f).receivers[h] = f ln.receivers[h] := by simp [Lane.modReceiver]

@[simp] theorem modReceiver_receiver_val (ln : Lane) (h : HeadId) (f : Receiver → Receiver) :
    (ln.modReceiver h f).receivers[h.val] = f ln.receivers[h.val] := by simp [Lane.modReceiver]

theorem modReceiver_modReceiver (ln : Lane) (h : HeadId) (f g : Receiver → Receiver) :
    (ln.modReceiver h f).modReceiver h g = ln.modReceiver h fun r => g (f r) := by
  simp [Lane.modReceiver]

/-- A receiver while a frame is under way. -/
theorem receiveByte_underway {h : HeadId} {env : LaneEnv} {x : LineByte} {ln : Lane} {b : Assembler}
    (hx : ln.receivers[h].asm.take sensorFormat env.now x = (b, .underway)) :
    receiveByte h env x ln = (ln.modReceiver h fun r => { r with asm := b }).quiet := by
  unfold receiveByte
  rw [hx]
  rfl

theorem runEach_nil {α : Type} (f : α → Lane → LaneOut) (ln : Lane) : runEach f [] ln = ln.quiet := rfl

theorem foldl_andThen_eq {α : Type} (f : α → Lane → LaneOut) (xs : List α) (o : LaneOut) :
    xs.foldl (fun o x => o.andThen (f x)) o =
      ⟨(runEach f xs o.lane).lane, o.effects ++ (runEach f xs o.lane).effects⟩ := by
  induction xs generalizing o with
  | nil => simp [runEach]
  | cons x xs ih =>
    simp only [runEach, List.foldl_cons]
    rw [ih (o.andThen (f x)), ih (o.lane.quiet.andThen (f x))]
    simp [LaneOut.andThen]

/-- The first act, then the rest. -/
theorem runEach_cons {α : Type} (f : α → Lane → LaneOut) (x : α) (xs : List α) (ln : Lane) :
    runEach f (x :: xs) ln = (f x ln).andThen (runEach f xs) := by
  simp only [runEach, List.foldl_cons]
  rw [foldl_andThen_eq]
  simp [LaneOut.andThen, runEach]

theorem runEach_append {α : Type} (f : α → Lane → LaneOut) (xs ys : List α) (ln : Lane) :
    runEach f (xs ++ ys) ln = (runEach f xs ln).andThen (runEach f ys) := by
  simp only [runEach, List.foldl_append]
  rw [foldl_andThen_eq f ys]
  rfl

theorem andThen_quiet (ln : Lane) (f : Lane → LaneOut) : ln.quiet.andThen f = f ln := by
  simp [LaneOut.andThen]

theorem receiveBytes_runs {h : HeadId} {env : LaneEnv} {a b : Assembler} {xs : List LineByte}
    (hr : Assembler.Runs sensorFormat env.now a xs b) (ln : Lane) (ha : ln.receivers[h].asm = a) :
    receiveBytes h xs env ln = (ln.modReceiver h fun r => { r with asm := b }).quiet := by
  unfold receiveBytes
  induction hr generalizing ln with
  | nil a => rw [runEach_nil, modReceiver_same ln h a ha]
  | cons hx _ ih =>
    subst ha
    rw [runEach_cons, receiveByte_underway hx, andThen_quiet, ih _ (by rw [modReceiver_receiver]), modReceiver_modReceiver]

/-- A frame whose CRC agrees at a receiver in HUNT goes to the record checks, the receiver in HUNT again
(R49 to R52). -/
theorem receiveBytes_frame (h : HeadId) (env : LaneEnv) (ln : Lane) (body : List Byte)
    (ha : ln.receivers[h].asm = .hunting) (hb : body.length = 2 ∨ body.length = 10) :
    receiveBytes h (onLine (frameOf sensorMarker body)) env ln = checkRecord h body env ln := by
  obtain ⟨front, last, a, h1, h2, h3⟩ := frame_runs sensorFormat env.now body
    (by rintro rfl; simp at hb) (by omega) (by simp [sensorFormat]; omega)
  show receiveBytes h (onLine (frameOf sensorFormat.marker body)) env ln = _
  rw [h1, show receiveBytes h (front ++ [last]) env ln =
    (receiveBytes h front env ln).andThen (runEach (receiveByte h env) [last]) from runEach_append _ _ _ _]
  rw [receiveBytes_runs h2 ln ha, andThen_quiet, runEach_cons]
  have : receiveByte h env last (ln.modReceiver h fun r => { r with asm := a }) = checkRecord h body env ln := by
    simp only [receiveByte, modReceiver_receiver, h3, sensorFate, modReceiver_modReceiver]
    rw [modReceiver_same ln h .hunting ha]
  rw [this]
  simp [LaneOut.andThen, runEach_nil]

/-- A frame with wrong CRC bytes at a receiver in HUNT is discarded, the receiver in HUNT again (R51). -/
theorem receiveBytes_wrongCrc (h : HeadId) (env : LaneEnv) (ln : Lane) (body : List Byte) (high low : Byte)
    (ha : ln.receivers[h].asm = .hunting) (hb : body.length = 2 ∨ body.length = 10)
    (hc : [high, low] ≠ crcBytes (byte body.length :: body)) :
    receiveBytes h (onLine (sensorMarker :: byte body.length :: body ++ [high, low])) env ln =
      discardRecord h .frame env ln := by
  obtain ⟨front, last, a, h1, h2, h3⟩ := frame_fate sensorFormat env.now body high low
    (by rintro rfl; simp at hb) (by omega) (by simp [sensorFormat]; omega)
  rw [if_neg hc] at h3
  show receiveBytes h (onLine (sensorFormat.marker :: byte body.length :: body ++ [high, low])) env ln = _
  rw [h1, show receiveBytes h (front ++ [last]) env ln =
    (receiveBytes h front env ln).andThen (runEach (receiveByte h env) [last]) from runEach_append _ _ _ _]
  rw [receiveBytes_runs h2 ln ha, andThen_quiet, runEach_cons]
  have : receiveByte h env last (ln.modReceiver h fun r => { r with asm := a }) =
      discardRecord h .frame env ln := by
    simp only [receiveByte, modReceiver_receiver, h3, sensorFate, modReceiver_modReceiver]
    rw [modReceiver_same ln h .hunting ha]
  rw [this]
  simp [LaneOut.andThen, runEach_nil]

/-- The record of a DETECTION body is the record it was laid out from (R50). -/
@[simp] theorem detectionOf_detectionBody (r : DetectionRecord) : detectionOf? (detectionBody r) = some r := by
  have h : ∀ x : BitVec 16, (x.extractLsb' 8 8 ++ x.extractLsb' 0 8 : BitVec 16) = x := by
    intro x
    ext i hi
    simp only [BitVec.getElem_append, BitVec.getElem_extractLsb']
    split
    · simp [BitVec.getLsbD_eq_getElem hi]
    · rename_i h8
      rw [show 8 + (i - 8) = i by omega, BitVec.getLsbD_eq_getElem hi]
  have e : detectionOf? (detectionBody r) = some ⟨r.headNumber, r.firstColumn, r.lastColumn,
      r.length.extractLsb' 8 8 ++ r.length.extractLsb' 0 8, r.trailLag, r.classCode,
      r.intensity.extractLsb' 8 8 ++ r.intensity.extractLsb' 0 8⟩ := rfl
  rw [e, h, h]

/-! ## Phases and field lines -/

theorem works_of_working {s : State} (h : s.phase = .working) : s.works = true := by simp [State.works, h]

theorem live_of_working {s : State} (h : s.phase = .working) : s.live = true := by simp [State.live, h]

theorem live_of_starting {s : State} (h : s.phase = .starting) : s.live = true := by simp [State.live, h]

/-- The lines that are a lane's AIR_OK, and those that are its DRIVE_RUN (R150). -/
theorem airOf_eq_some {i : LineId} {l : LaneId} : airOf? i = some l ↔ i = (airLine l).castSucc := by
  revert i l
  decide

theorem driveOf_eq_some {i : DebouncedId} {l : LaneId} : driveOf? i = some l ↔ i = driveLine l := by
  revert i l
  decide

/-- A line without a candidate has nothing to settle (R151). -/
theorem settleLine_idle {s : State} {i : DebouncedId} (h : s.lines.candidate[i] = none) :
    s.settleLine i = s := by
  unfold State.settleLine
  rw [if_neg]
  rw [State.debounceDue, h]
  simp

/-- A lane whose parcels do not fire holds every column closed (R96). -/
theorem openSet_of_noFire {ln : Lane} (h : ln.NoFire) (st : StationId) : ln.openSet st = 0 := by
  unfold Lane.openSet
  have key : ∀ (xs : List Parcel), (∀ p ∈ xs, p.isFiring = false) →
      xs.foldl (fun acc p => acc ||| p.openAt st) (0 : Columns) = 0 := by
    intro xs
    induction xs with
    | nil => exact fun _ => rfl
    | cons p ps ih =>
      intro hp
      have h0 : p.openAt st = 0 := by
        have := hp p (List.mem_cons_self ..)
        unfold Parcel.isFiring at this
        unfold Parcel.openAt
        split
        · rename_i hph
          rw [hph] at this
          cases this
        · rfl
      rw [List.foldl_cons, h0]
      simpa using ih fun q hq => hp q (List.mem_cons_of_mem _ hq)
  exact key _ h

/-! ## The idle step of a part whose clock does not run (R194, log 4) -/

/-- A part that has supply waits; one without stays so or is given its supply, and nothing else changes
but the count of choices. -/
theorem idleDown_cases (s : State) :
    (s.phase ≠ .unpowered ∧ s.idleDown = s) ∨
    (s.phase = .unpowered ∧ ∃ phase : Phase, (phase = .unpowered ∨ phase = .settling) ∧
      s.idleDown = { s with phase := phase, choices := s.choices + 1 }) := by
  unfold State.idleDown
  cases h : s.phase with
  | unpowered =>
    refine .inr ⟨rfl, ?_⟩
    dsimp only
    split
    · exact ⟨.unpowered, .inl rfl, by rw [← h]; rfl⟩
    · exact ⟨.settling, .inr rfl, rfl⟩
  | _ => exact .inl ⟨by simp, rfl⟩

/-! ## Serials (R3) -/

/-- The search passes over held serials only, and stops at one that is not held or at its last step. -/
theorem freshSerial_path (held : List Serial) (n : Nat) (start : Serial) :
    ∃ k ≤ n, freshSerial held n start = start + BitVec.ofNat 24 k ∧
      (∀ j < k, start + BitVec.ofNat 24 j ∈ held) ∧ (k < n → start + BitVec.ofNat 24 k ∉ held) := by
  induction n generalizing start with
  | zero => exact ⟨0, le_rfl, by simp [freshSerial], fun j hj => absurd hj (Nat.not_lt_zero j), by simp⟩
  | succ n ih =>
    unfold freshSerial
    split
    · rename_i hm
      obtain ⟨k, hk, he, hb, ha⟩ := ih (start + 1)
      have shift : ∀ j : Nat, start + 1 + BitVec.ofNat 24 j = start + BitVec.ofNat 24 (j + 1) := by
        intro j
        rw [BitVec.ofNat_add, BitVec.add_assoc, BitVec.add_comm 1]
        rfl
      refine ⟨k + 1, by omega, by rw [he, shift], ?_, ?_⟩
      · intro j hj
        cases j with
        | zero => simpa using hm
        | succ j => rw [← shift]; exact hb j (by omega)
      · intro h
        rw [← shift]
        exact ha (by omega)
    · rename_i hm
      exact ⟨0, by omega, by simp, fun j hj => absurd hj (Nat.not_lt_zero j), fun _ => by simpa using hm⟩

/-- The serial looked for is held by none, if at least as many steps are made as serials are held. -/
theorem freshSerial_not_mem (held : List Serial) (n : Nat) (start : Serial) (hn : held.length ≤ n)
    (hs : n < 2 ^ 24) : freshSerial held n start ∉ held := by
  obtain ⟨k, hk, he, hb, ha⟩ := freshSerial_path held n start
  rw [he]
  intro hm
  have hkn : k = n := by
    by_contra h
    exact ha (by omega) hm
  subst hkn
  have hsub : (List.range (k + 1)).map (fun j => start + BitVec.ofNat 24 j) ⊆ held := by
    intro x hx
    simp only [List.mem_map, List.mem_range] at hx
    obtain ⟨j, hj, rfl⟩ := hx
    by_cases h : j = k
    · subst h; exact hm
    · exact hb j (by omega)
  have hnd : ((List.range (k + 1)).map (fun j => start + BitVec.ofNat 24 j)).Nodup := by
    refine List.Nodup.map_on ?_ List.nodup_range
    intro x hx y hy hxy
    simp only [List.mem_range] at hx hy
    have := congrArg BitVec.toNat (BitVec.add_right_inj start |>.mp hxy)
    simp only [BitVec.toNat_ofNat] at this
    omega
  have := (List.subperm_of_subset hnd hsub).length_le
  simp at this
  omega

end Sys2Proof.Machine
end

