-- ==== Sys2Proof/Laws/Bounds.lean ====
section
/-! SUPPORT. Every act of a lane's blocks keeps the lists of the lane within their bounds and its serials
distinct. -/

namespace Sys2Proof.Machine

/-! ## What the bounds depend on -/

/-- A lane whose serials are among those of a lane within bounds, in their order, and whose other lists
are no longer, is within bounds. -/
theorem Lane.bounded.shrink {a b : Lane} (h : a.bounded)
    (hq : (b.queue.map (·.serial)).Sublist (a.queue.map (·.serial)))
    (hr : b.lots.ring.length ≤ ringCapacity)
    (hs : ∀ st : StationId, b.stations[st].list.length ≤ a.stations[st].list.length ∧
      b.stations[st].history.length ≤ a.stations[st].history.length) : b.bounded :=
  ⟨⟨by simpa using hq.length_le.trans (by simpa using h.1.1), h.1.2.sublist hq⟩, hr,
    fun st => ⟨(hs st).1.trans (h.2.2 st).1, (hs st).2.trans (h.2.2 st).2⟩⟩

/-- A lane with the same queue, ring and stations as one within bounds is within bounds. -/
theorem Lane.bounded.same {a b : Lane} (h : a.bounded) (hq : b.queue = a.queue)
    (hr : b.lots.ring = a.lots.ring) (hs : b.stations = a.stations) : b.bounded := by
  refine h.shrink (by rw [hq]) (by rw [hr]; exact h.2.1) fun st => ?_
  rw [hs]
  exact ⟨le_rfl, le_rfl⟩

/-! ## The lot unit -/

theorem appendRing_length (ring : List LotRecord) (r : LotRecord) :
    (appendRing ring r).length ≤ ringCapacity := by
  simp only [appendRing, ringCapacity, List.length_drop, List.length_append, List.length_singleton]
  omega

theorem complete_ring {lane : LaneId} {now : Time} {u : LotUnit} (h : u.ring.length ≤ ringCapacity) :
    (u.complete lane now).unit.ring.length ≤ ringCapacity := by
  unfold LotUnit.complete
  split
  · exact h
  · exact appendRing_length _ _

theorem completeIfDone_ring {lane : LaneId} {now : Time} {u : LotUnit} (h : u.ring.length ≤ ringCapacity) :
    (u.completeIfDone lane now).unit.ring.length ≤ ringCapacity := by
  unfold LotUnit.completeIfDone
  split
  · exact complete_ring h
  · exact h

theorem finish_ring {lane : LaneId} {now : Time} {u : LotUnit} (h : u.ring.length ≤ ringCapacity) :
    (u.finish lane now).unit.ring.length ≤ ringCapacity := by
  unfold LotUnit.finish
  dsimp only
  split
  · exact completeIfDone_ring (u := (u.complete lane now).unit.autoClose lane now) (complete_ring h)
  · exact complete_ring h

theorem settle_ring {lane : LaneId} {now : Time} {u : LotUnit} (h : u.ring.length ≤ ringCapacity) :
    (u.settle lane now).unit.ring.length ≤ ringCapacity := by
  unfold LotUnit.settle
  split
  · exact finish_ring h
  · exact h

@[simp] theorem lotAccrueRemoval_ring (lot : LotId) (r : RemovalReport) (u : LotUnit) :
    (u.accrueRemoval lot r).ring = u.ring := by
  unfold LotUnit.accrueRemoval
  repeat' split
  all_goals rfl

theorem lotReport_ring {lane : LaneId} {now : Time} {lot : LotId} {r : RemovalReport} {u : LotUnit}
    (h : u.ring.length ≤ ringCapacity) : (u.report lane now lot r).unit.ring.length ≤ ringCapacity := by
  unfold LotUnit.report
  dsimp only
  split
  · exact settle_ring (by simpa using h)
  · simpa using h

@[simp] theorem lotForm_ring (lane : LaneId) (now : Time) (limit : Nat) (serial : Serial) (u : LotUnit) :
    (u.form lane now limit serial).ring = u.ring := by
  unfold LotUnit.form
  dsimp only
  repeat' split
  all_goals rfl

/-! ## Parcels -/

@[simp] theorem insertParcel_length (p : Parcel) (q : List Parcel) :
    (insertParcel p q).length = q.length + 1 := by
  induction q with
  | nil => rfl
  | cons x xs ih => unfold insertParcel; split <;> simp [ih]

@[simp] theorem insertEntry_length (f : ListEntry → Pos) (fire : Pos) (e : ListEntry) (xs : List ListEntry) :
    (insertEntry f fire e xs).length = xs.length + 1 := by
  induction xs with
  | nil => rfl
  | cons x xs ih => unfold insertEntry; split <;> simp [ih]

/-- The parcels of a queue with one more placed in it. -/
theorem insertParcel_perm (p : Parcel) (q : List Parcel) : (insertParcel p q).Perm (p :: q) := by
  induction q with
  | nil => exact .refl _
  | cons x xs ih =>
    unfold insertParcel
    split
    · exact .refl _
    · exact (ih.cons x).trans (.swap p x xs)

/-- A parcel of a new serial may be placed in a queue of distinct serials. -/
theorem insertParcel_nodup {p : Parcel} {q : List Parcel} (h : (q.map (·.serial)).Nodup)
    (hp : p.serial ∉ q.map (·.serial)) : ((insertParcel p q).map (·.serial)).Nodup := by
  rw [((insertParcel_perm p q).map _).nodup_iff]
  exact List.nodup_cons.mpr ⟨hp, h⟩

/-- A change of a parcel that keeps its serial keeps the serials of the queue. -/
theorem revise_serials (ln : Lane) (s : Serial) {f : Parcel → Parcel}
    (hf : ∀ p, p.serial = s → (f p).serial = s) :
    (ln.revise s f).queue.map (·.serial) = ln.queue.map (·.serial) := by
  simp only [Lane.revise, List.map_map]
  refine List.map_congr_left fun p _ => ?_
  by_cases h : p.serial = s
  · simp [h, hf p h]
  · simp [h]

theorem revise_bounded {ln : Lane} (h : ln.bounded) (s : Serial) (f : Parcel → Parcel)
    (hf : ∀ p, p.serial = s → (f p).serial = s) : (ln.revise s f).bounded :=
  h.shrink (by rw [revise_serials ln s hf]) h.2.1 fun _ => ⟨le_rfl, le_rfl⟩

/-- A change of one station keeps the bounds if the station after it is within them. -/
theorem modStation_bounded {ln : Lane} (h : ln.bounded) (st : StationId) (f : Station → Station)
    (hf : (f ln.stations[st]).list.length ≤ listCapacity ∧ (f ln.stations[st]).history.length ≤ historyCapacity) :
    (ln.modStation st f).bounded := by
  refine ⟨h.1, h.2.1, fun k => ?_⟩
  by_cases hk : k = st
  · subst hk
    simpa [Lane.modStation] using hf
  · have hne : st.val ≠ k.val := fun e => hk (Fin.ext e.symm)
    have := h.2.2 k
    simpa [Lane.modStation, Vector.getElem_set_ne st.isLt k.isLt hne] using this

theorem unlist_bounded {ln : Lane} (h : ln.bounded) (st : StationId) (s : Serial) :
    (ln.unlist st s).bounded :=
  modStation_bounded h st _ ⟨(List.length_filter_le ..).trans (h.2.2 st).1, (h.2.2 st).2⟩

theorem leaveList_bounded {ln : Lane} (h : ln.bounded) (p : Parcel) : (ln.leaveList p).bounded := by
  unfold Lane.leaveList
  split
  · exact unlist_bounded h _ _
  · exact h

theorem drop_bounded {ln : Lane} (h : ln.bounded) (p : Parcel) : (ln.drop p).bounded := by
  have hl := leaveList_bounded h p
  exact ⟨⟨(List.length_filter_le ..).trans h.1.1, h.1.2.sublist (List.filter_sublist.map _)⟩, hl.2.1, hl.2.2⟩

theorem withLots_bounded {ln : Lane} (h : ln.bounded) {o : LotOut} (ho : o.unit.ring.length ≤ ringCapacity) :
    (ln.withLots o).lane.bounded := ⟨h.1, ho, h.2.2⟩

theorem closeColumns_bounded {env : LaneEnv} {a b : Lane} (h : b.bounded) : (closeColumns env a b).bounded :=
  h.shrink (.refl _) h.2.1 fun st => by simp [closeColumns]

theorem removeParcel_bounded {env : LaneEnv} {s : Serial} {o : Outcome} {ln : Lane} (h : ln.bounded) :
    (removeParcel env s o ln).lane.bounded := by
  unfold removeParcel
  split
  · exact h
  · split
    · exact (drop_bounded h _).same rfl rfl rfl
    · split
      · exact drop_bounded h _
      · exact withLots_bounded (drop_bounded h _) (lotReport_ring h.2.1)

theorem travel_bounded {env : LaneEnv} {p : Parcel} {f : Fraction} {o : Outcome} {ln : Lane} (h : ln.bounded) :
    (travel env p f o ln).lane.bounded := by
  unfold travel
  dsimp only
  have hr := revise_bounded (leaveList_bounded h p) p.serial
    (fun q => { q with phase := .travelling f o }) fun _ hq => hq
  split
  · exact removeParcel_bounded hr
  · exact hr

/-- A verdict keeps the bounds if the list it enters has room. -/
theorem settleVerdict_bounded {env : LaneEnv} {p : Parcel} {f : Fraction} {v : Verdict} {ln : Lane}
    (h : ln.bounded)
    (hv : ∀ aim w m, v = .scheduled aim w m → ln.stations[aim.station].list.length < listCapacity) :
    (settleVerdict env p f v ln).lane.bounded := by
  unfold settleVerdict
  cases v with
  | scheduled aim w m =>
    refine modStation_bounded (revise_bounded h _ _ (by exact fun _ hq => hq)) _ _ ⟨?_, (h.2.2 _).2⟩
    have := hv aim w m rfl
    simpa [Lane.revise] using this
  | _ => exact travel_bounded h

/-- The tests schedule a parcel only where the list has room (R78). -/
theorem judge_room {env : LaneEnv} {ln : Lane} {p : Parcel} {f : Fraction} {st? : Option StationId}
    {prof : Profile} {aim : Aim} {w : Columns} {m : Nat}
    (h : ln.judge env p f st? prof = .scheduled aim w m) :
    ln.stations[aim.station].list.length < listCapacity := by
  unfold Lane.judge at h
  split at h
  · cases h
  · dsimp only at h
    split at h
    · cases h
    · split at h
      · cases h
      · split at h
        · cases h
        · rename_i hn
          cases h
          exact Nat.not_le.mp hn

theorem classify_bounded {env : LaneEnv} {s : Serial} {ln : Lane} (h : ln.bounded) :
    (classify env s ln).lane.bounded := by
  unfold classify
  split
  · exact h
  · exact settleVerdict_bounded (revise_bounded h _ _ fun _ hq => hq) fun _ _ _ hv => judge_room hv

theorem classifyTest_bounded {env : LaneEnv} {p : Parcel} {st : StationId} {ln : Lane} (h : ln.bounded) :
    (classifyTest env p st ln).lane.bounded :=
  settleVerdict_bounded h fun _ _ _ hv => judge_room hv

theorem exits_bounded {env : LaneEnv} {ln : Lane} (h : ln.bounded) : (exits env ln).lane.bounded :=
  runEach_keeps (fun _ _ hl => removeParcel_bounded hl) _ ln h

/-! ## Stations -/

theorem appendHistory_length (hs : List Time) (now : Time) : (appendHistory hs now).length ≤ historyCapacity := by
  simp only [appendHistory, historyCapacity, List.length_drop, List.length_append, List.length_singleton]
  omega

theorem withClosing_bounded {env : LaneEnv} {f : Lane → LaneOut} {ln : Lane} (h : (f ln).lane.bounded) :
    (withClosing env f ln).lane.bounded := closeColumns_bounded h

theorem fireStart_bounded {env : LaneEnv} {st : StationId} {e : ListEntry} {ln : Lane} (h : ln.bounded) :
    (fireStart env st e ln).lane.bounded := by
  unfold fireStart
  split
  · exact h
  · split
    · split
      · exact travel_bounded h
      · exact modStation_bounded (revise_bounded h _ _ (by exact fun _ hq => hq)) _ _ ⟨(h.2.2 st).1, appendHistory_length _ _⟩
    · exact h

theorem stationAdvance_bounded {env : LaneEnv} {st : StationId} {ln : Lane} (h : ln.bounded) :
    (stationAdvance env st ln).lane.bounded :=
  withClosing_bounded (runEach_keeps (fun _ _ hl => removeParcel_bounded hl) _ _
    (runEach_keeps (fun _ _ hl => fireStart_bounded hl) _ ln h))

theorem endFiring_bounded {env : LaneEnv} {r : TraceReason} {o : Outcome} {p : Parcel} {ln : Lane}
    (h : ln.bounded) : (endFiring env r o p ln).lane.bounded := by
  unfold endFiring
  split
  · exact removeParcel_bounded h
  · exact h

theorem cutLane_bounded {env : LaneEnv} {r : TraceReason} {ln : Lane} (h : ln.bounded) :
    (cutLane env r ln).lane.bounded :=
  withClosing_bounded (runEach_keeps (fun _ _ hl => endFiring_bounded hl) _ ln h)

theorem endByMaxOpen_bounded {env : LaneEnv} {p : Parcel} {ln : Lane} (h : ln.bounded) :
    (endByMaxOpen env p ln).lane.bounded := withClosing_bounded (endFiring_bounded h)

theorem stationOff_bounded {env : LaneEnv} {st : StationId} {p : Parcel} {ln : Lane} (h : ln.bounded) :
    (stationOff env st p ln).lane.bounded := by
  unfold stationOff
  split
  · exact endFiring_bounded h
  · exact travel_bounded h
  · exact h

theorem disableStation_bounded {env : LaneEnv} {st : StationId} {ln : Lane} (h : ln.bounded) :
    (disableStation env st ln).lane.bounded :=
  withClosing_bounded (runEach_keeps (fun _ _ hl => stationOff_bounded hl) _ _ (h.same rfl rfl rfl))

theorem syncPorts_bounded {lane : LaneId} {a b : Lane} (h : b.bounded) : (syncPorts lane a b).bounded :=
  h.shrink (.refl _) h.2.1 fun st => by simp [syncPorts]

theorem portFinishes_bounded {st : StationId} {env : LaneEnv} {ln : Lane} (h : ln.bounded) :
    (portFinishes st env ln).bounded := modStation_bounded h st _ (h.2.2 st)

/-! ## The lane controller -/

theorem takeScale_bounded {ln : Lane} (h : ln.bounded) (f : Nat → Nat) : (ln.takeScale f).bounded := by
  unfold Lane.takeScale
  split
  · exact h
  · exact h.same rfl rfl rfl

theorem rest_bounded {ln : Lane} (h : ln.bounded) : ln.rest.bounded := by
  have hp : ({ ln with tb := { ln.tb with pmax := ln.tb.p } } : Lane).bounded := h.same rfl rfl rfl
  exact takeScale_bounded hp _

theorem loseParcel_bounded {env : LaneEnv} {ln : Lane} (s : Serial) (h : ln.bounded) :
    (loseParcel env ln s).bounded := by
  unfold loseParcel
  split
  · exact h
  · split
    · exact (drop_bounded h _).same rfl rfl rfl
    · split
      · exact drop_bounded h _
      · exact ⟨(drop_bounded h _).1, by rw [lotAccrueRemoval_ring]; exact h.2.1, (drop_bounded h _).2.2⟩

theorem loseAll_bounded {env : LaneEnv} {ln : Lane} (h : ln.bounded) : (loseAll env ln).bounded := by
  unfold loseAll
  refine closeColumns_bounded ?_
  generalize ln.queue.map (·.serial) = xs
  induction xs generalizing ln with
  | nil => exact h
  | cons x xs ih => exact ih (loseParcel_bounded x h)

theorem flush_bounded {env : LaneEnv} {ln : Lane} (h : ln.bounded) : (flush env ln).lane.bounded := by
  have hl : (loseAll env { ln with injection := none }).bounded :=
    loseAll_bounded (h.same rfl rfl rfl)
  have hw := withLots_bounded hl (settle_ring (lane := env.id) (now := env.now) hl.2.1)
  exact rest_bounded (hw.same rfl rfl rfl)

theorem halt_bounded {cause : HaltCause} {env : LaneEnv} {ln : Lane} (h : ln.bounded) :
    (halt cause env ln).lane.bounded := by
  unfold halt
  split
  · exact flush_bounded (h.same rfl rfl rfl)
  · exact h

theorem completeDrain_bounded {env : LaneEnv} {ln : Lane} (h : ln.bounded) :
    (completeDrain env ln).lane.bounded := rest_bounded (h.same rfl rfl rfl)

theorem drainIfEmpty_bounded {env : LaneEnv} {a b : Lane} (h : b.bounded) :
    (drainIfEmpty env a b).lane.bounded := by
  unfold drainIfEmpty
  split
  · exact completeDrain_bounded h
  · exact h

/-- The frame of a lane's step keeps the bounds if what its blocks do keeps them. -/
theorem laneStep_bounded {f : LaneEnv → Lane → LaneOut} {env : LaneEnv} {ln : Lane}
    (h : (f env ln).lane.bounded) : (laneStep f env ln).lane.bounded :=
  syncPorts_bounded ((drainIfEmpty_bounded h).same rfl rfl rfl)

theorem startRun_bounded {env : LaneEnv} {ln : Lane} (h : ln.bounded) : (startRun env ln).lane.bounded :=
  h.same rfl rfl rfl

theorem beginDrain_bounded {env : LaneEnv} {ln : Lane} (h : ln.bounded) : (beginDrain env ln).lane.bounded := by
  have hd : (Lane.dropSwitch { ln with state := .draining, injection := none }).bounded := h.same rfl rfl rfl
  unfold beginDrain
  rw [andThen_lane]
  dsimp only
  split
  · exact completeDrain_bounded hd
  · exact hd

theorem clearHalt_bounded {env : LaneEnv} {ln : Lane} (h : ln.bounded) : (clearHalt env ln).lane.bounded :=
  h.same rfl rfl rfl

theorem resetLane_bounded {env : LaneEnv} {ln : Lane} (h : ln.bounded) : (resetLane env ln).lane.bounded := by
  unfold resetLane
  dsimp only
  have h1 : (if ln.active then flush env ln else ln.quiet).lane.bounded := by
    split
    · exact flush_bounded h
    · exact h
  have h2 := withLots_bounded h1 (finish_ring (lane := env.id) (now := env.now) h1.2.1)
  exact rest_bounded (h2.same rfl rfl rfl)

/-- The serial that an admission takes is held by no parcel of a queue within bounds (R3, R16). -/
theorem takenSerial_fresh {ln : Lane} (h : ln.bounded) : ln.takenSerial ∉ ln.queue.map (·.serial) := by
  have hl := h.1.1
  unfold queueCapacity at hl
  exact freshSerial_not_mem _ _ _ (by simp) (by omega)

theorem enqueue_bounded {ln : Lane} (h : ln.bounded) (p : Parcel) (hq : ln.queue.length < queueCapacity)
    (hp : p.serial = ln.takenSerial) : (ln.enqueue p).bounded :=
  ⟨⟨by simpa [Lane.enqueue] using hq, insertParcel_nodup h.1.2 (hp ▸ takenSerial_fresh h)⟩, h.2.1, h.2.2⟩

theorem createTest_bounded {env : LaneEnv} {inj : Injection} {ln : Lane} (h : ln.bounded) :
    (createTest env inj ln).lane.bounded := by
  unfold createTest
  split
  · exact classifyTest_bounded (enqueue_bounded h _ ‹_› rfl)
  · exact h.same rfl rfl rfl

theorem injectAdvance_bounded {env : LaneEnv} {ln : Lane} (h : ln.bounded) :
    (injectAdvance env ln).lane.bounded := by
  unfold injectAdvance
  split
  · exact h
  · exact createTest_bounded (h.same rfl rfl rfl)

/-! ## The timebase -/

theorem judged_bounded {ln : Lane} (h : ln.bounded) (f : Settle → Settle) : (ln.judged f).bounded := by
  unfold Lane.judged
  split
  · split
    · exact h
    · exact h.same rfl rfl rfl
  · exact h
  · exact h

theorem completeSwitch_bounded {env : LaneEnv} {ln : Lane} (h : ln.bounded) :
    (completeSwitch env ln).lane.bounded := by
  unfold completeSwitch
  split
  · exact h
  · exact h.same rfl rfl rfl

theorem work_bounded {env : LaneEnv} (w : Work) {ln : Lane} (h : ln.bounded) :
    (Work.run env w ln).lane.bounded := by
  cases w with
  | forming => exact runEach_keeps (fun _ _ hl => classify_bounded hl) _ ln h
  | station st => exact stationAdvance_bounded h
  | exitLine => exact exits_bounded h
  | inject => exact injectAdvance_bounded h
  | switchDone => exact completeSwitch_bounded h
  | cut => exact cutLane_bounded h
  | limitHalt => exact halt_bounded h

theorem act_bounded {env : LaneEnv} (w : Work) {ln : Lane} (h : ln.bounded) :
    (Work.act env w ln).lane.bounded := drainIfEmpty_bounded (work_bounded w h)

theorem runWorks_bounded {env : LaneEnv} {ws : List Work} {ln : Lane} (h : ln.bounded) :
    (runWorks env ws ln).lane.bounded := runEach_keeps (fun w _ hl => act_bounded w hl) _ ln h

theorem stepForward_bounded {env : LaneEnv} {ln : Lane} (h : ln.bounded) :
    (stepForward env ln).lane.bounded := by
  unfold stepForward
  dsimp only
  split
  · exact runWorks_bounded (h.same rfl rfl rfl)
  · exact runWorks_bounded (h.same rfl rfl rfl)

theorem stepBackward_bounded {env : LaneEnv} {ln : Lane} (h : ln.bounded) :
    (stepBackward env ln).lane.bounded := by
  unfold stepBackward
  dsimp only
  split
  · exact runWorks_bounded (h.same rfl rfl rfl)
  · exact runWorks_bounded (h.same rfl rfl rfl)

theorem boundary_bounded {ln : Lane} (h : ln.bounded) (forward : Bool) : (ln.boundary forward).bounded := by
  unfold Lane.boundary
  dsimp only
  split
  · exact judged_bounded (takeScale_bounded h _) _
  · exact takeScale_bounded h _

theorem counted_bounded {ln : Lane} (h : ln.bounded) (up : Bool) (now : Time) :
    (ln.counted up now).1.bounded := by
  unfold Lane.counted
  have ht : (ln.touchMonitor now).bounded := h.same rfl rfl rfl
  have hs : (if up then ln.touchMonitor now
      else (ln.touchMonitor now).judged fun st => { st with backwardSeen := true }).bounded := by
    split
    · exact ht
    · exact judged_bounded ht _
  dsimp only
  split
  · exact hs.same rfl rfl rfl
  · refine boundary_bounded ?_ _
    exact hs.same rfl rfl rfl

theorem decoderCount_bounded {up : Bool} {env : LaneEnv} {ln : Lane} (h : ln.bounded) :
    (decoderCount up env ln).lane.bounded := by
  have hc := counted_bounded h up env.now
  unfold decoderCount
  dsimp only
  split
  · exact stepForward_bounded hc
  · exact stepBackward_bounded hc
  · exact hc

theorem phaseSample_bounded {a b : Bool} {env : LaneEnv} {ln : Lane} (h : ln.bounded) :
    (phaseSample a b env ln).lane.bounded := by
  have hs : (ln.sampled (a, b)).bounded := h.same rfl rfl rfl
  unfold phaseSample
  dsimp only
  split
  · exact hs
  · exact decoderCount_bounded hs
  · exact decoderCount_bounded hs
  · exact h.same rfl rfl rfl

theorem fallen_bounded {ln : Lane} (h : ln.bounded) (now : Time) (x : Bool × Bool) :
    (ln.fallen now x).bounded := by
  have hc := counted_bounded (ln := ln.sampled x) (h.same rfl rfl rfl) false now
  unfold Lane.fallen
  dsimp only
  split
  · exact hc.same rfl rfl rfl
  · exact hc

theorem phaseSamples_bounded {earlier : List (Bool × Bool)} {a b : Bool} {env : LaneEnv} {ln : Lane}
    (h : ln.bounded) : (phaseSamples earlier a b env ln).lane.bounded :=
  phaseSample_bounded (List.foldlRecOn earlier (Lane.fallen env.now) h fun _ hx x _ => fallen_bounded hx env.now x)

theorem takeRate_bounded {ln : Lane} (h : ln.bounded) : ln.takeRate.bounded := by
  unfold Lane.takeRate
  split
  · exact h
  · exact h.same rfl rfl rfl

theorem nominalCount_bounded {env : LaneEnv} {ln : Lane} (h : ln.bounded) :
    (nominalCount env ln).lane.bounded := by
  unfold nominalCount
  dsimp only
  have hc : (Lane.takeRate { ln with tb := { ln.tb with
      accumulator := ln.tb.accumulator.map (· - fullAccumulator) } }).bounded :=
    takeRate_bounded (h.same rfl rfl rfl)
  split
  · exact stepForward_bounded (judged_bounded hc _)
  · exact hc

theorem driveEdge_bounded {rise : Bool} {env : LaneEnv} {ln : Lane} (h : ln.bounded) :
    (driveEdge rise env ln).lane.bounded := by
  unfold driveEdge
  split
  · dsimp only
    have hr : (if (ln.tb.pendingRate.map (·.setWhileStopped)).getD false then ln.takeRate else ln).bounded := by
      split
      · exact takeRate_bounded h
      · exact h
    exact hr.same rfl rfl rfl
  · exact h.same rfl rfl rfl

theorem settleEnd_bounded {env : LaneEnv} {ln : Lane} (h : ln.bounded) : (settleEnd env ln).lane.bounded :=
  judged_bounded h _

theorem monitorExpires_bounded {env : LaneEnv} {ln : Lane} (h : ln.bounded) :
    (monitorExpires env ln).lane.bounded := h.same rfl rfl rfl

/-! ## Receivers and the forming unit -/

theorem modReceiver_bounded {ln : Lane} (h : ln.bounded) (i : HeadId) (f : Receiver → Receiver) :
    (ln.modReceiver i f).bounded := h.same rfl rfl rfl

theorem discardRecord_bounded {i : HeadId} {c : LinkCause} {env : LaneEnv} {ln : Lane} (h : ln.bounded) :
    (discardRecord i c env ln).lane.bounded := modReceiver_bounded h _ _

theorem choose_mem {window : Nat} {d : Detection} {q : List Parcel} {p : Parcel}
    (h : d.choose window q = some p) : p ∈ q ∧ d.matches window p = true := by
  unfold Detection.choose at h
  suffices ∀ (xs : List Parcel) (best : Option Parcel), (∀ b, best = some b → b ∈ q ∧ d.matches window b = true) →
      (∀ x ∈ xs, x ∈ q ∧ d.matches window x = true) → ∀ r,
      xs.foldl (fun best p => match best with
        | none => some p
        | some q => if d.prefers p q then some p else some q) best = some r →
      r ∈ q ∧ d.matches window r = true from
    this _ none (by simp) (fun x hx => by simpa [List.mem_filter] using hx) p h
  intro xs
  induction xs with
  | nil =>
    intro best hb _ r hr
    exact hb r hr
  | cons x xs ih =>
    intro best hb hx r hr
    refine ih _ ?_ (fun y hy => hx y (List.mem_cons_of_mem _ hy)) r hr
    intro b hbb
    have hx0 := hx x (List.mem_cons_self ..)
    cases best with
    | none => simp at hbb; subst hbb; exact hx0
    | some q' =>
      dsimp only at hbb
      split at hbb
      · simp at hbb; subst hbb; exact hx0
      · simp at hbb; subst hbb; exact hb _ rfl

theorem place_bounded {ln : Lane} (h : ln.bounded) {old new : Parcel} (ho : old ∈ ln.queue)
    (hs : new.serial = old.serial) : (ln.place old new).bounded := by
  unfold Lane.place
  split
  · exact revise_bounded h _ _ fun _ _ => hs
  · have hn : ((insertParcel new (ln.queue.filter (·.serial != old.serial))).map (·.serial)).Nodup :=
      insertParcel_nodup (h.1.2.sublist (List.filter_sublist.map _)) (by simp [hs])
    refine ⟨⟨?_, hn⟩, h.2.1, h.2.2⟩
    have hlt : (ln.queue.filter (·.serial != old.serial)).length < ln.queue.length := by
      rw [List.length_filter_lt_length_iff_exists]
      exact ⟨old, ho, by simp⟩
    have := h.1.1
    simp only [insertParcel_length]
    omega

theorem closeIfComplete_bounded {env : LaneEnv} {d : Detection} {p : Parcel} {ln : Lane} (h : ln.bounded) :
    (closeIfComplete env d p ln).lane.bounded := by
  unfold closeIfComplete
  split
  · exact classify_bounded h
  · exact h

theorem admitFormed_bounded {env : LaneEnv} {p : Parcel} {ln : Lane} (h : ln.bounded)
    (hq : ln.queue.length < queueCapacity) (hp : p.serial = ln.takenSerial) :
    (ln.admitFormed env p).bounded :=
  ⟨(enqueue_bounded h p hq hp).1, by show (LotUnit.form ..).ring.length ≤ _; rw [lotForm_ring]; exact h.2.1,
    (enqueue_bounded h p hq hp).2.2⟩

theorem formDetection_bounded {env : LaneEnv} {d : Detection} {ln : Lane} (h : ln.bounded) :
    (formDetection env d ln).lane.bounded := by
  unfold formDetection
  split
  · rename_i p hp
    exact closeIfComplete_bounded (place_bounded h (choose_mem hp).1 rfl)
  · split
    · exact closeIfComplete_bounded (admitFormed_bounded h ‹_› rfl)
    · exact h.same rfl rfl rfl

theorem checkRecord_bounded {i : HeadId} {body : List Byte} {env : LaneEnv} {ln : Lane} (h : ln.bounded) :
    (checkRecord i body env ln).lane.bounded := by
  unfold checkRecord
  split
  · unfold checkDetection
    split
    · exact discardRecord_bounded h
    · split
      · split
        · exact discardRecord_bounded h
        · split
          · exact discardRecord_bounded h
          · split
            · unfold takeDetection
              have hc : (ln.countRecord i env.now).bounded := modReceiver_bounded h _ _
              split
              · exact formDetection_bounded hc
              · exact hc.same rfl rfl rfl
            · exact discardRecord_bounded h
      · exact discardRecord_bounded h
  · split
    · unfold checkIdle
      split
      · exact discardRecord_bounded h
      · exact modReceiver_bounded h _ _
    · exact discardRecord_bounded h

theorem receiveByte_bounded {i : HeadId} {env : LaneEnv} {b : LineByte} {ln : Lane} (h : ln.bounded) :
    (receiveByte i env b ln).lane.bounded := by
  unfold receiveByte
  dsimp only
  generalize (Assembler.take sensorFormat env.now b ln.receivers[i].asm).2 = fate
  generalize (Assembler.take sensorFormat env.now b ln.receivers[i].asm).1 = asm
  have hm := modReceiver_bounded h i fun r => { r with asm := asm }
  cases fate with
  | underway => exact hm
  | abandoned => exact discardRecord_bounded hm
  | complete body => exact checkRecord_bounded hm

theorem receiveBytes_bounded {i : HeadId} {bytes : List LineByte} {env : LaneEnv} {ln : Lane}
    (h : ln.bounded) : (receiveBytes i bytes env ln).lane.bounded :=
  runEach_keeps (fun _ _ hl => receiveByte_bounded hl) _ ln h

theorem receiverGap_bounded {i : HeadId} {env : LaneEnv} {ln : Lane} (h : ln.bounded) :
    (receiverGap i env ln).lane.bounded := discardRecord_bounded (modReceiver_bounded h _ _)

/-! ## The rest -/

theorem hostClose_bounded {id : LotId} {env : LaneEnv} {ln : Lane} (h : ln.bounded) :
    (hostClose id env ln).lane.bounded := withLots_bounded h (settle_ring h.2.1)

theorem gain_bounded {ln : Lane} (h : ln.bounded) : ln.gain.bounded := h.same rfl rfl rfl

theorem runMs_bounded {hold : Bool} {ln : Lane} (h : ln.bounded) : (ln.runMs hold).bounded := by
  unfold Lane.runMs
  split
  · refine h.same rfl ?_ rfl
    cases hold <;> rfl
  · exact h

theorem sendStartUpFrames_bounded {l : LaneId} {ln : Lane} (h : ln.bounded) :
    (ln.sendStartUpFrames l).bounded := h.shrink (.refl _) h.2.1 fun st => by simp [Lane.sendStartUpFrames]

theorem powerOn_bounded (l : LaneId) (c : LaneConfig) (ph : Bool × Bool) : (Lane.powerOn l c ph).bounded := by
  refine ⟨by simp [Lane.powerOn, queueCapacity], by simp [Lane.powerOn, LotUnit.powerOn, ringCapacity], ?_⟩
  intro st
  simp [Lane.powerOn, Station.powerOn, listCapacity, historyCapacity]

end Sys2Proof.Machine
end

