-- ==== Sys2Proof/Laws/Parcels.lean ====
section
/-! SUPPORT. What the operations on the parcels of a lane do: queue order, the scan, the choice of a
station, a parcel sent on, the tests of a classification, a firing start, and the works of a step. -/

namespace Sys2Proof.Machine

/-! ## Works in any order (log 3) -/

/-- The order that the free picks give holds each work once. -/
theorem arrange_perm {α : Type} (pick : Nat → Nat) (n : Nat) (xs : List α) : (arrange pick n xs).Perm xs := by
  induction n generalizing xs with
  | zero => exact .refl _
  | succ n ih =>
    match xs with
    | [] => exact .refl _
    | [y] => exact .refl _
    | y :: z :: zs =>
      have key : ∀ (all : List α) (i : Nat),
          ((all.drop i).take 1 ++ arrange pick n (all.take i ++ all.drop (i + 1))).Perm all := by
        intro all i
        refine ((ih _).append_left _).trans ?_
        have h1 : all.take i ++ ((all.drop i).take 1 ++ all.drop (i + 1)) = all := by
          have h2 : (all.drop i).take 1 ++ all.drop (i + 1) = all.drop i := by
            rw [show all.drop (i + 1) = (all.drop i).drop 1 by rw [List.drop_drop]]
            exact List.take_append_drop 1 _
          rw [h2, List.take_append_drop]
        conv_rhs => rw [← h1]
        rw [← List.append_assoc, ← List.append_assoc]
        exact (List.perm_append_comm).append_right _
      exact key _ _

/-! ## Queue order (R14, R15) -/

theorem precedes_iff (a b : Parcel) : a.precedes b = true ↔ a.StandsBefore b := by
  unfold Parcel.precedes Parcel.StandsBefore
  split <;> simp

/-- A parcel takes its place in queue order. -/
theorem insertParcel_placed (p : Parcel) (q : List Parcel) : PlacedIn p q (insertParcel p q) := by
  induction q with
  | nil => exact ⟨[], [], rfl, rfl, by simp, by simp⟩
  | cons x xs ih =>
    unfold insertParcel
    split
    · rename_i h
      exact ⟨[], x :: xs, rfl, rfl, by simp, by simpa using (precedes_iff p x).mp h⟩
    · rename_i h
      obtain ⟨a, b, e1, e2, h1, h2⟩ := ih
      refine ⟨x :: a, b, by rw [e1]; rfl, by rw [e2]; rfl, ?_, h2⟩
      intro y hy
      rcases List.mem_cons.mp hy with rfl | hy
      · exact fun hc => h ((precedes_iff p y).mpr hc)
      · exact h1 y hy

/-- An entry takes its place in a firing list (R93). -/
theorem insertEntry_placed (fireOf : ListEntry → Pos) (fire : Pos) (e : ListEntry) (q : List ListEntry) :
    ∃ xs ys : List ListEntry, q = xs ++ ys ∧ insertEntry fireOf fire e q = xs ++ e :: ys ∧
      (∀ x ∈ xs, listPrecedes fire e.serial (fireOf x) x.serial = false) ∧
      (∀ y, ys.head? = some y → listPrecedes fire e.serial (fireOf y) y.serial = true) := by
  induction q with
  | nil => exact ⟨[], [], rfl, rfl, by simp, by simp⟩
  | cons x xs ih =>
    unfold insertEntry
    split
    · rename_i h
      exact ⟨[], x :: xs, rfl, rfl, by simp, by simpa using h⟩
    · rename_i h
      obtain ⟨a, b, e1, e2, h1, h2⟩ := ih
      refine ⟨x :: a, b, by rw [e1]; rfl, by rw [e2]; rfl, ?_, h2⟩
      intro y hy
      rcases List.mem_cons.mp hy with rfl | hy
      · simpa using h
      · exact h1 y hy

/-! ## The scan and the station (R76, R79) -/

theorem entry_matches_iff (e : ClassEntry) (cs : List Contribution) : e.matches cs = true ↔ e.Meets cs := by
  unfold ClassEntry.matches ClassEntry.Meets ClassEntry.accepts
  simp only [Bool.and_eq_true, List.all_eq_true, List.mem_finRange, forall_const, Bool.or_eq_true,
    Bool.not_eq_true', List.any_eq_true, beq_iff_eq, decide_eq_true_eq]
  refine and_congr_right fun _ => forall_congr' fun h => ?_
  cases hr : e.requirement[h] with
  | false => simp
  | true =>
    simp only [Bool.true_eq_false, false_or, forall_const]
    constructor
    · rintro ⟨c, hc, rfl, ⟨h1, h2⟩, h3⟩
      exact ⟨c, hc, rfl, h1, h2, h3⟩
    · rintro ⟨c, hc, rfl, h1, h2, h3⟩
      exact ⟨c, hc, rfl, ⟨h1, h2⟩, h3⟩

/-- What looking for the first member of `List.finRange n` that passes gives. -/
theorem find_finRange {n : Nat} (f : Fin n → Bool) :
    match (List.finRange n).find? f with
    | some i => f i = true ∧ ∀ j : Fin n, j < i → f j = false
    | none => ∀ j : Fin n, f j = false := by
  cases h : (List.finRange n).find? f with
  | none =>
    intro j
    have := List.find?_eq_none.mp h j (List.mem_finRange j)
    simpa using this
  | some i =>
    refine ⟨List.find?_some h, fun j hj => ?_⟩
    obtain ⟨_, as, bs, e, ha⟩ := List.find?_eq_some_iff_append.mp h
    have hm : j ∈ as ++ i :: bs := e ▸ List.mem_finRange j
    have hp : (as ++ i :: bs).Pairwise (· < ·) := e ▸ List.pairwise_lt_finRange n
    rcases List.mem_append.mp hm with hm | hm
    · simpa using ha j hm
    · rw [List.pairwise_append] at hp
      rcases List.mem_cons.mp hm with rfl | hm
      · exact absurd hj (lt_irrefl _)
      · have := (List.pairwise_cons.mp hp.2.1).1 j hm
        exact absurd hj (not_lt.mpr this.le)

theorem scan_scanned (table : Vector ClassEntry 64) (cs : List Contribution) : Scanned table cs (scan table cs) := by
  have h := find_finRange fun i : Fin 64 => table[i].matches cs
  unfold scan
  cases hf : (List.finRange 64).find? fun i => table[i].matches cs with
  | none =>
    rw [hf] at h
    intro j hc
    have h2 := (entry_matches_iff _ _).mpr hc
    rw [h j] at h2
    cases h2
  | some i =>
    rw [hf] at h
    refine ⟨(entry_matches_iff _ _).mp h.1, fun j hj hc => ?_⟩
    have h2 := (entry_matches_iff _ _).mpr hc
    rw [h.2 j hj] at h2
    cases h2

theorem stationFor_stationOf (ln : Lane) (f : Fraction) : ln.StationOf f (ln.stationFor f) := by
  have h := find_finRange fun st : Fin 3 =>
    ln.cfg.geometry.stationEnable[st] && ln.cfg.geometry.stationFraction[st].fraction == f
  unfold Lane.stationFor
  cases hf : (List.finRange 3).find? fun st =>
      ln.cfg.geometry.stationEnable[st] && ln.cfg.geometry.stationFraction[st].fraction == f with
  | none =>
    rw [hf] at h
    intro k he hc
    have := h k
    simp only [he, Bool.true_and, beq_eq_false_iff_ne] at this
    exact this hc
  | some st =>
    rw [hf] at h
    have h1 := h.1
    simp only [Bool.and_eq_true, beq_iff_eq] at h1
    refine ⟨h1.1, h1.2, fun k hk he hc => ?_⟩
    have := h.2 k hk
    simp only [he, Bool.true_and, beq_eq_false_iff_ne] at this
    exact this hc

/-- The scan gives one entry. -/
theorem scanned_unique {table : Vector ClassEntry 64} {cs : List Contribution} {a b : Option (Fin 64)}
    (ha : Scanned table cs a) (hb : Scanned table cs b) : a = b := by
  cases a with
  | none =>
    cases b with
    | none => rfl
    | some j => exact absurd hb.1 (ha j)
  | some i =>
    cases b with
    | none => exact absurd ha.1 (hb i)
    | some j =>
      rcases lt_trichotomy i j with h | h | h
      · exact absurd ha.1 (hb.2 i h)
      · rw [h]
      · exact absurd hb.1 (ha.2 j h)

/-- A fraction has one station. -/
theorem stationOf_unique {ln : Lane} {f : Fraction} {a b : Option StationId} (ha : ln.StationOf f a)
    (hb : ln.StationOf f b) : a = b := by
  cases a with
  | none =>
    cases b with
    | none => rfl
    | some j => exact absurd hb.2.1 (ha j hb.1)
  | some i =>
    cases b with
    | none => exact absurd ha.2.1 (hb i ha.1)
    | some j =>
      rcases lt_trichotomy i j with h | h | h
      · exact absurd ha.2.1 (hb.2.2 i h ha.1)
      · rw [h]
      · exact absurd hb.2.1 (ha.2.2 j h hb.1)

/-! ## The forming unit (R57 to R64) -/

theorem detection_matches_iff (d : Detection) (window : Nat) (p : Parcel) :
    d.matches window p = true ↔ d.Meets window p := by
  unfold Detection.matches Detection.Meets Detection.shared sharedColumns gapBetween Parcel.isForming
  simp only [Bool.and_eq_true, decide_eq_true_eq, Bool.not_eq_true', List.any_eq_false, beq_iff_eq]
  constructor
  · rintro ⟨⟨⟨h1, h2⟩, h3⟩, h4⟩
    refine ⟨?_, h2, by omega, h4⟩
    cases hp : p.phase <;> simp [hp] at h1 ⊢
  · rintro ⟨⟨c, h1⟩, h2, h3, h4⟩
    exact ⟨⟨⟨by rw [h1], h2⟩, by omega⟩, h4⟩

/-- A detection takes none of the parcels it does not match. -/
theorem choose_none {window : Nat} {d : Detection} {q : List Parcel} (h : ∀ p ∈ q, ¬d.Meets window p) :
    d.choose window q = none := by
  unfold Detection.choose
  rw [List.filter_eq_nil_iff.mpr fun p hp hm => h p hp ((detection_matches_iff d window p).mp hm)]
  rfl

/-- Of two parcels the one a detection would rather take, or an equal one (R59). -/
def Detection.AtLeast (d : Detection) (a b : Parcel) : Prop :=
  d.shared b < d.shared a ∨ d.shared b = d.shared a ∧ a.serial.toNat ≤ b.serial.toNat

/-- A detection takes the best of the parcels it matches (R58, R59). -/
theorem choose_best {window : Nat} {d : Detection} {q : List Parcel} {p : Parcel} (hp : p ∈ q)
    (hm : d.Meets window p) : ∃ r, d.choose window q = some r ∧ r ∈ q ∧ d.Meets window r ∧
      ∀ x ∈ q, d.Meets window x → d.AtLeast r x := by
  have key : ∀ (xs : List Parcel) (b : Parcel), ∃ r, xs.foldl (fun best p => match best with
        | none => some p
        | some q => if d.prefers p q then some p else some q) (some b) = some r ∧ (r = b ∨ r ∈ xs) ∧
      d.AtLeast r b ∧ ∀ x ∈ xs, d.AtLeast r x := by
    intro xs
    induction xs with
    | nil => exact fun b => ⟨b, rfl, .inl rfl, .inr ⟨rfl, le_rfl⟩, by simp⟩
    | cons x xs ih =>
      intro b
      rw [List.foldl_cons]
      dsimp only
      by_cases hx : d.prefers x b = true
      · rw [if_pos hx]
        obtain ⟨r, e, hr, h1, h2⟩ := ih x
        have hxb : d.AtLeast x b := by
          unfold Detection.prefers at hx
          unfold Detection.AtLeast
          split at hx <;> simp at hx <;> omega
        refine ⟨r, e, .inr ?_, ?_, fun y hy => ?_⟩
        · rcases hr with rfl | hr
          · exact List.mem_cons_self ..
          · exact List.mem_cons_of_mem _ hr
        · unfold Detection.AtLeast at *
          omega
        · rcases List.mem_cons.mp hy with rfl | hy
          · exact h1
          · exact h2 y hy
      · rw [if_neg hx]
        obtain ⟨r, e, hr, h1, h2⟩ := ih b
        have hbx : d.AtLeast b x := by
          unfold Detection.prefers at hx
          unfold Detection.AtLeast
          split at hx <;> simp at hx <;> omega
        refine ⟨r, e, ?_, h1, fun y hy => ?_⟩
        · rcases hr with rfl | hr
          · exact .inl rfl
          · exact .inr (List.mem_cons_of_mem _ hr)
        · rcases List.mem_cons.mp hy with rfl | hy
          · unfold Detection.AtLeast at *
            omega
          · exact h2 y hy
  have hmem : p ∈ q.filter (d.matches window) :=
    List.mem_filter.mpr ⟨hp, (detection_matches_iff d window p).mpr hm⟩
  unfold Detection.choose
  cases hq : q.filter (d.matches window) with
  | nil =>
    rw [hq] at hmem
    cases hmem
  | cons b xs =>
    obtain ⟨r, e, hr, h1, h2⟩ := key xs b
    have hr' : r ∈ q.filter (d.matches window) := by
      rw [hq]
      rcases hr with rfl | hr
      · exact List.mem_cons_self ..
      · exact List.mem_cons_of_mem _ hr
    refine ⟨r, e, (List.mem_filter.mp hr').1, (detection_matches_iff d window r).mp (List.mem_filter.mp hr').2,
      fun x hx hmx => ?_⟩
    have hx' : x ∈ b :: xs := hq ▸ List.mem_filter.mpr ⟨hx, (detection_matches_iff d window x).mpr hmx⟩
    rcases List.mem_cons.mp hx' with rfl | hx'
    · exact h1
    · exact h2 x hx'

/-- The greatest head offset among the enabled heads is one number (R57). -/
theorem reach_of_reaches {g : Geometry} {n : Nat} (h : g.Reaches n) : g.reach = n := by
  have key : ∀ (xs : List (Fin 3)) (m : Nat), (∀ x ∈ xs, g.headOffset[x] ≤ n) → m ≤ n →
      xs.foldl (fun m h => max m g.headOffset[h]) m ≤ n ∧
      m ≤ xs.foldl (fun m h => max m g.headOffset[h]) m ∧
      ∀ x ∈ xs, g.headOffset[x] ≤ xs.foldl (fun m h => max m g.headOffset[h]) m := by
    intro xs
    induction xs with
    | nil => exact fun m _ hm => ⟨hm, le_rfl, by simp⟩
    | cons x xs ih =>
      intro m hx hm
      have hx0 := hx x (List.mem_cons_self ..)
      obtain ⟨h1, h2, h3⟩ := ih (max m g.headOffset[x]) (fun y hy => hx y (List.mem_cons_of_mem _ hy))
        (max_le hm hx0)
      refine ⟨h1, (le_max_left _ _).trans h2, fun y hy => ?_⟩
      rcases List.mem_cons.mp hy with rfl | hy
      · exact (le_max_right _ _).trans h2
      · exact h3 y hy
  have hk := key ((List.finRange 3).filter fun h => g.headEnable[h]) 0
    (fun x hx => h.1 x (by simpa using hx)) (Nat.zero_le _)
  unfold Geometry.reach
  rcases h.2 with e | ⟨x, hx, e⟩
  · omega
  · have := hk.2.2 x (by simpa using hx)
    have h1 := hk.1
    simp only [Fin.getElem_fin] at this h1 e ⊢
    omega

/-- What a formation report does to a lot unit (R136, R141, R142). -/
theorem form_counts (lane : LaneId) (now : Time) (limit : Nat) (serial : Serial) (u : LotUnit) :
    u.Counts lane now limit serial (u.form lane now limit serial) := by
  unfold LotUnit.Counts LotUnit.form LotRecord.reached
  dsimp only
  have hr : ((limit != 0 && atOrBehind (BitVec.ofNat 32 limit) (u.filling.accrueFormation serial).formed) = true) ↔
      (limit ≠ 0 ∧ atOrBehind (BitVec.ofNat 32 limit) (u.filling.formed + 1) = true) := by
    simp [LotRecord.accrueFormation]
  refine ⟨fun h => ?_, fun h hd => ?_, fun h hd => ?_⟩
  · rw [if_neg (fun hc => h (hr.mp hc))]; rfl
  · rw [if_pos (hr.mpr h), if_pos (by rw [hd]; rfl)]
    rfl
  · rw [if_pos (hr.mpr h), if_neg (by cases hx : u.draining with
      | none => exact absurd hx hd
      | some _ => simp)]
    rfl

theorem reported_iff (g : Geometry) (p : Parcel) : p.reported g = true ↔ p.Complete g := by
  unfold Parcel.reported Parcel.Complete
  simp only [List.all_eq_true, List.mem_finRange, forall_const, Bool.or_eq_true, Bool.not_eq_true',
    List.any_eq_true, beq_iff_eq]
  refine forall_congr' fun h => ?_
  cases g.headEnable[h] <;> simp

/-! ## A parcel sent on (R7) -/

theorem leaveList_stations (ln : Lane) (p : Parcel) (st : StationId) :
    (ln.leaveList p).stations[st] = { ln.stations[st] with
      list := if p.station? = some st then ln.stations[st].list.filter (·.serial != p.serial)
        else ln.stations[st].list } := by
  unfold Lane.leaveList
  cases h : p.station? with
  | none => simp
  | some k =>
    by_cases hk : k = st
    · subst hk
      simp [Lane.unlist, Lane.modStation]
    · have hne : k.val ≠ st.val := fun e => hk (Fin.ext e)
      have : (some k = some st) = False := by simp [hk]
      simp [Lane.unlist, Lane.modStation, Vector.getElem_set_ne k.isLt st.isLt hne, hk]

/-- A removal of a parcel that stands in no firing list leaves the stations. -/
theorem removeParcel_stations {env : LaneEnv} {s : Serial} {o : Outcome} {ln : Lane}
    (h : ∀ q ∈ ln.queue, q.serial = s → q.station? = none) :
    (removeParcel env s o ln).lane.stations = ln.stations := by
  unfold removeParcel
  split
  · rfl
  · rename_i p hp
    have hs : p.serial = s := by simpa using List.find?_some hp
    have hn := h p (List.mem_of_find?_eq_some hp) hs
    have hd : (ln.drop p).stations = ln.stations := by simp [Lane.drop, Lane.leaveList, hn]
    split
    · exact hd
    · split <;> exact hd

theorem map_revise_filter (f : Parcel → Parcel) (s : Serial) (q : List Parcel)
    (hf : ∀ p, p.serial = s → (f p).serial = s) :
    (q.map fun p => if p.serial = s then f p else p).filter (·.serial != s) = q.filter (·.serial != s) := by
  induction q with
  | nil => rfl
  | cons x xs ih =>
    by_cases hx : x.serial = s
    · simp [hx, hf x hx, ih]
    · simp [hx, ih]

/-- What sending a parcel on does. -/
theorem travel_rides (env : LaneEnv) (p : Parcel) (f : Fraction) (o : Outcome) (ln : Lane) :
    ln.Rides p f o [] (travel env p f o ln) := by
  have hb := travel_sameBelt env p f o ln
  have hll : (ln.leaveList p).queue = ln.queue ∧ (ln.leaveList p).lots = ln.lots := by
    unfold Lane.leaveList
    split <;> exact ⟨rfl, rfl⟩
  have hst : (travel env p f o ln).lane.stations = (ln.leaveList p).stations := by
    unfold travel
    dsimp only
    split
    · rw [removeParcel_stations]
      · rfl
      · intro q hq hs
        simp only [Lane.revise, List.mem_map] at hq
        obtain ⟨x, _, rfl⟩ := hq
        split
        · rfl
        · rename_i hne
          rw [if_neg hne] at hs
          exact absurd hs hne
    · rfl
  refine ⟨fun st => ?_, hb.tb, hb.state, hb.cfg, fun he => ?_, fun he => ?_⟩
  · simp only [hst]
    exact leaveList_stations ln p st
  · unfold travel
    dsimp only
    rw [if_neg (by simpa [Lane.exitPos] using he)]
    refine ⟨?_, hll.2, rfl⟩
    simp [Lane.quiet, Lane.revise]
  · unfold travel
    dsimp only
    rw [if_pos (by simpa [Lane.exitPos] using he)]
    refine ⟨?_, _, rfl⟩
    rw [removeParcel_queue]
    simp only [Lane.revise, hll.1]
    exact map_revise_filter (fun q => { q with phase := .travelling f o }) p.serial ln.queue fun _ h => h

/-- What sending a parcel on does with a trace entry made first. -/
theorem marked_travel_rides (env : LaneEnv) (p : Parcel) (f : Fraction) (o : Outcome) (e : Effect) (ln : Lane) :
    ln.Rides p f o [e] ((⟨ln, [e]⟩ : LaneOut).andThen (travel env p f o)) := by
  obtain ⟨h1, h2, h3, h4, h5, h6⟩ := travel_rides env p f o ln
  refine ⟨h1, h2, h3, h4, fun he => ?_, fun he => ?_⟩
  · obtain ⟨a, b, c⟩ := h5 he
    exact ⟨a, b, by show [e] ++ (travel env p f o ln).effects = _; rw [c]; rfl⟩
  · obtain ⟨a, es, c⟩ := h6 he
    exact ⟨a, es, by show [e] ++ (travel env p f o ln).effects = _; rw [c]; rfl⟩

/-! ## The tests of a classification (R78 to R87) -/

theorem columnRange_bit (lo hi : Nat) (h : hi < 32) (k : Nat) (hk : k < 32) :
    (columnRange lo hi).getLsbD k = decide (lo ≤ k ∧ k ≤ hi) := by
  have key : ∀ lo < 33, ∀ hi < 32, ∀ k < 32, (columnRange lo hi).getLsbD k = decide (lo ≤ k ∧ k ≤ hi) := by
    decide +kernel
  by_cases hl : lo < 33
  · exact key lo hl hi h k hk
  · have : 2 ^ (hi + 1) - 2 ^ lo = 0 := by
      have : 2 ^ (hi + 1) ≤ 2 ^ lo := Nat.pow_le_pow_right (by decide) (by omega)
      omega
    simp only [columnRange, this]
    simp
    omega

/-- The widened columns: the parcel's, widened by the spread on both sides, as far as there are columns
(R82). -/
theorem widened_bit (p : Parcel) (spread : Nat) (k : Fin 32) : (p.widened spread).getLsbD k.val =
    decide (p.firstColumn.val ≤ k.val + spread ∧ k.val ≤ p.lastColumn.val + spread) := by
  have hk := k.isLt
  unfold Parcel.widened
  rw [columnRange_bit _ _ (by omega) _ hk]
  congr 1
  rw [eq_iff_iff]
  omega

/-- What the tests and their verdict do to a parcel that stands in no firing list. -/
theorem judge_settles (env : LaneEnv) (ln : Lane) (p : Parcel) (f : Fraction) (st? : Option StationId)
    (prof : Profile) : ln.Settles env p f st? prof (settleVerdict env p f (ln.judge env p f st? prof) ln) := by
  refine ⟨?_, ?_⟩
  · rintro rfl
    exact travel_rides env p f .passed ln
  · rintro st rfl
    dsimp only
    have fullIff : (env.chuteFull[ln.cfg.geometry.stationFraction[st].code] &&
        ln.cfg.policies[ln.cfg.geometry.stationFraction[st].code] == .redirect) = true ↔
        (env.chuteFull[ln.cfg.geometry.stationFraction[st].code] = true ∧
        ln.cfg.policies[ln.cfg.geometry.stationFraction[st].code] = .redirect) := by simp
    unfold Lane.judge
    dsimp only
    refine ⟨fun hf => ?_, fun hf hl => ?_, fun hf hl hn => ?_, fun hf hl hn => ?_⟩
    · rw [if_pos (fullIff.mpr hf)]
      exact marked_travel_rides ..
    · rw [if_neg (fun h => hf (fullIff.mp h)), if_pos (by simpa [firePosition] using hl)]
      exact marked_travel_rides ..
    · rw [if_neg (fun h => hf (fullIff.mp h)), if_neg (by simpa [firePosition] using hl),
        if_pos (by simpa [listCapacity] using hn)]
      exact marked_travel_rides ..
    · rw [if_neg (fun h => hf (fullIff.mp h)), if_neg (by simpa [firePosition] using hl),
        if_neg (by simpa [listCapacity] using hn)]
      obtain ⟨xs, ys, e1, e2, h1, h2⟩ := insertEntry_placed ln.entryFire (firePosition p
        ln.cfg.geometry.stationDistance[st] prof) ⟨p.serial, p.widened prof.spread, prof.maxOpen⟩
        ln.stations[st].list
      refine ⟨rfl, ⟨p.widened prof.spread, widened_bit p prof.spread, xs, ys, e1, ?_, h1, h2⟩, ?_, rfl, rfl,
        rfl, rfl⟩
      · simp only [settleVerdict, Lane.quiet, Lane.modStation, Lane.revise, Fin.getElem_fin,
          Vector.getElem_set_self, Station.mk.injEq, and_true]
        exact e2
      · intro k hk
        have hne : st.val ≠ k.val := fun e => hk (Fin.ext e.symm)
        simp [settleVerdict, Lane.quiet, Lane.modStation, Lane.revise, Vector.getElem_set_ne st.isLt k.isLt hne]

/-- What the classification of a FORMING parcel does (R66, R75 to R87). -/
theorem classify_settles (env : LaneEnv) (ln : Lane) (p : Parcel) (hp : ln.find p.serial = some p) :
    (ln.revise p.serial fun q => { q with entry := scan env.table p.contributions }).Settles env p
      (fractionOf env (scan env.table p.contributions))
      (ln.stationFor (fractionOf env (scan env.table p.contributions)))
      (profileOf env (scan env.table p.contributions)) (classify env p.serial ln) := by
  unfold classify
  rw [hp]
  exact judge_settles env (ln.revise p.serial fun q => { q with entry := scan env.table p.contributions }) p _ _ _

/-! ## Removals one after another -/

theorem runEach_removes (env : LaneEnv) (xs : List (Serial × Outcome)) (ln : Lane) :
    (runEach (fun x => removeParcel env x.1 x.2) xs ln).lane.queue =
      ln.queue.filter fun p => !xs.any fun x => x.1 == p.serial := by
  have key : ∀ (xs : List (Serial × Outcome)) (o : LaneOut),
      (xs.foldl (fun o x => o.andThen (removeParcel env x.1 x.2)) o).lane.queue =
        o.lane.queue.filter fun p => !xs.any fun x => x.1 == p.serial := by
    intro xs
    induction xs with
    | nil => intro o; simp
    | cons x xs ih =>
      intro o
      rw [List.foldl_cons, ih, andThen_lane, removeParcel_queue, List.filter_filter]
      refine List.filter_congr fun p _ => ?_
      by_cases h : x.1 = p.serial
      · simp [h]
      · rw [List.any_cons, beq_eq_false_iff_ne.mpr h, bne_iff_ne.mpr fun e => h e.symm, Bool.and_true,
          Bool.false_or]
  exact key xs ln.quiet

/-- Removals leave the start histories and the rest-until times as they are. -/
theorem runEach_removes_stations (env : LaneEnv) (xs : List (Serial × Outcome)) (ln : Lane) (k : StationId) :
    (runEach (fun x => removeParcel env x.1 x.2) xs ln).lane.stations[k].history = ln.stations[k].history ∧
    (runEach (fun x => removeParcel env x.1 x.2) xs ln).lane.stations[k].restUntil = ln.stations[k].restUntil := by
  have one : ∀ (s : Serial) (o : Outcome) (x : Lane),
      (removeParcel env s o x).lane.stations[k].history = x.stations[k].history ∧
      (removeParcel env s o x).lane.stations[k].restUntil = x.stations[k].restUntil := by
    intro s o x
    unfold removeParcel
    split
    · exact ⟨rfl, rfl⟩
    · rename_i p _
      have hl := leaveList_stations x p k
      have hd : (x.drop p).stations[k].history = x.stations[k].history ∧
          (x.drop p).stations[k].restUntil = x.stations[k].restUntil := by
        show (x.leaveList p).stations[k].history = _ ∧ (x.leaveList p).stations[k].restUntil = _
        rw [hl]; exact ⟨rfl, rfl⟩
      split
      · exact hd
      · split <;> exact hd
  exact runEach_keeps (Φ := fun x => x.stations[k].history = ln.stations[k].history ∧
      x.stations[k].restUntil = ln.stations[k].restUntil)
    (fun x y hy => ⟨(one _ _ y).1.trans hy.1, (one _ _ y).2.trans hy.2⟩) xs ln ⟨rfl, rfl⟩

/-! ## Firing starts (R97 to R102) -/

theorem foldl_bits (now : Time) (xs : List (Option Time × Nat)) (acc : Columns) (k : Nat) (hk : k < 32)
    (hx : ∀ x ∈ xs, x.2 < 32) :
    (xs.foldl (fun acc x => if (x.1.map fun r => ahead now r).getD false
      then acc ||| BitVec.ofNat 32 (2 ^ x.2) else acc) acc).getLsbD k =
      (acc.getLsbD k || xs.any fun x => x.2 == k && (x.1.map fun r => ahead now r).getD false) := by
  induction xs generalizing acc with
  | nil => simp
  | cons x xs ih =>
    rw [List.foldl_cons, ih _ fun y hy => hx y (List.mem_cons_of_mem _ hy), List.any_cons]
    have hx0 := hx x (List.mem_cons_self ..)
    have hb : (BitVec.ofNat 32 (2 ^ x.2)).getLsbD k = (x.2 == k) := by
      rw [BitVec.getLsbD_ofNat, Nat.testBit_two_pow]
      by_cases h : x.2 = k <;> simp [h, hk]
    cases hc : (x.1.map fun r => ahead now r).getD false with
    | false => simp
    | true => simp only [if_true, BitVec.getLsbD_or, hb, Bool.and_true, Bool.or_assoc]

/-- A column rests at a moment if its rest-until time is present and lies after it (R95). -/
theorem restSet_bit (v : Vector (Option Time) 32) (now : Time) (k : Fin 32) :
    (restSet v now).getLsbD k.val = (v[k].map fun r => ahead now r).getD false := by
  unfold restSet
  rw [foldl_bits now _ _ _ k.isLt]
  · simp only [BitVec.ofNat_eq_ofNat, BitVec.getLsbD_zero, Bool.false_or]
    rw [Bool.eq_iff_iff, List.any_eq_true]
    constructor
    · rintro ⟨x, hx, h⟩
      simp only [Bool.and_eq_true, beq_iff_eq] at h
      have := List.mem_zipIdx hx
      obtain ⟨_, h2, h3⟩ := this
      have hk : x.2 = k.val := h.1
      have : x.1 = v[k] := by
        rw [h3]
        simp [hk]
      rw [← this]
      exact h.2
    · intro h
      refine ⟨(v[k], k.val), ?_, by simpa using h⟩
      rw [List.mk_mem_zipIdx_iff_getElem?]
      simp
  · intro x hx
    have := List.mem_zipIdx hx
    simpa using this.2.1

theorem resting_iff (ln : Lane) (st : StationId) (now : Time) (c : Fin 32) :
    (ln.resting st now).getLsbD c.val = true ↔ ln.Rests st now c := by
  have h := restSet_bit ln.stations[st].restUntil now c
  unfold Lane.resting Lane.Rests
  rw [BitVec.getLsbD_and, h, BitVec.getLsbD_not, Bool.and_eq_true]
  refine and_congr ?_ ?_
  · cases ln.stations[st].restUntil[c] <;> simp
  · simp

theorem broken_iff (ln : Lane) (st : StationId) (now : Time) (k : Fin 4) :
    ln.cfg.stations[st].rules[k].broken ln.stations[st].history now = true ↔ ln.Breaks st now k := by
  unfold EjectionRule.broken Lane.Breaks startsWithin elapsed
  simp

/-- The lowest-numbered broken rule (R99). -/
theorem brokenRule_eq (ln : Lane) (st : StationId) (now : Time) :
    match brokenRule ln.cfg.stations[st] ln.stations[st].history now with
    | some n => ∃ k : Fin 4, n = k.val + 1 ∧ ln.Breaks st now k ∧ ∀ j : Fin 4, j < k → ¬ln.Breaks st now j
    | none => ∀ k : Fin 4, ¬ln.Breaks st now k := by
  have h := find_finRange fun k : Fin 4 => ln.cfg.stations[st].rules[k].broken ln.stations[st].history now
  unfold brokenRule
  cases hf : (List.finRange 4).find? fun k => ln.cfg.stations[st].rules[k].broken ln.stations[st].history now with
  | none =>
    rw [hf] at h
    intro k hk
    have := (broken_iff ln st now k).mpr hk
    rw [h k] at this
    cases this
  | some k =>
    rw [hf] at h
    refine ⟨k, rfl, (broken_iff ln st now k).mp h.1, fun j hj hb => ?_⟩
    have := (broken_iff ln st now j).mpr hb
    rw [h.2 j hj] at this
    cases this

/-- What a firing start does. -/
theorem fireStart_starts (env : LaneEnv) (st : StationId) (ln : Lane) (e : ListEntry) (p : Parcel) (aim : Aim)
    (hp : ln.find e.serial = some p) (ha : p.phase = .scheduled aim) :
    ln.FiringStart env st p aim e (fireStart env st e ln) := by
  have hden : ∀ reason detail, ln.checkStart env st e.widened = .denied reason detail →
      ln.Rides p aim.fraction .denied [p.marked reason st detail] (fireStart env st e ln) := by
    intro reason detail h
    unfold fireStart
    rw [hp]
    dsimp only
    rw [ha]
    dsimp only
    rw [h]
    exact marked_travel_rides ..
  have hbr := brokenRule_eq ln st env.now
  have hcols : ∀ c : Fin 32, (e.widened &&& ~~~ ln.resting st env.now).getLsbD c.val = true ↔
      e.widened.getLsbD c.val = true ∧ ¬ln.Rests st env.now c := by
    intro c
    rw [← resting_iff, BitVec.getLsbD_and, BitVec.getLsbD_not]
    simp
  refine ⟨fun hair => ?_, fun hair k hk hl => ?_, fun hair hn hall => ?_, fun hair hn hex => ?_⟩
  · exact hden _ _ (by simp [Lane.checkStart, hair])
  · refine hden _ _ ?_
    cases hb : brokenRule ln.cfg.stations[st] ln.stations[st].history env.now with
    | none =>
      rw [hb] at hbr
      exact absurd hk (hbr k)
    | some n =>
      rw [hb] at hbr
      obtain ⟨j, rfl, hj, hjl⟩ := hbr
      have : j = k := by
        rcases lt_trichotomy j k with h | h | h
        · exact absurd hj (hl j h)
        · exact h
        · exact absurd hk (hjl k h)
      subst this
      unfold Lane.checkStart
      rw [hair, hb]
      rfl
  · refine hden _ _ ?_
    have hz : e.widened &&& ~~~ ln.resting st env.now = 0 := by
      refine BitVec.eq_of_getLsbD_eq fun i hi => ?_
      have := hcols ⟨i, hi⟩
      rw [BitVec.ofNat_eq_ofNat, BitVec.getLsbD_zero, Bool.eq_false_iff]
      intro hc
      have h2 := this.mp hc
      exact h2.2 (hall ⟨i, hi⟩ h2.1)
    cases hb : brokenRule ln.cfg.stations[st] ln.stations[st].history env.now with
    | none =>
      unfold Lane.checkStart
      rw [hair, hb]
      dsimp only
      rw [if_pos hz]
      rfl
    | some n =>
      rw [hb] at hbr
      obtain ⟨j, _, hj, _⟩ := hbr
      exact absurd hj (hn j)
  · obtain ⟨c, hc1, hc2⟩ := hex
    have hnz : e.widened &&& ~~~ ln.resting st env.now ≠ 0 := by
      intro hz
      have := (hcols c).mpr ⟨hc1, hc2⟩
      rw [hz] at this
      simp at this
    have hcheck : ln.checkStart env st e.widened = .fires (e.widened &&& ~~~ ln.resting st env.now)
        (e.widened &&& ~~~ ln.resting st env.now != e.widened) := by
      cases hb : brokenRule ln.cfg.stations[st] ln.stations[st].history env.now with
      | none =>
        unfold Lane.checkStart
        rw [hair, hb]
        dsimp only
        rw [if_neg hnz]
        rfl
      | some n =>
        rw [hb] at hbr
        obtain ⟨j, _, hj, _⟩ := hbr
        exact absurd hj (hn j)
    have hs : p.serial = e.serial := by simpa using List.find?_some hp
    refine ⟨e.widened &&& ~~~ ln.resting st env.now, hcols, ?_⟩
    unfold fireStart
    rw [hp]
    dsimp only
    rw [ha]
    dsimp only
    rw [hcheck]
    refine ⟨rfl, ?_, fun k hk => ?_, rfl, rfl, rfl, ?_⟩
    · simp [Lane.modStation, Lane.revise, appendHistory, historyCapacity]
    · have hne : st.val ≠ k.val := fun e => hk (Fin.ext e.symm)
      simp [Lane.modStation, Lane.revise, Vector.getElem_set_ne st.isLt k.isLt hne]
    · by_cases h : e.widened &&& ~~~ ln.resting st env.now = e.widened
      · simp [h]
      · simp [h, Parcel.draft, Parcel.marked]

/-! ## The works of an advance (R31, R65, R97, R21, R128, R39, R40) -/

theorem startDue_iff (ln : Lane) (e : ListEntry) :
    (ln.startDue e || (ln.endDue e).isSome) = true ↔ ln.FireDue e := by
  unfold Lane.startDue Lane.endDue Lane.FireDue
  cases ln.find e.serial with
  | none => simp
  | some p =>
    cases hp : p.phase with
    | firing aim shot =>
      dsimp only
      rw [hp]
      by_cases h : atOrBehind aim.endPos ln.tb.pmax = true
      · simp only [h, if_true, Option.isSome_some, Bool.or_true, true_iff]
        exact ⟨p, rfl, .inr ⟨aim, shot, hp, h⟩⟩
      · simp only [h]
        simp [hp, h]
    | _ =>
      dsimp only
      rw [hp]
      simp [hp]

theorem exiting_iff (ln : Lane) (p : Parcel) (o : Outcome) : ln.exiting p = some o ↔ ln.ExitDue p o := by
  unfold Lane.exiting Lane.ExitDue Lane.exitPos
  cases hp : p.phase with
  | travelling f x =>
    by_cases h : atOrBehind (p.trail + BitVec.ofNat 32 ln.cfg.geometry.exitDistance) ln.tb.pmax = true <;>
      simp [h]
  | _ => simp

theorem completing_iff (ln : Lane) (target : Source) : ln.completing = some target ↔ ln.SwitchDue target := by
  unfold Lane.completing Lane.SwitchDue
  cases hs : ln.tb.pendingSwitch with
  | none => simp
  | some w =>
    cases w with
    | toNominal => cases ln.tb.source <;> cases target <;> simp
    | toEncoder st => cases ln.tb.source <;> cases ha : st.agreed <;> cases target <;> simp [ha]

/-- The list of works from the conditions of each. -/
theorem works_list (d a b c : Bool) (f : Fin 3 → Bool) (ws : List Work)
    (h : ws = (if d then [.switchDone] else []) ++ ((if a then [.forming] else []) ++
      ((List.finRange 3).filter f).map .station ++ (if b then [.exitLine] else []) ++
      (if c then [.inject] else []))) :
    ws.Nodup ∧ (.switchDone ∈ ws ↔ d = true) ∧ (.forming ∈ ws ↔ a = true) ∧ (.exitLine ∈ ws ↔ b = true) ∧
    (.inject ∈ ws ↔ c = true) ∧ (∀ st, .station st ∈ ws ↔ f st = true) ∧ .cut ∉ ws ∧ .limitHalt ∉ ws := by
  subst h
  have hf : f = fun i => if i = 0 then f 0 else if i = 1 then f 1 else f 2 := by
    funext i
    fin_cases i <;> rfl
  rw [hf]
  generalize f 0 = x
  generalize f 1 = y
  generalize f 2 = z
  revert d a b c x y z
  decide

/-- The works that an advance finds, each once. -/
theorem advance_works (ln : Lane) :
    (ln.switchWorks ++ ln.advanceWorks).Nodup ∧
    ∀ w, w ∈ ln.switchWorks ++ ln.advanceWorks ↔ ln.WorkDue w := by
  obtain ⟨h0, h1, h2, h3, h4, h5, h6, h7⟩ := works_list ln.completing.isSome (ln.queue.any ln.closeDue)
    (ln.queue.any fun p => (ln.exiting p).isSome) ln.injectionDue.isSome
    (fun st => ln.stations[st].list.any fun e => ln.startDue e || (ln.endDue e).isSome)
    (ln.switchWorks ++ ln.advanceWorks) rfl
  refine ⟨h0, fun w => ?_⟩
  cases w with
  | forming =>
    rw [h2, List.any_eq_true]
    refine exists_congr fun p => and_congr_right fun _ => ?_
    unfold Lane.closeDue
    cases p.phase <;> simp
  | station st =>
    rw [h5, List.any_eq_true]
    exact exists_congr fun e => and_congr_right fun _ => startDue_iff ln e
  | exitLine =>
    rw [h3, List.any_eq_true]
    refine exists_congr fun p => and_congr_right fun _ => ?_
    rw [Option.isSome_iff_exists]
    exact exists_congr fun o => exiting_iff ln p o
  | inject =>
    rw [h4]
    unfold Lane.WorkDue Lane.injectionDue
    by_cases hr : ln.state = .running
    · cases ln.injection with
      | none => simp [hr]
      | some inj => by_cases h : atOrBehind inj.nextPos ln.tb.pmax = true <;> simp [hr, h, Option.filter]
    · simp [hr]
  | switchDone =>
    rw [h1, Option.isSome_iff_exists]
    exact exists_congr fun t => completing_iff ln t
  | cut => simp [h6, Lane.WorkDue]
  | limitHalt => simp [h7, Lane.WorkDue]

/-- What a step of P up onto new ground does: the works due at the new Pmax (R31). -/
theorem stepForward_newGround (env : LaneEnv) (ln : Lane)
    (h : ln.active = false ∨ ahead ln.tb.pmax (ln.tb.p + 1) = true) :
    ∃ ws : List Work, ws.Nodup ∧
      (∀ w, w ∈ ws ↔ Lane.WorkDue { ln with tb := { ln.tb with p := ln.tb.p + 1, pmax := ln.tb.p + 1 } } w) ∧
      stepForward env ln =
        runEach (Work.act env) ws { ln with tb := { ln.tb with p := ln.tb.p + 1, pmax := ln.tb.p + 1 } } := by
  have hs : stepForward env ln = runWorks env
      (Lane.switchWorks { ln with tb := { ln.tb with p := ln.tb.p + 1, pmax := ln.tb.p + 1 } } ++
        Lane.advanceWorks { ln with tb := { ln.tb with p := ln.tb.p + 1, pmax := ln.tb.p + 1 } })
      { ln with tb := { ln.tb with p := ln.tb.p + 1, pmax := ln.tb.p + 1 } } := by
    unfold stepForward
    dsimp only
    rw [if_pos (by simpa using h)]
  rw [hs]
  generalize ({ ln with tb := { ln.tb with p := ln.tb.p + 1, pmax := ln.tb.p + 1 } } : Lane) = moved
  obtain ⟨hn, hm⟩ := advance_works moved
  have hp := arrange_perm (Config.pick env.seed) (moved.switchWorks ++ moved.advanceWorks).length
    (moved.switchWorks ++ moved.advanceWorks)
  exact ⟨_, hp.nodup_iff.mpr hn, fun w => hp.mem_iff.trans (hm w), rfl⟩

end Sys2Proof.Machine
end

