-- ==== Sys2Proof/Laws/Steps.lean ====
section
/-! SUPPORT. Steps of P (R31 to R33, R39, R40): the works that a step finds, done in any order, and what they
leave of the lane. -/

namespace Sys2Proof.Machine

/-! ## Acts one after another, with their effects -/

theorem foldl_out_keeps {α : Type} {Φ : LaneOut → Prop} {f : α → Lane → LaneOut} (xs : List α)
    (h : ∀ x ∈ xs, ∀ o, Φ o → Φ (o.andThen (f x))) {o : LaneOut} (ho : Φ o) :
    Φ (xs.foldl (fun o x => o.andThen (f x)) o) := by
  induction xs generalizing o with
  | nil => exact ho
  | cons x xs ih => exact ih (fun y hy => h y (List.mem_cons_of_mem _ hy)) (h x (List.mem_cons_self ..) _ ho)

/-- What every act of a list keeps of the lane and the effects so far holds at the end. -/
theorem runEach_out_keeps {α : Type} {Φ : LaneOut → Prop} {f : α → Lane → LaneOut} (xs : List α)
    (h : ∀ x ∈ xs, ∀ o, Φ o → Φ (o.andThen (f x))) {ln : Lane} (hl : Φ ln.quiet) : Φ (runEach f xs ln) :=
  foldl_out_keeps xs h hl

/-- What one act of a list establishes, of the lane and the effects so far, and every act keeps. -/
theorem runEach_out_establishes {α : Type} {Φ Ψ : LaneOut → Prop} {f : α → Lane → LaneOut} {xs : List α}
    {x : α} (hx : x ∈ xs) (hΨ : ∀ y ∈ xs, ∀ o, Ψ o → Ψ (o.andThen (f y)))
    (hΦ : ∀ y ∈ xs, ∀ o, Ψ o → Φ o → Φ (o.andThen (f y))) (he : ∀ o, Ψ o → Φ (o.andThen (f x)))
    {ln : Lane} (h : Ψ ln.quiet) : Φ (runEach f xs ln) ∧ Ψ (runEach f xs ln) := by
  obtain ⟨as, bs, rfl⟩ := List.append_of_mem hx
  have run : runEach f (as ++ x :: bs) ln =
      bs.foldl (fun o x => o.andThen (f x)) ((runEach f as ln).andThen (f x)) := by
    simp [runEach, List.foldl_append]
  rw [run]
  have h1 : Ψ (runEach f as ln) := runEach_out_keeps as (fun y hy => hΨ y (List.mem_append_left _ hy)) h
  have hb : ∀ y ∈ bs, y ∈ as ++ x :: bs := fun y hy => List.mem_append_right _ (List.mem_cons_of_mem _ hy)
  exact foldl_out_keeps (Φ := fun o => Φ o ∧ Ψ o) bs
    (fun y hy o ho => ⟨hΦ y (hb y hy) o ho.2 ho.1, hΨ y (hb y hy) o ho.2⟩) ⟨he _ h1, hΨ x hx _ h1⟩

/-- An act with the drain it completes: one after the other. -/
theorem andThen_act (env : LaneEnv) (w : Work) (o : LaneOut) :
    o.andThen (Work.act env w) = (o.andThen (Work.run env w)).andThen (drainIfEmpty env o.lane) := by
  simp [LaneOut.andThen, Work.act, List.append_assoc]

/-- A drain completes on a lane that was not empty before the act, or the lane is left as it is. -/
theorem andThen_drain (env : LaneEnv) (a : Lane) (o : LaneOut) :
    o.andThen (drainIfEmpty env a) = o ∨
    (o.lane.state = .draining ∧ a.queue ≠ [] ∧ o.lane.queue = [] ∧
      o.andThen (drainIfEmpty env a) = o.andThen (completeDrain env)) := by
  by_cases h : o.lane.state = .draining ∧ a.queue ≠ [] ∧ o.lane.queue = []
  · exact .inr ⟨h.1, h.2.1, h.2.2, by simp [LaneOut.andThen, drainIfEmpty, h]⟩
  · refine .inl ?_
    simp only [LaneOut.andThen, drainIfEmpty, if_neg h, Lane.quiet, List.append_nil]

theorem mem_inQueueOrder {e : Effect} {es : List Effect} (h : ∃ x, e = .event x) :
    e ∈ inQueueOrder es ↔ e ∈ es := by
  obtain ⟨x, rfl⟩ := h
  simp [inQueueOrder, Effect.parcelDraft?]

/-- A step of a lane whose blocks' act has some effect of the lane alone: its frame depends on the result. -/
theorem laneStep_congr {f g : LaneEnv → Lane → LaneOut} {env : LaneEnv} {ln : Lane} (h : f env ln = g env ln) :
    laneStep f env ln = laneStep g env ln := by
  unfold laneStep
  rw [h]

/-- What the acts and a drain after them keep holds of a lane's step, if the monitor and the ports do not
matter to it. -/
theorem laneStep_out {Φ : LaneOut → Prop} {f : LaneEnv → Lane → LaneOut} {env : LaneEnv} {ln : Lane}
    (h : Φ (f env ln)) (hd : Φ (f env ln) → Φ ((f env ln).andThen (drainIfEmpty env ln))) :
    ∃ o, Φ o ∧ (laneStep f env ln).lane = syncPorts env.id ln (o.lane.syncMonitor env) ∧
      (laneStep f env ln).effects = inQueueOrder o.effects := ⟨_, hd h, rfl, rfl⟩

/-! ## What no act of a step touches -/

/-- What the acts of a step of P leave: P, the phases, the generator, the geometry, the rate, the receivers
and the host hold; and, with no scale pending, the residue and the scale. -/
structure Lane.Steady (a b : Lane) : Prop where
  pos : b.tb.p = a.tb.p
  phases : b.tb.phases = a.tb.phases
  errors : b.tb.phaseErrors = a.tb.phaseErrors
  accumulator : b.tb.accumulator = a.tb.accumulator
  pendingRate : b.tb.pendingRate = a.tb.pendingRate
  geometry : b.cfg.geometry = a.cfg.geometry
  rate : b.cfg.rate = a.cfg.rate
  receivers : b.receivers = a.receivers
  hostHold : b.hostHold = a.hostHold
  residue : a.tb.pendingScale = none → b.tb.pendingScale = none ∧ b.tb.residue = a.tb.residue ∧
    b.cfg.scale = a.cfg.scale

theorem Lane.Steady.refl (a : Lane) : a.Steady a :=
  ⟨rfl, rfl, rfl, rfl, rfl, rfl, rfl, rfl, rfl, fun h => ⟨h, rfl, rfl⟩⟩

theorem Lane.Steady.trans {a b c : Lane} (h : a.Steady b) (k : b.Steady c) : a.Steady c :=
  ⟨k.pos.trans h.pos, k.phases.trans h.phases, k.errors.trans h.errors, k.accumulator.trans h.accumulator,
    k.pendingRate.trans h.pendingRate, k.geometry.trans h.geometry, k.rate.trans h.rate,
    k.receivers.trans h.receivers, k.hostHold.trans h.hostHold, fun e =>
      have he := h.residue e
      have ke := k.residue he.1
      ⟨ke.1, ke.2.1.trans he.2.1, ke.2.2.trans he.2.2⟩⟩

theorem Lane.SameBelt.steady {a b : Lane} (h : a.SameBelt b) : a.Steady b := by
  refine ⟨by rw [h.tb], by rw [h.tb], by rw [h.tb], by rw [h.tb], by rw [h.tb], by rw [h.cfg], by rw [h.cfg],
    h.receivers, h.hostHold, fun e => ?_⟩
  rw [h.tb, h.cfg]
  exact ⟨e, rfl, rfl⟩

theorem rest_steady (ln : Lane) : ln.Steady ln.rest := by
  unfold Lane.rest Lane.takeScale
  split
  · exact ⟨rfl, rfl, rfl, rfl, rfl, rfl, rfl, rfl, rfl, fun e => ⟨e, rfl, rfl⟩⟩
  · rename_i k hk
    refine ⟨rfl, rfl, rfl, rfl, rfl, rfl, rfl, rfl, rfl, fun e => ?_⟩
    have : ln.tb.pendingScale = some k := hk
    rw [e] at this
    cases this

theorem completeDrain_steady (env : LaneEnv) (ln : Lane) : ln.Steady (completeDrain env ln).lane :=
  Lane.Steady.trans (b := { ln with state := .stopped })
    ⟨rfl, rfl, rfl, rfl, rfl, rfl, rfl, rfl, rfl, fun e => ⟨e, rfl, rfl⟩⟩ (rest_steady _)

theorem drainIfEmpty_steady (env : LaneEnv) (a b : Lane) : b.Steady (drainIfEmpty env a b).lane := by
  rcases drainIfEmpty_cases env a b with e | ⟨_, _, e⟩
  · rw [e]
    exact .refl b
  · rw [e]
    exact completeDrain_steady env b

theorem Lane.SameRun.steady {a b : Lane} (h : a.SameRun b) : a.Steady b := by
  refine ⟨by rw [h.tb], by rw [h.tb], by rw [h.tb], by rw [h.tb], by rw [h.tb], by rw [h.cfg], by rw [h.cfg],
    h.receivers, h.hostHold, fun e => ?_⟩
  rw [h.tb, h.cfg]
  exact ⟨e, rfl, rfl⟩

theorem flush_steady (env : LaneEnv) (ln : Lane) : ln.Steady (flush env ln).lane := by
  have hs := (loseAll_sameRun env { ln with injection := none }).steady
  have h1 : ln.Steady (loseAll env { ln with injection := none }) :=
    Lane.Steady.trans (b := { ln with injection := none })
      ⟨rfl, rfl, rfl, rfl, rfl, rfl, rfl, rfl, rfl, fun e => ⟨e, rfl, rfl⟩⟩ hs
  refine (h1.trans (c := Lane.dropSwitch { loseAll env { ln with injection := none } with
      lots := ((loseAll env { ln with injection := none }).lots.settle env.id env.now).unit }) ?_).trans
    (rest_steady _)
  exact ⟨rfl, rfl, rfl, rfl, rfl, rfl, rfl, rfl, rfl, fun e => ⟨e, rfl, rfl⟩⟩

theorem halt_steady (cause : HaltCause) (env : LaneEnv) (ln : Lane) : ln.Steady (halt cause env ln).lane := by
  unfold halt
  split
  · exact Lane.Steady.trans (b := { ln with state := .halted, haltCause := cause })
      ⟨rfl, rfl, rfl, rfl, rfl, rfl, rfl, rfl, rfl, fun e => ⟨e, rfl, rfl⟩⟩ (flush_steady env _)
  · exact .refl ln

theorem completeSwitch_steady (env : LaneEnv) (ln : Lane) : ln.Steady (completeSwitch env ln).lane := by
  rcases completeSwitch_lane env ln with e | ⟨src, lost, e⟩
  · rw [e]; exact .refl ln
  · rw [e]; exact ⟨rfl, rfl, rfl, rfl, rfl, rfl, rfl, rfl, rfl, fun e => ⟨e, rfl, rfl⟩⟩

theorem createTest_steady (env : LaneEnv) (inj : Injection) (ln : Lane) :
    ln.Steady (createTest env inj ln).lane := by
  unfold createTest
  split
  · have h0 : ln.Steady (ln.enqueue (testParcel ln inj)) :=
      ⟨rfl, rfl, rfl, rfl, rfl, rfl, rfl, rfl, rfl, fun e => ⟨e, rfl, rfl⟩⟩
    exact h0.trans (classifyTest_sameBelt env _ _ _).steady
  · exact ⟨rfl, rfl, rfl, rfl, rfl, rfl, rfl, rfl, rfl, fun e => ⟨e, rfl, rfl⟩⟩

theorem injectAdvance_steady (env : LaneEnv) (ln : Lane) : ln.Steady (injectAdvance env ln).lane := by
  unfold injectAdvance
  split
  · exact .refl ln
  · rename_i inj _
    exact Lane.Steady.trans (b := { ln with injection := inj.next })
      ⟨rfl, rfl, rfl, rfl, rfl, rfl, rfl, rfl, rfl, fun e => ⟨e, rfl, rfl⟩⟩ (createTest_steady env inj _)

theorem run_steady (env : LaneEnv) (w : Work) (ln : Lane) : ln.Steady (Work.run env w ln).lane := by
  cases w with
  | forming => exact (formingAdvance_sameBelt env ln).steady
  | station st => exact (stationAdvance_sameBelt env st ln).steady
  | exitLine => exact (exits_sameBelt env ln).steady
  | inject => exact injectAdvance_steady env ln
  | switchDone => exact completeSwitch_steady env ln
  | cut => exact (cutLane_sameBelt env _ ln).steady
  | limitHalt => exact halt_steady _ env ln

theorem act_steady (env : LaneEnv) (w : Work) (ln : Lane) : ln.Steady (Work.act env w ln).lane :=
  (run_steady env w ln).trans (drainIfEmpty_steady env ln _)

/-- The acts of a step of P leave what `Lane.Steady` names, whatever their order. -/
theorem WorksDone.steady {env : LaneEnv} {before moved : Lane} {due : Work → Prop} {out : LaneOut}
    (h : WorksDone env before moved due out) : moved.Steady out.lane := by
  obtain ⟨ws, _, _, rfl⟩ := h
  have h1 : moved.Steady (runEach (Work.act env) ws moved).lane :=
    runEach_keeps_mem ws (fun w _ x hx => hx.trans (act_steady env w x)) moved (.refl moved)
  have h2 := h1.trans (drainIfEmpty_steady env before (runEach (Work.act env) ws moved).lane)
  exact h2.trans ⟨rfl, rfl, rfl, rfl, rfl, rfl, rfl, rfl, rfl, fun e => ⟨e, rfl, rfl⟩⟩

/-! ## A switch that completes (R39, R40) -/

theorem injectAdvance_tb (env : LaneEnv) (ln : Lane) : (injectAdvance env ln).lane.tb = ln.tb := by
  unfold injectAdvance
  split
  · rfl
  · unfold createTest
    split
    · exact (classifyTest_sameBelt env _ _ _).tb
    · rfl

/-- No work of an advance takes a pending switch away but its completion. -/
theorem run_switch (env : LaneEnv) (w : Work) (hw : w ≠ .switchDone ∧ w ≠ .limitHalt) (ln : Lane) :
    (Work.run env w ln).lane.tb = ln.tb := by
  cases w with
  | forming => exact (formingAdvance_sameBelt env ln).tb
  | station st => exact (stationAdvance_sameBelt env st ln).tb
  | exitLine => exact (exits_sameBelt env ln).tb
  | inject => exact (injectAdvance_tb env ln)
  | switchDone => exact absurd rfl hw.1
  | cut => exact (cutLane_sameBelt env _ ln).tb
  | limitHalt => exact absurd rfl hw.2

/-- Two lanes agree on the source, the pending switch and the encoder-lost mark. -/
structure Lane.SameSwitch (a b : Lane) : Prop where
  source : b.tb.source = a.tb.source
  pending : b.tb.pendingSwitch = a.tb.pendingSwitch
  lost : b.tb.encoderLost = a.tb.encoderLost

theorem rest_switch (ln : Lane) : ln.SameSwitch ln.rest := by
  unfold Lane.rest Lane.takeScale
  split <;> exact ⟨rfl, rfl, rfl⟩

theorem drainIfEmpty_switch (env : LaneEnv) (a b : Lane) : b.SameSwitch (drainIfEmpty env a b).lane := by
  rcases drainIfEmpty_cases env a b with e | ⟨_, _, e⟩
  · rw [e]
    exact ⟨rfl, rfl, rfl⟩
  · rw [e]
    have h := rest_switch { b with state := .stopped }
    exact ⟨h.source, h.pending, h.lost⟩

/-- A switch is due, or it has completed with its event raised. -/
def LaneOut.Switches (lane : LaneId) (target : Source) (o : LaneOut) : Prop :=
  o.lane.SwitchDue target ∨ (o.lane.tb.source = target ∧ o.lane.tb.pendingSwitch = none ∧
    (target = .encoder → o.lane.tb.encoderLost = false) ∧
    .event (.sourceSwitched lane target) ∈ o.effects)

theorem Lane.SameSwitch.due {a b : Lane} (h : a.SameSwitch b) {target : Source} (hd : a.SwitchDue target) :
    b.SwitchDue target := by
  unfold Lane.SwitchDue at *
  rw [h.source, h.pending]
  exact hd

theorem LaneOut.Switches.andThen {lane : LaneId} {target : Source} {o : LaneOut} {f : Lane → LaneOut}
    (h : o.Switches lane target) (hf : o.lane.SameSwitch (f o.lane).lane) :
    (o.andThen f).Switches lane target := by
  rcases h with h | ⟨h1, h2, h3, h4⟩
  · exact .inl (hf.due h)
  · exact .inr ⟨hf.source.trans h1, hf.pending.trans h2, fun e => hf.lost.trans (h3 e),
      List.mem_append_left _ h4⟩

/-- The completion of a switch that is due. -/
theorem completeSwitch_due {env : LaneEnv} {ln : Lane} {target : Source} (h : ln.SwitchDue target) :
    completeSwitch env ln = ⟨{ ln with tb := { ln.tb with
        source := target
        pendingSwitch := none
        encoderLost := if target = .encoder then false else ln.tb.encoderLost } },
      [.event (.sourceSwitched env.id target)]⟩ := by
  unfold completeSwitch
  rw [(completing_iff ln target).mpr h]

theorem completeSwitch_none {env : LaneEnv} {ln : Lane} (h : ln.tb.pendingSwitch = none) :
    completeSwitch env ln = ln.quiet := by
  unfold completeSwitch Lane.completing
  rw [h]

/-- A switch that is due at a step of P without the limit's halt completes in it (R39, R40). -/
theorem WorksDone.switches {env : LaneEnv} {before moved : Lane} {due : Work → Prop} {out : LaneOut}
    {target : Source} (h : WorksDone env before moved due out) (hs : moved.SwitchDue target)
    (hd : due .switchDone) (hl : ¬due .limitHalt) :
    out.lane.tb.source = target ∧ out.lane.tb.pendingSwitch = none ∧
    (target = .encoder → out.lane.tb.encoderLost = false) ∧
    .event (.sourceSwitched env.id target) ∈ out.effects := by
  obtain ⟨ws, hn, hm, rfl⟩ := h
  have keep : ∀ w ∈ ws, ∀ o : LaneOut, o.Switches env.id target →
      (o.andThen (Work.act env w)).Switches env.id target := by
    intro w hw o ho
    rw [andThen_act]
    refine LaneOut.Switches.andThen ?_ (drainIfEmpty_switch env _ _)
    by_cases he : w = .switchDone
    · subst he
      show (o.andThen (completeSwitch env)).Switches env.id target
      rcases ho with ho | ⟨h1, h2, h3, h4⟩
      · refine .inr ?_
        refine ⟨?_, ?_, fun e => ?_, List.mem_append_right _ ?_⟩ <;> simp_all [LaneOut.andThen, completeSwitch_due ho]
      · refine .inr ?_
        simp only [LaneOut.andThen, completeSwitch_none h2]
        exact ⟨h1, h2, h3, by simpa [Lane.quiet] using h4⟩
    · have ht := run_switch env w ⟨he, fun e => hl ((hm w).mp hw |> fun h => e ▸ h)⟩ o.lane
      exact ho.andThen ⟨by rw [ht], by rw [ht], by rw [ht]⟩
  obtain ⟨h1, h2⟩ := runEach_out_establishes (f := Work.act env) (ln := moved)
    (Φ := fun o => o.lane.tb.pendingSwitch = none) (Ψ := LaneOut.Switches env.id target)
    ((hm _).mpr hd) keep
    (fun w hw o _ ho => by
      rw [andThen_act]
      have h1 := (drainIfEmpty_switch env o.lane (o.andThen (Work.run env w)).lane).pending
      refine h1.trans ?_
      by_cases he : w = .switchDone
      · subst he
        show (completeSwitch env o.lane).lane.tb.pendingSwitch = none
        rw [completeSwitch_none ho]
        exact ho
      · have ht := run_switch env w ⟨he, fun e => hl ((hm w).mp hw |> fun h => e ▸ h)⟩ o.lane
        show (Work.run env w o.lane).lane.tb.pendingSwitch = none
        rw [ht]
        exact ho)
    (fun o ho => by
      rw [andThen_act]
      have h1 := (drainIfEmpty_switch env o.lane (o.andThen (Work.run env .switchDone)).lane).pending
      refine h1.trans ?_
      show (completeSwitch env o.lane).lane.tb.pendingSwitch = none
      rcases ho with ho | ⟨_, ho, _⟩
      · rw [completeSwitch_due ho]
      · rw [completeSwitch_none ho]
        exact ho)
    (.inl hs)
  have h3 : (runEach (Work.act env) ws moved).Switches env.id target := h2
  rcases h3 with h3 | ⟨e1, e2, e3, e4⟩
  · exfalso
    unfold Lane.SwitchDue at h3
    rw [h1] at h3
    rcases h3 with ⟨h3, _⟩ | ⟨⟨_, h3, _⟩, _⟩ <;> cases h3
  · have hd := drainIfEmpty_switch env before (runEach (Work.act env) ws moved).lane
    refine ⟨hd.source.trans e1, hd.pending.trans e2, fun e => hd.lost.trans (e3 e), ?_⟩
    exact (mem_inQueueOrder ⟨_, rfl⟩).mpr (List.mem_append_left _ e4)

/-- The flag of a per-lane event that a step raises is set after it. -/
theorem commit_laneFlag (s : State) (l : LaneId) (es : List Effect) (e : Event) (hl : e.lane? = some l)
    (h : .event e ∈ es) : (s.commit l es).laneFlag l e.kind.val = true := by
  have keep : ∀ (x : State) (y : Effect), x.laneFlag l e.kind.val = true →
      (State.effect l x y).laneFlag l e.kind.val = true := by
    have hflag : ∀ (x : State) (y : Event), x.laneFlag l e.kind.val = true →
        (x.raise y).laneFlag l e.kind.val = true := by
      intro x y hx
      have hr : (x.raise y).laneFlags = (x.setFlag y).laneFlags := (raise_flags x y).1
      unfold State.laneFlag at *
      rw [hr]
      unfold State.setFlag
      split
      · rename_i k _
        by_cases hk : k.val = l.val
        · have hk' : k = l := Fin.ext hk
          subst hk'
          simp only [Fin.getElem_fin, Vector.getElem_set_self, BitVec.getLsbD_or]
          exact Bool.or_eq_true_iff.mpr (.inl hx)
        · simp [Vector.getElem_set_ne k.isLt l.isLt hk]
          exact hx
      · exact hx
    intro x y hx
    cases y with
    | event y => exact hflag x y hx
    | trace d =>
      show (x.addTrace l d).laneFlag l e.kind.val = true
      unfold State.addTrace
      dsimp only
      split
      · split
        · exact hflag _ _ hx
        · split
          · exact hflag _ _ hx
          · exact hx
      · exact hx
  obtain ⟨as, bs, rfl⟩ := List.append_of_mem h
  rw [commit_append, commit_cons]
  refine commit_keeps (Φ := fun x => x.laneFlag l e.kind.val = true) l keep bs _ ?_
  show ((s.commit l as).raise e).laneFlag l e.kind.val = true
  unfold State.laneFlag
  rw [(raise_flags (s.commit l as) e).1]
  unfold State.setFlag
  rw [hl]
  have hk : e.kind.val < 5 := by cases e <;> first | (simp [Event.lane?] at hl; done) | simp [Event.kind]
  simp only [Fin.getElem_fin, Vector.getElem_set_self, BitVec.getLsbD_or, BitVec.getLsbD_ofNat,
    Nat.testBit_two_pow_self, Bool.and_true]
  simp [hk]

/-! ## Steps that no block but the switch controller acts on (R31, R32) -/

/-- Where nothing but a switch may complete, the step changes the timebase alone. -/
theorem WorksDone.onlySwitch {env : LaneEnv} {before moved : Lane} {due : Work → Prop} {out : LaneOut}
    (h : WorksDone env before moved due out) (hd : ∀ w, due w → w = .switchDone)
    (hq : moved.queue = before.queue) :
    ∃ x : Lane, (x = moved ∨ x = (completeSwitch env moved).lane) ∧ out.lane = x.syncMonitor env := by
  obtain ⟨ws, hn, hm, rfl⟩ := h
  have hx : ∃ x : Lane, (x = moved ∨ x = (completeSwitch env moved).lane) ∧
      (runEach (Work.act env) ws moved).lane = x ∧ x.queue = before.queue := by
    match ws, hn, hm with
    | [], _, _ => exact ⟨moved, .inl rfl, rfl, hq⟩
    | [w], _, hm =>
      have hw := hd w ((hm w).mp (List.mem_singleton.mpr rfl))
      subst hw
      have hc := (completeSwitch_same env moved).1
      refine ⟨_, .inr rfl, ?_, hc.trans hq⟩
      have : runEach (Work.act env) [Work.switchDone] moved = moved.quiet.andThen (Work.act env .switchDone) := rfl
      rw [this, andThen_act]
      rcases andThen_drain env moved (moved.quiet.andThen (Work.run env .switchDone)) with e | ⟨_, h2, h3, _⟩
      · exact (congrArg LaneOut.lane e)
      · exact absurd (hc.symm.trans h3) h2
    | w :: x :: ws, hn, hm =>
      have hw := hd w ((hm w).mp (by simp))
      have hx := hd x ((hm x).mp (by simp))
      subst hw hx
      simp at hn
  obtain ⟨x, h1, h2, h3⟩ := hx
  refine ⟨x, h1, ?_⟩
  have := laneStep_lane_of_same_queue (f := fun env _ => runEach (Work.act env) ws moved) (env := env)
    (ln := before) ((congrArg Lane.queue h2).trans h3)
  rw [this]
  exact congrArg (Lane.syncMonitor env) h2

/-- What such a step leaves of the parcels, the stations, the lots and the lane's state. -/
theorem WorksDone.onlySwitch_same {env : LaneEnv} {before moved : Lane} {due : Work → Prop} {out : LaneOut}
    (h : WorksDone env before moved due out) (hd : ∀ w, due w → w = .switchDone)
    (hq : moved.queue = before.queue) :
    out.lane.queue = moved.queue ∧ out.lane.stations = moved.stations ∧ out.lane.lots = moved.lots ∧
    out.lane.state = moved.state ∧ out.lane.tb.pmax = moved.tb.pmax := by
  obtain ⟨x, hx, e⟩ := h.onlySwitch hd hq
  rw [e]
  rcases hx with rfl | rfl
  · exact ⟨rfl, rfl, rfl, rfl, rfl⟩
  · rcases completeSwitch_lane env moved with e | ⟨src, lost, e⟩ <;> rw [e] <;> exact ⟨rfl, rfl, rfl, rfl, rfl⟩

/-! ## Pmax on new ground (R31) -/

/-- A work that finds Pmax at P leaves it there. -/
theorem act_level (env : LaneEnv) (w : Work) {ln : Lane} (h : ln.tb.pmax = ln.tb.p) :
    (Work.act env w ln).lane.tb.pmax = (Work.act env w ln).lane.tb.p := by
  have hr : (Work.run env w ln).lane.tb.pmax = (Work.run env w ln).lane.tb.p := by
    by_cases hs : w = .switchDone
    · subst hs
      obtain ⟨_, _, e3, e4, _⟩ := completeSwitch_same env ln
      exact e4.trans (h.trans e3.symm)
    · by_cases hl : w = .limitHalt
      · subst hl
        show (halt .reverseLimit env ln).lane.tb.pmax = (halt .reverseLimit env ln).lane.tb.p
        by_cases ha : ln.active = true
        · obtain ⟨_, _, _, _, _, _, h7, h8, _⟩ := halt_lane .reverseLimit env ln ha
          rw [h7, h8]
        · rw [halt_rest _ _ _ (by simpa using ha)]
          exact h
      · rw [run_switch env w ⟨hs, hl⟩ ln]
        exact h
  obtain ⟨_, hp, hm⟩ := drainIfEmpty_same env ln (Work.run env w ln).lane
  show (drainIfEmpty env ln (Work.run env w ln).lane).lane.tb.pmax =
    (drainIfEmpty env ln (Work.run env w ln).lane).lane.tb.p
  rw [hp]
  rcases hm with e | e
  · exact e.trans hr
  · exact e

theorem WorksDone.level {env : LaneEnv} {before moved : Lane} {due : Work → Prop} {out : LaneOut}
    (h : WorksDone env before moved due out) (hl : moved.tb.pmax = moved.tb.p) :
    out.lane.tb.pmax = moved.tb.p := by
  have hp := h.steady.pos
  rw [← hp]
  obtain ⟨ws, _, _, rfl⟩ := h
  have h1 : (runEach (Work.act env) ws moved).lane.tb.pmax = (runEach (Work.act env) ws moved).lane.tb.p :=
    runEach_keeps_mem (Φ := fun x => x.tb.pmax = x.tb.p) ws (fun w _ x hx => act_level env w hx) moved hl
  obtain ⟨_, hp, hm⟩ := drainIfEmpty_same env before (runEach (Work.act env) ws moved).lane
  show (drainIfEmpty env before (runEach (Work.act env) ws moved).lane).lane.tb.pmax =
    (drainIfEmpty env before (runEach (Work.act env) ws moved).lane).lane.tb.p
  rw [hp]
  rcases hm with e | e
  · exact e.trans h1
  · exact e

/-! ## Steps below Pmax (R32, R33) -/

/-- How a lane that runs or drains stands at a step of P down: it goes on, with its parcels as they
were unless one is FIRING; or it has passed the limit and is HALTED; or the cut has completed its drain. -/
def LaneOut.Backs (lane : LaneId) (ln : Lane) (o : LaneOut) : Prop :=
  (o.lane.state = ln.state ∧ o.lane.tb.pmax = ln.tb.pmax ∧
    (ln.NoFire → o.lane.queue = ln.queue ∧ o.lane.stations = ln.stations ∧ o.lane.lots = ln.lots)) ∨
  (o.lane.state = .halted ∧ o.lane.haltCause = .reverseLimit ∧ o.lane.queue = [] ∧ o.lane.injection = none ∧
    o.lane.tb.pendingSwitch = none ∧ o.lane.tb.pmax = o.lane.tb.p ∧
    .event (.laneState lane .halted .reverseLimit) ∈ o.effects ∧ ln.Passes) ∨
  (ln.state = .draining ∧ ¬ln.NoFire ∧ o.lane.state = .stopped ∧ o.lane.queue = [] ∧
    o.lane.tb.pmax = o.lane.tb.p)

theorem Lane.Firing.not_noFire {ln : Lane} (h : ln.Firing) : ¬ln.NoFire := by
  obtain ⟨p, hp, hf⟩ := h
  intro hn
  rw [hn p hp] at hf
  cases hf

theorem noFire_of_not_firing {ln : Lane} (h : ¬ln.Firing) : ln.NoFire := by
  intro p hp
  by_contra hc
  exact h ⟨p, hp, by simpa using hc⟩

theorem firing_iff (ln : Lane) : ln.queue.any (·.isFiring) = true ↔ ln.Firing := List.any_eq_true

theorem Lane.BackDue.kind {ln : Lane} {w : Work} (h : ln.BackDue w) :
    w = .switchDone ∨ w = .cut ∨ w = .limitHalt := by
  cases w <;> simp_all [Lane.BackDue]

theorem completeDrain_lane (env : LaneEnv) (ln : Lane) :
    (completeDrain env ln).lane.state = .stopped ∧ (completeDrain env ln).lane.queue = ln.queue ∧
    (completeDrain env ln).lane.tb.pmax = (completeDrain env ln).lane.tb.p := by
  obtain ⟨h1, _, _, _, h5, h6, h7, _⟩ := rest_lane { ln with state := .stopped }
  exact ⟨h7, h1, h5.trans h6.symm⟩

/-- A drain after a work of such a step. -/
theorem LaneOut.Backs.drain {env : LaneEnv} {ln a : Lane} {o : LaneOut}
    (h : o.Backs env.id ln) (hq : ln.NoFire → a.queue = o.lane.queue) :
    (o.andThen (drainIfEmpty env a)).Backs env.id ln := by
  rcases andThen_drain env a o with e | ⟨h1, h2, h3, e⟩
  · rw [e]
    exact h
  · rw [e]
    rcases h with ⟨k1, _, _⟩ | ⟨k1, _⟩ | ⟨_, _, k1, _⟩
    · have hp : ¬ln.NoFire := fun hc => h2 ((hq hc).trans h3)
      obtain ⟨d1, d2, d3⟩ := completeDrain_lane env o.lane
      exact .inr (.inr ⟨k1.symm.trans h1, hp, d1, d2.trans h3, d3⟩)
    · rw [h1] at k1
      cases k1
    · rw [h1] at k1
      cases k1

theorem halt_event (cause : HaltCause) (env : LaneEnv) (ln : Lane) (ha : ln.active = true) :
    .event (.laneState env.id .halted cause.stateCause) ∈ (halt cause env ln).effects := by
  unfold halt
  rw [if_pos ha]
  exact List.mem_append_right _ (List.mem_singleton.mpr rfl)

/-- An act that leaves the belt alone on a lane with FIRING parcels keeps the lane in its way. -/
theorem LaneOut.Backs.tame {env : LaneEnv} {ln : Lane} {o : LaneOut} {f : Lane → LaneOut}
    (h : o.Backs env.id ln) (hn : ¬ln.NoFire) (t : o.lane.Tame true (f o.lane).lane) :
    (o.andThen f).Backs env.id ln := by
  have htb : (o.andThen f).lane.tb = o.lane.tb := t.belt.tb
  rcases h with ⟨k1, k2, k3⟩ | ⟨k1, k2, k3, k4, k5, k6, k7⟩ | ⟨k1, k2, k3, k4, k5⟩
  · exact .inl ⟨t.belt.state.trans k1, by rw [htb]; exact k2, fun hc => absurd hc hn⟩
  · exact .inr (.inl ⟨t.belt.state.trans k1, t.belt.haltCause.trans k2, t.empty k3,
      t.belt.injection.trans k4, by rw [htb]; exact k5, by rw [htb]; exact k6, List.mem_append_left _ k7.1,
      k7.2⟩)
  · exact .inr (.inr ⟨k1, k2, t.belt.state.trans k3, t.empty k4, by rw [htb]; exact k5⟩)

/-- Each work of such a step keeps the lane in one of its three ways. -/
theorem backs_run {env : LaneEnv} {ln : Lane} {o : LaneOut} {w : Work}
    (ha : ln.active = true) (hw : ln.BackDue w) (h : o.Backs env.id ln) :
    (o.andThen (Work.run env w)).Backs env.id ln ∧
    (ln.NoFire → (o.andThen (Work.run env w)).lane.state = .draining →
      (o.andThen (Work.run env w)).lane.queue = o.lane.queue) := by
  rcases hw.kind with rfl | rfl | rfl
  · obtain ⟨e1, e2, e3, e4, e5⟩ := completeSwitch_same env o.lane
    have hs : (completeSwitch env o.lane).lane.stations = o.lane.stations ∧
        (completeSwitch env o.lane).lane.lots = o.lane.lots ∧
        (completeSwitch env o.lane).lane.haltCause = o.lane.haltCause ∧
        (completeSwitch env o.lane).lane.injection = o.lane.injection ∧
        (o.lane.tb.pendingSwitch = none → (completeSwitch env o.lane).lane.tb.pendingSwitch = none) := by
      rcases completeSwitch_lane env o.lane with e | ⟨src, lost, e⟩ <;> rw [e]
      · exact ⟨rfl, rfl, rfl, rfl, fun h => h⟩
      · exact ⟨rfl, rfl, rfl, rfl, fun _ => rfl⟩
    refine ⟨?_, fun _ _ => e1⟩
    rcases h with ⟨k1, k2, k3⟩ | ⟨k1, k2, k3, k4, k5, k6, k7⟩ | ⟨k1, k2, k3, k4, k5⟩
    · exact .inl ⟨e2.trans k1, e4.trans k2, fun hp =>
        ⟨e1.trans (k3 hp).1, hs.1.trans (k3 hp).2.1, hs.2.1.trans (k3 hp).2.2⟩⟩
    · exact .inr (.inl ⟨e2.trans k1, hs.2.2.1.trans k2, e1.trans k3, hs.2.2.2.1.trans k4, hs.2.2.2.2 k5,
        e4.trans (k6.trans e3.symm), List.mem_append_left _ k7.1, k7.2⟩)
    · exact .inr (.inr ⟨k1, k2, e2.trans k3, e1.trans k4, e4.trans (k5.trans e3.symm)⟩)
  · have hn := Lane.Firing.not_noFire hw
    exact ⟨h.tame hn (cutLane_tame true env .cutReverse o.lane), fun hc => absurd hc hn⟩
  · have hrest : o.lane.active = false → o.andThen (Work.run env .limitHalt) = o := by
      intro hf
      have : Work.run env .limitHalt o.lane = o.lane.quiet := halt_rest _ _ _ hf
      simp only [LaneOut.andThen, this, Lane.quiet, List.append_nil]
    rcases h with h | h | h
    · have hact : o.lane.active = true := by
        simp only [Lane.active, h.1]
        exact ha
      obtain ⟨h1, h2, h3, h4, h5, _, h7, h8, _⟩ := halt_lane .reverseLimit env o.lane hact
      refine ⟨.inr (.inl ⟨h1, h2, h3, h4, h5, h8.trans h7.symm, List.mem_append_right _
        (halt_event .reverseLimit env o.lane hact), hw⟩), fun _ hd => ?_⟩
      have : (o.andThen (Work.run env .limitHalt)).lane.state = .halted := h1
      rw [this] at hd
      cases hd
    · rw [hrest (by simp [Lane.active, h.1])]
      exact ⟨.inr (.inl h), fun _ _ => rfl⟩
    · rw [hrest (by simp [Lane.active, h.2.2.1])]
      exact ⟨.inr (.inr h), fun _ _ => rfl⟩

theorem backs_act {env : LaneEnv} {ln : Lane} {o : LaneOut} {w : Work}
    (ha : ln.active = true) (hw : ln.BackDue w) (h : o.Backs env.id ln) :
    (o.andThen (Work.act env w)).Backs env.id ln := by
  obtain ⟨h1, h2⟩ := backs_run ha hw h
  rw [andThen_act]
  rcases andThen_drain env o.lane (o.andThen (Work.run env w)) with e | ⟨d1, d2, d3, e⟩
  · rw [e]
    exact h1
  · exact h1.drain fun hp => (h2 hp d1).symm

/-- A step of P down leaves a lane that runs or drains in one of the three ways; past the limit it is
not the first. -/
theorem WorksDone.backs {env : LaneEnv} {before ln : Lane} {p : Pos} {out : LaneOut}
    (h : WorksDone env before (ln.movedTo p ln.tb.pmax) ln.BackDue out) (ha : ln.active = true)
    (hq : before.queue = ln.queue) : out.Backs env.id ln ∧ (ln.Passes → out.lane.active = false) := by
  obtain ⟨ws, _, hm, rfl⟩ := h
  set o := runEach (Work.act env) ws (ln.movedTo p ln.tb.pmax) with ho
  have h0 : (ln.movedTo p ln.tb.pmax).quiet.Backs env.id ln :=
    .inl ⟨rfl, rfl, fun _ => ⟨rfl, rfl, rfl⟩⟩
  have keep : ∀ w ∈ ws, ∀ x : LaneOut, x.Backs env.id ln →
      (x.andThen (Work.act env w)).Backs env.id ln :=
    fun w hw x hx => backs_act ha ((hm w).mp hw) hx
  have h1 : o.Backs env.id ln := runEach_out_keeps ws keep h0
  have h2 : (o.andThen (drainIfEmpty env before)).Backs env.id ln := by
    rcases h1 with h1 | h1 | h1
    · exact LaneOut.Backs.drain (.inl h1) fun hp => hq.trans (h1.2.2 hp).1.symm
    · rcases andThen_drain env before o with e | ⟨d1, _⟩
      · rw [e]
        exact .inr (.inl h1)
      · rw [h1.1] at d1
        cases d1
    · rcases andThen_drain env before o with e | ⟨d1, _⟩
      · rw [e]
        exact .inr (.inr h1)
      · rw [h1.2.2.1] at d1
        cases d1
  have hstep : ∀ f : LaneEnv → Lane → LaneOut, f env before = o →
      laneStep f env before = ⟨syncPorts env.id before ((o.andThen (drainIfEmpty env before)).lane.syncMonitor env),
        inQueueOrder (o.andThen (drainIfEmpty env before)).effects⟩ := by
    intro f hf
    unfold laneStep
    rw [hf]
  rw [hstep _ rfl]
  set d := o.andThen (drainIfEmpty env before) with hd
  refine ⟨?_, fun hl => ?_⟩
  · rcases h2 with ⟨k1, k2, k3⟩ | ⟨k1, k2, k3, k4, k5, k6, k7⟩ | ⟨k1, k2, k3, k4, k5⟩
    · refine .inl ⟨k1, k2, fun hp => ⟨(k3 hp).1, ?_, (k3 hp).2.2⟩⟩
      have : syncPorts env.id before (d.lane.syncMonitor env) = d.lane.syncMonitor env :=
        syncPorts_same ((k3 hp).1.trans hq.symm)
      rw [this]
      exact (k3 hp).2.1
    · exact .inr (.inl ⟨k1, k2, k3, k4, k5, k6, (mem_inQueueOrder ⟨_, rfl⟩).mpr k7.1, k7.2⟩)
    · exact .inr (.inr ⟨k1, k2, k3, k4, k5⟩)
  · have hrest : ∀ (a : Lane) (x : LaneOut), x.lane.active = false →
        (x.andThen (drainIfEmpty env a)).lane.active = false := by
      intro a x hx
      show (drainIfEmpty env a x.lane).lane.active = false
      rw [drainIfEmpty_rest env a hx]
      exact hx
    have act : ∀ (w : Work) (x : LaneOut), ln.BackDue w →
        x.lane.active = false ∨ w = .limitHalt → (x.andThen (Work.act env w)).lane.active = false := by
      intro w x hw hc
      rw [andThen_act]
      refine hrest _ _ ?_
      rcases hw.kind with rfl | rfl | rfl
      · have hf := hc.resolve_right (by simp)
        have := (completeSwitch_same env x.lane).2.1
        show (completeSwitch env x.lane).lane.active = false
        simpa [Lane.active, this] using hf
      · have hf := hc.resolve_right (by simp)
        show (cutLane env .cutReverse x.lane).lane.active = false
        rw [(cutLane_tame true env .cutReverse x.lane).belt.active]
        exact hf
      · show (halt .reverseLimit env x.lane).lane.active = false
        by_cases hx : x.lane.active = true
        · simp [Lane.active, (halt_lane .reverseLimit env x.lane hx).1]
        · rw [halt_rest _ _ _ (by simpa using hx)]
          simpa using hx
    have h3 := (runEach_out_establishes (f := Work.act env) (ln := ln.movedTo p ln.tb.pmax)
      (Φ := fun x => x.lane.active = false) (Ψ := LaneOut.Backs env.id ln) ((hm .limitHalt).mpr hl) keep
      (fun w hw x _ hf => act w x ((hm w).mp hw) (.inl hf))
      (fun x _ => act .limitHalt x hl (.inr rfl)) h0).1
    exact hrest before o h3

/-- A step of P down leaves no parcel FIRING. -/
theorem WorksDone.back_noFire {env : LaneEnv} {before moved ln : Lane} {out : LaneOut}
    (h : WorksDone env before moved ln.BackDue out) (hq : moved.queue = ln.queue) : out.lane.NoFire := by
  obtain ⟨ws, _, hm, rfl⟩ := h
  have of_queue : ∀ {a b : Lane}, a.NoFire → b.queue = a.queue → b.NoFire := fun ha hb p hp => ha p (hb ▸ hp)
  have drained : ∀ (w : Work) (x : LaneOut), (Work.run env w x.lane).lane.NoFire →
      (x.andThen (Work.act env w)).lane.NoFire := fun w x hr =>
    of_queue hr (drainIfEmpty_same env x.lane (Work.run env w x.lane).lane).1
  have keep : ∀ w ∈ ws, ∀ x : LaneOut, x.lane.NoFire → (x.andThen (Work.act env w)).lane.NoFire := by
    intro w hw x hl
    refine drained w x ?_
    rcases ((hm w).mp hw).kind with rfl | rfl | rfl
    · exact of_queue hl (completeSwitch_same env x.lane).1
    · exact cutLane_noFire env _ x.lane
    · by_cases ha : x.lane.active = true
      · exact NoFire_of_empty (halt_lane .reverseLimit env x.lane ha).2.2.1
      · show (halt .reverseLimit env x.lane).lane.NoFire
        rw [halt_rest _ _ _ (by simpa using ha)]
        exact hl
  have hr : (runEach (Work.act env) ws moved).lane.NoFire := by
    by_cases hf : ln.Firing
    · exact (runEach_out_establishes (f := Work.act env) (ln := moved) (Φ := fun x => x.lane.NoFire)
        (Ψ := fun _ => True) ((hm .cut).mpr hf) (fun _ _ _ _ => trivial) (fun w hw x _ hl => keep w hw x hl)
        (fun x _ => drained .cut x (cutLane_noFire env _ x.lane)) trivial).1
    · exact runEach_out_keeps (Φ := fun x => x.lane.NoFire) ws keep
        (of_queue (noFire_of_not_firing hf) hq)
  exact of_queue hr (laneStep_queue _ _ _)

/-! ## The parcels that a cut takes (R32, R106, R108) -/

/-- The end of one firing takes the parcels of its serial out of the queue. -/
theorem endFiring_queue (env : LaneEnv) (r : TraceReason) (o : Outcome) (p : Parcel) (ln : Lane)
    (hp : p.isFiring = true) :
    (endFiring env r o p ln).lane.queue = ln.queue.filter (·.serial != p.serial) := by
  cases h : p.phase with
  | firing aim shot =>
    unfold endFiring
    simp only [h]
    exact removeParcel_queue env p.serial o ln
  | _ => simp [Parcel.isFiring, h] at hp

/-- A cut of a lane takes every parcel that is FIRING, and no other. -/
theorem cutLane_queue (env : LaneEnv) (r : TraceReason) (ln : Lane) (h : (ln.queue.map (·.serial)).Nodup) :
    (cutLane env r ln).lane.queue = ln.queue.filter fun p => !p.isFiring := by
  have key : ∀ (xs : List Parcel), (∀ x ∈ xs, x.isFiring = true) → ∀ o : LaneOut,
      (xs.foldl (fun o x => o.andThen (endFiring env r .cut x)) o).lane.queue =
        o.lane.queue.filter fun p => !xs.any fun x => x.serial == p.serial := by
    intro xs
    induction xs with
    | nil => intro _ o; simp
    | cons x xs ih =>
      intro hx o
      rw [List.foldl_cons, ih fun y hy => hx y (List.mem_cons_of_mem _ hy)]
      have : (o.andThen (endFiring env r .cut x)).lane.queue = o.lane.queue.filter (·.serial != x.serial) :=
        endFiring_queue env r .cut x o.lane (hx x (List.mem_cons_self ..))
      rw [this, List.filter_filter]
      refine List.filter_congr fun p _ => ?_
      by_cases he : x.serial = p.serial
      · simp [he]
      · rw [List.any_cons, beq_eq_false_iff_ne.mpr he, bne_iff_ne.mpr fun e => he e.symm, Bool.and_true,
          Bool.false_or]
  have h1 : (cutLane env r ln).lane.queue =
      ln.queue.filter fun p => !(ln.queue.filter (·.isFiring)).any fun x => x.serial == p.serial :=
    key (ln.queue.filter (·.isFiring)) (fun x hx => (List.mem_filter.mp hx).2) ln.quiet
  rw [h1]
  refine List.filter_congr fun p hp => ?_
  congr 1
  rw [Bool.eq_iff_iff, List.any_eq_true]
  constructor
  · rintro ⟨x, hx, he⟩
    have hx' := List.mem_filter.mp hx
    have : x = p := List.inj_on_of_nodup_map h hx'.1 hp (by simpa using he)
    rw [← this]
    exact hx'.2
  · exact fun hf => ⟨p, List.mem_filter.mpr ⟨hp, hf⟩, by simp⟩

/-- Where one work of a step settles the queue and every other leaves it, the step leaves what that work
makes of it. -/
theorem WorksDone.queue_by {env : LaneEnv} {before moved : Lane} {due : Work → Prop} {out : LaneOut}
    (h : WorksDone env before moved due out) (x : Work) (hx : due x) (q : List Parcel)
    (hrun : ∀ w, due w → w ≠ x → ∀ y : Lane, (Work.run env w y).lane.queue = y.queue)
    (hq : ∀ y : Lane, y.queue = moved.queue ∨ y.queue = q → (Work.run env x y).lane.queue = q) :
    out.lane.queue = q := by
  obtain ⟨ws, _, hm, rfl⟩ := h
  have act : ∀ w, due w → ∀ y : LaneOut, (y.andThen (Work.act env w)).lane.queue =
      (Work.run env w y.lane).lane.queue := by
    intro w _ y
    rw [andThen_act]
    exact (drainIfEmpty_same env y.lane (y.andThen (Work.run env w)).lane).1
  have h3 := (runEach_out_establishes (f := Work.act env) (ln := moved)
    (Φ := fun y => y.lane.queue = q) (Ψ := fun y => y.lane.queue = moved.queue ∨ y.lane.queue = q)
    ((hm x).mpr hx)
    (fun w hw y hy => by
      rw [act w ((hm w).mp hw)]
      by_cases e : w = x
      · rw [e]
        exact .inr (hq _ hy)
      · rw [hrun w ((hm w).mp hw) e]
        exact hy)
    (fun w hw y hy hf => by
      rw [act w ((hm w).mp hw)]
      by_cases e : w = x
      · rw [e]
        exact hq _ hy
      · rw [hrun w ((hm w).mp hw) e]
        exact hf)
    (fun y hy => by
      rw [act x hx]
      exact hq _ hy)
    (.inl rfl)).1
  exact (laneStep_queue _ _ _).trans h3

/-- Within the limit, a step of P down takes the FIRING parcels and no other. -/
theorem WorksDone.cut_queue {env : LaneEnv} {before ln : Lane} {p m : Pos} {out : LaneOut}
    (h : WorksDone env before (ln.movedTo p m) ln.BackDue out) (hl : ¬ln.Passes) (hc : ln.Firing)
    (hn : (ln.queue.map (·.serial)).Nodup) : out.lane.queue = ln.queue.filter fun p => !p.isFiring := by
  refine h.queue_by .cut hc _ (fun w hw he y => ?_) fun y hy => ?_
  · rcases hw.kind with rfl | rfl | rfl
    · exact (completeSwitch_same env y).1
    · exact absurd rfl he
    · exact absurd hw hl
  · show (cutLane env .cutReverse y).lane.queue = _
    rcases hy with hy | hy
    · have hy' : y.queue = ln.queue := hy
      rw [cutLane_queue env .cutReverse y (hy' ▸ hn), hy']
    · rw [cutLane_queue env .cutReverse y (hy ▸ hn.sublist (List.Sublist.map _ List.filter_sublist)), hy]
      simp [List.filter_filter]

/-! ## The steps themselves -/

theorem switchWorks_only (ln : Lane) : ln.switchWorks.Nodup ∧ ∀ w, w ∈ ln.switchWorks ↔ ln.SwitchOnly w := by
  unfold Lane.switchWorks Lane.SwitchOnly
  have hc : (∃ target, ln.SwitchDue target) ↔ ln.completing.isSome = true := by
    rw [Option.isSome_iff_exists]
    exact exists_congr fun t => (completing_iff ln t).symm
  rw [hc]
  cases ln.completing.isSome <;> simp

/-- A step of P up is what `Lane.StepsUp` says. -/
theorem stepForward_up (env : LaneEnv) (before ln : Lane) :
    ln.StepsUp env before (laneStep (fun env _ => stepForward env ln) env before) := by
  refine ⟨fun hg => ?_, fun hg => ?_⟩
  · obtain ⟨ws, hn, hm, e⟩ := stepForward_newGround env ln hg
    exact ⟨ws, hn, hm, laneStep_congr e⟩
  · have hc : (!ln.active || ahead ln.tb.pmax (ln.tb.p + 1)) = false := by
      unfold Lane.NewGround at hg
      cases ha : ln.active <;> cases hx : ahead ln.tb.pmax (ln.tb.p + 1) <;> simp_all
    obtain ⟨ws, hws⟩ : ∃ ws, ws = (ln.movedTo (ln.tb.p + 1) ln.tb.pmax).switchWorks := ⟨_, rfl⟩
    have e : stepForward env ln = runWorks env ws (ln.movedTo (ln.tb.p + 1) ln.tb.pmax) := by
      unfold stepForward
      dsimp only
      rw [hc, hws]
      rfl
    obtain ⟨hn, hm⟩ := switchWorks_only (ln.movedTo (ln.tb.p + 1) ln.tb.pmax)
    rw [← hws] at hn
    have hp := arrange_perm (Config.pick env.seed) ws.length ws
    refine ⟨_, hp.nodup_iff.mpr hn, fun w => hp.mem_iff.trans ?_, laneStep_congr e⟩
    rw [hws]
    exact hm w

/-- The works of a step of P down, each once. -/
theorem backWorks_due (ln : Lane) :
    ln.lowered.backWorks.Nodup ∧ ∀ w, w ∈ ln.lowered.backWorks ↔ ln.BackDue w := by
  have hpass : ln.lowered.limitPassed = true ↔ ln.Passes := by
    simp [Lane.limitPassed, Lane.Passes, Lane.lowered]
  have hfire : ln.lowered.queue.any (·.isFiring) = true ↔ ln.Firing := firing_iff _
  have hsw : (∃ target, ln.SwitchDue target) ↔ ln.lowered.completing.isSome = true := by
    rw [Option.isSome_iff_exists]
    exact exists_congr fun t => (completing_iff ln.lowered t).symm
  refine ⟨?_, fun w => ?_⟩
  · unfold Lane.backWorks Lane.switchWorks Lane.cutWorks
    cases ln.lowered.completing.isSome <;> cases ln.lowered.queue.any (·.isFiring) <;>
      cases ln.lowered.limitPassed <;> simp
  · rw [mem_backWorks, hpass, hfire, ← hsw]
    cases w <;> simp [Lane.BackDue]

/-- A step of P down is what `Lane.StepsDown` says. -/
theorem stepBackward_down (env : LaneEnv) (before ln : Lane) :
    ln.StepsDown env before (laneStep (fun env _ => stepBackward env ln) env before) := by
  refine ⟨fun ha => ?_, fun ha => ?_⟩
  · have e : stepBackward env ln = runWorks env (ln.movedTo (ln.tb.p - 1) (ln.tb.p - 1)).switchWorks
        (ln.movedTo (ln.tb.p - 1) (ln.tb.p - 1)) := by
      unfold stepBackward
      dsimp only
      rw [ha]
      rfl
    obtain ⟨hn, hm⟩ := switchWorks_only (ln.movedTo (ln.tb.p - 1) (ln.tb.p - 1))
    have hp := arrange_perm (Config.pick env.seed) (ln.movedTo (ln.tb.p - 1) (ln.tb.p - 1)).switchWorks.length
      (ln.movedTo (ln.tb.p - 1) (ln.tb.p - 1)).switchWorks
    exact ⟨_, hp.nodup_iff.mpr hn, fun w => hp.mem_iff.trans (hm w), laneStep_congr e⟩
  · obtain ⟨hn, hm⟩ := backWorks_due ln
    have hp := arrange_perm (Config.pick env.seed) ln.lowered.backWorks.length ln.lowered.backWorks
    refine ⟨_, hp.nodup_iff.mpr hn, fun w => hp.mem_iff.trans (hm w), laneStep_congr ?_⟩
    unfold stepBackward
    rw [if_pos ha]
    rfl

/-! ## Counts of the sources (R26 to R30) -/

/-- The same pair of levels again is no count (R26). -/
theorem phaseSample_none (env : LaneEnv) (ln : Lane) : phaseSample ln.tb.phases.1 ln.tb.phases.2 env ln = ln.quiet := by
  unfold phaseSample decodePhases
  simp [Lane.sampled]

/-- A change of both phases is a phase error and nothing else (R26). -/
theorem phaseSample_error (env : LaneEnv) (ln : Lane) :
    phaseSample (!ln.tb.phases.1) (!ln.tb.phases.2) env ln = Lane.quiet { ln with tb := { ln.tb with
      phases := (!ln.tb.phases.1, !ln.tb.phases.2), phaseErrors := holdInc ln.tb.phaseErrors } } := by
  have h : decodePhases ln.tb.phases (!ln.tb.phases.1, !ln.tb.phases.2) = .error := by
    generalize ln.tb.phases = x
    revert x
    decide
  unfold phaseSample
  dsimp only
  rw [h]
  rfl

theorem judged_pending (ln : Lane) (f : Settle → Settle) : ln.judged f =
    { ln with tb := { ln.tb with pendingSwitch := ln.tb.pendingSwitch.map (·.judging f) } } := by
  obtain ⟨cfg, ⟨p, pmax, source, pendingScale, residue, pendingRate, accumulator, monitor, lost, ps, pe, ph⟩⟩ := ln
  unfold Lane.judged
  cases ps with
  | none => rfl
  | some w =>
    cases w with
    | toNominal => rfl
    | toEncoder st => cases ha : st.agreed <;> simp [PendingSwitch.judging, ha]

theorem takeScale_eq (ln : Lane) (f : Nat → Nat) : ln.takeScale f =
    { ln with cfg := { ln.cfg with scale := ln.tb.pendingScale.getD ln.cfg.scale }
              tb := { ln.tb with pendingScale := none, residue := (ln.tb.pendingScale.map f).getD ln.tb.residue } } := by
  obtain ⟨cfg, ⟨p, pmax, source, pendingScale, residue, pendingRate, accumulator, monitor, lost, ps, pe, ph⟩⟩ := ln
  unfold Lane.takeScale
  cases pendingScale <;> rfl

/-- What a decoder count up makes of the lane (R26 to R28). -/
theorem counted_up (ln : Lane) (x : Bool × Bool) (now : Time) : (ln.sampled x).counted true now =
    (ln.countedUp x now, if ln.cfg.scale ≤ ln.tb.residue + 1 then some true else none) := by
  have e : ∀ r : Nat, (Option.map (fun _ : Nat => r) ln.tb.pendingScale).getD r = r := by
    intro r; cases ln.tb.pendingScale <;> rfl
  unfold Lane.counted divide
  dsimp only [Lane.touchMonitor, Lane.sampled, if_true]
  by_cases hf : ln.cfg.scale ≤ ln.tb.residue + 1
  · simp [Lane.boundary, takeScale_eq, judged_pending, Lane.countedUp, hf, e]
  · simp [Lane.countedUp, hf]

/-- What a decoder count down makes of the lane (R26 to R28). -/
theorem counted_down (ln : Lane) (x : Bool × Bool) (now : Time) : (ln.sampled x).counted false now =
    (ln.countedDown x now, if ln.tb.residue = 0 then some false else none) := by
  have e : ∀ r : Nat, (Option.map (fun k : Nat => k - 1) ln.tb.pendingScale).getD (r - 1) =
      ln.tb.pendingScale.getD r - 1 := by
    intro r; cases ln.tb.pendingScale <;> rfl
  unfold Lane.counted divide
  dsimp only [Lane.touchMonitor, Lane.sampled]
  simp only [judged_pending, Bool.false_eq_true, if_false]
  by_cases hf : ln.tb.residue = 0
  · simp [Lane.boundary, takeScale_eq, Lane.countedDown, hf, e]
  · simp [Lane.countedDown, hf]

theorem decodePhases_up (x y : Bool × Bool) : decodePhases x y = .up ↔ y = (!x.2, x.1) := by
  revert x y
  decide

theorem decodePhases_down (x y : Bool × Bool) : decodePhases x y = .down ↔ y = (x.2, !x.1) := by
  revert x y
  decide

/-- A count up of the decoder (R26 to R28). -/
theorem phaseSample_up (env : LaneEnv) (ln : Lane) :
    phaseSample (!ln.tb.phases.2) ln.tb.phases.1 env ln =
      if ln.tb.source = .encoder ∧ ln.cfg.scale ≤ ln.tb.residue + 1 then
        stepForward env (ln.countedUp (!ln.tb.phases.2, ln.tb.phases.1) env.now)
      else (ln.countedUp (!ln.tb.phases.2, ln.tb.phases.1) env.now).quiet := by
  unfold phaseSample
  dsimp only
  rw [(decodePhases_up _ _).mpr rfl]
  unfold decoderCount
  simp only [counted_up]
  have hs : (ln.countedUp (!ln.tb.phases.2, ln.tb.phases.1) env.now).tb.source = ln.tb.source := rfl
  rw [hs]
  cases ln.tb.source <;> by_cases hf : ln.cfg.scale ≤ ln.tb.residue + 1 <;> simp [hf]

/-- A count down of the decoder (R26 to R28). -/
theorem phaseSample_down (env : LaneEnv) (ln : Lane) :
    phaseSample ln.tb.phases.2 (!ln.tb.phases.1) env ln =
      if ln.tb.source = .encoder ∧ ln.tb.residue = 0 then
        stepBackward env (ln.countedDown (ln.tb.phases.2, !ln.tb.phases.1) env.now)
      else (ln.countedDown (ln.tb.phases.2, !ln.tb.phases.1) env.now).quiet := by
  unfold phaseSample
  dsimp only
  rw [(decodePhases_down _ _).mpr rfl]
  unfold decoderCount
  simp only [counted_down]
  have hs : (ln.countedDown (ln.tb.phases.2, !ln.tb.phases.1) env.now).tb.source = ln.tb.source := rfl
  rw [hs]
  cases ln.tb.source <;> by_cases hf : ln.tb.residue = 0 <;> simp [hf]

/-- A nominal count (R29, R30, R40). -/
theorem nominalCount_eq (env : LaneEnv) (ln : Lane) : nominalCount env ln =
    if ln.tb.source = .nominal then stepForward env ln.countedNominal else ln.countedNominal.quiet := by
  obtain ⟨cfg, ⟨p, pmax, source, pendingScale, residue, pendingRate, accumulator, monitor, lost, ps, pe, ph⟩⟩ := ln
  unfold nominalCount Lane.takeRate
  cases source <;> cases pendingRate <;> simp [judged_pending, Lane.countedNominal, fullAccumulator]

/-! ## What a step of P leaves, up and down -/

/-- What a step of P up leaves, whatever the order of its works. -/
theorem Lane.StepsUp.result {env : LaneEnv} {ln before : Lane} {out : LaneOut} (h : ln.StepsUp env before out)
    (hq : ln.queue = before.queue) :
    (ln.movedTo (ln.tb.p + 1) ln.tb.pmax).Steady out.lane ∧
    (∀ target, ln.SwitchDue target → out.lane.tb.source = target ∧ out.lane.tb.pendingSwitch = none ∧
      (target = .encoder → out.lane.tb.encoderLost = false) ∧
      .event (.sourceSwitched env.id target) ∈ out.effects) ∧
    ln.MovesUp out.lane := by
  by_cases hg : ln.NewGround
  · have hk := h.1 hg
    have hst := hk.steady
    exact ⟨⟨hst.pos, hst.phases, hst.errors, hst.accumulator, hst.pendingRate, hst.geometry, hst.rate,
      hst.receivers, hst.hostHold, hst.residue⟩,
      fun t hs => hk.switches (target := t) hs ⟨_, hs⟩ (fun h => h), fun _ => hk.level rfl,
      fun hn => absurd hg hn⟩
  · have hk := h.2 hg
    obtain ⟨e1, e2, e3, e4, e5⟩ := hk.onlySwitch_same (fun w h => h.1) hq
    exact ⟨hk.steady, fun t hs => hk.switches (target := t) hs ⟨rfl, _, hs⟩ (fun h => by cases h.1),
      fun hc => absurd hc hg, fun _ => ⟨e5, e4, e1, e2, e3⟩⟩

/-- What a step of P down leaves, whatever the order of its works. -/
theorem Lane.StepsDown.result {env : LaneEnv} {ln before : Lane} {out : LaneOut}
    (h : ln.StepsDown env before out) (hq : ln.queue = before.queue) :
    (ln.movedTo (ln.tb.p - 1) ln.tb.pmax).Steady out.lane ∧
    (∀ target, ln.SwitchDue target → ln.active = false ∨ ¬ln.Passes →
      out.lane.tb.source = target ∧ out.lane.tb.pendingSwitch = none ∧
      (target = .encoder → out.lane.tb.encoderLost = false) ∧
      .event (.sourceSwitched env.id target) ∈ out.effects) ∧
    (ln.active = false → out.lane.tb.pmax = ln.tb.p - 1 ∧ out.lane.queue = ln.queue ∧
      out.lane.state = ln.state) ∧
    (ln.active = true → out.Backs env.id ln ∧ (ln.Passes → out.lane.active = false) ∧ out.lane.NoFire ∧
      (¬ln.Passes → (ln.queue.map (·.serial)).Nodup →
        out.lane.queue = ln.queue.filter fun p => !p.isFiring)) := by
  by_cases ha : ln.active = true
  · have hk := h.2 ha
    obtain ⟨h1, h2⟩ := hk.backs ha hq.symm
    refine ⟨hk.steady, fun t hs hc => ?_, fun hf => ?_, fun _ => ⟨h1, h2, hk.back_noFire rfl, fun hl hn => ?_⟩⟩
    · exact hk.switches (target := t) hs ⟨_, hs⟩ (hc.resolve_left (by rw [ha]; decide))
    · rw [ha] at hf; cases hf
    · by_cases hf : ln.Firing
      · exact hk.cut_queue hl hf hn
      · have hnf := noFire_of_not_firing hf
        have hsame : out.lane.queue = ln.queue := by
          rcases h1 with h1 | h1 | h1
          · exact (h1.2.2 hnf).1
          · exact absurd h1.2.2.2.2.2.2.2 hl
          · exact absurd hnf h1.2.1
        rw [hsame, List.filter_eq_self.mpr]
        intro p hp
        simp [hnf p hp]
  · have hf : ln.active = false := by simpa using ha
    have hk := h.1 hf
    have hsame := hk.onlySwitch_same (fun w h => h.1) hq
    have hst := hk.steady
    refine ⟨⟨hst.pos, hst.phases, hst.errors, hst.accumulator, hst.pendingRate, hst.geometry, hst.rate,
      hst.receivers, hst.hostHold, hst.residue⟩,
      fun t hs _ => hk.switches (target := t) hs ⟨rfl, _, hs⟩ (fun h => by cases h.1),
      fun _ => ⟨hsame.2.2.2.2, hsame.1, hsame.2.2.2.1⟩, fun h => absurd h ha⟩

/-! ## A step of a lane within the part -/

/-- A step of a lane that takes a free choice. -/
theorem stepLane_chosen (s : State) (l : LaneId) (f : LaneEnv → Lane → LaneOut) :
    (s.stepLane l f).chosen = s.stepped l (laneStep f (s.env l) s.lanes[l]) := by
  have : ∀ (es : List Effect) (x : State), (x.commit l es).choices = x.choices := by
    intro es x
    exact commit_keeps (Φ := fun y => y.choices = x.choices) l (fun y e h => by
      cases e <;> simp [State.effect, h]) es x rfl
  unfold State.stepped State.chosen State.stepLane State.onLane
  dsimp only
  rw [this]
  rfl

theorem stepped_lane (s : State) (l : LaneId) (out : LaneOut) : (s.stepped l out).lanes[l] = out.lane := by
  have : ((s.setLane l out.lane).commit l out.effects).lanes = (s.setLane l out.lane).lanes :=
    commit_keeps (Φ := fun y => y.lanes = (s.setLane l out.lane).lanes) l (fun y e h => by
      cases e <;> simp [State.effect, h]) _ _ rfl
  show ((s.setLane l out.lane).commit l out.effects).lanes[l] = _
  rw [this]
  simp

theorem stepped_frame (s : State) (l : LaneId) (out : LaneOut) : s.LaneFrame l (s.stepped l out) := by
  have h := (setLane_frame l s out.lane).trans (commit_frame l l out.effects _)
  exact h.trans (by constructor <;> first | rfl | exact fun _ _ => rfl)

theorem stepped_flag (s : State) (l : LaneId) (out : LaneOut) (e : Event) (hl : e.lane? = some l)
    (h : .event e ∈ out.effects) : (s.stepped l out).laneFlag l e.kind.val = true :=
  commit_laneFlag (s.setLane l out.lane) l out.effects e hl h

/-- A step whose blocks raise nothing and leave the queue as it is changes, around what they do, the monitor
alone. -/
theorem laneStep_quiet {f : LaneEnv → Lane → LaneOut} {env : LaneEnv} {ln x : Lane} (h : f env ln = x.quiet)
    (hq : x.queue = ln.queue) : laneStep f env ln = (x.syncMonitor env).quiet := by
  have h1 := laneStep_lane_of_same_queue (f := f) (env := env) (ln := ln) (by rw [h]; exact hq)
  have h2 : (laneStep f env ln).effects = [] := by
    show inQueueOrder ((f env ln).andThen (drainIfEmpty env ln)).effects = []
    rw [h]
    have : drainIfEmpty env ln x = x.quiet := by
      unfold drainIfEmpty
      rw [if_neg]
      rintro ⟨_, a, b⟩
      exact a (hq ▸ b)
    simp [LaneOut.andThen, Lane.quiet, this, inQueueOrder]
  rw [h] at h1
  calc laneStep f env ln = ⟨(laneStep f env ln).lane, (laneStep f env ln).effects⟩ := rfl
    _ = _ := by rw [h1, h2]; rfl

end Sys2Proof.Machine
end

