-- ==== Sys2Proof/Laws/Effects.lean ====
section
/-! SUPPORT. How what a step reports reaches the shared blocks: the events (R171 to R173), the trace and
its gap mark (R167, R168), and the order of a step's entries (R14, R167). -/

namespace Sys2Proof.Machine

/-! ## Events (R171 to R173) -/

theorem row_eq (e : Event) : e.row = (e.kind, e.lane?, e.particulars) := by
  cases e <;>
    simp [Event.row, Event.kind, Event.lane?, Event.particulars, beBytes_one, beBytes_two, bit, byte]
  split <;> rfl

/-- What raising an event does (R171 to R173, R188). -/
theorem raise_raises (s : State) (e : Event) : s.Raises e.kind e.lane? e.particulars (s.raise e) := by
  have hf : s.setFlag e = s.flagged e.kind e.lane? := by
    unfold State.setFlag State.flagged
    cases e.lane? <;> rfl
  have ho : (s.flagged e.kind e.lane?).link = s.link := by unfold State.flagged; cases e.lane? <;> rfl
  unfold State.Raises State.raise
  dsimp only
  rw [hf]
  refine ⟨fun h => by rw [if_neg (by simpa using h)], fun h => ⟨fun hn => ?_, fun hn => ?_⟩⟩
  · rw [if_pos h, offerNotice_room _ (by unfold Link.notices; rw [ho]; exact hn)]
    unfold State.pushFrame
    rw [ho]
    rfl
  · rw [if_pos h, offerNotice_full _ (by unfold Link.notices; rw [ho]; exact hn), ho]

/-! ## The trace (R166 to R168) -/

theorem raise_trace (s : State) (e : Event) : (s.raise e).trace = s.trace ∧ (s.raise e).gapPending = s.gapPending := by
  unfold State.raise State.setFlag State.offerNotice State.pushFrame
  cases e.lane? <;> dsimp only <;> split <;> (try split) <;> exact ⟨rfl, rfl⟩

/-- The trace after an entry made: added with the gap mark, or dropped with the mark set (R167, R168). -/
theorem addTrace_fields (s : State) (l : LaneId) (d : TraceDraft) :
    (s.trace.length < 512 → (s.addTrace l d).trace = s.trace ++ [d.entry l s.lineTime s.gapPending] ∧
      (s.addTrace l d).gapPending = false) ∧
    (512 ≤ s.trace.length → (s.addTrace l d).trace = s.trace ∧ (s.addTrace l d).gapPending = true) := by
  refine ⟨fun h => ?_, fun h => ?_⟩
  · unfold State.addTrace traceCapacity
    rw [if_pos h]
    dsimp only
    split
    · exact ⟨(raise_trace _ _).1, (raise_trace _ _).2⟩
    · split
      · exact ⟨(raise_trace _ _).1, (raise_trace _ _).2⟩
      · exact ⟨rfl, rfl⟩
  · unfold State.addTrace traceCapacity
    rw [if_neg (by omega)]
    exact ⟨rfl, rfl⟩

theorem State.Traces.refl (s : State) : s.Traces s [] := ⟨[], [], rfl, .inl rfl, .inl rfl, by simp, by simp⟩

/-- A step that leaves the trace and the mark makes no entry. -/
theorem traces_nil {s t : State} (h : t.trace = s.trace) (hg : t.gapPending = s.gapPending) : s.Traces t [] :=
  ⟨[], [], rfl, .inl rfl, .inl rfl, by simpa using h, by simpa using hg⟩

theorem State.Traces.congr {s s' t t' : State} {es : List TraceEntry} (h : s.Traces t es)
    (hs : s'.trace = s.trace) (hg : s'.gapPending = s.gapPending) (ht : t'.trace = t.trace)
    (hu : t'.gapPending = t.gapPending) : s'.Traces t' es := by
  obtain ⟨f, d, h1, h2, h3, h4, h5⟩ := h
  exact ⟨f, d, h1, by rw [hs]; exact h2, by rw [hs]; exact h3, by rw [ht, h4, hs, hg], by rw [hu, h5, hg]⟩

/-- Entries taken one after another. -/
theorem State.Traces.trans {s t u : State} {es fs : List TraceEntry} (h : s.Traces t es) (k : t.Traces u fs)
    (hf : ∀ e ∈ fs, e.gap = false) : s.Traces u (es ++ fs) := by
  obtain ⟨f, d, rfl, h2, h3, h4, h5⟩ := h
  obtain ⟨f', d', rfl, k2, k3, k4, k5⟩ := k
  have hlen : t.trace.length = s.trace.length + f.length := by
    rw [h4, List.length_append]
    cases f <;> rfl
  by_cases hd : d = []
  · subst hd
    rw [if_pos rfl] at h5
    refine ⟨f ++ f', d', by simp, ?_, ?_, ?_, ?_⟩
    · rw [List.length_append]
      rcases k2 with rfl | k2
      · simpa using h2
      · right; omega
    · rw [List.length_append]
      rcases k3 with k3 | k3
      · exact .inl k3
      · right; omega
    · rw [k4, h4]
      cases f with
      | nil => simp [h5]
      | cons e f =>
        cases f' with
        | nil => simp
        | cons e' f' =>
          have he : e'.gap = false := hf e' (by simp)
          have : ({ e' with gap := t.gapPending } : TraceEntry) = e' := by
            rw [h5]
            simp only [List.isEmpty_cons, Bool.and_false]
            rw [← he]
          simp [this]
    · rw [k5, h5]
      split
      · cases f <;> simp
      · rfl
  · rw [if_neg hd] at h5
    have hfull := h3.resolve_left hd
    have hf' : f' = [] := by
      rcases k2 with k2 | k2
      · exact k2
      · cases f' with
        | nil => rfl
        | cons e f' => simp at k2; omega
    subst hf'
    refine ⟨f, d ++ d', by simp, h2, .inr hfull, by rw [k4, h4]; simp, ?_⟩
    rw [k5, h5]
    simp [hd]

/-- One entry made. -/
theorem addTrace_traces (s : State) (l : LaneId) (d : TraceDraft) :
    s.Traces (s.addTrace l d) [d.entry l s.lineTime false] := by
  obtain ⟨h1, h2⟩ := addTrace_fields s l d
  by_cases h : s.trace.length < 512
  · obtain ⟨a, b⟩ := h1 h
    refine ⟨[d.entry l s.lineTime false], [], rfl, .inr ?_, .inl rfl, by rw [a]; rfl, by rw [b]; simp⟩
    simp; omega
  · obtain ⟨a, b⟩ := h2 (by omega)
    exact ⟨[], [d.entry l s.lineTime false], rfl, .inl rfl, .inr (by simp; omega), by rw [a]; simp, by rw [b]; simp⟩

/-- The entries that the effects of a step ask for, without the mark. -/
def entriesOf (l : LaneId) (now : Time) (es : List Effect) : List TraceEntry :=
  es.filterMap fun
    | .trace d => some (d.entry l now false)
    | .event _ => none

theorem entriesOf_gap {l : LaneId} {now : Time} {es : List Effect} : ∀ e ∈ entriesOf l now es, e.gap = false := by
  intro e he
  obtain ⟨x, _, hx⟩ := List.mem_filterMap.mp he
  cases x with
  | event _ => cases hx
  | trace d => cases hx; rfl

/-- What a step reports reaches the trace in its order. -/
theorem commit_traces (l : LaneId) (es : List Effect) (s : State) :
    s.Traces (s.commit l es) (entriesOf l s.lineTime es) := by
  induction es generalizing s with
  | nil => exact .refl s
  | cons e es ih =>
    rw [commit_cons]
    cases e with
    | event x =>
      have ht := (raise_frame 0 s x).time
      have h := ih (s.raise x)
      rw [ht] at h
      exact h.congr (raise_trace s x).1.symm (raise_trace s x).2.symm rfl rfl
    | trace d =>
      have ht := (addTrace_frame 0 l s d).time
      have h := ih (s.addTrace l d)
      rw [ht] at h
      exact (addTrace_traces s l d).trans h entriesOf_gap

/-! ## Parcel entries in queue order (R14, R167) -/

theorem insertDraft_last {d : TraceDraft} {xs : List TraceDraft} (h : ∀ x ∈ xs, x.before d = true) :
    insertDraft d xs = xs ++ [d] := by
  induction xs with
  | nil => rfl
  | cons x xs ih =>
    unfold insertDraft
    rw [if_pos (h x (List.mem_cons_self ..)), ih fun y hy => h y (List.mem_cons_of_mem _ hy)]
    rfl

/-- Drafts that stand in queue order already keep their order. -/
theorem inQueueOrder_sorted {es : List Effect}
    (h : (es.filterMap Effect.parcelDraft?).Pairwise fun a b => a.before b = true) :
    inQueueOrder es = (es.filterMap Effect.parcelDraft?).map .trace ++
      es.filter fun e => e.parcelDraft?.isNone := by
  have key : ∀ (xs acc : List TraceDraft), (acc ++ xs).Pairwise (fun a b => a.before b = true) →
      xs.foldl (fun acc d => insertDraft d acc) acc = acc ++ xs := by
    intro xs
    induction xs with
    | nil => intro acc _; simp
    | cons x xs ih =>
      intro acc hp
      have h1 : ∀ y ∈ acc, y.before x = true := fun y hy =>
        (List.pairwise_append.mp hp).2.2 y hy x (List.mem_cons_self ..)
      rw [List.foldl_cons, insertDraft_last h1, ih _ (by simpa using hp)]
      simp
  unfold inQueueOrder
  rw [key _ [] (by simpa using h)]
  rfl

/-- Of two parcels in queue order the drafts stand in it too. -/
theorem draft_before {p q : Parcel} {d e : TraceDraft} (hp : d.serial = some p.serial) (hl : d.lead = some p.lead)
    (hq : e.serial = some q.serial) (hm : e.lead = some q.lead) (h : p.StandsBefore q) : d.before e = true := by
  unfold TraceDraft.before Parcel.StandsBefore at *
  rw [hl, hm, hp, hq]
  dsimp only
  split at h
  · rename_i e'
    rw [if_pos e']
    simp; omega
  · rename_i e'
    rw [if_neg e']
    exact h

/-- The entries of a step whose effects are one draft a parcel of a queue in order, with events between, are
those of the drafts, in the same order. -/
theorem entriesOf_inQueueOrder (l : LaneId) (now : Time) {es : List Effect} {ds : List TraceDraft}
    (h : es.filterMap Effect.parcelDraft? = ds) (hs : ds.Pairwise fun a b => a.before b = true)
    (hn : ∀ d, .trace d ∈ es → d.lead.isSome = true) :
    entriesOf l now (inQueueOrder es) = ds.map (·.entry l now false) := by
  rw [inQueueOrder_sorted (by rw [h]; exact hs), h]
  unfold entriesOf
  rw [List.filterMap_append, List.filterMap_map]
  have e2 : (es.filter fun e => e.parcelDraft?.isNone).filterMap (fun
      | .trace d => some (d.entry l now false)
      | .event _ => none) = [] := by
    rw [List.filterMap_eq_nil_iff]
    intro x hx
    obtain ⟨hx1, hx2⟩ := List.mem_filter.mp hx
    cases x with
    | event _ => rfl
    | trace d =>
      have := hn d hx1
      simp [Effect.parcelDraft?, this] at hx2
  rw [e2, List.append_nil]
  rw [← List.filterMap_eq_map]
  rfl

end Sys2Proof.Machine
end

