-- ==== Sys2Proof/Laws/Ports.lean ====
section
/-! SUPPORT. What a step of a lane closes, sets at rest and sends (R95, R96, R105, R112). -/

namespace Sys2Proof.Machine

/-! ## Removals leave of the stations all but the firing lists -/

/-- The stations of two lanes differ in their firing lists alone. -/
def Lane.ListsOnly (a b : Lane) : Prop :=
  ∀ st : StationId, ∃ xs : List ListEntry, b.stations[st] = { a.stations[st] with list := xs }

theorem Lane.ListsOnly.of_stations {a b : Lane} (h : b.stations = a.stations) : a.ListsOnly b :=
  fun st => ⟨a.stations[st].list, by rw [h]⟩

theorem Lane.ListsOnly.refl (a : Lane) : a.ListsOnly a := .of_stations rfl

theorem Lane.ListsOnly.trans {a b c : Lane} (h : a.ListsOnly b) (k : b.ListsOnly c) : a.ListsOnly c := by
  intro st
  obtain ⟨xs, hx⟩ := h st
  obtain ⟨ys, hy⟩ := k st
  exact ⟨ys, by rw [hy, hx]⟩

theorem runEach_lists {α : Type} {f : α → Lane → LaneOut} (h : ∀ x (ln : Lane), ln.ListsOnly (f x ln).lane)
    (xs : List α) (ln : Lane) : ln.ListsOnly (runEach f xs ln).lane :=
  runEach_keeps (Φ := ln.ListsOnly) (fun x y hy => hy.trans (h x y)) xs ln (.refl ln)

theorem leaveList_lists (ln : Lane) (p : Parcel) : ln.ListsOnly (ln.leaveList p) :=
  fun st => ⟨_, leaveList_stations ln p st⟩

theorem drop_lists (ln : Lane) (p : Parcel) : ln.ListsOnly (ln.drop p) := leaveList_lists ln p

theorem removeParcel_lists (env : LaneEnv) (s : Serial) (o : Outcome) (ln : Lane) :
    ln.ListsOnly (removeParcel env s o ln).lane := by
  unfold removeParcel
  split
  · exact .refl ln
  · rename_i p _
    split
    · exact drop_lists ln p
    · split <;> exact drop_lists ln p

theorem loseParcel_lists (env : LaneEnv) (ln : Lane) (s : Serial) : ln.ListsOnly (loseParcel env ln s) := by
  unfold loseParcel
  split
  · exact .refl ln
  · rename_i p _
    split
    · exact drop_lists ln p
    · split <;> exact drop_lists ln p

theorem travel_lists (env : LaneEnv) (p : Parcel) (f : Fraction) (o : Outcome) (ln : Lane) :
    ln.ListsOnly (travel env p f o ln).lane := by
  unfold travel
  dsimp only
  have h : ln.ListsOnly ((ln.leaveList p).revise p.serial fun q => { q with phase := .travelling f o }) :=
    (leaveList_lists ln p).trans (.of_stations rfl)
  split
  · exact h.trans (removeParcel_lists env _ o _)
  · exact h

theorem endFiring_lists (env : LaneEnv) (r : TraceReason) (o : Outcome) (p : Parcel) (ln : Lane) :
    ln.ListsOnly (endFiring env r o p ln).lane := by
  unfold endFiring
  split
  · exact removeParcel_lists env _ o ln
  · exact .refl ln

theorem stationOff_lists (env : LaneEnv) (st : StationId) (p : Parcel) (ln : Lane) :
    ln.ListsOnly (stationOff env st p ln).lane := by
  unfold stationOff
  split
  · exact endFiring_lists env _ _ p ln
  · exact travel_lists env p _ _ ln
  · exact .refl ln

theorem rest_stations (ln : Lane) : ln.rest.stations = ln.stations := by
  unfold Lane.rest Lane.takeScale
  split <;> rfl

theorem drainIfEmpty_stations (env : LaneEnv) (a b : Lane) : (drainIfEmpty env a b).lane.stations = b.stations := by
  rcases drainIfEmpty_cases env a b with e | ⟨_, _, e⟩
  · rw [e]
    rfl
  · rw [e]
    exact rest_stations _

/-! ## What a step closes and sends (R95, R96, R105, R112) -/

theorem openSet_congr {a b : Lane} (h : b.queue = a.queue) (st : StationId) : b.openSet st = a.openSet st := by
  unfold Lane.openSet
  rw [h]

/-- The part of a lane's step that stands before its ports are offered their sets: the ports as they were,
and the columns closed at rest. -/
structure Lane.Closes (now : Time) (a b : Lane) : Prop where
  rest : a.ClosedRest now b
  port : ∀ st : StationId, b.stations[st].port = a.stations[st].port
  history : ∀ st : StationId, b.stations[st].history = a.stations[st].history

theorem closeColumns_station (env : LaneEnv) (a b : Lane) (st : StationId) :
    (closeColumns env a b).stations[st] = { b.stations[st] with
      restUntil := restColumns (a.openSet st &&& ~~~ b.openSet st)
        (env.now + BitVec.ofNat 32 b.cfg.stations[st].columnRest) b.stations[st].restUntil } := by
  unfold closeColumns
  exact Vector.getElem_ofFn ..

theorem syncPorts_station (lane : LaneId) (a b : Lane) (st : StationId) :
    (syncPorts lane a b).stations[st] = { b.stations[st] with
      port := if a.openSet st = b.openSet st then b.stations[st].port
        else b.stations[st].port.offer lane st (b.openSet st) } := by
  unfold syncPorts
  exact Vector.getElem_ofFn ..

theorem restColumns_get (closed : Columns) (t : Time) (v : Vector (Option Time) 32) (c : Fin 32) :
    (restColumns closed t v)[c] = if closed.getLsbD c.val = true then some t else v[c] := by
  unfold restColumns
  exact Vector.getElem_ofFn ..

/-- A step whose removals close the columns they free. -/
theorem closeColumns_closes {env : LaneEnv} {a b : Lane} (h : a.ListsOnly b)
    (hc : b.cfg.stations = a.cfg.stations) : a.Closes env.now (closeColumns env a b) := by
  refine ⟨fun st c => ?_, fun st => ?_, fun st => ?_⟩
  · obtain ⟨xs, hx⟩ := h st
    rw [openSet_congr (a := b) (b := closeColumns env a b) rfl, closeColumns_station, hx, hc]
    dsimp only
    rw [restColumns_get]
    simp [c.isLt]
  · obtain ⟨xs, hx⟩ := h st
    rw [closeColumns_station, hx]
  · obtain ⟨xs, hx⟩ := h st
    rw [closeColumns_station, hx]

theorem Lane.Closes.congr {now : Time} {a a' b b' : Lane} (h : a.Closes now b) (hs : b'.stations = b.stations)
    (hq : b'.queue = b.queue) (ha : a'.stations = a.stations) (hqa : a'.queue = a.queue)
    (hc : a'.cfg.stations = a.cfg.stations) : a'.Closes now b' := by
  refine ⟨fun st c => ?_, fun st => ?_, fun st => ?_⟩
  · rw [hs, ha, hc, openSet_congr hq, openSet_congr hqa]
    exact h.rest st c
  · rw [hs, ha]
    exact h.port st
  · rw [hs, ha]
    exact h.history st

theorem offer_offered (lane : LaneId) (st : StationId) (set : Columns) (p : Port) :
    Port.Offered lane st set p (p.offer lane st set) := by
  unfold Port.Offered Port.offer
  refine ⟨fun h => by rw [if_pos h], fun h hs => ?_, fun h hs => ?_⟩
  · rw [if_neg h, hs]
    rfl
  · rw [if_neg h, if_pos (by cases hp : p.sending <;> simp_all)]

/-- A whole step of a lane sends what it has changed (R96, R112), and its closed columns rest (R105). -/
theorem laneStep_closes {f : LaneEnv → Lane → LaneOut} {env : LaneEnv} {ln : Lane} {now : Time}
    (h : ln.Closes now (f env ln).lane) :
    ln.PortsFollow env.id (laneStep f env ln).lane ∧ ln.ClosedRest now (laneStep f env ln).lane ∧
    ∀ st : StationId, (laneStep f env ln).lane.stations[st].history = ln.stations[st].history := by
  set o := (f env ln).andThen (drainIfEmpty env ln) with ho
  have hd : ln.Closes now (o.lane.syncMonitor env) := by
    refine h.congr ?_ ?_ rfl rfl rfl
    · exact drainIfEmpty_stations env ln (f env ln).lane
    · exact (drainIfEmpty_same env ln (f env ln).lane).1
  have e : (laneStep f env ln).lane = syncPorts env.id ln (o.lane.syncMonitor env) := rfl
  rw [e]
  generalize o.lane.syncMonitor env = x at hd
  have hq : ∀ st, (syncPorts env.id ln x).openSet st = x.openSet st := fun st => openSet_congr rfl st
  refine ⟨fun st => ⟨fun hs => ?_, fun hs => ?_⟩, fun st c => ?_, fun st => ?_⟩
  · rw [hq] at hs
    rw [syncPorts_station, ← hd.port st]
    dsimp only
    rw [if_pos hs.symm]
  · rw [hq] at hs ⊢
    rw [syncPorts_station, ← hd.port st]
    dsimp only
    rw [if_neg fun e => hs e.symm]
    exact offer_offered ..
  · rw [hq, syncPorts_station]
    exact hd.rest st c
  · rw [syncPorts_station]
    exact hd.history st

theorem withClosing_closes {env : LaneEnv} {f : Lane → LaneOut} {ln : Lane} (h : ln.ListsOnly (f ln).lane)
    (hc : (f ln).lane.cfg.stations = ln.cfg.stations) : ln.Closes env.now (withClosing env f ln).lane :=
  closeColumns_closes h hc

theorem cutLane_closes (env : LaneEnv) (r : TraceReason) (ln : Lane) :
    ln.Closes env.now (cutLane env r ln).lane :=
  withClosing_closes (runEach_lists (endFiring_lists env r .cut) _ ln)
    (by rw [(runEach_sameBelt (endFiring_sameBelt env r .cut) _ ln).cfg])

theorem endByMaxOpen_closes (env : LaneEnv) (p : Parcel) (ln : Lane) :
    ln.Closes env.now (endByMaxOpen env p ln).lane :=
  withClosing_closes (endFiring_lists env _ _ p ln) (by rw [(endFiring_sameBelt env _ _ p ln).cfg])

theorem disableStation_closes (env : LaneEnv) (st : StationId) (ln : Lane) :
    ln.Closes env.now (disableStation env st ln).lane := by
  unfold disableStation
  dsimp only
  refine Lane.Closes.congr (withClosing_closes (env := env) (runEach_lists (stationOff_lists env st) _ _)
    ?_) rfl rfl rfl rfl rfl
  rw [(runEach_sameBelt (stationOff_sameBelt env st) _ _).cfg]

theorem loseAll_closes (env : LaneEnv) (ln : Lane) : ln.Closes env.now (loseAll env ln) := by
  have h : ∀ (xs : List Serial) (x : Lane), x.ListsOnly (xs.foldl (loseParcel env) x) ∧
      (xs.foldl (loseParcel env) x).cfg = x.cfg := by
    intro xs
    induction xs with
    | nil => exact fun x => ⟨.refl x, rfl⟩
    | cons s xs ih =>
      intro x
      obtain ⟨a, b⟩ := ih (loseParcel env x s)
      exact ⟨(loseParcel_lists env x s).trans a, b.trans (loseParcel_sameRun env x s).cfg⟩
  obtain ⟨a, b⟩ := h (ln.queue.map (·.serial)) ln
  exact closeColumns_closes a (by rw [b])

theorem flush_closes (env : LaneEnv) (ln : Lane) : ln.Closes env.now (flush env ln).lane := by
  refine (loseAll_closes env { ln with injection := none }).congr ?_ ?_ rfl rfl rfl
  · exact rest_stations _
  · exact (rest_lane _).1

theorem halt_closes (cause : HaltCause) (env : LaneEnv) (ln : Lane) (ha : ln.active = true) :
    ln.Closes env.now (halt cause env ln).lane := by
  unfold halt
  rw [if_pos ha]
  exact (flush_closes env { ln with state := .halted, haltCause := cause }).congr rfl rfl rfl rfl rfl

theorem resetLane_closes (env : LaneEnv) (ln : Lane) (ha : ln.active = true) :
    ln.Closes env.now (resetLane env ln).lane := by
  unfold resetLane
  rw [if_pos ha]
  refine (flush_closes env ln).congr ?_ ?_ rfl rfl rfl
  · exact rest_stations _
  · exact (rest_lane _).1

end Sys2Proof.Machine
end

