-- ==== Sys2Proof/Laws/Removals.lean ====
section
/-! SUPPORT. What a removal on its own and the losses of a flush report to the lots and the test tally (R11 to
R13, R22, R137, R140, R142, R147). -/

namespace Sys2Proof.Machine

/-! ## What a removal adds to a lot (R12, R137) -/

theorem ofFraction_iff (f : Fraction) (p : Parcel) : p.ofFraction f = true ↔ p.fraction? = some f := by
  unfold Parcel.ofFraction Parcel.fraction?
  cases h : p.phase <;> simp

theorem report_area (table : Vector ClassEntry 64) (p : Parcel) (o : Outcome) :
    (p.report table o).area = p.area table := by
  unfold RemovalReport.area Parcel.area Parcel.report Parcel.length densityOf
  cases p.entry <;> rfl

theorem outcome_code_inj {a b : Outcome} (h : a.code = b.code) : a = b := by
  cases a <;> cases b <;> first | rfl | exact absurd h (by decide)

/-- The accrual of a removal, from the fields of the parcel (R12, R137). -/
theorem accrueRemoval_removed (table : Vector ClassEntry 64) (p : Parcel) (o : Outcome) (r : LotRecord) :
    r.Removed table p o (r.accrueRemoval (p.report table o)) := by
  refine ⟨fun k => ?_, fun c => ?_, ?_, fun f => ?_, rfl⟩
  · show (r.outcomes.set o.code (r.outcomes[o.code] + 1))[k.code] = _
    by_cases h : k = o
    · subst h; simp
    · have : o.code.val ≠ k.code.val := fun e => h (outcome_code_inj (Fin.ext e)).symm
      simp [Vector.getElem_set_ne o.code.isLt k.code.isLt this, h]
  · show (bumpEjected r.ejected (p.report table o).ejected?)[c.code] = _
    have hf := ofFraction_iff c.fraction p
    have e : (p.report table o).ejected? =
        if o = .ejected ∨ o = .isPartial then p.fraction?.bind (·.chute?) else none := rfl
    rw [e]
    by_cases ho : o = .ejected ∨ o = .isPartial
    · rw [if_pos ho]
      cases hp : p.fraction? with
      | none => rw [hp] at hf; simp [bumpEjected, hf]
      | some g =>
        rw [hp] at hf
        cases g <;> cases c <;> simp [bumpEjected, Fraction.chute?, ChuteFraction.code, ChuteFraction.fraction, ho] at hf ⊢ <;> simp [hf]
    · rw [if_neg ho]
      simp [bumpEjected, ho]
  · show (if p.estimated then r.estimated + 1 else r.estimated) = _
    split <;> simp
  · show (addArea r.areas (p.report table o).area p.fraction?)[f.code] = _
    have hf := ofFraction_iff f p
    rw [report_area]
    cases hp : p.fraction? with
    | none => rw [hp] at hf; simp [addArea, hf]
    | some g =>
      rw [hp] at hf
      cases g <;> cases f <;> simp [addArea, Fraction.code] at hf ⊢ <;> simp [hf]


theorem removed_ids {table : Vector ClassEntry 64} {p : Parcel} {o : Outcome} {a b : LotRecord}
    (h : a.Removed table p o b) : b.id = a.id ∧ b.formed = a.formed ∧ b.closeCause = a.closeCause := by
  rw [h.rest]
  exact ⟨rfl, rfl, rfl⟩

/-! ## Completion (R140, R142) -/

theorem allRemoved_iff (r : LotRecord) : r.allRemoved = true ↔ r.Done := by
  unfold LotRecord.allRemoved LotRecord.removals LotRecord.Done
  rw [beq_iff_eq]
  have : ∀ (xs : List Count32) (a : Count32), xs.foldl (· + ·) a = a + xs.sum := by
    intro xs
    induction xs with
    | nil => intro a; simp
    | cons x xs ih => intro a; rw [List.foldl_cons, ih, List.sum_cons, BitVec.add_assoc]
  rw [this]
  simp

/-- What follows a removal from the draining lot (R140, R142). -/
theorem settle_ends (lane : LaneId) (now : Time) (u : LotUnit) (d : LotRecord) (hd : u.draining = some d) :
    LotUnit.Ends lane now u d (u.settle lane now).unit ((u.settle lane now).events.map .event) := by
  have hdone := allRemoved_iff d
  unfold LotUnit.settle
  rw [hd]
  refine ⟨fun h => ?_, fun cause hc h => ⟨fun hp => ?_, fun hp => ?_⟩⟩
  · have : d.allRemoved = false := by
      rw [Bool.eq_false_iff]
      exact fun e => h (hdone.mp e)
    simp [this]
  · simp only [Option.map_some, Option.getD_some, hdone.mpr h, if_true]
    unfold LotUnit.finish LotUnit.complete
    rw [hd]
    dsimp only
    rw [if_neg (by simp [hp])]
    refine ⟨?_, by simp [hc]⟩
    simp [LotUnit.completed, appendRing, ringCapacity]
  · simp only [Option.map_some, Option.getD_some, hdone.mpr h, if_true]
    unfold LotUnit.finish LotUnit.complete
    rw [hd]
    dsimp only
    rw [if_pos (by simp [hp])]
    unfold LotUnit.completeIfDone LotUnit.autoClose LotUnit.closeFilling
    dsimp only [Option.map_some, Option.getD_some]
    have hc' := allRemoved_iff { u.filling with closeTime := some now, closeCause := some .limit }
    refine ⟨fun hn => ?_, fun hn => ?_⟩
    · rw [if_neg (fun e => hn (hc'.mp e))]
      refine ⟨?_, by simp [hc]⟩
      simp [LotUnit.completed, appendRing, ringCapacity]
    · rw [if_pos (hc'.mpr hn)]
      unfold LotUnit.complete
      dsimp only
      refine ⟨?_, by simp [hc]⟩
      simp [LotUnit.completed, appendRing, ringCapacity]

/-! ## One removal (R11 to R13, R137) -/

theorem drop_fields (ln : Lane) (p : Parcel) :
    (ln.drop p).testTally = ln.testTally ∧ (ln.drop p).lots = ln.lots := by
  unfold Lane.drop Lane.leaveList
  cases p.station? <;> exact ⟨rfl, rfl⟩

/-- Where the accrual of a removal goes: the draining lot of the id, or the filling lot (R137). -/
theorem accrueRemoval_lot (u : LotUnit) (lot : LotId) (r : RemovalReport) :
    (∀ d, u.draining = some d → d.id = lot →
      u.accrueRemoval lot r = { u with draining := some (d.accrueRemoval r) }) ∧
    ((∀ d, u.draining = some d → d.id ≠ lot) → u.filling.id = lot →
      u.accrueRemoval lot r = { u with filling := u.filling.accrueRemoval r }) ∧
    ((∀ d, u.draining = some d → d.id ≠ lot) → u.filling.id ≠ lot → u.accrueRemoval lot r = u) := by
  unfold LotUnit.accrueRemoval
  cases hd : u.draining with
  | none => simp +contextual
  | some d => by_cases h : d.id = lot <;> simp +contextual [h]

/-- What the removal of a parcel on its own reports to its lot or to the test tally (R11 to R13, R137,
R140). -/
theorem removeParcel_reports (env : LaneEnv) (ln : Lane) (p : Parcel) (o : Outcome)
    (hp : ln.find p.serial = some p) :
    (p.test = true → removeParcel env p.serial o ln = ((ln.drop p).tallyTest o).quiet) ∧
    (p.test = false → p.lot = none → removeParcel env p.serial o ln = (ln.drop p).quiet) ∧
    (∀ lot : LotId, p.test = false → p.lot = some lot → ∀ out : LaneOut, out = removeParcel env p.serial o ln →
      out.lane.testTally = ln.testTally ∧
      (∀ d : LotRecord, ln.lots.draining = some d → d.id = lot → ∃ d' : LotRecord,
        d.Removed env.table p o d' ∧
        LotUnit.Ends env.id env.now { ln.lots with draining := some d' } d' out.lane.lots out.effects) ∧
      ((∀ d : LotRecord, ln.lots.draining = some d → d.id ≠ lot) → ln.lots.filling.id = lot →
        ∃ r : LotRecord, ln.lots.filling.Removed env.table p o r ∧
          out.lane.lots = { ln.lots with filling := r } ∧ out.effects = [])) := by
  unfold removeParcel
  rw [hp]
  dsimp only
  refine ⟨fun ht => by rw [if_pos ht], fun ht hl => ?_, fun lot ht hl out ho => ?_⟩
  · rw [if_neg (by simp [ht]), hl]
  · rw [if_neg (by simp [ht]), hl] at ho
    dsimp only at ho
    obtain ⟨a1, a2, _⟩ := accrueRemoval_lot ln.lots lot (p.report env.table o)
    have htl := (drop_fields ln p).1
    subst ho
    refine ⟨htl, fun d hd hid => ⟨_, accrueRemoval_removed env.table p o d, ?_⟩, fun hd hid => ?_⟩
    · unfold Lane.withLots LotUnit.report LotUnit.drains
      rw [a1 d hd hid, hd]
      simp only [Option.map_some, Option.getD_some, hid, beq_self_eq_true, if_true]
      exact settle_ends env.id env.now _ _ rfl
    · refine ⟨_, accrueRemoval_removed env.table p o _, ?_⟩
      unfold Lane.withLots LotUnit.report LotUnit.drains
      rw [a2 hd hid]
      have : ((ln.lots.draining.map (·.id == lot)).getD false) = false := by
        cases hx : ln.lots.draining with
        | none => rfl
        | some d => simpa using hd d hx
      simp [this]

/-- What the loss of a parcel in a flush reports (R13, R22, R137); a completion waits for the last one
(R147). -/
theorem loseParcel_reports (env : LaneEnv) (ln : Lane) (p : Parcel) (hp : ln.find p.serial = some p) :
    (p.test = true → loseParcel env ln p.serial = (ln.drop p).tallyTest .lost) ∧
    (p.test = false → (loseParcel env ln p.serial).testTally = ln.testTally ∧
      (loseParcel env ln p.serial).stations = (ln.drop p).stations ∧
      (p.lot = none → (loseParcel env ln p.serial).lots = ln.lots) ∧
      ∀ lot : LotId, p.lot = some lot →
        (loseParcel env ln p.serial).lots = ln.lots.accrueRemoval lot (p.report env.table .lost)) := by
  have htl := drop_fields ln p
  unfold loseParcel
  rw [hp]
  dsimp only
  refine ⟨fun ht => by rw [if_pos ht], fun ht => ?_⟩
  rw [if_neg (by simp [ht])]
  cases hl : p.lot with
  | none => exact ⟨htl.1, rfl, fun _ => htl.2, fun _ h => nomatch h⟩
  | some lot =>
    refine ⟨htl.1, rfl, ?_, ?_⟩
    · intro h
      cases h
    · intro x hx
      cases hx
      rfl


/-! ## The losses of a flush (R13, R22, R137, R147) -/

theorem LotRecord.Lost.nil (table : Vector ClassEntry 64) (a : LotRecord) : a.Lost table [] a :=
  ⟨by simp, fun _ _ => rfl, by simp, fun _ => by simp, rfl⟩

theorem LotRecord.Lost.cons {table : Vector ClassEntry 64} {p : Parcel} {ps : List Parcel} {a b c : LotRecord}
    (h : a.Removed table p .lost b) (k : b.Lost table ps c) : a.Lost table (p :: ps) c := by
  refine ⟨?_, fun o ho => ?_, ?_, fun f => ?_, ?_⟩
  · rw [k.lost, h.outcome, if_pos rfl, List.length_cons, BitVec.ofNat_add, BitVec.add_assoc,
      BitVec.add_comm (BitVec.ofNat 32 ps.length)]
    rfl
  · rw [k.outcome o ho, h.outcome, if_neg ho]
    simp
  · rw [k.estimated, h.estimated, List.filter_cons]
    cases p.estimated
    · simp
    · simp only [if_true, List.length_cons, BitVec.ofNat_add]
      rw [BitVec.add_assoc, BitVec.add_comm (BitVec.ofNat 32 _)]
      rfl
  · rw [k.area, h.area, List.filter_cons]
    cases p.ofFraction f
    · simp
    · simp only [if_true, List.map_cons, List.sum_cons, BitVec.ofNat_add]
      rw [BitVec.add_assoc]
  · have he : b.ejected = a.ejected := by
      refine Vector.ext fun i hi => ?_
      have key : ∀ c : ChuteFraction, b.ejected[c.code] = a.ejected[c.code] := by
        intro c
        rw [h.ejected]
        simp
      match i, hi with
      | 0, _ => exact key .metal
      | 1, _ => exact key .plastic
      | 2, _ => exact key .foam
    rw [k.rest, h.rest, he]

/-- The parcels of a queue with distinct serials lost one after another: what becomes of the lots. -/
theorem loseQueue_lots (env : LaneEnv) (q : List Parcel) (x : Lane) (hq : x.queue = q)
    (hn : (q.map (·.serial)).Nodup) (hd : ∀ d, x.lots.draining = some d → d.id ≠ x.lots.filling.id) :
    ∃ r : LotRecord, x.lots.filling.Lost env.table (q.filter (·.ofLot x.lots.filling.id)) r ∧
      (x.lots.draining = none →
        ((q.map (·.serial)).foldl (loseParcel env) x).lots = { x.lots with filling := r }) ∧
      (∀ d, x.lots.draining = some d → ∃ d' : LotRecord, d.Lost env.table (q.filter (·.ofLot d.id)) d' ∧
        ((q.map (·.serial)).foldl (loseParcel env) x).lots =
          { x.lots with filling := r, draining := some d' }) := by
  induction q generalizing x with
  | nil =>
    refine ⟨x.lots.filling, .nil _ _, fun _ => rfl, fun d h => ⟨d, .nil _ _, ?_⟩⟩
    rw [← h]
    rfl
  | cons p ps ih =>
    rw [List.map_cons, List.foldl_cons]
    rw [List.map_cons, List.nodup_cons] at hn
    have hf : x.find p.serial = some p := by simp [Lane.find, hq]
    have hq1 : (loseParcel env x p.serial).queue = ps := by
      rw [loseParcel_queue, hq, List.filter_cons]
      simp only [bne_self_eq_false, Bool.false_eq_true, if_false]
      rw [List.filter_eq_self]
      intro y hy
      simp only [bne_iff_ne, ne_eq]
      exact fun e => hn.1 (e ▸ List.mem_map_of_mem hy)
    obtain ⟨h1, h2⟩ := loseParcel_reports env x p hf
    generalize hy : loseParcel env x p.serial = y at *
    -- the parcel is of neither lot
    have other : y.lots = x.lots → p.ofLot x.lots.filling.id = false →
        (∀ d, x.lots.draining = some d → p.ofLot d.id = false) →
        ∃ r : LotRecord, x.lots.filling.Lost env.table ((p :: ps).filter (·.ofLot x.lots.filling.id)) r ∧
          (x.lots.draining = none →
            ((ps.map (·.serial)).foldl (loseParcel env) y).lots = { x.lots with filling := r }) ∧
          (∀ d, x.lots.draining = some d → ∃ d' : LotRecord,
            d.Lost env.table ((p :: ps).filter (·.ofLot d.id)) d' ∧
            ((ps.map (·.serial)).foldl (loseParcel env) y).lots =
              { x.lots with filling := r, draining := some d' }) := by
      intro hl hp hpd
      obtain ⟨r, k1, k2, k3⟩ := ih y hq1 hn.2 (by rw [hl]; exact hd)
      rw [hl] at k1 k2 k3
      refine ⟨r, by rw [List.filter_cons_of_neg (by simp [hp])]; exact k1, k2, fun d h => ?_⟩
      rw [List.filter_cons_of_neg (by simp [hpd d h])]
      exact k3 d h
    cases ht : p.test with
    | true =>
      have e := h1 ht
      have hl : y.lots = x.lots := by
        rw [e]
        exact (drop_fields x p).2
      exact other hl (by simp [Parcel.ofLot, ht]) (fun d _ => by simp [Parcel.ofLot, ht])
    | false =>
      obtain ⟨-, -, g1, g2⟩ := h2 ht
      cases hl : p.lot with
      | none => exact other (g1 hl) (by simp [Parcel.ofLot, hl]) (fun d _ => by simp [Parcel.ofLot, hl])
      | some lot =>
        have hy1 := g2 lot hl
        obtain ⟨a1, a2, a3⟩ := accrueRemoval_lot x.lots lot (p.report env.table .lost)
        have of_iff : ∀ i : LotId, p.ofLot i = true ↔ i = lot := by
          intro i
          simp only [Parcel.ofLot, ht, hl, Bool.not_false, Bool.true_and, beq_iff_eq, Option.some.injEq]
          exact eq_comm
        by_cases hc : ∃ d, x.lots.draining = some d ∧ d.id = lot
        · obtain ⟨d, hdd, hid⟩ := hc
          rw [a1 d hdd hid] at hy1
          have hfil : p.ofLot x.lots.filling.id = false := by
            rw [Bool.eq_false_iff]
            exact fun e => hd d hdd (hid.trans ((of_iff _).mp e).symm)
          have hr := accrueRemoval_removed env.table p .lost d
          have hids := removed_ids hr
          obtain ⟨r, k1, _, k3⟩ := ih y hq1 hn.2 (by
            rw [hy1]
            intro d2 h2
            cases h2
            rw [hids.1]
            exact hd d hdd)
          rw [hy1] at k1 k3
          obtain ⟨d', k4, k5⟩ := k3 _ rfl
          refine ⟨r, by rw [List.filter_cons_of_neg (by simp [hfil])]; exact k1, fun h => ?_, fun d2 h2 => ?_⟩
          · rw [hdd] at h; cases h
          · rw [hdd] at h2
            cases h2
            refine ⟨d', ?_, k5⟩
            rw [List.filter_cons_of_pos ((of_iff _).mpr hid)]
            rw [hids.1] at k4
            exact .cons hr k4
        · have hnd : ∀ d, x.lots.draining = some d → d.id ≠ lot := fun d h e => hc ⟨d, h, e⟩
          have hndf : ∀ d, x.lots.draining = some d → p.ofLot d.id = false := fun d h => by
            rw [Bool.eq_false_iff]
            exact fun e => hnd d h ((of_iff _).mp e)
          by_cases hfid : x.lots.filling.id = lot
          · rw [a2 hnd hfid] at hy1
            have hr := accrueRemoval_removed env.table p .lost x.lots.filling
            have hids := removed_ids hr
            obtain ⟨r, k1, k2, k3⟩ := ih y hq1 hn.2 (by
              rw [hy1]
              intro d2 h2
              show d2.id ≠ _
              rw [hids.1]
              exact hd d2 h2)
            rw [hy1] at k1 k2 k3
            refine ⟨r, ?_, k2, fun d h => ?_⟩
            · rw [List.filter_cons_of_pos ((of_iff _).mpr hfid)]
              change (LotRecord.accrueRemoval _ _).Lost _ (ps.filter (·.ofLot (LotRecord.accrueRemoval _ _).id)) _ at k1
              rw [hids.1] at k1
              exact .cons hr k1
            · rw [List.filter_cons_of_neg (by simp [hndf d h])]
              exact k3 d h
          · refine other (hy1.trans (a3 hnd hfid)) ?_ hndf
            rw [Bool.eq_false_iff]
            exact fun e => hfid ((of_iff _).mp e)


theorem holdInc_toNat (c : Count16) : (holdInc c).toNat = min 65535 (c.toNat + 1) := by
  unfold holdInc
  split
  · rename_i h
    rw [h]
    rfl
  · rename_i h
    have h1 : c.toNat ≠ 65535 := fun e => h (BitVec.eq_of_toNat_eq e)
    have h2 := c.isLt
    rw [BitVec.toNat_add]
    simp
    omega

theorem tallyTest_other (ln : Lane) (o k : Outcome) (h : k ≠ o) :
    (ln.tallyTest o).testTally[k.code] = ln.testTally[k.code] := by
  unfold Lane.tallyTest
  exact Vector.getElem_set_ne o.code.isLt k.code.isLt fun e => h (outcome_code_inj (Fin.ext e)).symm

/-- A loss counts nothing but LOST in the test tally. -/
theorem loseParcel_otherTally (env : LaneEnv) (ln : Lane) (s : Serial) (k : Outcome) (h : k ≠ .lost) :
    (loseParcel env ln s).testTally[k.code] = ln.testTally[k.code] := by
  cases hf : ln.find s with
  | none =>
    unfold loseParcel
    rw [hf]
  | some p =>
    have hs : p.serial = s := by simpa using List.find?_some hf
    subst hs
    obtain ⟨h1, h2⟩ := loseParcel_reports env ln p hf
    cases ht : p.test with
    | true => rw [h1 ht, tallyTest_other _ _ _ h, (drop_fields ln p).1]
    | false => rw [(h2 ht).1]

/-- The parcels of a queue with distinct serials lost one after another: the test tally and the firing
lists. -/
theorem loseQueue_tally (env : LaneEnv) (q : List Parcel) (x : Lane) (hq : x.queue = q)
    (hn : (q.map (·.serial)).Nodup) :
    (((q.map (·.serial)).foldl (loseParcel env) x).testTally[Outcome.lost.code]).toNat =
      min 65535 (x.testTally[Outcome.lost.code].toNat + (q.filter (·.test)).length) ∧
    ∀ st : StationId, ((q.map (·.serial)).foldl (loseParcel env) x).stations[st].list =
      x.stations[st].list.filter fun e => !q.any fun p => p.serial == e.serial && p.station? == some st := by
  induction q generalizing x with
  | nil =>
    refine ⟨?_, fun st => by simp⟩
    have := x.testTally[Outcome.lost.code].isLt
    simp only [List.map_nil, List.foldl_nil, List.filter_nil, List.length_nil]
    omega
  | cons p ps ih =>
    rw [List.map_cons, List.foldl_cons]
    rw [List.map_cons, List.nodup_cons] at hn
    have hf : x.find p.serial = some p := by simp [Lane.find, hq]
    have hq1 : (loseParcel env x p.serial).queue = ps := by
      rw [loseParcel_queue, hq, List.filter_cons]
      simp only [bne_self_eq_false, Bool.false_eq_true, if_false]
      rw [List.filter_eq_self]
      intro y hy
      simp only [bne_iff_ne, ne_eq]
      exact fun e => hn.1 (e ▸ List.mem_map_of_mem hy)
    obtain ⟨h1, h2⟩ := loseParcel_reports env x p hf
    obtain ⟨k1, k2⟩ := ih _ hq1 hn.2
    have hst : (loseParcel env x p.serial).stations = (x.leaveList p).stations := by
      cases ht : p.test with
      | true => rw [h1 ht]; rfl
      | false => rw [(h2 ht).2.1]; rfl
    refine ⟨?_, fun st => ?_⟩
    · rw [k1, List.filter_cons]
      cases ht : p.test with
      | true =>
        have : (loseParcel env x p.serial).testTally[Outcome.lost.code] =
            holdInc x.testTally[Outcome.lost.code] := by
          rw [h1 ht, ← (drop_fields x p).1]
          exact Vector.getElem_set_self ..
        rw [this, holdInc_toNat]
        simp only [if_true, List.length_cons]
        omega
      | false => rw [(h2 ht).1]; simp
    · rw [k2, hst, leaveList_stations]
      by_cases hs : p.station? = some st
      · simp only [hs, if_true, List.filter_filter, List.any_cons, beq_self_eq_true, Bool.and_true]
        refine List.filter_congr fun e _ => ?_
        rw [Bool.not_or, Bool.and_comm, bne, BEq.comm]
      · simp only [hs, if_false, List.any_cons]
        refine List.filter_congr fun e _ => ?_
        have : (p.station? == some st) = false := by simpa using hs
        rw [this, Bool.and_false, Bool.false_or]

theorem vector_eight {α : Type} (v : Vector α 8) : ∃ a b c d e f g h, v = #v[a, b, c, d, e, f, g, h] :=
  ⟨v[0], v[1], v[2], v[3], v[4], v[5], v[6], v[7], by ext i hi; interval_cases i <;> rfl⟩

/-- A lot whose count balances with the queue has none of its parcels left once they are lost (R137). -/
theorem LotRecord.Agrees.done {table : Vector ClassEntry 64} {q : List Parcel} {a b : LotRecord}
    (h : a.Agrees q) (k : a.Lost table (q.filter (·.ofLot a.id)) b) : b.Done := by
  have hs : b.outcomes.toList.sum =
      a.outcomes.toList.sum + BitVec.ofNat 32 (q.filter (·.ofLot a.id)).length := by
    have h7 := k.lost
    have ho := fun o ho => k.outcome o ho
    generalize (BitVec.ofNat 32 (q.filter (·.ofLot a.id)).length) = n at *
    obtain ⟨x0, x1, x2, x3, x4, x5, x6, x7, hx⟩ := vector_eight a.outcomes
    obtain ⟨y0, y1, y2, y3, y4, y5, y6, y7, hy⟩ := vector_eight b.outcomes
    have e0 := ho .ejected (by decide)
    have e1 := ho .isPartial (by decide)
    have e2 := ho .cut (by decide)
    have e3 := ho .passed (by decide)
    have e4 := ho .redirected (by decide)
    have e5 := ho .late (by decide)
    have e6 := ho .denied (by decide)
    simp only [hx, hy, Outcome.code] at e0 e1 e2 e3 e4 e5 e6 h7
    simp at e0 e1 e2 e3 e4 e5 e6 h7
    rw [hx, hy]
    simp [e0, e1, e2, e3, e4, e5, e6, h7, BitVec.add_assoc]
  show b.outcomes.toList.sum = b.formed
  rw [hs, k.rest]
  exact h.symm


/-! ## The flush (R22, R122, R140, R142, R147) -/

/-- The parts of a lane that a flush reads and reports to. -/
structure Lane.SameStock (a b : Lane) : Prop where
  queue : b.queue = a.queue
  stations : b.stations = a.stations
  tally : b.testTally = a.testTally
  lots : b.lots = a.lots

theorem Lane.Flushes.congr {env : LaneEnv} {a b a' b' : Lane} (h : a.Flushes env b) (ha : a.SameStock a')
    (hb : b.SameStock b') : a'.Flushes env b' := by
  refine ⟨hb.queue.trans h.queue, ?_, ?_, ?_, fun hl => ?_⟩
  · rw [hb.stations, ha.stations, ha.queue]; exact h.lists
  · rw [hb.tally, ha.tally, ha.queue]; exact h.tally
  · rw [hb.tally, ha.tally]; exact h.otherTally
  · rw [hb.lots, ha.lots, ha.queue]
    refine h.lots ⟨?_, ?_, ?_, ?_⟩
    · rw [← ha.queue]; exact hl.serials
    · rw [← ha.queue, ← ha.lots]; exact hl.filling
    · rw [← ha.queue, ← ha.lots]; exact hl.draining
    · rw [← ha.lots]; exact hl.pending

theorem rest_stock (ln : Lane) : ln.SameStock ln.rest := by
  unfold Lane.rest Lane.takeScale
  split <;> exact ⟨rfl, rfl, rfl, rfl⟩

/-- What a flush leaves of the parcels, the tally and the lots, and what it reports. -/
theorem flush_flushes (env : LaneEnv) (ln : Lane) :
    ln.Flushes env (flush env ln).lane ∧
    (∀ d, ln.lots.draining = some d → ln.LotsAgree →
      ∃ (d' : LotRecord) (r : LotRecord) (v : LotUnit) (es : List Effect), d'.Done ∧ d'.closeCause = d.closeCause ∧
        d'.id = d.id ∧
        LotUnit.Ends env.id env.now { ln.lots with filling := r, draining := some d' } d' v es ∧
        (flush env ln).effects = es ++ [.trace (lostDraft (flush env ln).lane.lots.filling.id ln.queue.length)]) ∧
    ∃ es : List Event, (flush env ln).effects =
      es.map .event ++ [.trace (lostDraft (flush env ln).lane.lots.filling.id ln.queue.length)] := by
  set start : Lane := { ln with injection := none } with hstart
  set lost := (start.queue.map (·.serial)).foldl (loseParcel env) start with hlost
  have hall : (loseAll env start).testTally = lost.testTally ∧ (loseAll env start).lots = lost.lots := ⟨rfl, rfl⟩
  have hlist : ∀ st : StationId, (loseAll env start).stations[st].list = lost.stations[st].list := by
    intro st
    show (closeColumns env start lost).stations[st].list = _
    rw [closeColumns_station]
  set settled := (loseAll env start).lots.settle env.id env.now with hset
  have hfl : (flush env ln).lane = (Lane.dropSwitch { loseAll env start with lots := settled.unit }).rest := rfl
  have hst := rest_stock (Lane.dropSwitch { loseAll env start with lots := settled.unit })
  rw [← hfl] at hst
  have hlots : (flush env ln).lane.lots = settled.unit := hst.lots
  have heff : (flush env ln).effects = settled.events.map .event ++
      [.trace (lostDraft (flush env ln).lane.lots.filling.id ln.queue.length)] := by
    rw [hlots]
    rfl
  have hends : ln.LotsAgree → ∃ r : LotRecord,
      ln.lots.filling.Lost env.table (ln.queue.filter (·.ofLot ln.lots.filling.id)) r ∧ r.Done ∧
      (ln.lots.draining = none → settled = ⟨{ ln.lots with filling := r }, []⟩) ∧
      (∀ d, ln.lots.draining = some d → ∃ d' : LotRecord, d.Lost env.table (ln.queue.filter (·.ofLot d.id)) d' ∧
        d'.Done ∧ LotUnit.Ends env.id env.now { ln.lots with filling := r, draining := some d' } d' settled.unit
          (settled.events.map .event)) := by
    intro h
    obtain ⟨r, h1, h2, h3⟩ := loseQueue_lots env ln.queue start rfl h.serials fun d hd => (h.draining d hd).2.1
    refine ⟨r, h1, h.filling.done h1, fun hd => ?_, fun d hd => ?_⟩
    · have e : (loseAll env start).lots = { ln.lots with filling := r } := h2 hd
      rw [hset, e]
      unfold LotUnit.settle
      dsimp only
      rw [hd]
      rfl
    · obtain ⟨d', k1, k2⟩ := h3 d hd
      have e : (loseAll env start).lots = { ln.lots with filling := r, draining := some d' } := k2
      refine ⟨d', k1, (h.draining d hd).1.done k1, ?_⟩
      rw [hset, e]
      exact settle_ends env.id env.now _ d' rfl
  refine ⟨⟨?_, fun hn st he => ?_, fun hn => ?_, fun k hk => ?_, fun h => ?_⟩, fun d hd h => ?_, _, heff⟩
  · exact (flush_lane env ln).1
  · have := (loseQueue_tally env ln.queue start rfl hn).2 st
    rw [hst.stations]
    refine (hlist st).trans (this.trans ?_)
    rw [List.filter_eq_nil_iff]
    intro e hm
    obtain ⟨p, hp, h1, h2⟩ := he e hm
    simp only [Bool.not_eq_true', Bool.not_eq_false]
    rw [List.any_eq_true]
    exact ⟨p, hp, by simp [h1, h2]⟩
  · rw [hst.tally]
    exact (loseQueue_tally env ln.queue start rfl hn).1
  · rw [hst.tally]
    have : ∀ (xs : List Serial) (x : Lane),
        (xs.foldl (loseParcel env) x).testTally[k.code] = x.testTally[k.code] := by
      intro xs
      induction xs with
      | nil => exact fun _ => rfl
      | cons s xs ih => exact fun x => (ih _).trans (loseParcel_otherTally env x s k hk)
    exact this _ start
  · obtain ⟨r, h1, h2, h3, h4⟩ := hends h
    rw [hlots]
    refine ⟨r, h1, h2, fun hd => by rw [h3 hd], fun d hd => ?_, ?_⟩
    · obtain ⟨d', k1, k2, k3⟩ := h4 d hd
      exact ⟨d', _, k1, k2, k3⟩
    · cases hd : ln.lots.draining with
      | none =>
        rw [h3 hd]
        refine ⟨hd, ?_⟩
        by_contra hc
        exact h.pending (by simpa using hc) hd
      | some d =>
        obtain ⟨d', k1, k2, k3⟩ := h4 d hd
        obtain ⟨cause, hcause⟩ := Option.ne_none_iff_exists'.mp (h.draining d hd).2.2
        have hc' : d'.closeCause = some cause := by rw [k1.rest]; exact hcause
        obtain ⟨j1, j2⟩ := k3.2 cause hc' k2
        cases hp : ln.lots.pendingClose with
        | false =>
          rw [(j1 hp).1]
          exact ⟨rfl, hp⟩
        | true =>
          have hr : LotRecord.Done { r with closeTime := some env.now, closeCause := some .limit } := h2
          rw [((j2 hp).2 hr).1]
          exact ⟨rfl, rfl⟩
  · obtain ⟨r, h1, h2, h3, h4⟩ := hends h
    obtain ⟨d', k1, k2, k3⟩ := h4 d hd
    exact ⟨d', r, _, _, k2, by rw [k1.rest], by rw [k1.rest], k3, heff⟩

end Sys2Proof.Machine
end

