-- ==== Sys2Proof/Laws/Cuts.lean ====
section
/-! SUPPORT. The ends of firings, one after another: a cut of a lane (R32, R106, R108), the max open time (R104)
and a station disabled (R109). -/

namespace Sys2Proof.Machine

/-! ## What removals report, one after another (R11, R13, R106, R109) -/

theorem runEach_parcelDrafts {α : Type} {f : α → Lane → LaneOut} {g : α → List TraceDraft}
    (h : ∀ x ln, (f x ln).effects.filterMap Effect.parcelDraft? = g x) (xs : List α) (ln : Lane) :
    (runEach f xs ln).effects.filterMap Effect.parcelDraft? = xs.flatMap g := by
  induction xs generalizing ln with
  | nil => rfl
  | cons x xs ih =>
    rw [runEach_cons]
    show ((f x ln).effects ++ (runEach f xs (f x ln).lane).effects).filterMap _ = _
    rw [List.filterMap_append, h, ih, List.flatMap_cons]

/-- The effects make entries of parcels alone. -/
def Effects.OfParcels (es : List Effect) : Prop := ∀ d, .trace d ∈ es → d.lead.isSome = true

theorem runEach_ofParcels {α : Type} {f : α → Lane → LaneOut} (h : ∀ x ln, Effects.OfParcels (f x ln).effects)
    (xs : List α) (ln : Lane) : Effects.OfParcels (runEach f xs ln).effects := by
  induction xs generalizing ln with
  | nil => intro d hd; cases hd
  | cons x xs ih =>
    rw [runEach_cons]
    intro d hd
    rcases List.mem_append.mp hd with hd | hd
    · exact h x ln d hd
    · exact ih _ d hd

/-- A removal raises events alone. -/
theorem removeParcel_events (env : LaneEnv) (s : Serial) (o : Outcome) (ln : Lane) :
    ∃ es : List Event, (removeParcel env s o ln).effects = es.map .event := by
  unfold removeParcel
  split
  · exact ⟨[], rfl⟩
  · split
    · exact ⟨[], rfl⟩
    · split
      · exact ⟨[], rfl⟩
      · exact ⟨_, rfl⟩

theorem parcelDrafts_events (es : List Event) :
    (es.map Effect.event).filterMap Effect.parcelDraft? = [] := by
  rw [List.filterMap_eq_nil_iff]
  intro x hx
  obtain ⟨e, _, rfl⟩ := List.mem_map.mp hx
  rfl

theorem ofParcels_events (es : List Event) : Effects.OfParcels (es.map Effect.event) := by
  intro d hd
  obtain ⟨e, _, h⟩ := List.mem_map.mp hd
  cases h

/-- The draft of a parcel at a station. -/
def Parcel.draftOf (p : Parcel) (reason : TraceReason) (st : StationId) : TraceDraft :=
  ⟨reason, some p.serial, p.lot, p.test, some st, none, some p.lead⟩

theorem draftOf_entry (p : Parcel) (reason : TraceReason) (st : StationId) (l : LaneId) (now : Time) :
    (p.draftOf reason st).entry l now false = p.entryOf now l st reason := rfl

/-- The end of a firing: its entry, then the removal. -/
theorem endFiring_eq (env : LaneEnv) (r : TraceReason) (o : Outcome) (p : Parcel) (aim : Aim) (shot : Shot)
    (h : p.phase = .firing aim shot) (ln : Lane) :
    endFiring env r o p ln = ⟨(removeParcel env p.serial o ln).lane,
      .trace (p.draftOf r aim.station) :: (removeParcel env p.serial o ln).effects⟩ := by
  unfold endFiring
  rw [h]
  rfl

/-- The drafts of a parcel whose firing ends. -/
def Parcel.endDrafts (r : TraceReason) (p : Parcel) : List TraceDraft :=
  match p.phase with
  | .firing aim _ => [p.draftOf r aim.station]
  | _ => []

theorem endFiring_drafts (env : LaneEnv) (r : TraceReason) (o : Outcome) (p : Parcel) (ln : Lane) :
    (endFiring env r o p ln).effects.filterMap Effect.parcelDraft? = p.endDrafts r ∧
    Effects.OfParcels (endFiring env r o p ln).effects := by
  cases h : p.phase with
  | firing aim shot =>
    rw [endFiring_eq env r o p aim shot h]
    obtain ⟨es, he⟩ := removeParcel_events env p.serial o ln
    refine ⟨?_, ?_⟩
    · show List.filterMap _ (_ :: _) = _
      rw [he]
      unfold Parcel.endDrafts
      rw [h]
      have := parcelDrafts_events es
      simp only [List.filterMap_cons, this]
      rfl
    · intro d hd
      rcases List.mem_cons.mp hd with e | hd
      · cases e; rfl
      · rw [he] at hd
        exact ofParcels_events es d hd
  | _ =>
    unfold endFiring Parcel.endDrafts
    rw [h]
    exact ⟨rfl, fun d hd => by cases hd⟩

/-- The lane after the ends of firings is that after the removals. -/
theorem runEach_endFiring (env : LaneEnv) (r : TraceReason) (o : Outcome) (ps : List Parcel)
    (h : ∀ p ∈ ps, p.isFiring = true) (ln : Lane) :
    (runEach (endFiring env r o) ps ln).lane = (runEach (fun p => removeParcel env p.serial o) ps ln).lane := by
  induction ps generalizing ln with
  | nil => rfl
  | cons p ps ih =>
    rw [runEach_cons, runEach_cons]
    have hp := h p (List.mem_cons_self ..)
    have e : (endFiring env r o p ln).lane = (removeParcel env p.serial o ln).lane := by
      cases hph : p.phase with
      | firing aim shot => rw [endFiring_eq env r o p aim shot hph]
      | _ => rw [Parcel.isFiring, hph] at hp; cases hp
    show (runEach (endFiring env r o) ps (endFiring env r o p ln).lane).lane =
      (runEach (fun p => removeParcel env p.serial o) ps (removeParcel env p.serial o ln).lane).lane
    rw [e]
    exact ih (fun q hq => h q (List.mem_cons_of_mem _ hq)) _

/-- What a cut of a lane's firings does (R32, R106, R108). -/
theorem cutLane_cuts (env : LaneEnv) (r : TraceReason) (ln : Lane) :
    let removed := runEach (fun p => removeParcel env p.serial .cut) (ln.queue.filter (·.isFiring)) ln
    (cutLane env r ln).lane = closeColumns env ln removed.lane ∧
    (cutLane env r ln).effects.filterMap Effect.parcelDraft? = ln.queue.flatMap (·.endDrafts r) ∧
    Effects.OfParcels (cutLane env r ln).effects ∧
    ((ln.queue.map (·.serial)).Nodup → (cutLane env r ln).lane.queue = ln.queue.filter fun p => !p.isFiring) := by
  have hl := runEach_endFiring env r .cut (ln.queue.filter (·.isFiring)) (fun p hp => (List.mem_filter.mp hp).2) ln
  refine ⟨?_, ?_, runEach_ofParcels (fun p x => (endFiring_drafts env r .cut p x).2) _ ln, fun hn => ?_⟩
  · show closeColumns env ln _ = _
    rw [hl]
  · show (runEach (endFiring env r .cut) _ ln).effects.filterMap _ = _
    rw [runEach_parcelDrafts (fun p x => (endFiring_drafts env r .cut p x).1)]
    induction ln.queue with
    | nil => rfl
    | cons p ps ih =>
      rw [List.filter_cons, List.flatMap_cons]
      cases hp : p.isFiring with
      | true => rw [if_pos rfl, List.flatMap_cons, ih]
      | false =>
        have : p.endDrafts r = [] := by
          unfold Parcel.endDrafts
          cases h : p.phase <;> simp_all [Parcel.isFiring]
        simpa [this] using ih
  · show (runEach (endFiring env r .cut) _ ln).lane.queue = _
    rw [hl]
    have e : runEach (fun (p : Parcel) => removeParcel env p.serial .cut) (ln.queue.filter (·.isFiring)) ln =
        runEach (fun (x : Serial × Outcome) => removeParcel env x.1 x.2)
          ((ln.queue.filter (·.isFiring)).map fun p => (p.serial, .cut)) ln := by
      unfold runEach
      rw [List.foldl_map]
    rw [e, runEach_removes]
    refine List.filter_congr fun p hp => ?_
    cases hf : p.isFiring with
    | true =>
      have : ((ln.queue.filter (·.isFiring)).map fun p => (p.serial, Outcome.cut)).any
          (fun x => x.1 == p.serial) = true := by
        rw [List.any_eq_true]
        exact ⟨(p.serial, .cut), List.mem_map.mpr ⟨p, List.mem_filter.mpr ⟨hp, hf⟩, rfl⟩, by simp⟩
      rw [this]
    | false =>
      have : ((ln.queue.filter (·.isFiring)).map fun p => (p.serial, Outcome.cut)).any
          (fun x => x.1 == p.serial) = false := by
        rw [List.any_eq_false]
        rintro x hx
        obtain ⟨q, hq, rfl⟩ := List.mem_map.mp hx
        obtain ⟨hq1, hq2⟩ := List.mem_filter.mp hq
        simp only [beq_iff_eq]
        intro hs
        have := List.inj_on_of_nodup_map hn hq1 hp hs
        rw [this, hf] at hq2
        cases hq2
      rw [this]


/-- Drafts that each name their parcel stand in queue order when the parcels do (R14, R167). -/
theorem drafts_pairwise {q : List Parcel} {g : Parcel → List TraceDraft}
    (hg : ∀ p, g p = [] ∨ ∃ d, g p = [d] ∧ d.serial = some p.serial ∧ d.lead = some p.lead)
    (h : q.Pairwise Parcel.StandsBefore) : (q.flatMap g).Pairwise fun a b => a.before b = true := by
  rw [List.pairwise_flatMap]
  refine ⟨fun p _ => ?_, h.imp ?_⟩
  · rcases hg p with e | ⟨d, e, _⟩ <;> rw [e] <;> simp
  · intro a b hab x hx y hy
    rcases hg a with e | ⟨d, e, h1, h2⟩
    · rw [e] at hx; cases hx
    · rcases hg b with f | ⟨d', f, k1, k2⟩
      · rw [f] at hy; cases hy
      · rw [e, List.mem_singleton] at hx
        rw [f, List.mem_singleton] at hy
        subst hx hy
        exact draft_before h1 h2 k1 k2 hab

/-! ## A station disabled (R109) -/

/-- What DISABLE_STATION leaves of a parcel of the station: nothing of a FIRING one, and of a SCHEDULED one
nothing where its exit position is at or behind Pmax, else the parcel TRAVELLING as DENIED. -/
def Parcel.offLeaves (exit : Nat) (pmax : Pos) (p : Parcel) : Option Parcel :=
  match p.phase with
  | .firing _ _ => none
  | .scheduled aim =>
    if atOrBehind (p.trail + BitVec.ofNat 32 exit) pmax then none
    else some { p with phase := .travelling aim.fraction .denied }
  | _ => some p

/-- The outcome with which DISABLE_STATION removes a parcel of the station, if it does. -/
def Parcel.offRemoves (exit : Nat) (pmax : Pos) (p : Parcel) : Option Outcome :=
  match p.phase with
  | .firing _ _ => some .cut
  | .scheduled _ => if atOrBehind (p.trail + BitVec.ofNat 32 exit) pmax then some .denied else none
  | _ => none

/-- What a removal reports depends on the parcel, the lots and the tally alone. -/
theorem removeParcel_agree {env : LaneEnv} {s : Serial} {o : Outcome} {x y : Lane} {p q : Parcel}
    (hx : x.find s = some p) (hy : y.find s = some q) (ht : p.test = q.test) (hl : p.lot = q.lot)
    (hr : p.report env.table o = q.report env.table o) (hlots : x.lots = y.lots)
    (htl : x.testTally = y.testTally) :
    (removeParcel env s o x).lane.lots = (removeParcel env s o y).lane.lots ∧
    (removeParcel env s o x).lane.testTally = (removeParcel env s o y).lane.testTally := by
  have hd := drop_fields
  unfold removeParcel
  rw [hx, hy]
  dsimp only
  rw [ht, hl, hr, hlots]
  split
  · refine ⟨((hd x p).2.trans hlots).trans (hd y q).2.symm, ?_⟩
    show (x.drop p).testTally.set _ _ = (y.drop q).testTally.set _ _
    rw [(hd x p).1, (hd y q).1, htl]
  · split
    · exact ⟨((hd x p).2.trans hlots).trans (hd y q).2.symm, ((hd x p).1.trans htl).trans (hd y q).1.symm⟩
    · exact ⟨rfl, ((hd x p).1.trans htl).trans (hd y q).1.symm⟩

/-- Two lanes with the same lots and test tally. -/
def Lane.SameCounts (a b : Lane) : Prop := a.lots = b.lots ∧ a.testTally = b.testTally

theorem find_filter_ne {q : List Parcel} {s k : Serial} (h : k ≠ s) :
    (q.filter (·.serial != s)).find? (·.serial == k) = q.find? (·.serial == k) := by
  rw [List.find?_filter]
  congr 1
  funext p
  by_cases e : p.serial = k
  · simp [e, h]
  · simp [e]

theorem find_map_ne {q : List Parcel} {s k : Serial} {f : Parcel → Parcel} (hf : ∀ p, (f p).serial = p.serial)
    (h : k ≠ s) :
    (q.map fun p => if p.serial = s then f p else p).find? (·.serial == k) = q.find? (·.serial == k) := by
  induction q with
  | nil => rfl
  | cons p ps ih =>
    rw [List.map_cons, List.find?_cons, List.find?_cons, ih]
    by_cases e : p.serial = s
    · have : (p.serial == k) = false := by rw [e]; simpa using fun e => h e.symm
      rw [if_pos e, hf, this]
    · rw [if_neg e]

theorem leaveList_counts (ln : Lane) (p : Parcel) :
    (ln.leaveList p).lots = ln.lots ∧ (ln.leaveList p).testTally = ln.testTally ∧
    (ln.leaveList p).queue = ln.queue ∧ (ln.leaveList p).tb = ln.tb ∧ (ln.leaveList p).cfg = ln.cfg := by
  unfold Lane.leaveList
  cases p.station? <;> exact ⟨rfl, rfl, rfl, rfl, rfl⟩

/-- What one parcel of a disabled station does: the queue, the counts, and the parcels of other serials. -/
theorem stationOff_one (env : LaneEnv) (st : StationId) (p : Parcel) (x : Lane) (hs : p.station?.isSome = true)
    (hf : x.find p.serial = some p) :
    (stationOff env st p x).lane.queue = x.queue.filterMap (fun q => if q.serial = p.serial
      then (p.offLeaves x.cfg.geometry.exitDistance x.tb.pmax).map (fun r => { q with phase := r.phase })
      else some q) ∧
    (∀ o, p.offRemoves x.cfg.geometry.exitDistance x.tb.pmax = some o →
      (stationOff env st p x).lane.SameCounts (removeParcel env p.serial o x).lane) ∧
    (p.offRemoves x.cfg.geometry.exitDistance x.tb.pmax = none → (stationOff env st p x).lane.SameCounts x) ∧
    (∀ k, k ≠ p.serial → (stationOff env st p x).lane.find k = x.find k) := by
  have hfil : ∀ q : List Parcel, q.filter (·.serial != p.serial) =
      q.filterMap fun r => if r.serial = p.serial then none else some r := by
    intro q
    rw [← List.filterMap_eq_filter]
    refine List.filterMap_congr fun r _ => ?_
    by_cases h : r.serial = p.serial <;> simp [Option.guard, h]
  cases hp : p.phase with
  | forming c => simp [Parcel.station?, hp] at hs
  | travelling f o => simp [Parcel.station?, hp] at hs
  | firing aim shot =>
    have e : (stationOff env st p x).lane = (removeParcel env p.serial .cut x).lane := by
      unfold stationOff
      rw [hp]
      dsimp only
      rw [endFiring_eq env _ _ p aim shot hp]
    have h1 : ∀ ex pm, p.offLeaves ex pm = none := fun ex pm => by unfold Parcel.offLeaves; rw [hp]
    have h2 : ∀ ex pm, p.offRemoves ex pm = some .cut := fun ex pm => by unfold Parcel.offRemoves; rw [hp]
    rw [h1, h2, e]
    refine ⟨by rw [removeParcel_queue, hfil]; rfl, fun o ho => (by cases ho; exact ⟨rfl, rfl⟩),
      fun h => (by cases h), fun k hk => ?_⟩
    show (removeParcel env p.serial .cut x).lane.queue.find? _ = _
    rw [removeParcel_queue]
    exact find_filter_ne hk
  | scheduled aim =>
    obtain ⟨l1, l2, l3, l4, l5⟩ := leaveList_counts x p
    set rides : Lane := (x.leaveList p).revise p.serial fun q => { q with phase := .travelling aim.fraction .denied }
      with hrides
    have hrq : rides.queue = x.queue.map fun q => if q.serial = p.serial
        then { q with phase := .travelling aim.fraction .denied } else q := by
      show (x.leaveList p).queue.map _ = _
      rw [l3]
    have hrf : rides.find p.serial = some { p with phase := .travelling aim.fraction .denied } := by
      show rides.queue.find? _ = _
      rw [hrq]
      have hf' : x.queue.find? (·.serial == p.serial) = some p := hf
      revert hf'
      generalize x.queue = q
      intro hf'
      induction q with
      | nil => cases hf'
      | cons a as ih =>
        rw [List.map_cons, List.find?_cons]
        rw [List.find?_cons] at hf'
        by_cases h : a.serial = p.serial
        · rw [h] at hf'
          simp only [beq_self_eq_true, Option.some.injEq] at hf'
          subst hf'
          simp
        · have : (a.serial == p.serial) = false := by simpa using h
          rw [if_neg h, this]
          rw [this] at hf'
          exact ih hf'
    have e : (stationOff env st p x).lane = if atOrBehind (p.trail + BitVec.ofNat 32 x.cfg.geometry.exitDistance)
        x.tb.pmax then (removeParcel env p.serial .denied rides).lane else rides := by
      unfold stationOff
      rw [hp]
      dsimp only
      show (travel env p aim.fraction .denied x).lane = _
      unfold travel Lane.exitPos
      dsimp only
      split <;> rfl
    unfold Parcel.offLeaves Parcel.offRemoves
    rw [hp, e]
    by_cases hc : atOrBehind (p.trail + BitVec.ofNat 32 x.cfg.geometry.exitDistance) x.tb.pmax = true
    · simp only [hc, if_true]
      refine ⟨?_, fun o ho => ?_, fun h => (by cases h), fun k hk => ?_⟩
      · rw [removeParcel_queue, hrq]
        rw [map_revise_filter (fun q : Parcel => { q with phase := .travelling aim.fraction .denied }) p.serial _
          fun q hq => hq, hfil]
        rfl
      · cases ho
        exact removeParcel_agree hrf hf rfl rfl (by
          unfold Parcel.report Parcel.length Parcel.fraction?
          rw [hp]) (show (x.leaveList p).lots = _ from l1) (show (x.leaveList p).testTally = _ from l2)
      · show (removeParcel env p.serial .denied rides).lane.queue.find? _ = _
        rw [removeParcel_queue, find_filter_ne hk, hrq]
        exact find_map_ne (fun _ => rfl) hk
    · simp only [hc, if_false, Bool.false_eq_true]
      refine ⟨?_, fun o ho => (by cases ho), fun _ => ⟨l1, l2⟩, fun k hk => ?_⟩
      · rw [hrq, ← List.filterMap_eq_map]
        refine List.filterMap_congr fun q _ => ?_
        by_cases h : q.serial = p.serial <;> simp [h]
      · show rides.queue.find? _ = _
        rw [hrq]
        exact find_map_ne (fun _ => rfl) hk


/-- A parcel of the station leaves its firing list. -/
theorem stationOff_list (env : LaneEnv) (st : StationId) (p : Parcel) (x : Lane) (hs : p.station? = some st)
    (hf : x.find p.serial = some p) (k : StationId) :
    (stationOff env st p x).lane.stations[k].list =
      if k = st then x.stations[k].list.filter (·.serial != p.serial) else x.stations[k].list := by
  have hrem : ∀ (o : Outcome) (y : Lane) (q : Parcel), y.find p.serial = some q →
      (removeParcel env p.serial o y).lane.stations = (y.leaveList q).stations := by
    intro o y q hy
    unfold removeParcel
    rw [hy]
    dsimp only
    split
    · rfl
    · split <;> rfl
  have hl := leaveList_stations x p k
  rw [hs] at hl
  have hif : ∀ a b : List ListEntry, (if some st = some k then a else b) = if k = st then a else b := by
    intro a b
    by_cases h : k = st
    · simp [h]
    · rw [if_neg h, if_neg]
      intro e
      exact h (Option.some.inj e).symm
  cases hp : p.phase with
  | forming c => simp [Parcel.station?, hp] at hs
  | travelling f o => simp [Parcel.station?, hp] at hs
  | firing aim shot =>
    unfold stationOff
    rw [hp]
    dsimp only
    rw [endFiring_eq env _ _ p aim shot hp]
    show (removeParcel env p.serial .cut x).lane.stations[k].list = _
    rw [hrem _ x p hf, hl, hif]
  | scheduled aim =>
    unfold stationOff
    rw [hp]
    dsimp only
    have hst : (travel env p aim.fraction .denied x).lane.stations = (x.leaveList p).stations := by
      unfold travel
      dsimp only
      split
      · refine removeParcel_stations fun q hq he => ?_
        obtain ⟨r, _, rfl⟩ := List.mem_map.mp hq
        by_cases h : r.serial = p.serial
        · simp [h, Parcel.station?]
        · rw [if_neg h] at he
          exact absurd he h
      · rfl
    show (travel env p aim.fraction .denied x).lane.stations[k].list = _
    rw [hst, hl, hif]

/-- The parcels of a disabled station, one after another. -/
theorem runEach_stationOff (env : LaneEnv) (st : StationId) (exit : Nat) (pmax : Pos) (ps : List Parcel)
    (hn : (ps.map (·.serial)).Nodup) (hs : ∀ p ∈ ps, p.station? = some st) (x y : Lane)
    (hx : ∀ p ∈ ps, x.find p.serial = some p) (hy : ∀ p ∈ ps, y.find p.serial = some p)
    (he : x.cfg.geometry.exitDistance = exit) (hp : x.tb.pmax = pmax) (hc : x.SameCounts y) :
    (runEach (stationOff env st) ps x).lane.queue = x.queue.filterMap (fun q =>
      match ps.find? (·.serial == q.serial) with
      | none => some q
      | some p => (p.offLeaves exit pmax).map fun r => { q with phase := r.phase }) ∧
    (runEach (stationOff env st) ps x).lane.SameCounts
      (runEach (fun z => removeParcel env z.1 z.2)
        (ps.filterMap fun p => (p.offRemoves exit pmax).map fun o => (p.serial, o)) y).lane ∧
    (∀ k : StationId, (runEach (stationOff env st) ps x).lane.stations[k].list =
      if k = st then x.stations[k].list.filter (fun e => !ps.any fun p => p.serial == e.serial)
      else x.stations[k].list) := by
  induction ps generalizing x y with
  | nil => exact ⟨by simp [runEach_nil], hc, fun k => by simp [runEach_nil]⟩
  | cons p ps ih =>
    rw [List.map_cons, List.nodup_cons] at hn
    have hs0 := hs p (List.mem_cons_self ..)
    have hx0 := hx p (List.mem_cons_self ..)
    obtain ⟨o1, o2, o3, o4⟩ := stationOff_one env st p x (by rw [hs0]; rfl) hx0
    have o5 := stationOff_list env st p x hs0 hx0
    have hb := stationOff_sameBelt env st p x
    rw [he, hp] at o1 o2 o3
    have hne : ∀ q ∈ ps, q.serial ≠ p.serial := fun q hq e => hn.1 (e ▸ List.mem_map_of_mem hq)
    obtain ⟨k1, k2, k3⟩ := ih hn.2 (fun q hq => hs q (List.mem_cons_of_mem _ hq)) (stationOff env st p x).lane
      (match p.offRemoves exit pmax with
        | some o => (removeParcel env p.serial o y).lane
        | none => y)
      (fun q hq => (o4 q.serial (hne q hq)).trans (hx q (List.mem_cons_of_mem _ hq)))
      (fun q hq => by
        have hq' := hy q (List.mem_cons_of_mem _ hq)
        split
        · show (removeParcel env p.serial _ y).lane.queue.find? _ = _
          rw [removeParcel_queue, find_filter_ne (hne q hq)]
          exact hq'
        · exact hq')
      (by rw [hb.cfg]; exact he) (by rw [hb.tb]; exact hp)
      (by
        cases hr : p.offRemoves exit pmax with
        | none => exact ⟨(o3 hr).1.trans hc.1, (o3 hr).2.trans hc.2⟩
        | some o =>
          obtain ⟨a1, a2⟩ := removeParcel_agree (env := env) (o := o) hx0 (hy p (List.mem_cons_self ..)) rfl rfl
            rfl hc.1 hc.2
          exact ⟨(o2 o hr).1.trans a1, (o2 o hr).2.trans a2⟩)
    rw [runEach_cons]
    refine ⟨?_, ?_, fun k => ?_⟩
    · show (runEach (stationOff env st) ps (stationOff env st p x).lane).lane.queue = _
      rw [k1, o1, List.filterMap_filterMap]
      refine List.filterMap_congr fun q _ => ?_
      rw [List.find?_cons]
      by_cases h : p.serial = q.serial
      · have hnone : ps.find? (·.serial == q.serial) = none := by
          rw [List.find?_eq_none]
          intro r hr
          simp only [beq_iff_eq]
          rw [← h]
          exact hne r hr
        rw [if_pos h.symm]
        simp only [h, beq_self_eq_true]
        cases hl : p.offLeaves exit pmax with
        | none => rfl
        | some r => simp [hnone]
      · have : (p.serial == q.serial) = false := by simpa using h
        rw [if_neg fun e => h e.symm, this]
        rfl
    · show (runEach (stationOff env st) ps (stationOff env st p x).lane).lane.SameCounts _
      rw [List.filterMap_cons]
      cases hr : p.offRemoves exit pmax with
      | none =>
        rw [hr] at k2
        exact k2
      | some o =>
        rw [hr] at k2
        dsimp only [Option.map_some]
        rw [runEach_cons]
        exact k2
    · show (runEach (stationOff env st) ps (stationOff env st p x).lane).lane.stations[k].list = _
      rw [k3, o5]
      by_cases h : k = st
      · rw [if_pos h, if_pos h, if_pos h, List.filter_filter]
        refine List.filter_congr fun e _ => ?_
        rw [List.any_cons, Bool.not_or, Bool.and_comm, bne, BEq.comm]
      · rw [if_neg h, if_neg h, if_neg h]

/-- The drafts of a parcel of a disabled station. -/
def Parcel.offDrafts (st : StationId) (p : Parcel) : List TraceDraft :=
  match p.phase with
  | .firing aim _ => [p.draftOf .cutStationOff aim.station]
  | .scheduled _ => [p.draftOf .deniedStationOff st]
  | _ => []

theorem travel_events (env : LaneEnv) (p : Parcel) (f : Fraction) (o : Outcome) (ln : Lane) :
    ∃ es : List Event, (travel env p f o ln).effects = es.map .event := by
  unfold travel
  dsimp only
  split
  · exact removeParcel_events ..
  · exact ⟨[], rfl⟩

theorem stationOff_drafts (env : LaneEnv) (st : StationId) (p : Parcel) (ln : Lane) :
    (stationOff env st p ln).effects.filterMap Effect.parcelDraft? = p.offDrafts st ∧
    Effects.OfParcels (stationOff env st p ln).effects := by
  cases h : p.phase with
  | firing aim shot =>
    have hd := endFiring_drafts env .cutStationOff .cut p ln
    unfold stationOff Parcel.offDrafts
    rw [h]
    unfold Parcel.endDrafts at hd
    rw [h] at hd
    exact hd
  | scheduled aim =>
    obtain ⟨es, he⟩ := travel_events env p aim.fraction .denied ln
    have e : (stationOff env st p ln).effects = .trace (p.draftOf .deniedStationOff st) :: es.map .event := by
      unfold stationOff
      rw [h]
      dsimp only
      show _ :: (travel env p aim.fraction .denied ln).effects = _
      rw [he]
      rfl
    rw [e]
    unfold Parcel.offDrafts
    rw [h]
    refine ⟨?_, fun d hd => ?_⟩
    · have := parcelDrafts_events es
      simp only [List.filterMap_cons, this]
      rfl
    · rcases List.mem_cons.mp hd with e | hd
      · cases e; rfl
      · exact ofParcels_events es d hd
  | _ =>
    unfold stationOff Parcel.offDrafts
    rw [h]
    exact ⟨rfl, fun d hd => by cases hd⟩

/-- DISABLE_STATION of an enabled station (R109). -/
theorem disableStation_settles (env : LaneEnv) (st : StationId) (ln : Lane) :
    (disableStation env st ln).effects.filterMap Effect.parcelDraft? =
      ln.queue.flatMap (fun p => if p.station? = some st then p.offDrafts st else []) ∧
    Effects.OfParcels (disableStation env st ln).effects ∧
    ((ln.queue.map (·.serial)).Nodup →
      (disableStation env st ln).lane.queue = (ln.queue.filterMap fun p => if p.station? = some st
        then p.offLeaves ln.cfg.geometry.exitDistance ln.tb.pmax else some p) ∧
      (disableStation env st ln).lane.SameCounts (runEach (fun z => removeParcel env z.1 z.2)
        (ln.queue.filterMap fun p => if p.station? = some st
          then (p.offRemoves ln.cfg.geometry.exitDistance ln.tb.pmax).map fun o => (p.serial, o)
          else none) ln).lane ∧
      ∀ k : StationId, (disableStation env st ln).lane.stations[k].list =
        if k = st then ln.stations[k].list.filter (fun e =>
          !ln.queue.any fun p => p.station? == some st && p.serial == e.serial)
        else ln.stations[k].list) := by
  have hq : ∀ q : List Parcel, (q.filter fun p => p.station? == some st).flatMap (·.offDrafts st) =
      q.flatMap (fun p => if p.station? = some st then p.offDrafts st else []) := by
    intro q
    induction q with
    | nil => rfl
    | cons p ps ih =>
      rw [List.filter_cons, List.flatMap_cons, ← ih]
      by_cases h : p.station? = some st <;> simp [h]
  unfold disableStation
  dsimp only
  set off : Lane := { ln with cfg := { ln.cfg with geometry :=
    { ln.cfg.geometry with stationEnable := ln.cfg.geometry.stationEnable.set st false } } } with hoff
  refine ⟨?_, runEach_ofParcels (fun p x => (stationOff_drafts env st p x).2) _ off, fun hn => ?_⟩
  · rw [← hq]
    exact runEach_parcelDrafts (fun p x => (stationOff_drafts env st p x).1) _ off
  · have hfind : ∀ p ∈ ln.queue, ln.queue.find? (·.serial == p.serial) = some p := by
      intro p hp
      cases h : ln.queue.find? (·.serial == p.serial) with
      | none => exact absurd (List.find?_eq_none.mp h p hp) (by simp)
      | some r =>
        have h1 : r.serial = p.serial := by simpa using List.find?_some h
        rw [List.inj_on_of_nodup_map hn (List.mem_of_find?_eq_some h) hp h1]
    set ps := ln.queue.filter fun p => p.station? == some st with hps
    have hmem : ∀ p, p ∈ ps ↔ p ∈ ln.queue ∧ p.station? = some st := by
      intro p
      rw [hps, List.mem_filter]
      simp
    obtain ⟨k1, k2, k3⟩ := runEach_stationOff env st ln.cfg.geometry.exitDistance ln.tb.pmax ps
      (hn.sublist (List.filter_sublist.map _)) (fun p hp => ((hmem p).mp hp).2) off ln
      (fun p hp => hfind p ((hmem p).mp hp).1) (fun p hp => hfind p ((hmem p).mp hp).1) rfl rfl ⟨rfl, rfl⟩
    refine ⟨?_, ?_, fun k => ?_⟩
    · show (runEach (stationOff env st) ps off).lane.queue = _
      rw [k1]
      refine List.filterMap_congr fun q hqm => ?_
      by_cases h : q.station? = some st
      · have hfq : ps.find? (·.serial == q.serial) = some q := by
          cases hf : ps.find? (·.serial == q.serial) with
          | none => exact absurd (List.find?_eq_none.mp hf q ((hmem q).mpr ⟨hqm, h⟩)) (by simp)
          | some r =>
            have h1 : r.serial = q.serial := by simpa using List.find?_some hf
            rw [List.inj_on_of_nodup_map hn ((hmem r).mp (List.mem_of_find?_eq_some hf)).1 hqm h1]
        rw [hfq, if_pos h]
        dsimp only
        unfold Parcel.offLeaves
        split
        · rfl
        · split <;> rfl
        · rfl
      · have hfq : ps.find? (·.serial == q.serial) = none := by
          rw [List.find?_eq_none]
          intro r hr
          simp only [beq_iff_eq]
          intro e
          have := List.inj_on_of_nodup_map hn ((hmem r).mp hr).1 hqm e
          subst this
          exact h ((hmem r).mp hr).2
        rw [hfq, if_neg h]
    · have e : (ps.filterMap fun p => (p.offRemoves ln.cfg.geometry.exitDistance ln.tb.pmax).map fun o => (p.serial, o)) =
          ln.queue.filterMap fun p => if p.station? = some st
            then (p.offRemoves ln.cfg.geometry.exitDistance ln.tb.pmax).map fun o => (p.serial, o) else none := by
        rw [hps, List.filterMap_filter]
        refine List.filterMap_congr fun p _ => ?_
        by_cases h : p.station? = some st <;> simp [h]
      rw [e] at k2
      exact k2
    · have hcl : (withClosing env (runEach (stationOff env st) ps) off).lane.stations[k].list =
          (runEach (stationOff env st) ps off).lane.stations[k].list := by
        show (closeColumns env off _).stations[k].list = _
        rw [closeColumns_station]
      rw [hcl, k3]
      have e : ∀ x : ListEntry, ps.any (fun p => p.serial == x.serial) =
          ln.queue.any fun p => p.station? == some st && p.serial == x.serial := by
        intro x
        rw [hps, List.any_filter]
      simp only [e]
      rfl

/-! ## A whole step of a lane whose entries are those of parcels -/

theorem drainIfEmpty_events (env : LaneEnv) (a b : Lane) :
    ∃ es : List Event, (drainIfEmpty env a b).effects = es.map .event := by
  unfold drainIfEmpty
  split
  · exact ⟨[_], rfl⟩
  · exact ⟨[], rfl⟩

theorem Effects.OfParcels.append {xs ys : List Effect} (h : Effects.OfParcels xs) (k : Effects.OfParcels ys) :
    Effects.OfParcels (xs ++ ys) := fun d hd => (List.mem_append.mp hd).elim (h d) (k d)

/-- The entries of a step whose blocks' drafts stand in queue order (R14, R167). -/
theorem stepLane_traces (s : State) (l : LaneId) (f : LaneEnv → Lane → LaneOut) (ds : List TraceDraft)
    (h : (f (s.env l) s.lanes[l]).effects.filterMap Effect.parcelDraft? = ds)
    (ho : Effects.OfParcels (f (s.env l) s.lanes[l]).effects)
    (hs : ds.Pairwise fun a b => a.before b = true) :
    s.Traces (s.stepLane l f) (ds.map (·.entry l s.lineTime false)) := by
  obtain ⟨es, he⟩ := drainIfEmpty_events (s.env l) s.lanes[l] (f (s.env l) s.lanes[l]).lane
  have e : ((f (s.env l) s.lanes[l]).andThen (drainIfEmpty (s.env l) s.lanes[l])).effects =
      (f (s.env l) s.lanes[l]).effects ++ es.map .event := by
    rw [← he]
    rfl
  have hc := commit_traces l (laneStep f (s.env l) s.lanes[l]).effects (s.setLane l (laneStep f (s.env l) s.lanes[l]).lane)
  have hent : entriesOf l s.lineTime (laneStep f (s.env l) s.lanes[l]).effects =
      ds.map (·.entry l s.lineTime false) := by
    show entriesOf l s.lineTime (inQueueOrder ((f (s.env l) s.lanes[l]).andThen _).effects) = _
    refine entriesOf_inQueueOrder l s.lineTime ?_ hs ?_
    · rw [e, List.filterMap_append, h, parcelDrafts_events, List.append_nil]
    · rw [e]
      exact ho.append (ofParcels_events es)
  have ht : (s.setLane l (laneStep f (s.env l) s.lanes[l]).lane).lineTime = s.lineTime := rfl
  rw [ht, hent] at hc
  exact hc

/-- The lane after a step that ends firings and empties no list besides: the queue, the lots, the tally and
the lists are as the act leaves them. -/
theorem laneStep_stock (f : LaneEnv → Lane → LaneOut) (env : LaneEnv) (ln : Lane) :
    (laneStep f env ln).lane.queue = (f env ln).lane.queue ∧
    (laneStep f env ln).lane.lots = (f env ln).lane.lots ∧
    (laneStep f env ln).lane.testTally = (f env ln).lane.testTally ∧
    ∀ st : StationId, (laneStep f env ln).lane.stations[st].list = (f env ln).lane.stations[st].list := by
  have hd : (f env ln).lane.SameStock ((f env ln).andThen (drainIfEmpty env ln)).lane := by
    show (f env ln).lane.SameStock (drainIfEmpty env ln (f env ln).lane).lane
    rcases drainIfEmpty_cases env ln (f env ln).lane with e | ⟨_, _, e⟩
    · rw [e]
      exact ⟨rfl, rfl, rfl, rfl⟩
    · rw [e]
      exact ⟨(rest_stock _).queue, (rest_stock _).stations, (rest_stock _).tally, (rest_stock _).lots⟩
  refine ⟨hd.queue, hd.lots, hd.tally, fun st => ?_⟩
  show (syncPorts env.id ln _).stations[st].list = _
  rw [syncPorts_station]
  show ((f env ln).andThen (drainIfEmpty env ln)).lane.stations[st].list = _
  rw [hd.stations]

/-! ## Entries of a cut (R106, R108, R167) -/

theorem endDrafts_map (l : LaneId) (now : Time) (r : TraceReason) (q : List Parcel) :
    (q.flatMap (·.endDrafts r)).map (·.entry l now false) = q.flatMap fun p =>
          match p.phase with
          | .firing aim _ => [p.entryOf now l aim.station r]
          | _ => [] := by
  rw [List.map_flatMap]
  refine List.flatMap_congr fun p _ => ?_
  unfold Parcel.endDrafts
  cases p.phase <;> rfl

theorem endDrafts_shape (r : TraceReason) (p : Parcel) : p.endDrafts r = [] ∨ ∃ d, p.endDrafts r = [d] ∧ d.serial = some p.serial ∧ d.lead = some p.lead := by
  unfold Parcel.endDrafts
  cases p.phase <;> first | exact .inl rfl | exact .inr ⟨_, rfl, rfl, rfl⟩

theorem cut_traces (s : State) (l : LaneId) (r : TraceReason) (h : s.lanes[l].queue.Pairwise Parcel.StandsBefore) :
    s.Traces (s.stepLane l fun env ln => cutLane env r ln) (s.lanes[l].queue.flatMap fun p =>
          match p.phase with
          | .firing aim _ => [p.entryOf s.lineTime l aim.station r]
          | _ => []) := by
  obtain ⟨_, h2, h3, _⟩ := cutLane_cuts (s.env l) r s.lanes[l]
  rw [← endDrafts_map]
  exact stepLane_traces s l _ _ h2 h3 (drafts_pairwise (endDrafts_shape r) h)

end Sys2Proof.Machine
end

