-- ==== Sys2Proof/Laws/Samples.lean ====
section
/-! SUPPORT. Samples of the encoder phases that are held back and taken together (R33; log 19): what the lane is
after them, when they outrun the cut, and what ENCODER_PHASE_CHANGE does with them. -/

namespace Sys2Proof.Machine

/-! ## The lane after samples that count down -/

theorem fallen_eq (now : Time) (ln : Lane) (x : Bool × Bool) : ln.fallen now x = ln.sunk now x := by
  unfold Lane.fallen Lane.sunk
  dsimp only
  rw [counted_down]
  by_cases h : ln.tb.residue = 0 <;> simp [h] <;> rfl

theorem limitPassed_iff (ln : Lane) : ln.limitPassed = true ↔ ln.Past := by simp [Lane.limitPassed, Lane.Past]

/-- What samples that count down leave as it was: everything but the position, the divider and the record of the
source. -/
structure Lane.Sunk (a b : Lane) : Prop where
  queue : b.queue = a.queue
  state : b.state = a.state
  pmax : b.tb.pmax = a.tb.pmax
  source : b.tb.source = a.tb.source
  stations : b.stations = a.stations
  lots : b.lots = a.lots
  injection : b.injection = a.injection
  geometry : b.cfg.geometry = a.cfg.geometry
  configs : b.cfg.stations = a.cfg.stations
  noSwitch : b.tb.pendingSwitch = none ↔ a.tb.pendingSwitch = none
  toNominal : b.tb.pendingSwitch = some .toNominal ↔ a.tb.pendingSwitch = some .toNominal

theorem Lane.Sunk.trans {a b c : Lane} (h : a.Sunk b) (k : b.Sunk c) : a.Sunk c :=
  ⟨k.queue.trans h.queue, k.state.trans h.state, k.pmax.trans h.pmax, k.source.trans h.source,
    k.stations.trans h.stations, k.lots.trans h.lots, k.injection.trans h.injection,
    k.geometry.trans h.geometry, k.configs.trans h.configs, k.noSwitch.trans h.noSwitch, k.toNominal.trans h.toNominal⟩

theorem countedDown_sunk (ln : Lane) (x : Bool × Bool) (now : Time) : ln.Sunk (ln.countedDown x now) := by
  constructor <;> try rfl
  · unfold Lane.countedDown
    simp
  · unfold Lane.countedDown
    dsimp only
    rcases ln.tb.pendingSwitch with _ | w
    · simp
    · cases w <;> simp [PendingSwitch.judging]

theorem sunk_sunk (now : Time) (ln : Lane) (x : Bool × Bool) : ln.Sunk (ln.sunk now x) := by
  have h := countedDown_sunk ln x now
  unfold Lane.sunk
  dsimp only
  split
  · exact h.trans ⟨rfl, rfl, by rw [h.pmax]; rfl, rfl, rfl, rfl, rfl, rfl, rfl, .rfl, .rfl⟩
  · exact h

theorem foldl_sunk (now : Time) (xs : List (Bool × Bool)) (ln : Lane) : ln.Sunk (xs.foldl (Lane.sunk now) ln) := by
  induction xs generalizing ln with
  | nil => exact ⟨rfl, rfl, rfl, rfl, rfl, rfl, rfl, rfl, rfl, .rfl, .rfl⟩
  | cons x xs ih => exact (sunk_sunk now ln x).trans (ih _)

theorem foldl_fallen (now : Time) (xs : List (Bool × Bool)) (ln : Lane) :
    xs.foldl (Lane.fallen now) ln = xs.foldl (Lane.sunk now) ln := by
  rw [show Lane.fallen now = Lane.sunk now from funext fun ln => funext fun x => fallen_eq now ln x]

/-- A step of P that goes past the limit is the first: the sample before it stands within, and its divider at
0. -/
theorem Lane.Past.steps {now : Time} {ln : Lane} {x : Bool × Bool} (h : (ln.sunk now x).Past) (hn : ¬ln.Past) :
    ln.tb.residue = 0 ∧ ln.Passes := by
  unfold Lane.sunk at h
  by_cases hr : ln.tb.residue = 0
  · refine ⟨hr, ?_⟩
    dsimp only at h
    rw [if_pos hr] at h
    exact h
  · dsimp only at h
    rw [if_neg hr] at h
    exact absurd h hn

/-! ## When samples outrun the cut -/

/-- Samples of which the last is the first to carry P past the limit, all counting down. -/
structure Lane.Reaches (now : Time) (ln : Lane) (earlier : List (Bool × Bool)) (last : Bool × Bool) : Prop where
  within : ∀ pre post, earlier = pre ++ post → pre ≠ [] → ¬(pre.foldl (Lane.sunk now) ln).Past
  down : ∀ pre x post, earlier ++ [last] = pre ++ x :: post →
    x = ((pre.foldl (Lane.sunk now) ln).tb.phases.2, !(pre.foldl (Lane.sunk now) ln).tb.phases.1)
  past : ((earlier ++ [last]).foldl (Lane.sunk now) ln).Past

theorem fallsPast_iff (now : Time) (xs : List (Bool × Bool)) (ln : Lane) : ln.fallsPast now xs = true ↔
    ∃ earlier last post, xs = earlier ++ last :: post ∧ ln.Reaches now earlier last := by
  induction xs generalizing ln with
  | nil => simp [Lane.fallsPast]
  | cons x xs ih =>
    simp only [Lane.fallsPast, Bool.and_eq_true, beq_iff_eq, Bool.or_eq_true, fallen_eq, limitPassed_iff,
      decodePhases_down, ih]
    constructor
    · rintro ⟨hd, hp | ⟨earlier, last, post, rfl, h⟩⟩
      · refine ⟨[], x, xs, rfl, ⟨fun pre post e hn => ?_, fun pre y post e => ?_, hp⟩⟩
        · exact absurd (List.append_eq_nil_iff.mp e.symm).1 hn
        · cases pre with
          | nil => simp_all
          | cons _ _ => simp at e
      · by_cases hp : (ln.sunk now x).Past
        · refine ⟨[], x, _, rfl, ⟨fun pre post e hn => ?_, fun pre y post e => ?_, hp⟩⟩
          · exact absurd (List.append_eq_nil_iff.mp e.symm).1 hn
          · cases pre with
            | nil => simp_all
            | cons _ _ => simp at e
        · refine ⟨x :: earlier, last, post, rfl, ⟨fun pre post e hn => ?_, fun pre y post e => ?_, h.past⟩⟩
          · cases pre with
            | nil => exact absurd rfl hn
            | cons z pre =>
              obtain ⟨rfl, e'⟩ := List.cons_eq_cons.mp e
              cases pre with
              | nil => exact hp
              | cons w pre => exact h.within (w :: pre) post e' (by simp)
          · cases pre with
            | nil =>
              obtain ⟨rfl, _⟩ := List.cons_eq_cons.mp e
              exact hd
            | cons z pre =>
              obtain ⟨rfl, e'⟩ := List.cons_eq_cons.mp e
              exact h.down pre y post e'
    · rintro ⟨earlier, last, post, e, h⟩
      cases earlier with
      | nil =>
        obtain ⟨rfl, rfl⟩ := List.cons_eq_cons.mp e
        exact ⟨h.down [] x [] rfl, .inl h.past⟩
      | cons z earlier =>
        obtain ⟨rfl, rfl⟩ := List.cons_eq_cons.mp e
        refine ⟨h.down [] x _ rfl, .inr ⟨earlier, last, post, rfl, ⟨fun pre q e hn => ?_, fun pre y q e => ?_,
          h.past⟩⟩⟩
        · exact h.within (x :: pre) q (by rw [e]; rfl) (by simp)
        · exact h.down (x :: pre) y q (by rw [List.cons_append, e]; rfl)

theorem completing_toNominal {ln : Lane} (hs : ln.tb.source = .encoder) :
    ln.completing = none ↔ ln.tb.pendingSwitch ≠ some .toNominal := by
  unfold Lane.completing
  rw [hs]
  rcases ln.tb.pendingSwitch with _ | w
  · simp
  · cases w <;> simp

/-- The test for samples that outrun the cut says what `Lane.Outruns` says. -/
theorem outrunBy_iff (now : Time) (xs : List (Bool × Bool)) (ln : Lane) : ln.outrunBy now xs = true ↔
    ∃ earlier last post, xs = earlier ++ last :: post ∧ ln.Outruns now earlier last := by
  unfold Lane.outrunBy
  simp only [Bool.and_eq_true, beq_iff_eq, Bool.not_eq_true', fallsPast_iff, Option.isNone_iff_eq_none]
  have hl : ln.limitPassed = false ↔ ¬ln.Past := by rw [← limitPassed_iff]; simp
  rw [hl, firing_iff]
  constructor
  · rintro ⟨⟨⟨⟨⟨ha, hs⟩, hc⟩, hf⟩, hp⟩, earlier, last, post, e, h⟩
    refine ⟨earlier, last, post, e, ha, hs, (completing_toNominal hs).mp hc, hf, fun pre q e => ?_, h.down, h.past⟩
    by_cases hn : pre = []
    · rw [hn]
      exact hp
    · exact h.within pre q e hn
  · rintro ⟨earlier, last, post, e, h⟩
    exact ⟨⟨⟨⟨⟨h.active, h.source⟩, (completing_toNominal h.source).mpr h.noSwitch⟩, h.firing⟩,
      h.within [] earlier rfl⟩, earlier, last, post, e, fun pre q e _ => h.within pre q e, h.down, h.past⟩

/-- Samples followed by others outrun the cut only with some of these, or by themselves. -/
theorem Lane.Outruns.beyond {now : Time} {ln : Lane} {xs ys earlier post : List (Bool × Bool)} {last : Bool × Bool}
    (h : ln.Outruns now earlier last) (e : xs ++ ys = earlier ++ last :: post) (hn : ln.outrunBy now xs = false) :
    ∃ mid, earlier = xs ++ mid ∧ ys = mid ++ last :: post := by
  by_cases hlt : earlier.length < xs.length
  · exfalso
    have hx : xs = earlier ++ last :: (xs.drop (earlier.length + 1)) := by
      have h1 : (earlier ++ last :: post).take xs.length = xs := by rw [← e]; simp
      have h2 : (earlier ++ last :: post).take xs.length =
          earlier ++ last :: post.take (xs.length - earlier.length - 1) := by
        rw [List.take_append]
        rw [List.take_of_length_le (by omega)]
        obtain ⟨k, hk⟩ : ∃ k, xs.length - earlier.length = k + 1 := ⟨xs.length - earlier.length - 1, by omega⟩
        rw [hk]
        simp
      rw [← h1, h2]
      simp
    rw [(outrunBy_iff now xs ln).mpr ⟨earlier, last, _, hx, h⟩] at hn
    cases hn
  · refine ⟨earlier.drop xs.length, ?_, ?_⟩
    · have h1 : (earlier ++ last :: post).take xs.length = xs := by rw [← e]; simp
      rw [List.take_append_of_le_length (by omega)] at h1
      conv_lhs => rw [← List.take_append_drop xs.length earlier, h1]
    · have h1 : (xs ++ ys).drop xs.length = ys := by simp
      rw [e, List.drop_append_of_le_length (by omega)] at h1
      exact h1.symm

/-! ## The samples at the front of the queue -/

theorem samplesNext_front (l : LaneId) (cs : List Instr) :
    ∃ rest, cs = sampleCommands l (samplesNext l cs) ++ rest := by
  induction cs with
  | nil => exact ⟨[], rfl⟩
  | cons c cs ih =>
    unfold samplesNext
    split
    · rename_i k a b rest' heq
      obtain ⟨rfl, rfl⟩ := List.cons_eq_cons.mp heq
      split
      · rename_i hk
        obtain ⟨rest, hr⟩ := ih
        refine ⟨rest, ?_⟩
        conv_lhs => rw [hr]
        subst hk
        rfl
      · exact ⟨_, rfl⟩
    · exact ⟨_, rfl⟩

theorem samplesNext_append (l : LaneId) (xs : List (Bool × Bool)) (rest : List Instr) :
    samplesNext l (sampleCommands l xs ++ rest) = xs ++ samplesNext l rest := by
  induction xs with
  | nil => rfl
  | cons x xs ih =>
    show samplesNext l (.encoderPhaseChange l x.1 x.2 :: (sampleCommands l xs ++ rest)) = _
    rw [samplesNext, if_pos rfl, ih]
    rfl

/-- The samples at the front of the queue outrun the cut together with the ones given, which do not do so by
themselves. -/
theorem outrunAhead_iff (s : State) (l : LaneId) (xs : List (Bool × Bool))
    (hn : s.lanes[l].outrunBy s.lineTime xs = false) :
    s.OutrunAhead l xs ↔ s.lanes[l].outrunBy s.lineTime (xs ++ samplesNext l s.pending) = true := by
  rw [outrunBy_iff]
  constructor
  · rintro ⟨earlier, last, rest, e, h⟩
    refine ⟨xs ++ earlier, last, samplesNext l rest, ?_, h⟩
    rw [e, samplesNext_append]
    simp
  · rintro ⟨earlier, last, post, e, h⟩
    obtain ⟨mid, rfl, hy⟩ := h.beyond e hn
    obtain ⟨rest, hr⟩ := samplesNext_front l s.pending
    refine ⟨mid, last, sampleCommands l post ++ rest, ?_, h⟩
    rw [hr, hy]
    simp [sampleCommands]

/-! ## ENCODER_PHASE_CHANGE -/

/-- A sample that is held back: the state gains it, and those that follow it outrun the cut. -/
theorem holdsBack_ahead {s : State} {l : LaneId} {x : Bool × Bool} (h : s.holdsBack l x = true) :
    s.lanes[l].outrunBy s.lineTime (s.held[l] ++ [x]) = false ∧ s.OutrunAhead l (s.held[l] ++ [x]) := by
  unfold State.holdsBack at h
  simp only [Bool.and_eq_true, Bool.not_eq_true'] at h
  exact ⟨h.1.1, (outrunAhead_iff s l _ h.1.1).mpr h.1.2⟩

/-- The samples that a sample takes with it. -/
theorem earlier_cases (s : State) (l : LaneId) (x : Bool × Bool) :
    (s.lanes[l].Outruns s.lineTime s.held[l] x → s.earlier l x = s.held[l]) ∧
    (¬s.lanes[l].Outruns s.lineTime s.held[l] x → s.earlier l x = []) := by
  unfold State.earlier
  constructor
  · intro h
    have h1 : s.lanes[l].outrunBy s.lineTime (s.held[l] ++ [x]) = true :=
      (outrunBy_iff _ _ _).mpr ⟨s.held[l], x, [], rfl, h⟩
    have h2 : s.lanes[l].outrunBy s.lineTime s.held[l] = false := by
      by_contra hc
      obtain ⟨e, y, p, he, k⟩ := (outrunBy_iff _ _ _).mp (by simpa using hc)
      exact h.within (e ++ [y]) p (he.trans (by simp)) k.past
    rw [h1, h2]
    rfl
  · intro h
    split
    · rename_i hc
      simp only [Bool.and_eq_true, Bool.not_eq_true'] at hc
      obtain ⟨e, y, p, he, k⟩ := (outrunBy_iff _ _ _).mp hc.1
      obtain ⟨mid, hm, hy⟩ := k.beyond he hc.2
      obtain ⟨rfl, rfl, rfl⟩ : mid = [] ∧ y = x ∧ p = [] := by
        cases mid with
        | nil => simpa [eq_comm] using hy
        | cons z mid => simp at hy
      rw [List.append_nil] at hm
      rw [hm] at k
      exact absurd k h
    · rfl

end Sys2Proof.Machine
end

