-- ==== Sys2Proof/Laws/Backs.lean ====
section
/-! SUPPORT. What a step of P down traces and closes (R32, R33, R96, R105, R108, R112, R122, R167). -/

namespace Sys2Proof.Machine

/-! ## Columns closed by one act after another -/

/-- An act that opens no column after acts that opened none: together they close what they close. -/
theorem Lane.Closes.trans {now : Time} {a b c : Lane} (h : a.Closes now b) (k : b.Closes now c)
    (hc : b.cfg.stations = a.cfg.stations) (hb : ∀ st, b.openSet st = a.openSet st ∨ b.openSet st = 0)
    (hd : ∀ st, c.openSet st = b.openSet st ∨ c.openSet st = 0) : a.Closes now c := by
  refine ⟨fun st col => ?_, fun st => (k.port st).trans (h.port st), fun st => (k.history st).trans (h.history st)⟩
  rw [k.rest st col, h.rest st col, hc]
  rcases hb st with e | e <;> rcases hd st with f | f <;> rw [f, e] <;> simp

/-- An act that leaves stations and parcels alone closes nothing. -/
theorem Lane.Closes.still {now : Time} {a b : Lane} (hs : b.stations = a.stations) (hq : b.queue = a.queue) :
    a.Closes now b := by
  refine ⟨fun st col => ?_, fun st => by rw [hs], fun st => by rw [hs]⟩
  rw [hs, openSet_congr hq]
  cases (a.openSet st).getLsbD col.val <;> simp

/-! ## The entries of a step: those of parcels in queue order, then the LOST entry of a flush -/

/-- The entry that names no parcel, if the effect is one. -/
def Effect.looseDraft? : Effect → Option TraceDraft
  | .trace d => if d.lead.isSome then none else some d
  | .event _ => none

theorem looseDrafts_events (es : List Event) : (es.map Effect.event).filterMap Effect.looseDraft? = [] := by
  rw [List.filterMap_eq_nil_iff]
  intro x hx
  obtain ⟨e, _, rfl⟩ := List.mem_map.mp hx
  rfl

theorem Effects.OfParcels.loose {es : List Effect} (h : Effects.OfParcels es) :
    es.filterMap Effect.looseDraft? = [] := by
  rw [List.filterMap_eq_nil_iff]
  intro x hx
  cases x with
  | event _ => rfl
  | trace d => simp [Effect.looseDraft?, h d hx]

/-- The entries of a step whose parcel drafts stand in queue order. -/
theorem entriesOf_parts (l : LaneId) (now : Time) {es : List Effect} {ds ls : List TraceDraft}
    (h : es.filterMap Effect.parcelDraft? = ds) (hl : es.filterMap Effect.looseDraft? = ls)
    (hs : ds.Pairwise fun a b => a.before b = true) :
    entriesOf l now (inQueueOrder es) = ds.map (·.entry l now false) ++ ls.map (·.entry l now false) := by
  rw [inQueueOrder_sorted (by rw [h]; exact hs), h, ← hl]
  unfold entriesOf
  rw [List.filterMap_append, List.filterMap_map, ← List.filterMap_eq_map]
  congr 1
  rw [List.filterMap_filter, List.filterMap_filterMap]
  refine List.filterMap_congr fun x _ => ?_
  cases x with
  | event _ => rfl
  | trace d => cases hd : d.lead <;> simp [Effect.parcelDraft?, Effect.looseDraft?, hd]

/-- A halt makes one entry, the LOST entry of its flush (R121, R122). -/
theorem halt_drafts (cause : HaltCause) (env : LaneEnv) (ln : Lane) (ha : ln.active = true) :
    (halt cause env ln).effects.filterMap Effect.parcelDraft? = [] ∧
    (halt cause env ln).effects.filterMap Effect.looseDraft? =
      [lostDraft (halt cause env ln).lane.lots.filling.id ln.queue.length] := by
  have e : halt cause env ln = (flush env { ln with state := .halted, haltCause := cause }).andThen fun x =>
      ⟨x, [.event (.laneState env.id .halted cause.stateCause)]⟩ := by
    unfold halt
    rw [if_pos ha]
  obtain ⟨es, he⟩ := (flush_flushes env { ln with state := .halted, haltCause := cause }).2.2
  rw [e]
  show List.filterMap _ (_ ++ _) = _ ∧ List.filterMap _ (_ ++ _) = _
  rw [he]
  simp only [List.filterMap_append, parcelDrafts_events, looseDrafts_events]
  exact ⟨rfl, rfl⟩

theorem completeSwitch_events (env : LaneEnv) (ln : Lane) :
    ∃ es : List Event, (completeSwitch env ln).effects = es.map .event := by
  unfold completeSwitch
  split
  · exact ⟨[], rfl⟩
  · exact ⟨[_], rfl⟩

/-! ## How far a step of P down has come -/

/-- The parcels of a lane that do not fire. -/
def Lane.kept (ln : Lane) : List Parcel := ln.queue.filter fun p => !p.isFiring

/-- The entries of the cut of a lane. -/
def Lane.cutDrafts (ln : Lane) : List TraceDraft := ln.queue.flatMap (·.endDrafts .cutReverse)

theorem cutDrafts_kept {q : List Parcel} (h : ∀ p ∈ q, p.isFiring = false) :
    q.flatMap (·.endDrafts .cutReverse) = [] := by
  rw [List.flatMap_eq_nil_iff]
  intro p hp
  have := h p hp
  unfold Parcel.endDrafts
  cases he : p.phase <;> simp_all [Parcel.isFiring]

/-- The lane, and the entries so far: no cut yet; cut; halted without a cut; cut and then halted. -/
inductive LaneOut.Entered (ln : Lane) (o : LaneOut) : Prop where
  | untouched (state : o.lane.state ≠ .halted) (queue : o.lane.queue = ln.queue)
      (parcels : o.effects.filterMap Effect.parcelDraft? = [])
      (loose : o.effects.filterMap Effect.looseDraft? = [])
  | cut (state : o.lane.state ≠ .halted) (queue : o.lane.queue = ln.kept)
      (parcels : o.effects.filterMap Effect.parcelDraft? = ln.cutDrafts)
      (loose : o.effects.filterMap Effect.looseDraft? = [])
  | lost (state : o.lane.state = .halted) (queue : o.lane.queue = [])
      (parcels : o.effects.filterMap Effect.parcelDraft? = [])
      (loose : o.effects.filterMap Effect.looseDraft? = [lostDraft o.lane.lots.filling.id ln.queue.length])
  | cutLost (state : o.lane.state = .halted) (queue : o.lane.queue = [])
      (parcels : o.effects.filterMap Effect.parcelDraft? = ln.cutDrafts)
      (loose : o.effects.filterMap Effect.looseDraft? = [lostDraft o.lane.lots.filling.id ln.kept.length])

/-- A lane on the way of a step of P down of `ln`, within a step from `before`. -/
structure LaneOut.OnWay (now : Time) (before ln : Lane) (o : LaneOut) : Prop where
  closes : before.Closes now o.lane
  configs : o.lane.cfg.stations = before.cfg.stations
  shut : ∀ st, o.lane.openSet st = before.openSet st ∨ o.lane.openSet st = 0
  entered : (ln.queue.map (·.serial)).Nodup → o.Entered ln

/-- An act that raises events alone and leaves the parcels, the lots and whether the lane is HALTED. -/
theorem LaneOut.OnWay.plain {now : Time} {before ln : Lane} {o : LaneOut} {f : Lane → LaneOut}
    (h : o.OnWay now before ln) (he : ∃ es : List Event, (f o.lane).effects = es.map .event)
    (hq : (f o.lane).lane.queue = o.lane.queue) (hs : (f o.lane).lane.stations = o.lane.stations)
    (hc : (f o.lane).lane.cfg.stations = o.lane.cfg.stations) (hl : (f o.lane).lane.lots = o.lane.lots)
    (hst : (f o.lane).lane.state = .halted ↔ o.lane.state = .halted) : (o.andThen f).OnWay now before ln := by
  obtain ⟨es, he⟩ := he
  have hp : (o.andThen f).effects.filterMap Effect.parcelDraft? = o.effects.filterMap Effect.parcelDraft? := by
    show List.filterMap _ (_ ++ _) = _
    rw [he, List.filterMap_append, parcelDrafts_events, List.append_nil]
  have hk : (o.andThen f).effects.filterMap Effect.looseDraft? = o.effects.filterMap Effect.looseDraft? := by
    show List.filterMap _ (_ ++ _) = _
    rw [he, List.filterMap_append, looseDrafts_events, List.append_nil]
  have hop : ∀ st, (f o.lane).lane.openSet st = o.lane.openSet st := fun st => openSet_congr hq st
  refine ⟨h.closes.trans (.still hs hq) h.configs h.shut fun st => .inl (hop st), hc.trans h.configs,
    fun st => ?_, fun hn => ?_⟩
  · show (f o.lane).lane.openSet st = _ ∨ (f o.lane).lane.openSet st = 0
    rw [hop]
    exact h.shut st
  · rcases h.entered hn with ⟨a, b, c, d⟩ | ⟨a, b, c, d⟩ | ⟨a, b, c, d⟩ | ⟨a, b, c, d⟩
    · exact .untouched (fun x => a (hst.mp x)) (hq.trans b) (hp.trans c) (hk.trans d)
    · exact .cut (fun x => a (hst.mp x)) (hq.trans b) (hp.trans c) (hk.trans d)
    · refine .lost (hst.mpr a) (hq.trans b) (hp.trans c) ?_
      show _ = [lostDraft (f o.lane).lane.lots.filling.id _]
      rw [hl]
      exact hk.trans d
    · refine .cutLost (hst.mpr a) (hq.trans b) (hp.trans c) ?_
      show _ = [lostDraft (f o.lane).lane.lots.filling.id _]
      rw [hl]
      exact hk.trans d

theorem completeSwitch_onWay {env : LaneEnv} {before ln : Lane} {o : LaneOut} (h : o.OnWay env.now before ln) :
    (o.andThen (completeSwitch env)).OnWay env.now before ln := by
  have he := completeSwitch_events env o.lane
  rcases completeSwitch_lane env o.lane with e | ⟨src, lost, e⟩
  · exact h.plain he (by rw [e]) (by rw [e]) (by rw [e]) (by rw [e]) (by rw [e])
  · exact h.plain he (by rw [e]) (by rw [e]) (by rw [e]) (by rw [e]) (by rw [e])

theorem rest_configs (ln : Lane) : ln.rest.cfg.stations = ln.cfg.stations := by
  unfold Lane.rest Lane.takeScale
  split <;> rfl

theorem drainIfEmpty_onWay {env : LaneEnv} {before ln a : Lane} {o : LaneOut} (h : o.OnWay env.now before ln) :
    (o.andThen (drainIfEmpty env a)).OnWay env.now before ln := by
  have he := drainIfEmpty_events env a o.lane
  rcases drainIfEmpty_cases env a o.lane with e | ⟨hd, _, e⟩
  · exact h.plain he (by rw [e]; rfl) (by rw [e]; rfl) (by rw [e]; rfl) (by rw [e]; rfl) (by rw [e]; rfl)
  · have hr := rest_stock { o.lane with state := .stopped }
    have hs := (rest_lane { o.lane with state := .stopped }).2.2.2.2.2.2.1
    have hc := rest_configs { o.lane with state := .stopped }
    refine h.plain he ?_ ?_ ?_ ?_ ?_ <;> rw [e]
    · exact hr.queue
    · exact hr.stations
    · exact hc
    · exact hr.lots
    · show (Lane.rest { o.lane with state := .stopped }).state = .halted ↔ _
      rw [hs, hd]
      simp

theorem cutLane_onWay {env : LaneEnv} {before ln : Lane} {o : LaneOut} (h : o.OnWay env.now before ln) :
    (o.andThen (cutLane env .cutReverse)).OnWay env.now before ln := by
  obtain ⟨h1, h2, h3, h4⟩ := cutLane_cuts env .cutReverse o.lane
  have hb := (cutLane_tame true env .cutReverse o.lane).belt
  have hop : ∀ st, (cutLane env .cutReverse o.lane).lane.openSet st = 0 :=
    openSet_of_noFire (cutLane_noFire env .cutReverse o.lane)
  have happ : ∀ g : Effect → Option TraceDraft, (o.andThen (cutLane env .cutReverse)).effects.filterMap g =
      o.effects.filterMap g ++ (cutLane env .cutReverse o.lane).effects.filterMap g :=
    fun g => List.filterMap_append
  have hk : (o.andThen (cutLane env .cutReverse)).effects.filterMap Effect.looseDraft? =
      o.effects.filterMap Effect.looseDraft? := by
    rw [happ, h3.loose, List.append_nil]
  refine ⟨h.closes.trans (cutLane_closes env .cutReverse o.lane) h.configs h.shut fun st => .inr (hop st),
    (congrArg LaneConfig.stations hb.cfg).trans h.configs, fun st => .inr (hop st), fun hn => ?_⟩
  have hkept : ∀ p ∈ ln.kept, p.isFiring = false := fun p hp => by
    have := (List.mem_filter.mp hp).2
    simpa using this
  have hs : (o.andThen (cutLane env .cutReverse)).lane.state = o.lane.state := hb.state
  have hlots : o.lane.queue = [] → (cutLane env .cutReverse o.lane).lane.lots = o.lane.lots := fun hq => by
    rw [h1, hq]
    rfl
  rcases h.entered hn with ⟨a, b, c, d⟩ | ⟨a, b, c, d⟩ | ⟨a, b, c, d⟩ | ⟨a, b, c, d⟩
  · refine .cut (by rw [hs]; exact a) ((h4 (b ▸ hn)).trans (by rw [b]; rfl)) ?_ (hk.trans d)
    rw [happ, c, h2, b]
    rfl
  · have hn' : (o.lane.queue.map (·.serial)).Nodup := by
      rw [b]
      exact hn.sublist (List.Sublist.map _ List.filter_sublist)
    refine .cut (by rw [hs]; exact a) ((h4 hn').trans ?_) ?_ (hk.trans d)
    · rw [b, List.filter_eq_self.mpr fun p hp => by simp [hkept p hp]]
    · rw [happ, c, h2, b, cutDrafts_kept hkept, List.append_nil]
  · refine .lost (hs.trans a) ((h4 (by rw [b]; exact List.nodup_nil)).trans (by rw [b]; rfl)) ?_ ?_
    · rw [happ, c, h2, b]
      rfl
    · show _ = [lostDraft (cutLane env .cutReverse o.lane).lane.lots.filling.id _]
      rw [hlots b]
      exact hk.trans d
  · refine .cutLost (hs.trans a) ((h4 (by rw [b]; exact List.nodup_nil)).trans (by rw [b]; rfl)) ?_ ?_
    · rw [happ, c, h2, b]
      exact List.append_nil _
    · show _ = [lostDraft (cutLane env .cutReverse o.lane).lane.lots.filling.id _]
      rw [hlots b]
      exact hk.trans d

theorem halt_configs (cause : HaltCause) (env : LaneEnv) (ln : Lane) :
    (halt cause env ln).lane.cfg.stations = ln.cfg.stations := by
  unfold halt
  split
  · have h := (loseAll_sameRun env { ln with state := .halted, haltCause := cause, injection := none }).cfg
    exact (rest_configs _).trans (congrArg LaneConfig.stations h)
  · rfl

theorem halt_onWay {env : LaneEnv} {before ln : Lane} {o : LaneOut} (h : o.OnWay env.now before ln) :
    (o.andThen (halt .reverseLimit env)).OnWay env.now before ln := by
  by_cases ha : o.lane.active = true
  · obtain ⟨k1, _, k3, _⟩ := halt_lane .reverseLimit env o.lane ha
    obtain ⟨d1, d2⟩ := halt_drafts .reverseLimit env o.lane ha
    have hop : ∀ st, (halt .reverseLimit env o.lane).lane.openSet st = 0 :=
      openSet_of_noFire (NoFire_of_empty k3)
    have happ : ∀ g : Effect → Option TraceDraft, (o.andThen (halt .reverseLimit env)).effects.filterMap g =
        o.effects.filterMap g ++ (halt .reverseLimit env o.lane).effects.filterMap g :=
      fun g => List.filterMap_append
    have hnh : o.lane.state ≠ .halted := fun e => by simp [Lane.active, e] at ha
    refine ⟨h.closes.trans (halt_closes .reverseLimit env o.lane ha) h.configs h.shut fun st => .inr (hop st),
      (halt_configs .reverseLimit env o.lane).trans h.configs, fun st => .inr (hop st), fun hn => ?_⟩
    rcases h.entered hn with ⟨a, b, c, d⟩ | ⟨a, b, c, d⟩ | ⟨a, b, c, d⟩ | ⟨a, b, c, d⟩
    · refine .lost k1 k3 (by rw [happ, c, d1]; rfl) ?_
      rw [happ, d, d2, b]
      rfl
    · refine .cutLost k1 k3 (by rw [happ, c, d1, List.append_nil]) ?_
      rw [happ, d, d2, b]
      rfl
    · exact absurd a hnh
    · exact absurd a hnh
  · have : o.andThen (halt .reverseLimit env) = o := by
      have e := halt_rest .reverseLimit env o.lane (by simpa using ha)
      simp only [LaneOut.andThen, e, Lane.quiet, List.append_nil]
    rw [this]
    exact h

/-- A step of P down of a lane that runs or drains: what it closes and sends, and the entries it makes. -/
theorem WorksDone.backs_traced {env : LaneEnv} {before ln : Lane} {p : Pos} {out : LaneOut}
    (h : WorksDone env before (ln.movedTo p ln.tb.pmax) ln.BackDue out) (ha : ln.active = true)
    (hq : ln.queue = before.queue) (hs : ln.stations = before.stations)
    (hc : ln.cfg.stations = before.cfg.stations) :
    before.PortsFollow env.id out.lane ∧ before.ClosedRest env.now out.lane ∧
    ((ln.queue.map (·.serial)).Nodup → ∃ o : LaneOut, o.Entered ln ∧ out.lane.queue = o.lane.queue ∧
      out.lane.state = o.lane.state ∧ out.lane.lots = o.lane.lots ∧ out.effects = inQueueOrder o.effects) := by
  obtain ⟨ws, _, hm, rfl⟩ := h
  set o := runEach (Work.act env) ws (ln.movedTo p ln.tb.pmax) with ho
  have h0 : (ln.movedTo p ln.tb.pmax).quiet.OnWay env.now before ln :=
    ⟨.still hs hq, hc, fun st => .inl (openSet_congr hq st), fun _ => .untouched
      (fun e => by
        have : ln.state = .halted := e
        simp [Lane.active, this] at ha) rfl rfl rfl⟩
  have h1 : o.OnWay env.now before ln := runEach_out_keeps ws (fun w hw x hx => by
    rw [andThen_act]
    refine drainIfEmpty_onWay ?_
    rcases ((hm w).mp hw).kind with rfl | rfl | rfl
    · exact completeSwitch_onWay hx
    · exact cutLane_onWay hx
    · exact halt_onWay hx) h0
  have h2 : (o.andThen (drainIfEmpty env before)).OnWay env.now before ln := drainIfEmpty_onWay h1
  obtain ⟨k1, k2, _⟩ := laneStep_closes (f := fun env _ => runEach (Work.act env) ws (ln.movedTo p ln.tb.pmax))
    (env := env) (ln := before) h1.closes
  exact ⟨k1, k2, fun hn => ⟨_, h2.entered hn, rfl, rfl, rfl, rfl⟩⟩

/-- The entries of a lane on its way reach the trace of the part in their order (R167). -/
theorem LaneOut.Entered.traces {s : State} {l : LaneId} {ln : Lane} {o out : LaneOut} (h : o.Entered ln)
    (he : out.effects = inQueueOrder o.effects) (hl : out.lane.lots = o.lane.lots)
    (hp : ln.queue.Pairwise Parcel.StandsBefore) :
    (out.lane.state = o.lane.state → o.lane.state ≠ .halted → (o.lane.queue = ln.queue → ¬ln.Firing) →
      s.Traces (s.stepped l out) (cutEntries s.lineTime l .cutReverse ln.queue)) ∧
    (o.lane.state = .halted → s.Traces (s.stepped l out) [lostEntry s.lineTime l ln out.lane] ∨
      s.Traces (s.stepped l out) (cutEntries s.lineTime l .cutReverse ln.queue ++
        [lostEntry s.lineTime l { ln with queue := ln.kept } out.lane])) := by
  have hcut : ln.cutDrafts.map (·.entry l s.lineTime false) = cutEntries s.lineTime l .cutReverse ln.queue :=
    endDrafts_map l s.lineTime .cutReverse ln.queue
  have hsort : ln.cutDrafts.Pairwise fun a b => a.before b = true := drafts_pairwise (endDrafts_shape .cutReverse) hp
  have key : ∀ ds ls : List TraceDraft, o.effects.filterMap Effect.parcelDraft? = ds →
      o.effects.filterMap Effect.looseDraft? = ls → ds.Pairwise (fun a b => a.before b = true) →
      s.Traces (s.stepped l out) (ds.map (·.entry l s.lineTime false) ++ ls.map (·.entry l s.lineTime false)) := by
    intro ds ls h1 h2 h3
    have hc := commit_traces l out.effects (s.setLane l out.lane)
    have ht : (s.setLane l out.lane).lineTime = s.lineTime := rfl
    rw [ht, he, entriesOf_parts l s.lineTime h1 h2 h3, ← he] at hc
    exact hc.congr rfl rfl rfl rfl
  rcases h with ⟨a, b, c, d⟩ | ⟨a, b, c, d⟩ | ⟨a, b, c, d⟩ | ⟨a, b, c, d⟩
  · refine ⟨fun _ _ hf => ?_, fun e => absurd e a⟩
    have hnil : ln.cutDrafts = [] := cutDrafts_kept (noFire_of_not_firing (hf b))
    have := key [] [] c d .nil
    rw [← hcut, hnil]
    exact this
  · refine ⟨fun _ _ _ => ?_, fun e => absurd e a⟩
    have := key _ _ c d hsort
    rw [hcut] at this
    simpa using this
  · refine ⟨fun _ e => absurd a e, fun _ => .inl ?_⟩
    have := key _ _ c d .nil
    rw [← hl] at this
    exact this
  · refine ⟨fun _ e => absurd a e, fun _ => .inr ?_⟩
    have := key _ _ c d hsort
    rw [← hl, hcut] at this
    exact this

end Sys2Proof.Machine
end

