-- ==== Sys2Proof/Laws/Checks.lean ====
section
/-! SUPPORT. The geometry checks of R117: what the first check that fails says of the geometry. -/

namespace Sys2Proof.Machine

/-! ## The four checks -/

theorem forall_three {P : Fin 3 → Prop} : (∀ k, P k) ↔ P 0 ∧ P 1 ∧ P 2 := by
  constructor
  · exact fun h => ⟨h 0, h 1, h 2⟩
  · rintro ⟨a, b, c⟩ k
    match k with
    | 0 => exact a
    | 1 => exact b
    | 2 => exact c

theorem exists_three {P : Fin 3 → Prop} : (∃ k, P k) ↔ P 0 ∨ P 1 ∨ P 2 := by
  constructor
  · rintro ⟨k, h⟩
    match k with
    | 0 => exact .inl h
    | 1 => exact .inr (.inl h)
    | 2 => exact .inr (.inr h)
  · rintro (h | h | h)
    · exact ⟨0, h⟩
    · exact ⟨1, h⟩
    · exact ⟨2, h⟩

theorem fails_one (g : Geometry) (reach : Nat) (b : StationId) : g.Fails reach 1 (some b) ↔
    (g.neighbours.find? fun x => g.stationDistance[x.2] ≤ g.stationDistance[x.1]).map (·.2) = some b := by
  obtain ⟨he, ho, en, ds, fs, ex, w, rl⟩ := g
  obtain ⟨x, y, z, rfl⟩ := vector_three en
  obtain ⟨p, q, r, rfl⟩ := vector_three ds
  unfold Geometry.Fails Geometry.Next Geometry.neighbours Geometry.enabled
  simp only [exists_three, forall_three, show List.finRange 3 = [0, 1, 2] from rfl]
  cases x <;> cases y <;> cases z <;> fin_cases b <;> simp [and_comm]

theorem fails_two (g : Geometry) (b : StationId) : g.Fails g.reach 2 (some b) ↔
    (g.enabled.find? fun st => g.stationDistance[st] < g.reach + g.window + 1) = some b := by
  unfold Geometry.Fails
  generalize g.reach = reach
  obtain ⟨he, ho, en, ds, fs, ex, w, rl⟩ := g
  obtain ⟨x, y, z, rfl⟩ := vector_three en
  obtain ⟨p, q, r, rfl⟩ := vector_three ds
  unfold Geometry.enabled
  simp only [forall_three, show List.finRange 3 = [0, 1, 2] from rfl]
  cases x <;> cases y <;> cases z <;> fin_cases b <;> simp [and_comm, and_left_comm]

theorem fails_three (g : Geometry) : g.Fails g.reach 3 none ↔ g.exitDistance < g.leastExit := by
  unfold Geometry.Fails Geometry.leastExit
  generalize g.reach = reach
  obtain ⟨he, ho, en, ds, fs, ex, w, rl⟩ := g
  obtain ⟨x, y, z, rfl⟩ := vector_three en
  obtain ⟨p, q, r, rfl⟩ := vector_three ds
  unfold Geometry.enabled
  simp only [exists_three, forall_three, show List.finRange 3 = [0, 1, 2] from rfl]
  cases x <;> cases y <;> cases z <;> simp

theorem fails_four (g : Geometry) (reach : Nat) (b : StationId) : g.Fails reach 4 (some b) ↔
    (g.pairs.find? fun x => g.stationFraction[x.1] == g.stationFraction[x.2]).map (·.2) = some b := by
  obtain ⟨he, ho, en, ds, fs, ex, w, rl⟩ := g
  obtain ⟨x, y, z, rfl⟩ := vector_three en
  obtain ⟨p, q, r, rfl⟩ := vector_three fs
  unfold Geometry.Fails Geometry.pairs
  simp only [exists_three, forall_three]
  cases x <;> cases y <;> cases z <;> fin_cases b <;> simp
  cases p <;> cases q <;> cases r <;> simp

/-- The checks that name no station fail without one, the others with one. -/
theorem fails_shape {g : Geometry} {reach k : Nat} {st : Option StationId} (h : g.Fails reach k st) :
    (k = 1 ∨ k = 2 ∨ k = 4) ∧ (∃ b, st = some b) ∨ k = 3 ∧ st = none := by
  unfold Geometry.Fails at h
  split at h <;> simp_all

/-- The first check that fails, with the station it names (R117). -/
theorem failedCheck_spec (g : Geometry) :
    (g.PassesTo g.reach 4 → g.failedCheck = none) ∧
    ∀ (k : Nat) (st : Option StationId), g.PassesTo g.reach (k - 1) → g.Fails g.reach k st →
      g.failedCheck = some (k, st) := by
  have e1 := fails_one g g.reach
  have e2 := fails_two g
  have e3 := fails_three g
  have e4 := fails_four g g.reach
  unfold Geometry.failedCheck
  generalize (g.neighbours.find? fun x => g.stationDistance[x.2] ≤ g.stationDistance[x.1]) = f1 at *
  generalize (g.enabled.find? fun st => g.stationDistance[st] < g.reach + g.window + 1) = f2 at *
  generalize (g.pairs.find? fun x => g.stationFraction[x.1] == g.stationFraction[x.2]) = f4 at *
  have p1 : ∀ n, 1 ≤ n → g.PassesTo g.reach n → f1 = none := by
    intro n hn h
    cases f1 with
    | none => rfl
    | some x => exact absurd ((e1 x.2).mpr rfl) (h 1 hn _)
  have p2 : ∀ n, 2 ≤ n → g.PassesTo g.reach n → f2 = none := by
    intro n hn h
    cases f2 with
    | none => rfl
    | some x => exact absurd ((e2 x).mpr rfl) (h 2 hn _)
  have p3 : ∀ n, 3 ≤ n → g.PassesTo g.reach n → ¬g.exitDistance < g.leastExit :=
    fun n hn h hc => h 3 hn _ (e3.mpr hc)
  have p4 : ∀ n, 4 ≤ n → g.PassesTo g.reach n → f4 = none := by
    intro n hn h
    cases f4 with
    | none => rfl
    | some x => exact absurd ((e4 x.2).mpr rfl) (h 4 hn _)
  refine ⟨fun h => ?_, fun k st h hf => ?_⟩
  · rw [p1 4 (by decide) h, p2 4 (by decide) h, p4 4 (by decide) h]
    simp [p3 4 (by decide) h]
  · rcases fails_shape hf with ⟨hk, b, rfl⟩ | ⟨rfl, rfl⟩
    · rcases hk with rfl | rfl | rfl
      · have := (e1 b).mp hf
        cases f1 with
        | none => cases this
        | some x => simpa using this
      · have := (e2 b).mp hf
        subst this
        rw [p1 1 (by decide) h]
      · have := (e4 b).mp hf
        rw [p1 3 (by decide) h, p2 3 (by decide) h]
        simp only [if_neg (p3 3 (by decide) h)]
        cases f4 with
        | none => cases this
        | some x => simpa using this
    · rw [p1 2 (by decide) h, p2 2 (by decide) h]
      simp [e3.mp hf]

/-- The checks pass, or there is a first one that fails. -/
theorem passes_or_fails (g : Geometry) (reach n : Nat) : g.PassesTo reach n ∨
    ∃ (k : Nat) (st : Option StationId), k ≤ n ∧ g.PassesTo reach (k - 1) ∧ g.Fails reach k st := by
  induction n with
  | zero =>
    by_cases h : ∃ st, g.Fails reach 0 st
    · obtain ⟨st, h⟩ := h
      have := fails_shape h
      omega
    · exact .inl fun k hk st hf => h ⟨st, by rwa [Nat.le_zero.mp hk] at hf⟩
  | succ n ih =>
    rcases ih with ih | ⟨k, st, hk, hp, hf⟩
    · by_cases h : ∃ st, g.Fails reach (n + 1) st
      · obtain ⟨st, h⟩ := h
        exact .inr ⟨n + 1, st, le_rfl, ih, h⟩
      · refine .inl fun k hk st hf => ?_
        rcases Nat.lt_or_eq_of_le hk with hk | rfl
        · exact ih k (Nat.lt_succ_iff.mp hk) st hf
        · exact h ⟨st, hf⟩
    · exact .inr ⟨k, st, by omega, hp, hf⟩

theorem failedCheck_none {g : Geometry} (h : g.failedCheck = none) : g.PassesTo g.reach 4 := by
  rcases passes_or_fails g g.reach 4 with hp | ⟨k, st, _, hp, hf⟩
  · exact hp
  · rw [(failedCheck_spec g).2 k st hp hf] at h
    cases h

theorem failedCheck_some {g : Geometry} {k : Nat} {st : Option StationId} (h : g.failedCheck = some (k, st)) :
    g.PassesTo g.reach (k - 1) ∧ g.Fails g.reach k st := by
  rcases passes_or_fails g g.reach 4 with hp | ⟨j, x, _, hp, hf⟩
  · rw [(failedCheck_spec g).1 hp] at h
    cases h
  · rw [(failedCheck_spec g).2 j x hp hf] at h
    cases h
    exact ⟨hp, hf⟩

end Sys2Proof.Machine
end

