-- ==== Sys2Proof/Laws/Held.lean ====
section
/-! SUPPORT. The samples held back (log 19): no command but ENCODER_PHASE_CHANGE holds any, and samples taken
together leave a lane settled and safe. -/

namespace Sys2Proof.Machine

/-! ## What leaves the held samples as they are -/

theorem onLane_held (s : State) (l : LaneId) (f : LaneEnv → Lane → LaneOut) : (s.onLane l f).held = s.held :=
  (onLane_frame s l f).held

theorem stepLane_held (s : State) (l : LaneId) (f : LaneEnv → Lane → LaneOut) : (s.stepLane l f).held = s.held :=
  (stepLane_frame s l f).held

theorem driveEdge_held (s : State) (i : DebouncedId) (b : Bool) : (s.driveEdge i b).held = s.held := by
  unfold State.driveEdge
  split
  · exact onLane_held ..
  · rfl

theorem millEdge_held (s : State) (i : DebouncedId) (b : Bool) : (s.millEdge i b).held = s.held := by
  unfold State.millEdge
  split <;> simp

theorem edgeNotice_held (s : State) (i : LineId) (b : Bool) : (s.edgeNotice i b).held = s.held := by
  unfold State.edgeNotice
  split <;> simp

theorem settleLine_held (s : State) (i : DebouncedId) : (s.settleLine i).held = s.held := by
  unfold State.settleLine State.debouncedEdge
  split
  · dsimp only
    rw [edgeNotice_held, millEdge_held, driveEdge_held]
  · rfl

theorem debounceRaw_held (s : State) (i : DebouncedId) (b : Bool) : (s.debounceRaw i b).held = s.held := by
  unfold State.debounceRaw
  dsimp only
  rw [settleLine_held]

theorem airAction_held (s : State) (i : LineId) (b : Bool) : (s.airAction i b).held = s.held := by
  unfold State.airAction
  split
  · split
    · rfl
    · exact onLane_held ..
  · rfl

theorem foldl_held {α : Type} {f : State → α → State} (h : ∀ s x, (f s x).held = s.held) (xs : List α)
    (s : State) : (xs.foldl f s).held = s.held := by
  induction xs generalizing s with
  | nil => rfl
  | cons x xs ih => exact (ih _).trans (h s x)

theorem plantStopChange_held (s : State) (b : Bool) : (s.plantStopChange b).held = s.held := by
  unfold State.plantStopChange
  rw [edgeNotice_held]
  split
  · unfold State.plantStopAction State.haltAll
    rw [State.raise_held]
    exact foldl_held (fun s l => onLane_held ..) _ s
  · rfl

theorem rawChange_held (s : State) (i : LineId) (b : Bool) : (s.rawChange i b).held = s.held := by
  unfold State.rawChange State.rawAction
  split
  · rfl
  · split
    · split
      · rw [debounceRaw_held, airAction_held, State.setRaw_held]
      · rw [plantStopChange_held, State.setRaw_held]
    · rfl

theorem setLineConfig_held (s : State) (times : Vector Nat 4) (edges : Vector EdgeSelection 26) :
    (s.setLineConfig times edges).held = s.held := by
  unfold State.setLineConfig
  exact foldl_held settleLine_held _ _

/-- A start-up forgets the samples held back. -/
theorem startUp_unheld (s : State) (c : ResetCause) (l : LaneId) : (s.startUp c).held[l] = [] := by
  have h : (s.startUp c).held = (s.afresh c).held := by
    unfold State.startUp State.firstSample State.startEvents
    split <;> split <;> simp [plantStopChange_held]
  rw [h]
  simp [State.afresh]

/-! ## Commands -/

/-- No lane holds samples back. -/
def State.Unheld (s : State) : Prop := ∀ l : LaneId, s.held[l] = []

theorem State.Unheld.of {s t : State} (h : s.Unheld) (e : t.held = s.held) : t.Unheld := fun l => by rw [e]; exact h l

theorem takeRequest_unheld {s : State} {code tag : Byte} {payload : List Byte} {len : Nat} {act : State → State}
    (h : s.Unheld) (ha : ∀ s : State, s.Unheld → (act s).Unheld) :
    (s.takeRequest code len tag payload act).Unheld :=
  takeRequest_keeps h (fun _ => h.of rfl) fun _ _ => ha _ (h.of rfl)

/-- No command but ENCODER_PHASE_CHANGE holds a sample back. -/
theorem exec_unheld {c : Instr} {s t : State} (h : s.Unheld) (hc : ∀ l a b, c ≠ .encoderPhaseChange l a b)
    (ht : exec c s = .next t) : t.Unheld := by
  have key : ∀ x : State, exec c s = .next x → x.Unheld → t.Unheld := by
    intro x hx hu
    rw [ht] at hx
    injection hx with hx
    exact hx ▸ hu
  cases c
  case encoderPhaseChange l a b => exact absurd rfl (hc l a b)
  case powerApplied =>
    refine key _ rfl ?_
    unfold State.powerUp
    repeat' split
    all_goals first | exact startUp_unheld _ _ | exact h.of rfl
  case rstNAsserted =>
    refine key _ rfl ?_
    unfold State.holdReset
    repeat' split
    all_goals exact h.of rfl
  case rstNReleased =>
    refine key _ rfl ?_
    unfold State.releaseReset
    repeat' split
    all_goals first | exact startUp_unheld _ _ | exact h.of rfl
  case frameSent =>
    refine key _ rfl ?_
    unfold State.frameGone
    repeat' split
    all_goals first | exact startUp_unheld _ _ | exact h.of rfl
  case rawLineChange => exact key _ rfl (h.of (rawChange_held ..))
  case rawAirOkChange => exact key _ rfl (h.of (rawChange_held ..))
  case rawPlantStopAsserted => exact key _ rfl (h.of (rawChange_held ..))
  case rawPlantStopReleased => exact key _ rfl (h.of (rawChange_held ..))
  case debounceExpiry =>
    refine key _ rfl (h.of ?_)
    unfold State.debounceExpires
    split
    · exact settleLine_held ..
    · rfl
  case statusDue =>
    refine key _ rfl (h.of ?_)
    unfold State.sendStatus
    split <;> simp
  case unknownRequest =>
    refine key _ rfl (h.of ?_)
    unfold State.takeUnknown
    split <;> rfl
  case saveWriteEnd =>
    refine key _ rfl (h.of ?_)
    unfold State.endSave
    split <;> simp
  case sensorFrameRejected =>
    refine key _ rfl (h.of ?_)
    unfold State.sensorBytes
    split
    · exact stepLane_held ..
    · rfl
  case headIdle =>
    refine key _ rfl (h.of ?_)
    unfold State.sensorBytes
    split
    · exact stepLane_held ..
    · rfl
  case detection =>
    refine key _ rfl (h.of ?_)
    unfold State.sensorBytes
    split
    · exact stepLane_held ..
    · rfl
  case plantLinkFrame | plantLinkGapTimeout | sensorLinkGapTimeout | nominalCount | valveBarFrameSent |
      settlePeriodEnd | encoderMonitorExpiry | maxOpenTimeExpiry | lotTimeAccrual | powerLost | partBeginsToWork =>
    refine key _ rfl (h.of ?_)
    repeat' split
    all_goals first | rfl | exact stepLane_held ..
  all_goals
    refine key _ rfl (takeRequest_unheld h fun s h => h.of ?_)
    simp only [identify, resetDevice, saveSettings, getLinkStatus, getLaneStatus, setLaneGeometry, getLaneGeometry,
      setTimebase, setScale, switchSource, abortSwitch, startLane, stopLane, clearHaltOf, resetLaneOf,
      setClassEntry, getClassEntry, setProfile, getProfile, setStation, enableStation, disableStationOf,
      getStationStatus, closeLot, setLotLimit, getLotProgress, getLotResult, injectStart, injectStop,
      setLineConfig, getLines, setChutePolicy, setBusyEnables, setHostHold, releaseMillTrip, readTrace,
      clearTrace, getEvents, clearEvents, setNotices, setStatusPeriod]
    repeat' split
    all_goals with_reducible first
      | exact State.ok_held ..
      | exact State.refuse_held ..
      | exact (stepLane_held ..).trans (State.ok_held ..)
      | exact (State.editLane_held ..).trans (State.ok_held ..)
      | exact (State.withDevice_held ..).trans (State.ok_held ..)
      | exact (State.withLink_held ..).trans (State.ok_held ..)
      | exact (setLineConfig_held ..).trans (State.ok_held ..)
      | skip
  case saveSettings.isFalse => rfl
  case clearEvents.isTrue => rfl
  all_goals with_reducible exact State.answer_held s _ _ _ _

/-! ## Samples taken together -/

theorem sunk_orderly (now : Time) {ln : Lane} (x : Bool × Bool) (ha : ln.active = true) (h : ln.orderly) :
    (ln.sunk now x).orderly := by
  have hs := sunk_sunk now ln x
  refine ⟨fun hr => ?_, fun hc => ?_, ?_⟩
  · have := h.1 (hs.state ▸ hr)
    exact ⟨hs.injection.trans this.1, hs.noSwitch.mpr this.2⟩
  · simp only [Lane.active, hs.state] at hc
    simp only [Lane.active] at ha
    rw [ha] at hc
    cases hc
  · rw [hs.geometry]
    exact h.2.2

theorem foldl_orderly (now : Time) (xs : List (Bool × Bool)) {ln : Lane} (ha : ln.active = true)
    (h : ln.orderly) : (xs.foldl (Lane.sunk now) ln).orderly ∧ (xs.foldl (Lane.sunk now) ln).active = true := by
  induction xs generalizing ln with
  | nil => exact ⟨h, ha⟩
  | cons x xs ih =>
    refine ih ?_ (sunk_orderly now x ha h)
    simp only [Lane.active, (sunk_sunk now ln x).state]
    exact ha

/-- Samples taken together leave a lane settled, and safe: the last of samples that outrun the cut steps P past
the limit, and takes the cut and the halt (R33). -/
theorem phaseSamples_good {earlier : List (Bool × Bool)} {a b : Bool} {env : LaneEnv} {ln : Lane}
    (hg : ln.Good env.airOk) (h : ln.Outruns env.now earlier (a, b) ∨ earlier = []) :
    (phaseSamples earlier a b env ln).lane.Good env.airOk := by
  rcases h with h | rfl
  · unfold phaseSamples
    rw [foldl_fallen]
    obtain ⟨ho, ha⟩ := foldl_orderly env.now earlier h.active ((settled_iff ln).mp hg.1).1
    have hs := foldl_sunk env.now earlier ln
    have hd := h.down earlier (a, b) [] rfl
    have hp := h.past
    rw [List.foldl_append] at hp
    have hst := Lane.Past.steps (x := (a, b)) hp (h.within earlier [] (List.append_nil _).symm)
    generalize earlier.foldl (Lane.sunk env.now) ln = x at *
    have h1 : a = x.tb.phases.2 := congrArg Prod.fst hd
    have h2 : b = !x.tb.phases.1 := congrArg Prod.snd hd
    rw [h1, h2, phaseSample_down, if_pos ⟨hs.source.trans h.source, hst.1⟩]
    have hc := countedDown_sunk x (x.tb.phases.2, !x.tb.phases.1) env.now
    refine stepBackward_orderly env ha ⟨fun hr => ?_, fun hc' => ?_, ?_⟩
    · have := ho.1 hr
      exact ⟨hc.injection.trans this.1, hc.noSwitch.mpr this.2⟩
    · have : x.active = false := hc'
      rw [ha] at this
      cases this
    · rw [hc.geometry]
      exact ho.2.2
  · exact phaseSample_good hg

/-- A sample that is not held back leaves its lane holding none. -/
theorem sampleTaken_cases (s : State) (l : LaneId) (a b : Bool) :
    (s.sampleTaken l a b).held = s.held.set l [] ∨
    (s.sampleTaken l a b = s.holding l (s.held[l] ++ [(a, b)]) ∧ s.OutrunAhead l (s.held[l] ++ [(a, b)])) := by
  unfold State.sampleTaken
  split
  · rename_i h
    exact .inr ⟨rfl, (holdsBack_ahead h).2⟩
  · exact .inl (stepLane_held ..)

theorem heldSet_self (v : Vector (List (Bool × Bool)) 4) (l : LaneId) (x : List (Bool × Bool)) :
    (v.set l x)[l] = x := by simp

theorem heldSet_other (v : Vector (List (Bool × Bool)) 4) {l k : LaneId} (x : List (Bool × Bool)) (h : k ≠ l) :
    (v.set l x)[k] = v[k] := by simp [show ¬(l.val = k.val) from fun e => h (Fin.ext e.symm)]

/-- A sample keeps every list within its bound. -/
theorem sampleTaken_bounded {s : State} (h : s.bounded) (l : LaneId) (a b : Bool) :
    (s.sampleTaken l a b).bounded := by
  unfold State.sampleTaken
  split
  · exact ⟨h.1, h.2.1, h.2.2⟩
  · have h' : (s.holding l []).bounded := ⟨h.1, h.2.1, h.2.2⟩
    exact onLane_bounded h' (laneStep_bounded (phaseSamples_bounded (h'.2.2 l)))

/-- Lanes that hold samples back while those that follow stand at the front of the queue: the next command is a
sample of that lane, and no other lane holds any. -/
theorem outrunAhead_front {s : State} {l : LaneId} {c : Instr} {rest : List Instr} (hp : s.pending = c :: rest)
    {xs : List (Bool × Bool)} (h : s.OutrunAhead l xs) : ∃ a b, c = .encoderPhaseChange l a b := by
  obtain ⟨e, x, r, hq, _⟩ := h
  rw [hp] at hq
  cases e with
  | nil => exact ⟨x.1, x.2, (List.cons_eq_cons.mp hq).1⟩
  | cons y e => exact ⟨y.1, y.2, (List.cons_eq_cons.mp hq).1⟩

theorem sampleCommands_lane {l k : LaneId} {a b : Bool} {xs : List (Bool × Bool)} {rest cs : List Instr}
    (h : sampleCommands l xs ++ rest = .encoderPhaseChange k a b :: cs) (hn : xs ≠ []) : k = l := by
  cases xs with
  | nil => exact absurd rfl hn
  | cons x xs =>
    have := (List.cons_eq_cons.mp h).1
    injection this with h1
    exact h1.symm

end Sys2Proof.Machine
end

