-- ==== Sys2Proof/Laws/Watch.lean ====
section
/-! SUPPORT. The encoder monitor and the scale of a lane around a step of it (R28, R34, R47), and the drain that
a step completes (R120). -/

namespace Sys2Proof.Machine

/-! ## The scale (R28, R47) -/

theorem Lane.ScaleKept.refl (a : Lane) : a.ScaleKept a := ⟨rfl, rfl, rfl⟩

theorem Lane.ScaleKept.trans {a b c : Lane} (h : a.ScaleKept b) (k : b.ScaleKept c) : a.ScaleKept c :=
  ⟨k.1.trans h.1, k.2.1.trans h.2.1, k.2.2.trans h.2.2⟩

theorem Lane.ScaleTaken.after {a b c : Lane} (h : a.ScaleKept b) (k : b.ScaleTaken c) : a.ScaleTaken c := by
  unfold Lane.ScaleTaken at *
  rw [h.1, h.2.1, h.2.2] at k
  exact k

theorem Lane.ScaleTaken.keep {a b c : Lane} (h : a.ScaleTaken b) (k : b.ScaleKept c) : a.ScaleTaken c :=
  ⟨k.1.trans h.1, k.2.1.trans h.2.1, k.2.2.trans h.2.2⟩

/-- With no scale pending, taking one leaves the scale as it is. -/
theorem Lane.ScaleTaken.kept {a b : Lane} (h : a.ScaleTaken b) (hn : a.tb.pendingScale = none) :
    a.ScaleKept b := by
  obtain ⟨h1, h2, h3⟩ := h
  rw [hn] at h2 h3
  exact ⟨h1.trans hn.symm, h2, h3⟩

/-- A scale taken twice is taken once. -/
theorem Lane.ScaleTaken.trans {a b c : Lane} (h : a.ScaleTaken b) (k : b.ScaleTaken c) : a.ScaleTaken c :=
  h.keep (k.kept h.1)

theorem Lane.SameBelt.scale {a b : Lane} (h : a.SameBelt b) : a.ScaleKept b :=
  ⟨by rw [h.tb], by rw [h.cfg], by rw [h.tb]⟩

theorem Lane.SameRun.scale {a b : Lane} (h : a.SameRun b) : a.ScaleKept b :=
  ⟨by rw [h.tb], by rw [h.cfg], by rw [h.tb]⟩

/-- Coming to rest brings a pending scale into force and leaves the rest of the timebase but Pmax (R28, R31). -/
theorem rest_scale (ln : Lane) : ln.ScaleTaken ln.rest ∧ ln.TimebaseKept ln.rest ∧
    ln.rest.tb.monitor = ln.tb.monitor ∧ ln.rest.tb.source = ln.tb.source ∧
    ln.rest.tb.encoderLost = ln.tb.encoderLost := by
  unfold Lane.rest Lane.takeScale
  split
  · rename_i h
    have h' : ln.tb.pendingScale = none := h
    refine ⟨⟨h', ?_, ?_⟩, ⟨rfl, rfl, rfl, rfl, rfl, rfl⟩, rfl, rfl, rfl⟩
    · rw [h']; rfl
    · rw [h']; rfl
  · rename_i k h
    have h' : ln.tb.pendingScale = some k := h
    refine ⟨⟨rfl, ?_, ?_⟩, ⟨rfl, rfl, rfl, rfl, rfl, rfl⟩, rfl, rfl, rfl⟩
    · rw [h']; rfl
    · rw [h']; rfl

/-- A flush brings a pending scale into force and leaves the rest of the timebase but Pmax and the switch
(R47, R122). -/
theorem flush_scale (env : LaneEnv) (ln : Lane) : ln.ScaleTaken (flush env ln).lane ∧
    ln.TimebaseKept (flush env ln).lane ∧ (flush env ln).lane.tb.monitor = ln.tb.monitor ∧
    (flush env ln).lane.tb.source = ln.tb.source ∧
    (flush env ln).lane.tb.encoderLost = ln.tb.encoderLost := by
  have hs := loseAll_sameRun env { ln with injection := none }
  obtain ⟨h1, h2, h3, h4, h5⟩ := rest_scale (Lane.dropSwitch
    { loseAll env { ln with injection := none } with
      lots := ((loseAll env { ln with injection := none }).lots.settle env.id env.now).unit })
  have ht : (loseAll env { ln with injection := none }).tb = ln.tb := hs.tb
  have hc : (loseAll env { ln with injection := none }).cfg = ln.cfg := hs.cfg
  have tbOf : ∀ {α : Type} (f : Timebase → α), f (loseAll env { ln with injection := none }).tb = f ln.tb :=
    fun f => congrArg f ht
  have cfgOf : ∀ {α : Type} (f : LaneConfig → α), f (loseAll env { ln with injection := none }).cfg = f ln.cfg :=
    fun f => congrArg f hc
  exact ⟨.after ⟨tbOf Timebase.pendingScale, cfgOf LaneConfig.scale, tbOf Timebase.residue⟩ h1,
    ⟨h2.setup.trans (cfgOf LaneConfig.setup), h2.rate.trans (cfgOf LaneConfig.rate),
      h2.pendingRate.trans (tbOf Timebase.pendingRate),
      h2.accumulator.trans (tbOf Timebase.accumulator), h2.phases.trans (tbOf Timebase.phases),
      h2.phaseErrors.trans (tbOf Timebase.phaseErrors)⟩,
    h3.trans (tbOf Timebase.monitor), h4.trans (tbOf Timebase.source),
    h5.trans (tbOf Timebase.encoderLost)⟩

/-- A halt of a lane that runs or drains does so too (R47, R121, R122). -/
theorem halt_scale (cause : HaltCause) (env : LaneEnv) (ln : Lane) (ha : ln.active = true) :
    ln.ScaleTaken (halt cause env ln).lane ∧ ln.TimebaseKept (halt cause env ln).lane ∧
    (halt cause env ln).lane.tb.monitor = ln.tb.monitor ∧
    (halt cause env ln).lane.tb.source = ln.tb.source ∧
    (halt cause env ln).lane.tb.encoderLost = ln.tb.encoderLost := by
  unfold halt
  rw [if_pos ha]
  obtain ⟨h1, h2, h3⟩ := flush_scale env { ln with state := .halted, haltCause := cause }
  exact ⟨h1, ⟨h2.setup, h2.rate, h2.pendingRate, h2.accumulator, h2.phases, h2.phaseErrors⟩, h3⟩

/-- RESET_LANE brings a pending scale into force and leaves the rest of the timebase but the source, Pmax, the
switch and encoder-lost (R47, R124). -/
theorem resetLane_scale (env : LaneEnv) (ln : Lane) : ln.ScaleTaken (resetLane env ln).lane ∧
    ln.TimebaseKept (resetLane env ln).lane ∧ (resetLane env ln).lane.tb.monitor = ln.tb.monitor := by
  unfold resetLane
  dsimp only
  by_cases ha : ln.active = true
  · rw [if_pos ha]
    obtain ⟨h1, h2, h3, _⟩ := flush_scale env ln
    obtain ⟨k1, k2, k3, _⟩ := rest_scale { ((flush env ln).lane.withLots
      ((flush env ln).lane.lots.finish env.id env.now)).lane.dropSwitch with
        state := .stopped
        injection := none
        tb := { ((flush env ln).lane.withLots
          ((flush env ln).lane.lots.finish env.id env.now)).lane.dropSwitch.tb with
            source := (flush env ln).lane.cfg.setup.source, encoderLost := false } }
    exact ⟨h1.trans k1, ⟨k2.setup.trans h2.setup, k2.rate.trans h2.rate, k2.pendingRate.trans h2.pendingRate,
      k2.accumulator.trans h2.accumulator, k2.phases.trans h2.phases, k2.phaseErrors.trans h2.phaseErrors⟩,
      k3.trans h3⟩
  · rw [if_neg ha]
    obtain ⟨k1, k2, k3, _⟩ := rest_scale { (ln.withLots (ln.lots.finish env.id env.now)).lane.dropSwitch with
        state := .stopped
        injection := none
        tb := { (ln.withLots (ln.lots.finish env.id env.now)).lane.dropSwitch.tb with
            source := ln.cfg.setup.source, encoderLost := false } }
    exact ⟨k1, ⟨k2.setup, k2.rate, k2.pendingRate, k2.accumulator, k2.phases, k2.phaseErrors⟩, k3⟩

/-! ## The encoder monitor (R34) -/

/-- Around every step of a lane the monitor follows its conditions. -/
theorem syncMonitor_watched (env : LaneEnv) (ln : Lane) :
    (ln.syncMonitor env).WatchedFrom env.driveRun (ln.keptTime env.now) := by
  unfold Lane.WatchedFrom Lane.syncMonitor Lane.keptTime Lane.watched Lane.active
  simp [and_assoc]

/-- The monitor of a lane that is neither RUNNING nor DRAINING is disarmed (R34). -/
theorem Lane.WatchedFrom.disarmed {ln : Lane} {run : Bool} {kept : Time} (h : ln.WatchedFrom run kept)
    (ha : ln.active = false) : ln.tb.monitor = none := by
  unfold Lane.WatchedFrom at h
  rw [if_neg] at h
  · exact h
  · rintro ⟨hs, _⟩
    rcases hs with hs | hs <;> simp [Lane.active, hs] at ha

theorem drainIfEmpty_monitor (env : LaneEnv) (a b : Lane) :
    (drainIfEmpty env a b).lane.tb.monitor = b.tb.monitor := by
  rcases drainIfEmpty_cases env a b with e | ⟨_, _, e⟩
  · rw [e]; rfl
  · rw [e]
    exact (rest_scale { b with state := .stopped }).2.2.1

/-- A step whose blocks leave the kept time of the monitor as given (R34). -/
theorem laneStep_watched {f : LaneEnv → Lane → LaneOut} {env : LaneEnv} {ln : Lane} {kept : Time}
    (h : (f env ln).lane.keptTime env.now = kept) :
    (laneStep f env ln).lane.WatchedFrom env.driveRun kept := by
  have hm := drainIfEmpty_monitor env ln (f env ln).lane
  have hw := syncMonitor_watched env (drainIfEmpty env ln (f env ln).lane).lane
  unfold Lane.keptTime at h hw
  rw [hm, h] at hw
  exact hw

theorem run_monitor (env : LaneEnv) (w : Work) (ln : Lane) :
    (Work.run env w ln).lane.tb.monitor = ln.tb.monitor := by
  cases w with
  | forming => exact congrArg _ (formingAdvance_sameBelt env ln).tb
  | station st => exact congrArg _ (stationAdvance_sameBelt env st ln).tb
  | exitLine => exact congrArg _ (exits_sameBelt env ln).tb
  | inject => exact congrArg _ (injectAdvance_tb env ln)
  | switchDone =>
    show (completeSwitch env ln).lane.tb.monitor = _
    rcases completeSwitch_lane env ln with e | ⟨src, lost, e⟩ <;> rw [e]
  | cut => exact congrArg _ (cutLane_sameBelt env _ ln).tb
  | limitHalt =>
    by_cases ha : ln.active = true
    · exact (halt_scale _ env ln ha).2.2.1
    · show (halt _ env ln).lane.tb.monitor = _
      rw [halt_rest _ env ln (by simpa using ha)]
      rfl

/-- No work of a step of P touches the monitor: after the step it follows its conditions (R34). -/
theorem WorksDone.watched {env : LaneEnv} {before moved : Lane} {due : Work → Prop} {out : LaneOut}
    (h : WorksDone env before moved due out) : out.lane.WatchedFrom env.driveRun (moved.keptTime env.now) := by
  obtain ⟨ws, _, _, rfl⟩ := h
  refine laneStep_watched (congrArg (fun m : Option Time => m.getD env.now) ?_)
  exact runEach_keeps_mem (f := Work.act env) (Φ := fun x => x.tb.monitor = moved.tb.monitor) ws (fun w _ x hx =>
    ((drainIfEmpty_monitor env x _).trans (run_monitor env w x)).trans hx) moved rfl

theorem Lane.StepsUp.watched {env : LaneEnv} {ln before : Lane} {out : LaneOut} (h : ln.StepsUp env before out) :
    out.lane.WatchedFrom env.driveRun (ln.keptTime env.now) := by
  by_cases hg : ln.NewGround
  · exact (h.1 hg).watched
  · exact (h.2 hg).watched

theorem Lane.StepsDown.watched {env : LaneEnv} {ln before : Lane} {out : LaneOut}
    (h : ln.StepsDown env before out) : out.lane.WatchedFrom env.driveRun (ln.keptTime env.now) := by
  by_cases ha : ln.active = true
  · exact (h.2 ha).watched
  · exact (h.1 (by simpa using ha)).watched

/-- A step whose blocks leave the lane at rest: the frame of the step disarms the monitor and changes no other
item of the lane but its ports (R34, R112). -/
theorem laneStep_rests {f : LaneEnv → Lane → LaneOut} {env : LaneEnv} {ln z : Lane}
    (hz : (f env ln).lane = z) (ha : z.active = false) :
    (laneStep f env ln).lane.tb = { z.tb with monitor := none } ∧ (laneStep f env ln).lane.cfg = z.cfg ∧
    (laneStep f env ln).lane.state = z.state ∧ (laneStep f env ln).lane.queue = z.queue := by
  have hd := drainIfEmpty_rest env ln ha
  have hw : z.watched env = false := by simp [Lane.watched, ha]
  have hm : (z.syncMonitor env).tb = { z.tb with monitor := none } := by
    unfold Lane.syncMonitor
    rw [hw]
    rfl
  have he : (laneStep f env ln).lane = syncPorts env.id ln (z.syncMonitor env) := by
    show syncPorts env.id ln ((drainIfEmpty env ln (f env ln).lane).lane.syncMonitor env) = _
    rw [hz, hd]
  rw [he]
  exact ⟨hm, rfl, rfl, rfl⟩

/-- What a lane that comes to rest within a step keeps of the timebase around it. -/
theorem Lane.ScaleTaken.rests {a z t : Lane} (h1 : a.ScaleTaken z) (h2 : a.TimebaseKept z)
    (ht : t.tb = { z.tb with monitor := none }) (hc : t.cfg = z.cfg) : a.ScaleTaken t ∧ a.TimebaseKept t := by
  obtain ⟨a1, a2, a3, a4, a5, a6⟩ := h2
  exact ⟨h1.keep ⟨by rw [ht], by rw [hc], by rw [ht]⟩,
    ⟨by rw [hc, a1], by rw [hc, a2], by rw [ht, ← a3], by rw [ht, ← a4], by rw [ht, ← a5], by rw [ht, ← a6]⟩⟩

/-- After a decoder count the kept time of an armed monitor, and of one that arms, is now (R34). -/
theorem counted_kept (ln : Lane) (x : Bool × Bool) (now : Time) :
    (ln.countedUp x now).keptTime now = now ∧ (ln.countedDown x now).keptTime now = now := by
  unfold Lane.keptTime Lane.countedUp Lane.countedDown
  cases ln.tb.monitor <;> exact ⟨rfl, rfl⟩

/-! ## The drain that a step completes (R120) -/

/-- What the completion of a drain leaves (R28, R31, R120). -/
theorem completeDrain_drained (env : LaneEnv) (ln : Lane) : (completeDrain env ln).lane.state = .stopped ∧
    (completeDrain env ln).lane.queue = ln.queue ∧
    (completeDrain env ln).lane.tb.pmax = (completeDrain env ln).lane.tb.p ∧
    ln.ScaleTaken (completeDrain env ln).lane ∧
    .event (.laneState env.id .stopped .drained) ∈ (completeDrain env ln).effects := by
  obtain ⟨h1, _, _, _, h5, h6, h7, _⟩ := rest_lane { ln with state := .stopped }
  exact ⟨h7, h1, h5.trans h6.symm, (rest_scale { ln with state := .stopped }).1, List.mem_singleton.mpr rfl⟩

/-- A step whose blocks leave the state and the scale: the last parcel of a DRAINING lane takes the drain to its
completion (R120). -/
theorem laneStep_drains {f : LaneEnv → Lane → LaneOut} {env : LaneEnv} {ln : Lane}
    (hs : (f env ln).lane.state = ln.state) (hk : ln.ScaleKept (f env ln).lane) :
    ln.Drains (laneStep f env ln).lane
      (.event (.laneState env.id .stopped .drained) ∈ (laneStep f env ln).effects) := by
  have key : ∀ o : LaneOut, o = drainIfEmpty env ln (f env ln).lane →
      ln.Drains o.lane (.event (.laneState env.id .stopped .drained) ∈ o.effects) := by
    intro o ho
    unfold drainIfEmpty at ho
    split at ho
    · rename_i hc
      obtain ⟨h1, h2, h3, h4, h5⟩ := completeDrain_drained env (f env ln).lane
      subst ho
      exact ⟨fun _ _ _ => ⟨h1, h5, h3, .after hk h4⟩,
        fun hn => absurd ⟨hs ▸ hc.1, hc.2.1, h2.trans hc.2.2⟩ hn⟩
    · rename_i hc
      subst ho
      exact ⟨fun a b c => absurd ⟨hs.trans a, b, c⟩ hc, fun _ => ⟨hs, hk⟩⟩
  obtain ⟨k1, k2⟩ := key _ rfl
  refine ⟨fun a b c => ?_, k2⟩
  obtain ⟨h1, h2, h3⟩ := k1 a b c
  exact ⟨h1, (mem_inQueueOrder ⟨_, rfl⟩).mpr (List.mem_append_right _ h2), h3⟩

theorem find_empty {ln : Lane} (h : ln.queue = []) (s : Serial) : ln.find s = none := by
  simp [Lane.find, h]

theorem classify_empty (env : LaneEnv) (s : Serial) {ln : Lane} (h : ln.queue = []) :
    classify env s ln = ln.quiet := by
  unfold classify
  rw [find_empty h]

theorem removeParcel_empty (env : LaneEnv) (s : Serial) (o : Outcome) {ln : Lane} (h : ln.queue = []) :
    removeParcel env s o ln = ln.quiet := by
  unfold removeParcel
  rw [find_empty h]

theorem fireStart_empty (env : LaneEnv) (st : StationId) (e : ListEntry) {ln : Lane} (h : ln.queue = []) :
    fireStart env st e ln = ln.quiet := by
  unfold fireStart
  rw [find_empty h]

/-- On a lane that is not RUNNING no work of a step of P brings a parcel into an empty queue. -/
theorem run_empty (env : LaneEnv) (w : Work) {ln : Lane} (h : ln.queue = []) (hr : ln.state ≠ .running) :
    (Work.run env w ln).lane.queue = [] := by
  have each : ∀ {α : Type} (f : α → Lane → LaneOut) (xs : List α) (x : Lane),
      (∀ a (y : Lane), y.queue = [] → f a y = y.quiet) → x.queue = [] → (runEach f xs x).lane.queue = [] :=
    fun f xs x hf hx => runEach_keeps (Φ := fun y => y.queue = [])
      (fun a y hy => by rw [hf a y hy]; exact hy) xs x hx
  cases w with
  | forming => exact each _ _ _ (fun a y hy => classify_empty env a hy) h
  | station st =>
    have h1 := each (fireStart env st) (ln.stations[st].list.filter ln.startDue) ln
      (fun a y hy => fireStart_empty env st a hy) h
    exact each _ _ _ (fun a y hy => removeParcel_empty env a.1 a.2 hy) h1
  | exitLine => exact each _ _ _ (fun a y hy => removeParcel_empty env a.1 a.2 hy) h
  | inject =>
    show (injectAdvance env ln).lane.queue = []
    unfold injectAdvance Lane.injectionDue
    rw [if_neg hr]
    exact h
  | switchDone =>
    rcases completeSwitch_lane env ln with e | ⟨src, lost, e⟩
    · exact (congrArg Lane.queue e).trans h
    · exact (congrArg Lane.queue e).trans h
  | cut =>
    show (runEach (endFiring env .cutReverse .cut) (ln.queue.filter (·.isFiring)) ln).lane.queue = []
    rw [h]
    exact h
  | limitHalt =>
    by_cases ha : ln.active = true
    · exact (halt_lane _ env ln ha).2.2.1
    · show (halt _ env ln).lane.queue = []
      rw [halt_rest _ env ln (by simpa using ha)]
      exact h

theorem injectAdvance_state (env : LaneEnv) (ln : Lane) :
    (injectAdvance env ln).lane.state = ln.state ∧ (injectAdvance env ln).lane.cfg = ln.cfg := by
  unfold injectAdvance
  split
  · exact ⟨rfl, rfl⟩
  · unfold createTest
    split
    · exact ⟨(classifyTest_sameBelt env _ _ _).state, (classifyTest_sameBelt env _ _ _).cfg⟩
    · exact ⟨rfl, rfl⟩

/-- Every work of a step of P but the halt leaves the state, P, Pmax and the scale. -/
theorem run_scale (env : LaneEnv) (w : Work) (hw : w ≠ .limitHalt) (ln : Lane) :
    (Work.run env w ln).lane.state = ln.state ∧ (Work.run env w ln).lane.tb.p = ln.tb.p ∧
    (Work.run env w ln).lane.tb.pmax = ln.tb.pmax ∧ ln.ScaleKept (Work.run env w ln).lane := by
  have keep : ∀ x : Lane, x.state = ln.state → x.tb = ln.tb → x.cfg = ln.cfg → x.state = ln.state ∧
      x.tb.p = ln.tb.p ∧ x.tb.pmax = ln.tb.pmax ∧ ln.ScaleKept x :=
    fun x hs ht hc => ⟨hs, by rw [ht], by rw [ht], ⟨by rw [ht], by rw [hc], by rw [ht]⟩⟩
  have same : ∀ x : Lane, ln.SameBelt x → x.state = ln.state ∧ x.tb.p = ln.tb.p ∧ x.tb.pmax = ln.tb.pmax ∧
      ln.ScaleKept x := fun x h => keep x h.state h.tb h.cfg
  cases w with
  | forming => exact same _ (formingAdvance_sameBelt env ln)
  | station st => exact same _ (stationAdvance_sameBelt env st ln)
  | exitLine => exact same _ (exits_sameBelt env ln)
  | inject => exact keep _ (injectAdvance_state env ln).1 (injectAdvance_tb env ln) (injectAdvance_state env ln).2
  | switchDone =>
    rcases completeSwitch_lane env ln with e | ⟨src, lost, e⟩
    · show (completeSwitch env ln).lane.state = ln.state ∧ _
      rw [show (Work.run env .switchDone ln).lane = ln from e]
      exact ⟨congrArg Lane.state e, rfl, rfl, .refl ln⟩
    · rw [show (Work.run env .switchDone ln).lane = _ from e]
      exact ⟨rfl, rfl, rfl, ⟨rfl, rfl, rfl⟩⟩
  | cut => exact same _ (cutLane_sameBelt env _ ln)
  | limitHalt => exact absurd rfl hw

/-- So far no drain has completed, and the state and the scale are those of `a`; or the drain of `a` has
completed. -/
def LaneOut.Drained (lane : LaneId) (a : Lane) (o : LaneOut) : Prop :=
  (o.lane.state = a.state ∧ a.ScaleKept o.lane ∧
    (a.state = .draining → (o.lane.queue = [] ↔ a.queue = []))) ∨
  (a.state = .draining ∧ a.queue ≠ [] ∧ o.lane.state = .stopped ∧ o.lane.queue = [] ∧
    o.lane.tb.pmax = o.lane.tb.p ∧ a.ScaleTaken o.lane ∧ .event (.laneState lane .stopped .drained) ∈ o.effects)

/-- One work, and the drain that it completes. -/
theorem act_drained {env : LaneEnv} {w : Work} (hw : w ≠ .limitHalt) {a : Lane} {o : LaneOut}
    (h : o.Drained env.id a) : (o.andThen (Work.act env w)).Drained env.id a := by
  obtain ⟨r1, r2, r3, r4⟩ := run_scale env w hw o.lane
  have he := @run_empty env w o.lane
  rw [andThen_act]
  rcases h with ⟨h1, h2, h3⟩ | ⟨h1, h2, h3, h4, h5, h6, h7⟩
  · by_cases hc : (Work.run env w o.lane).lane.state = .draining ∧ o.lane.queue ≠ [] ∧
        (Work.run env w o.lane).lane.queue = []
    · have e : drainIfEmpty env o.lane (Work.run env w o.lane).lane =
          completeDrain env (Work.run env w o.lane).lane := by
        unfold drainIfEmpty
        exact if_pos hc
      obtain ⟨d1, d2, d3, d4, d5⟩ := completeDrain_drained env (Work.run env w o.lane).lane
      have ha : a.state = .draining := h1 ▸ r1 ▸ hc.1
      refine .inr ⟨ha, fun hq => hc.2.1 ((h3 ha).mpr hq), ?_⟩
      show (drainIfEmpty env o.lane (Work.run env w o.lane).lane).lane.state = _ ∧
        (drainIfEmpty env o.lane (Work.run env w o.lane).lane).lane.queue = [] ∧
        (drainIfEmpty env o.lane (Work.run env w o.lane).lane).lane.tb.pmax =
          (drainIfEmpty env o.lane (Work.run env w o.lane).lane).lane.tb.p ∧
        a.ScaleTaken (drainIfEmpty env o.lane (Work.run env w o.lane).lane).lane ∧
        _ ∈ (o.effects ++ (Work.run env w o.lane).effects) ++
          (drainIfEmpty env o.lane (Work.run env w o.lane).lane).effects
      rw [e]
      exact ⟨d1, d2.trans hc.2.2, d3, .after (h2.trans r4) d4, List.mem_append_right _ d5⟩
    · have e : drainIfEmpty env o.lane (Work.run env w o.lane).lane = (Work.run env w o.lane).lane.quiet := by
        unfold drainIfEmpty
        exact if_neg hc
      refine .inl ?_
      show (drainIfEmpty env o.lane (Work.run env w o.lane).lane).lane.state = _ ∧
        a.ScaleKept (drainIfEmpty env o.lane (Work.run env w o.lane).lane).lane ∧
        (_ → ((drainIfEmpty env o.lane (Work.run env w o.lane).lane).lane.queue = [] ↔ _))
      rw [e]
      refine ⟨r1.trans h1, h2.trans r4, fun ha => ⟨fun hq => ?_, fun hq => ?_⟩⟩
      · refine (h3 ha).mp (by_contra fun hn => hc ⟨?_, hn, hq⟩)
        rw [r1, h1, ha]
      · exact he ((h3 ha).mpr hq) (by rw [h1, ha]; decide)
  · have hq := he h4 (by rw [h3]; decide)
    have e : drainIfEmpty env o.lane (Work.run env w o.lane).lane = (Work.run env w o.lane).lane.quiet := by
      unfold drainIfEmpty
      exact if_neg fun hc => by rw [r1, h3] at hc; cases hc.1
    refine .inr ⟨h1, h2, ?_⟩
    show (drainIfEmpty env o.lane (Work.run env w o.lane).lane).lane.state = _ ∧
      (drainIfEmpty env o.lane (Work.run env w o.lane).lane).lane.queue = [] ∧
      (drainIfEmpty env o.lane (Work.run env w o.lane).lane).lane.tb.pmax =
        (drainIfEmpty env o.lane (Work.run env w o.lane).lane).lane.tb.p ∧
      a.ScaleTaken (drainIfEmpty env o.lane (Work.run env w o.lane).lane).lane ∧
      _ ∈ (o.effects ++ (Work.run env w o.lane).effects) ++
        (drainIfEmpty env o.lane (Work.run env w o.lane).lane).effects
    rw [e]
    exact ⟨r1.trans h3, hq, (r3.trans h5).trans r2.symm, h6.keep r4,
      List.mem_append_left _ (List.mem_append_left _ h7)⟩

/-- A step of P without the limit's halt: the last parcel of a DRAINING lane takes the drain to its completion,
whatever the order of the works (R120). -/
theorem WorksDone.drains {env : LaneEnv} {before moved : Lane} {due : Work → Prop} {out : LaneOut}
    (h : WorksDone env before moved due out) (hl : ¬due .limitHalt) (hq : moved.queue = before.queue) :
    moved.Drains out.lane (.event (.laneState env.id .stopped .drained) ∈ out.effects) := by
  obtain ⟨ws, _, hm, rfl⟩ := h
  have hd : (runEach (Work.act env) ws moved).Drained env.id moved :=
    runEach_out_keeps (Φ := LaneOut.Drained env.id moved) ws
      (fun w hw o ho => act_drained (fun e => hl ((hm _).mp (e ▸ hw))) ho)
      (.inl ⟨rfl, .refl moved, fun _ => Iff.rfl⟩)
  have e : drainIfEmpty env before (runEach (Work.act env) ws moved).lane =
      (runEach (Work.act env) ws moved).lane.quiet := by
    unfold drainIfEmpty
    refine if_neg fun hc => ?_
    rcases hd with ⟨h1, _, h3⟩ | ⟨_, _, h3, _⟩
    · exact hc.2.1 (hq ▸ (h3 (h1 ▸ hc.1)).mp hc.2.2)
    · rw [h3] at hc
      cases hc.1
  have hlane : (laneStep (fun env _ => runEach (Work.act env) ws moved) env before).lane =
      syncPorts env.id before ((runEach (Work.act env) ws moved).lane.syncMonitor env) := by
    show syncPorts env.id before
      ((drainIfEmpty env before (runEach (Work.act env) ws moved).lane).lane.syncMonitor env) = _
    rw [e]
    rfl
  rw [hlane]
  rcases hd with ⟨h1, h2, h3⟩ | ⟨h1, h2, h3, h4, h5, h6, h7⟩
  · exact ⟨fun a b c => absurd ((h3 a).mp c) b, fun _ => ⟨h1, h2⟩⟩
  · exact ⟨fun _ _ _ => ⟨h3, (mem_inQueueOrder ⟨_, rfl⟩).mpr (List.mem_append_left _ h7), h5, h6⟩,
      fun hn => absurd ⟨h1, h2, h4⟩ hn⟩

/-- A step of P up, and the drain that it completes. -/
theorem Lane.StepsUp.drains {env : LaneEnv} {ln before : Lane} {out : LaneOut} (h : ln.StepsUp env before out)
    (hq : ln.queue = before.queue) :
    ln.Drains out.lane (.event (.laneState env.id .stopped .drained) ∈ out.effects) := by
  by_cases hg : ln.NewGround
  · obtain ⟨h1, h2⟩ := (h.1 hg).drains (fun h => h) hq
    exact ⟨h1, h2⟩
  · obtain ⟨h1, h2⟩ := (h.2 hg).drains (fun h => by cases h.1) hq
    exact ⟨h1, h2⟩

/-! ## Within a step of the part -/

theorem Lane.Drains.imp {a b : Lane} {x y : Prop} (h : a.Drains b x) (k : x → y) : a.Drains b y :=
  ⟨fun p q r => ⟨(h.completes p q r).1, k (h.completes p q r).2.1, (h.completes p q r).2.2⟩, h.goesOn⟩

/-- A step of a lane whose blocks leave the monitor's kept time. -/
theorem stepLane_watched (s : State) (l : LaneId) (f : LaneEnv → Lane → LaneOut)
    (h : (f (s.env l) s.lanes[l]).lane.tb.monitor = s.lanes[l].tb.monitor) :
    (s.stepLane l f).lanes[l].WatchedFrom s.lines.debounced[driveLine l] (s.lanes[l].keptTime s.lineTime) := by
  rw [stepLane_lane]
  exact laneStep_watched (env := s.env l) (congrArg (fun m : Option Time => m.getD s.lineTime) h)

/-- A step of a lane whose blocks leave the state and the scale, and the drain that it completes. -/
theorem stepLane_drains (s : State) (l : LaneId) (f : LaneEnv → Lane → LaneOut)
    (hs : (f (s.env l) s.lanes[l]).lane.state = s.lanes[l].state)
    (hk : s.lanes[l].ScaleKept (f (s.env l) s.lanes[l]).lane) :
    s.lanes[l].Drains (s.stepLane l f).lanes[l] ((s.stepLane l f).laneFlag l 0 = true) := by
  rw [stepLane_lane]
  exact (laneStep_drains (env := s.env l) hs hk).imp fun h =>
    commit_laneFlag (s.setLane l _) l _ (.laneState l .stopped .drained) rfl h

end Sys2Proof.Machine
end

