-- ==== Sys2Proof/Laws/Lines.lean ====
section
/-! SUPPORT. The field lines: what a debounced edge and a raw change leave (R151, R153, R155, R157). -/

namespace Sys2Proof.Machine

/-! ## What raising an event leaves -/

theorem raise_rest (s : State) (e : Event) : (s.raise e).lanes = s.lanes ∧ (s.raise e).lines = s.lines ∧
    (s.raise e).millTripLatch = s.millTripLatch ∧ (s.raise e).store = s.store ∧ (s.raise e).device = s.device ∧
    (s.raise e).lineTime = s.lineTime ∧ (s.raise e).choices = s.choices := by
  unfold State.raise State.setFlag State.offerNotice State.pushFrame
  cases e.lane? <;> dsimp only <;> split <;> (try split) <;> exact ⟨rfl, rfl, rfl, rfl, rfl, rfl, rfl⟩

/-- The flag of a device-wide kind after an event (R171). -/
theorem raise_deviceFlag (s : State) (e : Event) (k : Nat) (hk : k < 8) :
    (s.raise e).deviceFlag k = (s.deviceFlag k || decide (e.lane? = none ∧ e.kind.val = k + 5)) := by
  have h : (s.raise e).deviceFlags = (s.setFlag e).deviceFlags := (raise_flags s e).2
  unfold State.deviceFlag
  rw [h]
  unfold State.setFlag
  cases hl : e.lane? with
  | some l => simp
  | none =>
    have h5 : 5 ≤ e.kind.val := by
      cases e <;> first | (simp [Event.lane?] at hl; done) | simp [Event.kind]
    simp only [BitVec.getLsbD_or, BitVec.getLsbD_ofNat, Nat.testBit_two_pow, hk, decide_true, Bool.true_and,
      true_and]
    congr 1
    rw [decide_eq_decide]
    omega

/-! ## The debounced lines (R151, R153, R155, R157) -/

theorem driveLine_ne_mill (l : LaneId) : driveLine l ≠ millTripLine := by
  revert l
  decide

/-- LINE_EDGE, where the line's selection asks for it (R153). -/
theorem edgeNotice_taken (s : State) (i : LineId) (level : Bool) (t : State) (h : t = s.edgeNotice i level) :
    t.lanes = s.lanes ∧ t.lines = s.lines ∧ t.millTripLatch = s.millTripLatch ∧ t.store = s.store ∧
    t.device = s.device ∧ t.lineTime = s.lineTime ∧ t.trace = s.trace ∧ t.gapPending = s.gapPending ∧
    t.deviceFlag 4 = s.deviceFlag 4 ∧
    t.deviceFlag 6 = (s.deviceFlag 6 || s.device.edges[i].asks level) := by
  subst h
  unfold State.edgeNotice
  split
  · rename_i ha
    obtain ⟨h1, h2, h3, h4, h5, h6, _⟩ := raise_rest s (.lineEdge i level)
    obtain ⟨h7, h8⟩ := raise_trace s (.lineEdge i level)
    refine ⟨h1, h2, h3, h4, h5, h6, h7, h8, ?_, ?_⟩
    · rw [raise_deviceFlag _ _ _ (by decide)]
      simp [Event.kind]
    · rw [raise_deviceFlag _ _ _ (by decide), ha]
      simp [Event.kind, Event.lane?]
  · rename_i ha
    have : s.device.edges[i].asks level = false := by simpa using ha
    exact ⟨rfl, rfl, rfl, rfl, rfl, rfl, rfl, rfl, rfl, by rw [this, Bool.or_false]⟩

/-- A rise of MILL_TRIP sets the latch and raises its event (R157). -/
theorem millEdge_taken (s : State) (i : DebouncedId) (level : Bool) (t : State) (h : t = s.millEdge i level) :
    t.lanes = s.lanes ∧ t.lines = s.lines ∧ t.millTripLatch = (s.millTripLatch || (i == millTripLine && level)) ∧
    t.store = s.store ∧ t.device = s.device ∧ t.lineTime = s.lineTime ∧ t.trace = s.trace ∧
    t.gapPending = s.gapPending ∧ t.deviceFlag 4 = (s.deviceFlag 4 || (i == millTripLine && level)) ∧
    t.deviceFlag 6 = s.deviceFlag 6 := by
  subst h
  unfold State.millEdge
  split
  · rename_i ha
    have hb : (i == millTripLine && level) = true := by rw [ha.1, ha.2]; rfl
    obtain ⟨h1, h2, h3, h4, h5, h6, _⟩ := raise_rest { s with millTripLatch := true } .millTrip
    obtain ⟨h7, h8⟩ := raise_trace { s with millTripLatch := true } .millTrip
    refine ⟨h1, h2, h3.trans (by rw [hb, Bool.or_true]), h4, h5, h6, h7, h8, ?_, ?_⟩
    · rw [raise_deviceFlag _ _ _ (by decide), hb]
      simp [Event.kind, Event.lane?]
    · rw [raise_deviceFlag _ _ _ (by decide)]
      simp [Event.kind, State.deviceFlag]
  · rename_i ha
    have hb : (i == millTripLine && level) = false := by
      by_contra hc
      have hc' : (i == millTripLine && level) = true := by simpa using hc
      rw [Bool.and_eq_true, beq_iff_eq] at hc'
      exact ha hc'
    rw [hb]
    simp

/-- What an edge of DRIVE_RUN does to the timebase of its lane: the generator, a pending rate set while it stood
still, and the monitor (R29, R30, R34, R155). -/
theorem driveEdge_lane (level : Bool) (env : LaneEnv) (ln x : Lane)
    (h : x = (driveEdge level env ln).lane.syncMonitor env) :
    x.tb.accumulator = (if level then some 0 else none) ∧ x.WatchedFrom env.driveRun (ln.keptTime env.now) ∧
    (∀ r : PendingRate, ln.tb.pendingRate = some r → r.setWhileStopped = true → level = true →
      x.cfg.rate = r.rate ∧ x.tb.pendingRate = none) ∧
    (level = false → x.cfg.rate = ln.cfg.rate ∧ x.tb.pendingRate = ln.tb.pendingRate) ∧
    x.state = ln.state ∧ x.tb.source = ln.tb.source ∧ ln.ScaleKept x ∧ x.queue = ln.queue ∧
    x.tb.p = ln.tb.p := by
  have hw := syncMonitor_watched env (driveEdge level env ln).lane
  rw [← h] at hw
  subst h
  cases level with
  | false =>
    exact ⟨rfl, hw, fun _ _ _ h => (by cases h), fun _ => ⟨rfl, rfl⟩, rfl, rfl, ⟨rfl, rfl, rfl⟩, rfl, rfl⟩
  | true =>
    have hr : ∀ y : Lane, y.takeRate.tb.monitor = y.tb.monitor ∧ y.takeRate.state = y.state ∧
        y.takeRate.tb.source = y.tb.source ∧ y.ScaleKept y.takeRate ∧ y.takeRate.queue = y.queue ∧
        y.takeRate.tb.p = y.tb.p := by
      intro y
      unfold Lane.takeRate
      split <;> exact ⟨rfl, rfl, rfl, ⟨rfl, rfl, rfl⟩, rfl, rfl⟩
    obtain ⟨r1, r2, r3, r4, r5, r6⟩ := hr ln
    unfold driveEdge at hw ⊢
    simp only [if_true] at hw ⊢
    by_cases hm : ((ln.tb.pendingRate.map (·.setWhileStopped)).getD false) = true
    · simp only [hm, if_true] at hw ⊢
      refine ⟨rfl, ?_, fun r he _ _ => ?_, fun h => (by cases h), r2, r3, r4, r5, r6⟩
      · unfold Lane.keptTime at hw ⊢
        rw [← r1]
        exact hw
      · show ln.takeRate.cfg.rate = r.rate ∧ ln.takeRate.tb.pendingRate = none
        unfold Lane.takeRate
        rw [he]
        exact ⟨rfl, rfl⟩
    · simp only [hm] at hw ⊢
      refine ⟨rfl, hw, fun r he hs _ => absurd (by rw [he]; exact hs) hm, fun h => (by cases h), rfl, rfl,
        ⟨rfl, rfl, rfl⟩, rfl, rfl⟩

/-- What a drive edge does: at its lane, and nothing else (R29, R155). -/
theorem driveEdge_taken (s : State) (i : DebouncedId) (level : Bool) (t : State) (h : t = s.driveEdge i level) :
    t.lines = s.lines ∧ t.millTripLatch = s.millTripLatch ∧ t.store = s.store ∧ t.device = s.device ∧
    t.lineTime = s.lineTime ∧ t.trace = s.trace ∧ t.gapPending = s.gapPending ∧
    t.deviceFlags = s.deviceFlags ∧ (∀ l : LaneId, i ≠ driveLine l → t.lanes[l] = s.lanes[l]) ∧
    ∀ l : LaneId, i = driveLine l →
      t.lanes[l] = (Machine.driveEdge level (s.env l) s.lanes[l]).lane.syncMonitor (s.env l) := by
  subst h
  unfold State.driveEdge
  cases hd : driveOf? i with
  | none =>
    refine ⟨rfl, rfl, rfl, rfl, rfl, rfl, rfl, rfl, fun _ _ => rfl, fun l hl => ?_⟩
    rw [driveOf_eq_some.mpr hl] at hd
    cases hd
  | some l =>
    have hi := driveOf_eq_some.mp hd
    dsimp only
    have e1 : (driveEdge level (s.env l) s.lanes[l]).effects = [] := by cases level <;> rfl
    have e2 := (driveEdge_lane level (s.env l) s.lanes[l] _ rfl).2.2.2.2.2.2.2.1
    have heff : (laneStep (driveEdge level) (s.env l) s.lanes[l]).effects = [] := by
      show inQueueOrder ((driveEdge level (s.env l) s.lanes[l]).effects ++
        (drainIfEmpty (s.env l) s.lanes[l] (driveEdge level (s.env l) s.lanes[l]).lane).effects) = []
      rw [e1]
      unfold drainIfEmpty
      rw [if_neg (fun h => h.2.1 (e2.symm.trans h.2.2))]
      rfl
    have hlane := laneStep_lane_of_same_queue (f := driveEdge level) (env := s.env l) (ln := s.lanes[l]) e2
    have ht : s.onLane l (laneStep (driveEdge level)) = s.setLane l ((driveEdge level (s.env l) s.lanes[l]).lane.syncMonitor (s.env l)) := by
      unfold State.onLane
      dsimp only
      rw [heff, hlane]
      rfl
    rw [ht]
    refine ⟨rfl, rfl, rfl, rfl, rfl, rfl, rfl, rfl, fun k hk => ?_, fun k hk => ?_⟩
    · exact (setLane_frame l s _).lanes k fun e => hk (e ▸ hi)
    · have : k = l := Option.some.inj ((driveOf_eq_some.mpr hk).symm.trans hd)
      subst this
      simp [State.setLane]

/-- A debounced edge (R151, R153, R155, R157). -/
theorem debouncedEdge_taken (s : State) (i : DebouncedId) :
    s.EdgeTaken i s.lines.raw[i.castSucc] (s.debouncedEdge i) ∧
    (s.debouncedEdge i).trace = s.trace ∧ (s.debouncedEdge i).gapPending = s.gapPending ∧
    ∀ l : LaneId, i ≠ driveLine l → (s.debouncedEdge i).lanes[l] = s.lanes[l] := by
  set level := s.lines.raw[i.castSucc] with hlevel
  set a : State := { s with lines := s.lines.settle i level } with ha
  obtain ⟨d1, d2, d3, d4, d5, d6, d7, d8, d9, d10⟩ := driveEdge_taken a i level _ rfl
  obtain ⟨m1, m2, m3, m4, m5, m6, m7, m8, m9, m10⟩ := millEdge_taken (a.driveEdge i level) i level _ rfl
  obtain ⟨n1, n2, n3, n4, n5, n6, n7, n8, n9, n10⟩ :=
    edgeNotice_taken ((a.driveEdge i level).millEdge i level) i.castSucc level _ rfl
  have hdf : ∀ k, (a.driveEdge i level).deviceFlag k = s.deviceFlag k := fun k => by
    unfold State.deviceFlag
    rw [d8]
  have e : s.debouncedEdge i = ((a.driveEdge i level).millEdge i level).edgeNotice i.castSucc level := rfl
  rw [e]
  refine ⟨⟨?_, ?_, ?_, ?_, fun l hl => ?_, ?_, ?_, ?_⟩, n7.trans (m7.trans d6), n8.trans (m8.trans d7), fun l hl => ?_⟩
  · rw [n2, m2, d1]
    show FieldLines.mk s.lines.raw _ _ = _
    congr 1
    rw [hlevel]
    exact (Vector.set_getElem_self _).symm
  · rw [n3, m3, d2]
  · rw [n9, m9, hdf]
  · rw [n10, m10, hdf]
    have hdev : ((a.driveEdge i level).millEdge i level).device = s.device := by rw [m5, d4]
    rw [hdev]
    cases s.device.edges[i.castSucc] <;> rfl
  · rw [n1, m1]
    have hr : (a.env l).driveRun = level := by
      subst hl
      show (s.lines.debounced.set (driveLine l) level)[driveLine l] = level
      simp
    have h := driveEdge_lane level (a.env l) s.lanes[l] _ (d10 l hl)
    rw [hr] at h
    exact h
  · rw [n4, m4, d3]
  · rw [n5, m5, d4]
  · rw [n6, m6, d5]
  · rw [n1, m1]
    exact d9 l hl

/-- Settling a line changes neither the raw levels nor the trace, and a lane by its own drive line alone. -/
theorem settleLine_rest (s : State) (i : DebouncedId) : (s.settleLine i).lines.raw = s.lines.raw ∧
    (s.settleLine i).trace = s.trace ∧ (s.settleLine i).gapPending = s.gapPending ∧
    ∀ l : LaneId, i ≠ driveLine l → (s.settleLine i).lanes[l] = s.lanes[l] := by
  unfold State.settleLine
  split
  · obtain ⟨h1, h2, h3, h4⟩ := debouncedEdge_taken s i
    refine ⟨?_, h2, h3, h4⟩
    rw [h1.lines]
    exact Vector.set_getElem_self _
  · exact ⟨rfl, rfl, rfl, fun _ _ => rfl⟩

/-- A raw change at the debouncer of its line: no debounced edge while the candidate has not held, and none for
a level that equals the debounced state (R151). -/
theorem debounceRaw_waits (s : State) (i : DebouncedId) (level : Bool)
    (h : 0 < s.debounceOf i ∨ s.lines.debounced[i] = level) :
    s.debounceRaw i level = { s with lines := { s.lines with
      candidate := s.lines.candidate.set i
        (if s.lines.debounced[i] = level then none else some s.lineTime) } } := by
  unfold State.debounceRaw State.settleLine
  dsimp only
  rw [if_neg]
  unfold State.debounceDue State.debounceOf elapsed
  simp only [Fin.getElem_fin, Vector.getElem_set_self]
  by_cases hd : s.lines.debounced[i] = level
  · simp only [Fin.getElem_fin] at hd
    rw [if_pos hd]
    simp
  · have hp := h.resolve_right hd
    unfold State.debounceOf at hp
    simp only [Fin.getElem_fin] at hd hp
    rw [if_neg hd]
    simp
    omega

/-- With a debounce time of 0 a level that differs from the debounced state gives the edge at once (R151). -/
theorem debounceRaw_edge (s : State) (i : DebouncedId) (level : Bool) (h : s.debounceOf i = 0)
    (hd : s.lines.debounced[i] ≠ level) :
    s.debounceRaw i level = State.debouncedEdge { s with lines := { s.lines with
      candidate := s.lines.candidate.set i (some s.lineTime) } } i := by
  unfold State.debounceRaw State.settleLine
  dsimp only
  rw [if_neg hd, if_pos]
  unfold State.debounceDue elapsed
  have h' : State.debounceOf { s with lines := { s.lines with
      candidate := s.lines.candidate.set i (some s.lineTime) } } i = 0 := h
  simp [h']

end Sys2Proof.Machine
end

