-- ==== Sys2Proof/Laws/PerInstr.lean ====
section
/-! SUPPORT. Per-instruction law RequestShape: a well-formed request command is the one that the request
taker's code table names for the request it takes (R182, R186). -/

namespace Sys2Proof.Laws

open Machine

/-- A code table row is found or not by the kind byte alone. -/
theorem codedRequest_isSome (kind tag : Byte) (payload : List Byte) :
    (codedRequest kind tag payload).isSome = isRequestCode kind := by
  unfold isRequestCode codedRequest
  split <;> rfl

/-- A kind that is no request code has no row. -/
theorem codedRequest_none {kind : Byte} (h : isRequestCode kind = false) (tag : Byte) (payload : List Byte) :
    codedRequest kind tag payload = none := by
  rw [← codedRequest_isSome kind tag payload] at h
  exact Option.not_isSome_iff_eq_none.mp (by simp [h])

/-- The command that takes a request of a well-formed request command is that command. -/
def RequestShape.Statement (i : Instr) : Prop := i.wf = true → ∀ r : Request, i.request? = some r → takingOf r = i

theorem RequestShape.powerApplied : RequestShape.Statement .powerApplied := fun _ _ hr => nomatch hr

theorem RequestShape.rstNAsserted : RequestShape.Statement .rstNAsserted := fun _ _ hr => nomatch hr

theorem RequestShape.rstNReleased : RequestShape.Statement .rstNReleased := fun _ _ hr => nomatch hr

theorem RequestShape.plantLinkFrame (bytes : List LineByte) :
    RequestShape.Statement (.plantLinkFrame bytes) := fun _ _ hr => nomatch hr

theorem RequestShape.plantLinkGapTimeout :
    RequestShape.Statement .plantLinkGapTimeout := fun _ _ hr => nomatch hr

theorem RequestShape.unknownRequest (tag kind : Byte) (payload : List Byte) :
    RequestShape.Statement (.unknownRequest tag kind payload) := by
  intro hw r hr
  obtain rfl := (Option.some.inj hr).symm
  have hk : isRequestCode kind = false := by
    unfold Instr.wf at hw
    simpa using (Bool.and_eq_true_iff.mp hw).2
  simp only [takingOf, codedRequest_none hk, Option.getD_none]

theorem RequestShape.frameSent : RequestShape.Statement .frameSent := fun _ _ hr => nomatch hr

theorem RequestShape.identify (tag : Byte) (payload : List Byte) :
    RequestShape.Statement (.identify tag payload) := fun _ _ hr => Option.some.inj hr ▸ rfl

theorem RequestShape.resetDevice (tag : Byte) (payload : List Byte) :
    RequestShape.Statement (.resetDevice tag payload) := fun _ _ hr => Option.some.inj hr ▸ rfl

theorem RequestShape.saveSettings (tag : Byte) (payload : List Byte) :
    RequestShape.Statement (.saveSettings tag payload) := fun _ _ hr => Option.some.inj hr ▸ rfl

theorem RequestShape.saveWriteEnd (agrees : Bool) :
    RequestShape.Statement (.saveWriteEnd agrees) := fun _ _ hr => nomatch hr

theorem RequestShape.getLinkStatus (tag : Byte) (payload : List Byte) :
    RequestShape.Statement (.getLinkStatus tag payload) := fun _ _ hr => Option.some.inj hr ▸ rfl

theorem RequestShape.getLaneStatus (tag : Byte) (payload : List Byte) :
    RequestShape.Statement (.getLaneStatus tag payload) := fun _ _ hr => Option.some.inj hr ▸ rfl

theorem RequestShape.setLaneGeometry (tag : Byte) (payload : List Byte) :
    RequestShape.Statement (.setLaneGeometry tag payload) := fun _ _ hr => Option.some.inj hr ▸ rfl

theorem RequestShape.getLaneGeometry (tag : Byte) (payload : List Byte) :
    RequestShape.Statement (.getLaneGeometry tag payload) := fun _ _ hr => Option.some.inj hr ▸ rfl

theorem RequestShape.setTimebase (tag : Byte) (payload : List Byte) :
    RequestShape.Statement (.setTimebase tag payload) := fun _ _ hr => Option.some.inj hr ▸ rfl

theorem RequestShape.setScale (tag : Byte) (payload : List Byte) :
    RequestShape.Statement (.setScale tag payload) := fun _ _ hr => Option.some.inj hr ▸ rfl

theorem RequestShape.switchSource (tag : Byte) (payload : List Byte) :
    RequestShape.Statement (.switchSource tag payload) := fun _ _ hr => Option.some.inj hr ▸ rfl

theorem RequestShape.abortSwitch (tag : Byte) (payload : List Byte) :
    RequestShape.Statement (.abortSwitch tag payload) := fun _ _ hr => Option.some.inj hr ▸ rfl

theorem RequestShape.startLane (tag : Byte) (payload : List Byte) :
    RequestShape.Statement (.startLane tag payload) := fun _ _ hr => Option.some.inj hr ▸ rfl

theorem RequestShape.stopLane (tag : Byte) (payload : List Byte) :
    RequestShape.Statement (.stopLane tag payload) := fun _ _ hr => Option.some.inj hr ▸ rfl

theorem RequestShape.clearHalt (tag : Byte) (payload : List Byte) :
    RequestShape.Statement (.clearHalt tag payload) := fun _ _ hr => Option.some.inj hr ▸ rfl

theorem RequestShape.resetLane (tag : Byte) (payload : List Byte) :
    RequestShape.Statement (.resetLane tag payload) := fun _ _ hr => Option.some.inj hr ▸ rfl

theorem RequestShape.setClassEntry (tag : Byte) (payload : List Byte) :
    RequestShape.Statement (.setClassEntry tag payload) := fun _ _ hr => Option.some.inj hr ▸ rfl

theorem RequestShape.getClassEntry (tag : Byte) (payload : List Byte) :
    RequestShape.Statement (.getClassEntry tag payload) := fun _ _ hr => Option.some.inj hr ▸ rfl

theorem RequestShape.setProfile (tag : Byte) (payload : List Byte) :
    RequestShape.Statement (.setProfile tag payload) := fun _ _ hr => Option.some.inj hr ▸ rfl

theorem RequestShape.getProfile (tag : Byte) (payload : List Byte) :
    RequestShape.Statement (.getProfile tag payload) := fun _ _ hr => Option.some.inj hr ▸ rfl

theorem RequestShape.setStation (tag : Byte) (payload : List Byte) :
    RequestShape.Statement (.setStation tag payload) := fun _ _ hr => Option.some.inj hr ▸ rfl

theorem RequestShape.enableStation (tag : Byte) (payload : List Byte) :
    RequestShape.Statement (.enableStation tag payload) := fun _ _ hr => Option.some.inj hr ▸ rfl

theorem RequestShape.disableStation (tag : Byte) (payload : List Byte) :
    RequestShape.Statement (.disableStation tag payload) := fun _ _ hr => Option.some.inj hr ▸ rfl

theorem RequestShape.getStationStatus (tag : Byte) (payload : List Byte) :
    RequestShape.Statement (.getStationStatus tag payload) := fun _ _ hr => Option.some.inj hr ▸ rfl

theorem RequestShape.closeLot (tag : Byte) (payload : List Byte) :
    RequestShape.Statement (.closeLot tag payload) := fun _ _ hr => Option.some.inj hr ▸ rfl

theorem RequestShape.setLotLimit (tag : Byte) (payload : List Byte) :
    RequestShape.Statement (.setLotLimit tag payload) := fun _ _ hr => Option.some.inj hr ▸ rfl

theorem RequestShape.getLotProgress (tag : Byte) (payload : List Byte) :
    RequestShape.Statement (.getLotProgress tag payload) := fun _ _ hr => Option.some.inj hr ▸ rfl

theorem RequestShape.getLotResult (tag : Byte) (payload : List Byte) :
    RequestShape.Statement (.getLotResult tag payload) := fun _ _ hr => Option.some.inj hr ▸ rfl

theorem RequestShape.injectStart (tag : Byte) (payload : List Byte) :
    RequestShape.Statement (.injectStart tag payload) := fun _ _ hr => Option.some.inj hr ▸ rfl

theorem RequestShape.injectStop (tag : Byte) (payload : List Byte) :
    RequestShape.Statement (.injectStop tag payload) := fun _ _ hr => Option.some.inj hr ▸ rfl

theorem RequestShape.setLineConfig (tag : Byte) (payload : List Byte) :
    RequestShape.Statement (.setLineConfig tag payload) := fun _ _ hr => Option.some.inj hr ▸ rfl

theorem RequestShape.getLines (tag : Byte) (payload : List Byte) :
    RequestShape.Statement (.getLines tag payload) := fun _ _ hr => Option.some.inj hr ▸ rfl

theorem RequestShape.setChutePolicy (tag : Byte) (payload : List Byte) :
    RequestShape.Statement (.setChutePolicy tag payload) := fun _ _ hr => Option.some.inj hr ▸ rfl

theorem RequestShape.setBusyEnables (tag : Byte) (payload : List Byte) :
    RequestShape.Statement (.setBusyEnables tag payload) := fun _ _ hr => Option.some.inj hr ▸ rfl

theorem RequestShape.holdFeed (tag : Byte) (payload : List Byte) :
    RequestShape.Statement (.holdFeed tag payload) := fun _ _ hr => Option.some.inj hr ▸ rfl

theorem RequestShape.releaseFeed (tag : Byte) (payload : List Byte) :
    RequestShape.Statement (.releaseFeed tag payload) := fun _ _ hr => Option.some.inj hr ▸ rfl

theorem RequestShape.releaseMillTrip (tag : Byte) (payload : List Byte) :
    RequestShape.Statement (.releaseMillTrip tag payload) := fun _ _ hr => Option.some.inj hr ▸ rfl

theorem RequestShape.readTrace (tag : Byte) (payload : List Byte) :
    RequestShape.Statement (.readTrace tag payload) := fun _ _ hr => Option.some.inj hr ▸ rfl

theorem RequestShape.clearTrace (tag : Byte) (payload : List Byte) :
    RequestShape.Statement (.clearTrace tag payload) := fun _ _ hr => Option.some.inj hr ▸ rfl

theorem RequestShape.getEvents (tag : Byte) (payload : List Byte) :
    RequestShape.Statement (.getEvents tag payload) := fun _ _ hr => Option.some.inj hr ▸ rfl

theorem RequestShape.clearEvents (tag : Byte) (payload : List Byte) :
    RequestShape.Statement (.clearEvents tag payload) := fun _ _ hr => Option.some.inj hr ▸ rfl

theorem RequestShape.setNotices (tag : Byte) (payload : List Byte) :
    RequestShape.Statement (.setNotices tag payload) := fun _ _ hr => Option.some.inj hr ▸ rfl

theorem RequestShape.setStatusPeriod (tag : Byte) (payload : List Byte) :
    RequestShape.Statement (.setStatusPeriod tag payload) := fun _ _ hr => Option.some.inj hr ▸ rfl

theorem RequestShape.statusDue : RequestShape.Statement .statusDue := fun _ _ hr => nomatch hr

theorem RequestShape.sensorFrameRejected (lane : LaneId) (head : HeadId) (bytes : List LineByte) :
    RequestShape.Statement (.sensorFrameRejected lane head bytes) := fun _ _ hr => nomatch hr

theorem RequestShape.sensorLinkGapTimeout (lane : LaneId) (head : HeadId) :
    RequestShape.Statement (.sensorLinkGapTimeout lane head) := fun _ _ hr => nomatch hr

theorem RequestShape.headIdle (lane : LaneId) (head : HeadId) (headNumber : Byte) :
    RequestShape.Statement (.headIdle lane head headNumber) := fun _ _ hr => nomatch hr

theorem RequestShape.detection (lane : LaneId) (head : HeadId) (rec : DetectionRecord) :
    RequestShape.Statement (.detection lane head rec) := fun _ _ hr => nomatch hr

theorem RequestShape.encoderPhaseChange (lane : LaneId) (a b : Bool) :
    RequestShape.Statement (.encoderPhaseChange lane a b) := fun _ _ hr => nomatch hr

theorem RequestShape.nominalCount (lane : LaneId) :
    RequestShape.Statement (.nominalCount lane) := fun _ _ hr => nomatch hr

theorem RequestShape.valveBarFrameSent (lane : LaneId) (station : StationId) :
    RequestShape.Statement (.valveBarFrameSent lane station) := fun _ _ hr => nomatch hr

theorem RequestShape.settlePeriodEnd (lane : LaneId) :
    RequestShape.Statement (.settlePeriodEnd lane) := fun _ _ hr => nomatch hr

theorem RequestShape.encoderMonitorExpiry (lane : LaneId) :
    RequestShape.Statement (.encoderMonitorExpiry lane) := fun _ _ hr => nomatch hr

theorem RequestShape.maxOpenTimeExpiry (lane : LaneId) (serial : Serial) :
    RequestShape.Statement (.maxOpenTimeExpiry lane serial) := fun _ _ hr => nomatch hr

theorem RequestShape.rawLineChange (line : LineId) (asserted : Bool) :
    RequestShape.Statement (.rawLineChange line asserted) := fun _ _ hr => nomatch hr

theorem RequestShape.debounceExpiry (line : DebouncedId) :
    RequestShape.Statement (.debounceExpiry line) := fun _ _ hr => nomatch hr

theorem RequestShape.rawAirOkChange (lane : LaneId) (asserted : Bool) :
    RequestShape.Statement (.rawAirOkChange lane asserted) := fun _ _ hr => nomatch hr

theorem RequestShape.rawPlantStopAsserted :
    RequestShape.Statement .rawPlantStopAsserted := fun _ _ hr => nomatch hr

theorem RequestShape.rawPlantStopReleased :
    RequestShape.Statement .rawPlantStopReleased := fun _ _ hr => nomatch hr

theorem RequestShape.lotTimeAccrual : RequestShape.Statement .lotTimeAccrual := fun _ _ hr => nomatch hr

theorem RequestShape.powerLost : RequestShape.Statement .powerLost := fun _ _ hr => nomatch hr

theorem RequestShape.partBeginsToWork : RequestShape.Statement .partBeginsToWork := fun _ _ hr => nomatch hr

end Sys2Proof.Laws
end

