-- ==== Sys2Proof/Tests/Slice0.lean ====
section
/-! SUPPORT. Tests on small states: ill-formed commands, one step of the commands of each family, the
spec's worked examples, and for each statement with hypotheses a state and operands that meet them. -/

namespace Sys2Proof.Tests

open Machine

set_option maxRecDepth 100000
set_option Elab.async false

/-! ## Helpers -/

/-- The outcome is a next state with the property. -/
def nextIs (o : Out) (p : State → Bool) : Bool :=
  match o with
  | .next s => p s
  | .fault _ => false
  | .refused _ => false

/-- The part after reset with one request waiting. -/
def asked (r : Request) : State := { State.reset with link := { Link.powerOn with input := [r] } }

/-- A state with one lane changed. -/
def laneAs (l : LaneId) (f : Lane → Lane) (s : State) : State := s.setLane l (f s.lanes[l])

/-- Taking the request with the code, tag 7 and payload given, from reset with the lane 0 changed. -/
def takenWith (f : Lane → Lane) (c : Byte → List Byte → Instr) (code : Byte) (payload : List Byte) : Out :=
  exec (c 7 payload) (laneAs 0 f (asked ⟨7, code, payload⟩))

/-- The one reply of a request taken with lane 0 changed. -/
def answers (f : Lane → Lane) (c : Byte → List Byte → Instr) (code : Byte) (payload : List Byte)
    (reply : List Byte) : Bool :=
  nextIs (takenWith f c code payload) fun s => s.link.output.getLast? == some ⟨7, code ||| 0x80, reply⟩

/-- Lane data as reset leaves it. -/
def same (ln : Lane) : Lane := ln

/-- A lane in the state given. -/
def inState (st : LaneState) (ln : Lane) : Lane := { ln with state := st }

/-- The lane of section 1.7: heads 0 and 1 at 200 and 350 tc, window 20, stations at 1,200, 1,800 and
2,400 tc, exit 3,000 tc, RUNNING at P = Pmax = 40,536 with lot 311 filling and next serial 5,123. -/
def lane17 (ln : Lane) : Lane :=
  { ln with
    state := .running
    nextSerial := 5123
    lots := { ln.lots with filling := .fresh 1 311 0 }
    tb := { ln.tb with p := 40536, pmax := 40536 }
    cfg := { ln.cfg with geometry :=
      ⟨#v[true, true, false], #v[200, 350, 0], #v[true, true, true], #v[1200, 1800, 2400],
        #v[.metal, .plastic, .foam], 3000, 20, 50⟩ } }

/-- The station A parcel of section 1.7 while it fires. -/
def firing17 : Parcel :=
  ⟨5123, some 311, false, 40247, 40331, 10, 14, [⟨0, 7, 900, 80⟩, ⟨1, 40, 1500, 84⟩], some 12, false,
    .firing ⟨.metal, 0, 41417, 41571⟩ ⟨0xFE00, 0, false⟩⟩

/-- A lane with that parcel FIRING at station A. -/
def withFiring (ln : Lane) : Lane :=
  { (lane17 ln).modStation 0 fun x => { x with list := [⟨5123, 0xFE00, 120⟩] } with queue := [firing17] }

/-- The same parcel as an injected test parcel. -/
def testFiring : Parcel := { firing17 with test := true, lot := none }

/-- The env of a lane on the factory tables with air present and no chute full. -/
def env17 : LaneEnv := ⟨1, 2000000, true, true, #v[false, false, false], Vector.replicate 64 .factory,
  Vector.replicate 8 .factory, 0⟩

/-! ## Well-formedness: each check refuses an ill-formed command -/

theorem test_wf_unknownRequest_of_a_request_code : (Instr.unknownRequest 0 0x17 [0]).wf = false := by decide
theorem test_wf_unknownRequest_without_payload : (Instr.unknownRequest 0 0x60 []).wf = false := by decide
theorem test_wf_request_without_payload : (Instr.startLane 0 []).wf = false := by decide
theorem test_wf_request_too_long : (Instr.startLane 0 (List.replicate 249 0)).wf = false := by decide
theorem test_wf_plantLinkFrame_empty : (Instr.plantLinkFrame []).wf = false := by decide
theorem test_wf_sensorFrameRejected_empty : (Instr.sensorFrameRejected 0 0 []).wf = false := by decide
theorem test_wf_rawLineChange_of_AIR_OK : (Instr.rawLineChange 7 true).wf = false := by decide
theorem test_wf_rawLineChange_of_PLANT_STOP : (Instr.rawLineChange 25 true).wf = false := by decide
theorem test_wf_request : (Instr.startLane 0 [0]).wf = true := by decide

/-! ## Codes and frames -/

/-- The CRC of R51 over the bytes of "123456789" is the published check value of this polynomial and
start value. -/
theorem test_crc16_check_value :
    crc16 [0x31, 0x32, 0x33, 0x34, 0x35, 0x36, 0x37, 0x38, 0x39] = 0x29B1 := by decide

theorem test_crcBytes_high_first :
    crcBytes [0x31, 0x32, 0x33, 0x34, 0x35, 0x36, 0x37, 0x38, 0x39] = [0x29, 0xB1] := by decide

/-- Columns 9 to 15 of lane 1, station A, as R111 lays them out. -/
theorem test_valveFrame_layout :
    (valveFrame 1 0 4 0xFE00).take 9 = [0x5A, 7, 0x10, 0x10, 4, 0, 0, 0xFE, 0x00] := by decide

theorem test_traceEntry_takes_20_bytes :
    (TraceEntry.encode ⟨0, 1, .lost, none, some 311, false, none, some 2, true⟩).length = 20 := by decide

theorem test_longest_reads_fit_a_frame :
    (State.reset.lineItems.length < 248 ∧ (State.reset.laneStatus 0).length < 248 ∧
      (State.reset.lanes[0].lotProgress true).length < 248) := by decide +kernel

/-! ## Requests -/

theorem test_unknownRequest : nextIs (exec (.unknownRequest 7 0x60 [0]) (asked ⟨7, 0x60, [0]⟩)) (fun s =>
    s.link.output == [⟨7, 0x80, [0x02, 0x60]⟩] && s.link.input == []) = true := by decide +kernel

theorem test_identify :
    answers same .identify 0x01 [9] [0x00, 0x3D, 0x01, 0xB0, 1, 0, 1, 0, 0, 0, 0, 0] = true := by
  decide +kernel

theorem test_saveSettings_accepted : answers same .saveSettings 0x03 [0] [0x01] = true := by decide +kernel

theorem test_badLength : answers same .setScale 0x14 [0, 4, 1] [0x03] = true := by decide +kernel

theorem test_setLaneGeometry_out_of_range :
    answers same .setLaneGeometry 0x11 (List.replicate 27 0) [0x04] = true := by decide +kernel

theorem test_setLaneGeometry_taken : nextIs (takenWith same .setLaneGeometry 0x11
    (0 :: (lane17 State.reset.lanes[0]).cfg.geometry.encode)) (fun s =>
      s.lanes[0].cfg.geometry == (lane17 State.reset.lanes[0]).cfg.geometry) = true := by decide +kernel

theorem test_setTimebase_wrongState : answers (inState .running) .setTimebase 0x13
    [0, 0, 0, 0, 100, 10, 0, 200] [0x05] = true := by decide +kernel

theorem test_setScale_greatest : answers same .setScale 0x14 [0, 64, 0x27, 0x10] [0x00] = true := by
  decide +kernel

theorem test_setScale_above : answers same .setScale 0x14 [0, 65, 0x27, 0x10] [0x04] = true := by
  decide +kernel

theorem test_switchSource_pending :
    answers (inState .running) .switchSource 0x15 [0, 1] [0x00, 1, 0] = true := by decide +kernel

theorem test_switchSource_noChange :
    answers (inState .running) .switchSource 0x15 [0, 0] [0x00, 0, 0] = true := by decide +kernel

theorem test_startLane_noHeads : answers same .startLane 0x17 [0] [0x0A] = true := by decide +kernel

theorem test_startLane_runs : nextIs (takenWith (fun ln => inState .stopped (lane17 ln)) .startLane 0x17 [0])
    (fun s => s.lanes[0].state == .running && s.laneFlag 0 0 && !(s.lanes[1].state == .running)) = true := by
  decide +kernel

theorem test_stopLane_empty_queue : nextIs (takenWith (inState .running) .stopLane 0x18 [0])
    (fun s => s.lanes[0].state == .stopped) = true := by decide +kernel

theorem test_stopLane_with_a_parcel : nextIs (takenWith withFiring .stopLane 0x18 [0])
    (fun s => s.lanes[0].state == .draining && s.lanes[0].queue == [firing17]) = true := by decide +kernel

theorem test_resetLane_flushes : nextIs (takenWith withFiring .resetLane 0x1A [0])
    (fun s => s.lanes[0].queue == [] && s.trace.map (·.detail) == [some 1] &&
      s.lanes[0].stations[0].list == [] && s.lanes[0].lots.filling.outcomes[7] == 1) = true := by
  decide +kernel

theorem test_setClassEntry_head_above_2 :
    answers same .setClassEntry 0x20 [0, 1, 8, 0, 9, 0, 9, 0, 9, 0, 0, 0, 0, 0, 0, 0, 0, 1] [0x04] = true := by
  decide +kernel

theorem test_setClassEntry_taken : nextIs (takenWith same .setClassEntry 0x20
    [63, 1, 1, 5, 9, 0, 9, 0, 9, 1, 0, 0, 0, 0, 0, 2, 7, 255]) (fun s =>
      s.device.classTable[63] == ⟨true, #v[true, false, false], #v[5, 0, 0], #v[9, 9, 9], #v[256, 0, 0],
        .foam, 7, 255⟩) = true := by decide +kernel

theorem test_setProfile_greatest : answers same .setProfile 0x22 [7, 255, 255, 3, 250] [0x00] = true := by
  decide +kernel

theorem test_setProfile_above :
    (answers same .setProfile 0x22 [8, 0, 0, 0, 1] [0x04] && answers same .setProfile 0x22 [7, 0, 0, 4, 1] [0x04] &&
      answers same .setProfile 0x22 [7, 0, 0, 0, 0] [0x04] &&
      answers same .setProfile 0x22 [7, 0, 0, 0, 251] [0x04]) = true := by decide +kernel

theorem test_setStation_count_0 :
    answers same .setStation 0x28 [0, 2, 50, 1, 0, 0, 1, 0, 0, 15, 255, 255, 0, 0, 0] [0x04] = true := by
  decide +kernel

theorem test_enableStation : answers same .enableStation 0x29 [0, 2] [0x00, 5] = true := by decide +kernel

theorem test_disableStation_cuts : nextIs (takenWith withFiring .disableStation 0x2A [0, 0]) (fun s =>
    s.lanes[0].queue == [] && s.trace.map (·.reason) == [.cutStationOff] &&
    s.lanes[0].stations[0].restUntil[9] == some 5) = true := by decide +kernel

theorem test_closeLot_completes :
    answers same .closeLot 0x30 [0, 0, 5] [0x00, 4] = true := by decide +kernel

theorem test_closeLot_same_id : answers same .closeLot 0x30 [0, 0, 0] [0x04] = true := by decide +kernel

theorem test_getLotResult_notFound : answers same .getLotResult 0x33 [0, 0, 0] [0x0B] = true := by
  decide +kernel

theorem test_injectStart : answers (inState .running) .injectStart 0x38 [0, 1, 14, 17, 0, 40, 0, 3, 0, 100]
    [0x00, 7] = true := by decide +kernel

theorem test_injectStart_spacing_15 :
    answers (inState .running) .injectStart 0x38 [0, 1, 14, 17, 0, 40, 0, 3, 0, 15] [0x04] = true := by
  decide +kernel

theorem test_holdFeed : answers same .holdFeed 0x44 [3] [0x00, 10] = true := by decide +kernel

theorem test_lane_4_refused : answers same .holdFeed 0x44 [4] [0x04] = true := by decide +kernel

theorem test_releaseMillTrip : answers same .releaseMillTrip 0x46 [0] [0x00, 0] = true := by decide +kernel

theorem test_readTrace_limits : (answers same .readTrace 0x50 [0] [0x04] &&
    answers same .readTrace 0x50 [13] [0x04] && answers same .readTrace 0x50 [12] [0x00, 0, 0, 0] &&
    answers same .readTrace 0x50 [1] [0x00, 0, 0, 0]) = true := by decide +kernel

theorem test_clearEvents_nonexistent_kind :
    answers same .clearEvents 0x53 [0x20, 0, 0, 0, 0] [0x04] = true := by decide +kernel

theorem test_clearEvents : nextIs (takenWith same .clearEvents 0x53 [0, 0, 0, 0, 1])
    (fun s => s.deviceFlags == 0b10) = true := by decide +kernel

theorem test_setStatusPeriod_limits : (answers same .setStatusPeriod 0x55 [0, 9] [0x04] &&
    answers same .setStatusPeriod 0x55 [0, 10] [0x00] && answers same .setStatusPeriod 0x55 [0xEA, 0x60] [0x00] &&
    answers same .setStatusPeriod 0x55 [0xEA, 0x61] [0x04] &&
    answers same .setStatusPeriod 0x55 [0, 0] [0x00]) = true := by decide +kernel

/-! ## Links, inputs and timers -/

/-- A START_LANE frame joins the input queue. -/
theorem test_plantLinkFrame : nextIs (exec (.plantLinkFrame (onLine (requestBytes ⟨3, 0x17, [0]⟩))) State.reset)
    (fun s => s.link.input == [⟨3, 0x17, [0]⟩] && s.link.goodFrames == 1) = true := by decide +kernel

/-- A frame with a wrong CRC is counted as bad. -/
theorem test_plantLinkFrame_bad_crc : nextIs (exec (.plantLinkFrame (onLine [0xC3, 3, 0, 0x17, 0, 0, 0]))
    State.reset) (fun s => s.link.input == [] && s.link.badFrames == 1) = true := by decide +kernel

theorem test_idle_takes_the_request : nextIs (step (asked ⟨3, 0x17, [0]⟩))
    (fun s => s.pending == [.startLane 3 [0]]) = true := by decide +kernel

theorem test_headIdle : nextIs (exec (.headIdle 2 1 1) State.reset)
    (fun s => s.lanes[2].receivers[1].records == 1 && s.laneFlags == State.reset.laneFlags) = true := by
  decide +kernel

theorem test_detection_of_a_disabled_head :
    nextIs (exec (.detection 0 0 ⟨0, 10, 13, 80, 6, 7, 900⟩) State.reset)
    (fun s => s.lanes[0].receivers[0].errors == 1 && s.laneFlag 0 4) = true := by decide +kernel

/-- Step 1 of section 1.7: the detection of head 0 is admitted with serial 5,123 and lot 311 at lead_ref
40,250 and trail_ref 40,330, with close position 40,700. -/
theorem test_detection_admitted :
    nextIs (exec (.detection 1 0 ⟨0, 10, 13, 80, 6, 7, 900⟩) (laneAs 1 lane17 State.reset)) (fun s =>
      s.lanes[1].queue == [⟨5123, some 311, false, 40250, 40330, 10, 13, [⟨0, 7, 900, 80⟩], none, false,
        .forming 40700⟩] && s.lanes[1].nextSerial == 5124 && s.lanes[1].lots.filling.formed == 1) = true := by
  decide +kernel

theorem test_sensorFrameRejected : nextIs (exec (.sensorFrameRejected 0 2 (onLine [0xA5, 3])) State.reset)
    (fun s => s.lanes[0].receivers[2].errors == 1 && s.laneFlag 0 4) = true := by decide +kernel

theorem test_decodePhases : (decodePhases (false, false) (true, false) = .up ∧
    decodePhases (true, false) (true, true) = .up ∧ decodePhases (true, true) (false, true) = .up ∧
    decodePhases (false, true) (false, false) = .up ∧ decodePhases (false, false) (false, true) = .down ∧
    decodePhases (false, false) (true, true) = .error ∧ decodePhases (true, true) (true, true) = .none) := by
  decide

theorem test_divide : (divide 4 3 true = (0, some true) ∧ divide 4 2 true = (3, none) ∧
    divide 4 0 false = (3, some false) ∧ divide 4 1 false = (0, none)) := by decide

/-- The periods of section 2.9: 186 of 200 fails at 4 percent, 195 of 200 agrees, 197 with a count down
fails. -/
theorem test_settle_agrees : (Settle.agrees 4 ⟨50000, 186, 200, false, false, 0⟩ = false ∧
    Settle.agrees 4 ⟨50400, 195, 200, false, false, 2⟩ = true ∧
    Settle.agrees 4 ⟨50200, 197, 200, true, false, 1⟩ = false) := by decide

theorem test_nominalCount_steps_P : nextIs (exec (.nominalCount 0) (laneAs 0 (fun ln =>
      { lane17 ln with tb := { (lane17 ln).tb with source := .nominal, accumulator := some 1000400 } })
      State.reset)) (fun s => s.lanes[0].tb.p == 40537 && s.lanes[0].tb.pmax == 40537 &&
        s.lanes[0].tb.accumulator == some 400) = true := by decide +kernel

/-- A DRAINING lane with reverse limit 0 whose queue holds one FIRING parcel. -/
def limit0 (ln : Lane) : Lane :=
  { withFiring ln with
    state := .draining
    cfg := { (withFiring ln).cfg with geometry := { (withFiring ln).cfg.geometry with reverseLimit := 0 } } }

/-- The cut taken first completes the drain, and the halt then finds the lane STOPPED (R120, log 13). -/
theorem test_cut_first_completes_the_drain :
    (runEach (Work.act env17) [.cut, .limitHalt] (limit0 State.reset.lanes[1])).lane.state = .stopped ∧
    (runEach (Work.act env17) [.limitHalt, .cut] (limit0 State.reset.lanes[1])).lane.state = .halted := by
  decide +kernel

/-- A step below Pmax past the limit leaves no parcel (R33). -/
theorem test_reverse_limit : nextIs (exec (.encoderPhaseChange 1 false true)
    (laneAs 1 (fun ln => { limit0 ln with
      state := .running
      queue := [{ firing17 with phase := .travelling .metal .passed }]
      tb := { (limit0 ln).tb with p := 40535 } }) State.reset)) (fun s =>
      s.lanes[1].state == .halted && s.lanes[1].queue == [] && s.lanes[1].tb.p == 40534 &&
      s.lanes[1].tb.pmax == 40534) = true := by decide +kernel

/-- A RUNNING lane with its parcel FIRING, a scale of one count a tc and reverse limit 1. -/
def burst (ln : Lane) : Lane :=
  { withFiring ln with
    cfg := { (withFiring ln).cfg with
      scale := 1, geometry := { (withFiring ln).cfg.geometry with reverseLimit := 1 } } }

/-- Two counts down outrun the cut under reverse limit 1; one does not, nor do two with a count up or where a
switch to NOMINAL ends the backward steps (R33, R39; log 19). -/
theorem test_samples_outrun :
    (burst State.reset.lanes[1]).outrunBy 0 [(false, true), (true, true)] = true ∧
    (burst State.reset.lanes[1]).outrunBy 0 [(false, true)] = false ∧
    (burst State.reset.lanes[1]).outrunBy 0 [(false, true), (false, false)] = false ∧
    Lane.outrunBy 0 [(false, true), (true, true)] { burst State.reset.lanes[1] with
      tb := { (burst State.reset.lanes[1]).tb with pendingSwitch := some .toNominal } } = false := by
  decide +kernel

/-- The lane at the last of two samples taken together, P stepped. -/
def fallenTwice : Lane := [(false, true), (true, true)].foldl (Lane.fallen 0) (burst State.reset.lanes[1])

/-- A limit above 0: past it the cut and the flush reach the FIRING parcel in either order, so that it ends CUT
or LOST (R33). -/
theorem test_samples_taken_together : fallenTwice.tb.p = 40534 ∧ fallenTwice.backWorks = [.cut, .limitHalt] ∧
    (runEach (Work.act env17) [.cut, .limitHalt] fallenTwice).lane.lots.filling.outcomes[Outcome.cut.code] = 1 ∧
    (runEach (Work.act env17) [.cut, .limitHalt] fallenTwice).lane.lots.filling.outcomes[Outcome.lost.code] = 0 ∧
    (runEach (Work.act env17) [.limitHalt, .cut] fallenTwice).lane.lots.filling.outcomes[Outcome.lost.code] = 1 ∧
    (runEach (Work.act env17) [.limitHalt, .cut] fallenTwice).lane.lots.filling.outcomes[Outcome.cut.code] = 0 := by
  decide +kernel

/-- A backward step that no other follows cuts at once, and the columns rest (R32, R105, R108). -/
theorem test_lone_backward_step_cuts : nextIs (exec (.encoderPhaseChange 1 false true) (laneAs 1 burst
      { State.reset with lineTime := 1000 })) (fun s => s.lanes[1].queue == [] && s.lanes[1].tb.p == 40535 &&
    s.lanes[1].tb.pmax == 40536 && s.trace.map (·.reason) == [.cutReverse] && s.held[1] == [] &&
    s.lanes[1].stations[0].restUntil[9] == some 1005 && s.lanes[1].state == .running) = true := by decide +kernel

/-- Step 5 of section 1.7: the end position removes the parcel as EJECTED. -/
theorem test_firing_ends : nextIs (exec (.nominalCount 1) (laneAs 1 (fun ln => { withFiring ln with
      tb := { (withFiring ln).tb with source := .nominal, p := 41570, pmax := 41570, accumulator := some 1000000 } })
      State.reset)) (fun s => s.lanes[1].queue == [] && s.lanes[1].lots.filling.outcomes[0] == 1 &&
        s.lanes[1].lots.filling.ejected[0] == 1 && s.lanes[1].lots.filling.areas[0] == 420 &&
        s.lanes[1].stations[0].list == []) = true := by decide +kernel

theorem test_maxOpenTimeExpiry : nextIs (exec (.maxOpenTimeExpiry 1 5123)
    { laneAs 1 withFiring State.reset with lineTime := 120 }) (fun s => s.lanes[1].queue == [] &&
      s.trace.map (·.reason) == [.cutMaxopen] && s.lanes[1].lots.filling.outcomes[1] == 1) = true := by
  decide +kernel

theorem test_air_loss_cuts : nextIs (exec (.rawAirOkChange 1 false) ((laneAs 1 withFiring State.reset).setRaw 7 true))
    (fun s => s.lanes[1].queue == [] && s.trace.map (·.reason) == [.cutAir]) = true := by decide +kernel

theorem test_plant_stop_halts : nextIs (exec .rawPlantStopAsserted (laneAs 1 withFiring State.reset))
    (fun s => s.lanes[1].state == .halted && s.lanes[1].haltCause == .plantStop && s.lanes[1].queue == [] &&
      s.lanes[0].state == .stopped && s.millFeedHold && s.deviceFlag 5) = true := by decide +kernel

/-- The debounced DRIVE_RUN of a lane asserted. -/
def driving (l : LaneId) (s : State) : State := { s with lines := s.lines.settle (driveLine l) true }

/-- A lane with a FIRING parcel, a scale pending beside a residue, and its monitor armed at 0. -/
def rescaled (ln : Lane) : Lane :=
  { withFiring ln with tb := { (withFiring ln).tb with pendingScale := some 8, residue := 2, monitor := some 0 } }

/-- The pending scale of `rescaled` is in force with a residue of 0. -/
def took8 (ln : Lane) : Bool := ln.cfg.scale == 8 && ln.tb.pendingScale == none && ln.tb.residue == 0

/-- A drain's completion, RESET_LANE and a halt bring a pending scale into force and disarm the monitor; a
STOP_LANE that leaves parcels in the queue does neither (R28, R34, R47). -/
theorem test_pending_scale_taken :
    nextIs (exec (.stopLane 7 [0]) (driving 0 (laneAs 0 (fun ln => { rescaled ln with queue := [] })
      (asked ⟨7, 0x18, [0]⟩)))) (fun s => took8 s.lanes[0] && s.lanes[0].tb.monitor == none) = true ∧
    nextIs (exec (.stopLane 7 [0]) (driving 0 (laneAs 0 rescaled (asked ⟨7, 0x18, [0]⟩)))) (fun s =>
      s.lanes[0].tb.pendingScale == some 8 && s.lanes[0].tb.residue == 2 && s.lanes[0].tb.monitor == some 0) = true ∧
    nextIs (takenWith rescaled .resetLane 0x1A [0]) (fun s =>
      took8 s.lanes[0] && s.lanes[0].tb.monitor == none) = true ∧
    nextIs (exec .rawPlantStopAsserted (driving 1 (laneAs 1 rescaled State.reset))) (fun s =>
      took8 s.lanes[1] && s.lanes[1].tb.monitor == none) = true ∧
    nextIs (exec (.maxOpenTimeExpiry 1 5123) { driving 1 (laneAs 1 (fun ln => inState .draining (rescaled ln))
      State.reset) with lineTime := 120 }) (fun s =>
      took8 s.lanes[1] && s.lanes[1].state == .stopped && s.lanes[1].tb.monitor == none) = true := by
  decide +kernel

/-- The encoder monitor arms at a debounced rise of DRIVE_RUN on a lane that runs on ENCODER, with the line time
kept, and a fall disarms it (R34, R155). -/
theorem test_driveRun_arms_the_monitor :
    nextIs (exec (.debounceExpiry 6) { laneAs 1 lane17 State.reset with
      lineTime := 60
      lines := ⟨State.reset.lines.raw.set 6 true, State.reset.lines.debounced,
        State.reset.lines.candidate.set 6 (some 0)⟩ })
      (fun s => s.lanes[1].tb.monitor == some 60 && s.lanes[1].tb.accumulator == some 0) = true ∧
    nextIs (exec (.debounceExpiry 6) { driving 1 (laneAs 1 rescaled State.reset) with
      lineTime := 60
      lines := ⟨State.reset.lines.raw, State.reset.lines.debounced.set 6 true,
        State.reset.lines.candidate.set 6 (some 0)⟩ })
      (fun s => s.lanes[1].tb.monitor == none && s.lanes[1].tb.accumulator == none) = true := by decide +kernel

theorem test_debounce : nextIs (exec (.debounceExpiry 24)
    { State.reset with
      lineTime := 10
      lines := ⟨State.reset.lines.raw.set 24 true, State.reset.lines.debounced,
        State.reset.lines.candidate.set 24 (some 0)⟩ })
    (fun s => s.millTripLatch && s.deviceFlag 4 && s.millFeedHold) = true := by decide +kernel

theorem test_valveBarFrameSent : nextIs (exec (.valveBarFrameSent 3 2) State.reset)
    (fun s => s.lanes[3].stations[2].port.sending == none &&
      s.lanes[3].stations[1].port.sending.isSome) = true := by decide +kernel

theorem test_lotTimeAccrual : nextIs (exec .lotTimeAccrual
    { laneAs 1 lane17 State.reset with micros := 1000 })
    (fun s => s.lineTime == 1 && s.micros == 0 && s.lanes[1].lots.filling.holdMs == 1 &&
      s.lanes[0].lots.filling.holdMs == 0) = true := by decide +kernel

theorem test_power_cycle : nextIs (exec .powerLost (laneAs 1 withFiring State.reset)) (fun s =>
    nextIs (exec .powerApplied s) fun t => nextIs (exec .partBeginsToWork t) fun u =>
      u.phase == .working && u.lanes == State.reset.lanes) = true := by decide +kernel

theorem test_reset_line : nextIs (exec .rstNAsserted State.reset) (fun s => s.millFeedHold &&
    nextIs (exec .rstNReleased s) fun t => t.phase == .starting && t.resetCause == .resetLine) = true := by
  decide +kernel

/-- Without supply the step on an empty queue keeps the part so or applies its supply (log 4). -/
theorem test_supply : nextIs (step { State.reset with phase := .unpowered }) (fun s =>
    (s.phase == .unpowered || s.phase == .settling) && s.choices == 1) = true := by
  show nextIs (.next (State.idleDown { State.reset with phase := .unpowered })) _ = true
  unfold State.idleDown
  rcases Nat.mod_two_eq_zero_or_one (Config.pick 0 0) with h | h <;> simp [nextIs, h, State.reset, State.supplied, State.chosen]

/-- From the application of the supply to its settling the feed holds are asserted (R194). -/
theorem test_settling_holds_feed : ({ State.reset with phase := .settling } : State).millFeedHold = true ∧
    nextIs (exec .powerApplied { State.reset with phase := .settling }) (fun s =>
      s.phase == .starting && s.resetCause == .powerOn) = true := by decide +kernel

/-! ## Classification -/

/-- Section 1.7, step 3: fire position 41,417, end position 41,571, columns 9 to 15. -/
theorem test_judge_schedules : (lane17 State.reset.lanes[1]).judge env17 firing17 .metal (some 0)
    ⟨30, 40, 1, 120⟩ = .scheduled ⟨.metal, 0, 41417, 41571⟩ 0xFE00 120 := by decide +kernel

/-- A fire position exactly at Pmax is late (R83). -/
theorem test_judge_late : ({ lane17 State.reset.lanes[1] with tb :=
      { State.reset.lanes[1].tb with pmax := 41417 } } : Lane).judge env17 firing17 .metal (some 0)
    ⟨30, 40, 1, 120⟩ = .late 0 := by decide +kernel

theorem test_failedCheck_passes : (lane17 State.reset.lanes[1]).cfg.geometry.failedCheck = none := by
  decide +kernel

theorem test_removal_report_area : (firing17.report (Vector.replicate 64 .factory) .ejected).area = 420 := by
  decide +kernel

/-- Counts are compared modulo 2^32 with the limit (R135): a count 2^31 past it no longer reaches it. -/
theorem test_lot_limit_wraps :
    ({ LotRecord.fresh 0 1 0 with formed := 5 } : LotRecord).reached 5 = true ∧
    ({ LotRecord.fresh 0 1 0 with formed := 4 } : LotRecord).reached 5 = false ∧
    ({ LotRecord.fresh 0 1 0 with formed := 0x80000004 } : LotRecord).reached 5 = true ∧
    ({ LotRecord.fresh 0 1 0 with formed := 0x80000005 } : LotRecord).reached 5 = false := by decide

/-- The parcels of the draining lot still in the queue, at most 256, take 2 bytes (R146, R179). -/
theorem test_lotProgress_width :
    (State.reset.lanes[0].lotProgress true).length = (lotItem none).length + 3 + 3 + 1 + 2 + 1 := by
  decide +kernel

/-! ## Witnesses: states and operands that meet the hypotheses of each statement -/

/-- The request waits from reset with lane 0 changed, and may be taken. -/
def takeableOn (f : Lane → Lane) (code : Byte) (payload : List Byte) : Bool :=
  (laneAs 0 f (asked ⟨7, code, payload⟩)).takeable ⟨7, code, payload⟩

/-- The request waits from reset and may be taken. -/
def ready (code : Byte) (payload : List Byte) : Bool := takeableOn same code payload

/-- Lane 0 of the state that `takeableOn` speaks of. -/
def laneOf (f : Lane → Lane) (code : Byte) (payload : List Byte) : Lane :=
  (laneAs 0 f (asked ⟨7, code, payload⟩)).lanes[0]

/-- A part with no supply. -/
def unpowered (held : Bool) : State := { State.reset with phase := .unpowered, rstAsserted := held }

/-- A part whose supply has not settled. -/
def settling (held : Bool) : State := { State.reset with phase := .settling, rstAsserted := held }

theorem witness_EmptyQueueRunsClock :
    (({ State.reset with phase := .held .resetLine } : State).pending = [] ∧
      ({ State.reset with phase := .held .resetLine } : State).live = false ∧
      ({ State.reset with phase := .held .resetLine } : State).phase ≠ .unpowered) ∧
    ((unpowered false).pending = [] ∧ (unpowered false).phase = .unpowered) ∧
    (State.reset.pending = [] ∧ State.reset.live = true ∧ State.reset.due = []) ∧
    ((asked ⟨7, 0x41, [0]⟩).pending = [] ∧ (asked ⟨7, 0x41, [0]⟩).live = true ∧
      (asked ⟨7, 0x41, [0]⟩).due ≠ []) := by decide +kernel

theorem witness_StartUpFromEachCause :
    ((unpowered false).phase = .unpowered ∧ (unpowered false).rstAsserted = false) ∧
    ((settling false).phase = .settling ∧ (settling false).rstAsserted = false) ∧
    ((unpowered true).phase = .unpowered ∧ (unpowered true).rstAsserted = true) ∧
    ((settling true).phase = .settling ∧ (settling true).rstAsserted = true) ∧
    ({ State.reset with phase := .held .resetLine } : State).phase = .held .resetLine ∧
    (({ State.reset with link := { Link.powerOn with resetTaken := true, output := [⟨7, 0x82, [0]⟩] } } : State).phase
      = .working ∧
    ({ State.reset with link := { Link.powerOn with resetTaken := true, output := [⟨7, 0x82, [0]⟩] } } : State).link.output
      = ⟨7, 0x82, [0x00]⟩ :: []) := by decide +kernel

theorem witness_ResetAndPowerLossCutOff :
    (State.reset.phase ≠ .unpowered ∧ State.reset.phase ≠ .settling) ∧ (settling true).phase = .settling ∧
    ({ State.reset with phase := .held .powerOn } : State).phase = .held .powerOn := by decide +kernel

theorem witness_PartBeginsToWork : (State.reset.startUp .powerOn).phase = .starting := by decide +kernel

theorem witness_PlantLinkReception :
    (State.reset.phase = .working ∧ State.reset.link.asm = ⟨.hunt, [], none⟩ ∧
      payloadWf [0] = true ∧ payloadWf (List.replicate 248 0) = true) ∧
    ([0, 0] ≠ crcBytes (byte 3 :: [0, 0x17, 0]) ∧
      [0, 0] ≠ crcBytes (byte 250 :: List.replicate 250 0)) ∧
    ((2 : Byte).toNat < 3 ∧ 250 < (251 : Byte).toNat) ∧
    ({ State.reset with link := { Link.powerOn with asm := ⟨.check, [3, 0, 0x17, 0], some 0⟩ } } : State).link.asm.phase
      ≠ .hunt ∧
    ((⟨0x00, true⟩ : LineByte).data ≠ 0xC3 ∧ (⟨0xC3, false⟩ : LineByte).stopBit = false) ∧
    (({ State.reset with
        lineTime := 3
        link := { Link.powerOn with asm := ⟨.length, [], some 0⟩ } } : State).link.asm.lastByte = some 0 ∧
      2 < ((3 : Time) - 0).toNat) := by decide +kernel

theorem witness_UnknownRequestAnswered : ready 0x60 [0] = true ∧ isRequestCode 0x60 = false := by
  decide +kernel

theorem witness_RequestTakerChecks :
    (codedRequest 0x14 7 [0] = some (.setScale 7 [0]) ∧ ((0x14 : Byte).toNat, 4) ∈ requestLengths ∧
      ready 0x14 [0] = true) ∧
    (codedRequest 0x55 7 [0, 1, 2] = some (.setStatusPeriod 7 [0, 1, 2]) ∧
      ((0x55 : Byte).toNat, 2) ∈ requestLengths ∧ ready 0x55 [0, 1, 2] = true) ∧
    ((0x45 : Byte).toNat ∈ laneCodes ∧ ready 0x45 [4] = true ∧ 3 < item [4] 0 1 ∧
      codedRequest 0x45 7 [4] = some (.releaseFeed 7 [4]) ∧ ((0x45 : Byte).toNat, 1) ∈ requestLengths) ∧
    ((0x2B : Byte).toNat ∈ stationCodes ∧ ready 0x2B [0, 3] = true ∧ 2 < item [0, 3] 1 1 ∧
      codedRequest 0x2B 7 [0, 3] = some (.getStationStatus 7 [0, 3]) ∧
      ((0x2B : Byte).toNat, 2) ∈ requestLengths) ∧
    State.reset.takeable ⟨7, 0x14, [0]⟩ = false := by decide +kernel

/-- A part that has taken a RESET_DEVICE with a notice ahead of its reply. -/
def resetting : State := { State.reset with link := { Link.powerOn with
  resetTaken := true, output := [⟨0, 0xFA, [0, 0, 0, 0]⟩, ⟨7, 0x82, [0]⟩] } }

/-- The notice goes out first, and the part works on; the reset is taken at the reply (R189). -/
theorem test_frames_ahead_of_the_reset_reply : nextIs (exec .frameSent resetting) (fun s =>
    s.phase == .working && s.link.output == [⟨7, 0x82, [0]⟩] && s.link.noticesSent == 1 &&
    nextIs (exec .frameSent s) fun t => t.phase == .starting && t.resetCause == .resetRequest) = true := by
  decide +kernel

theorem witness_FrameSentLeavesQueue :
    ({ State.reset with link := { Link.powerOn with output := [⟨0, 0xFA, [0, 0, 0, 0]⟩] } } : State).link.output
      = ⟨0, 0xFA, [0, 0, 0, 0]⟩ :: [] ∧ State.reset.phase = .working ∧
    State.reset.link.resetTaken = false ∧
    (resetting.phase = .working ∧ resetting.link.resetTaken = true ∧
      resetting.link.output = ⟨0, 0xFA, [0, 0, 0, 0]⟩ :: [⟨7, 0x82, [0]⟩]) ∧
    ∀ tag : Byte, (⟨0, 0xFA, [0, 0, 0, 0]⟩ : Frame) ≠ ⟨tag, 0x82, [0x00]⟩ := by
  refine ⟨by decide +kernel, by decide +kernel, by decide +kernel, by decide +kernel, fun tag h => ?_⟩
  cases congrArg Frame.kind h

theorem witness_DeviceReadsReply : ready 0x01 [0] = true ∧ ready 0x04 [0] = true ∧ ready 0x04 [255] = true ∧
    ready 0x41 [0] = true := by decide +kernel

theorem witness_ResetDeviceAnswered : ready 0x02 [0] = true := by decide +kernel

theorem witness_SavingSettings : ready 0x03 [0] = true ∧
    State.reset.beginSave.store.saving = some State.reset.snapshot := by decide +kernel

theorem witness_GetLaneStatusReplies : ready 0x10 [byte 3, 0] = true ∧ ready 0x10 [byte 0, 255] = true := by
  decide +kernel

/-- The greatest geometry in range. -/
def widest : Geometry := ⟨#v[true, true, true], #v[4095, 4095, 4095], #v[true, true, true],
  #v[16383, 1, 16383], #v[.metal, .plastic, .foam], 16383, 255, 1023⟩

/-- That geometry for lane 0, head 0 turned on by a byte other than 1. -/
def widestPayload : List Byte := [0, 255] ++ widest.encode.drop 1

theorem witness_LaneGeometrySetAndRead :
    (widest.inRange ∧ ready 0x11 (byte 0 :: widest.encode) = true ∧ State.reset.lanes[0].state = .stopped) ∧
    (widest.spelledBy widestPayload ∧ widestPayload.length = 27 ∧ item widestPayload 0 1 = (0 : LaneId).val ∧
      ready 0x11 widestPayload = true ∧ takeableOn (inState .halted) 0x11 widestPayload = true ∧
      (laneOf (inState .halted) 0x11 []).state ≠ .stopped) ∧
    ((∀ g : Geometry, g.spelledBy (List.replicate 27 0) → ¬g.inRange) ∧
      ready 0x11 (List.replicate 27 0) = true) ∧
    ready 0x12 [byte 0] = true := by
  refine ⟨⟨by unfold Geometry.inRange; decide, by decide +kernel, by decide +kernel⟩,
    ⟨by unfold Geometry.spelledBy; decide, by decide, by decide, by decide +kernel, by decide +kernel,
      by decide +kernel⟩, ⟨fun g hs hr => ?_, by decide +kernel⟩, by decide +kernel⟩
  have h1 : g.exitDistance = 0 := hs.2.2.1
  have h2 : 1 ≤ g.exitDistance := hr.2.2.1.1
  omega

/-- The geometry of section 1.7 with other distances, exit distance and fractions. -/
def measured (distances : Vector Nat 3) (exit : Nat) (fractions : Vector ChuteFraction 3) (ln : Lane) : Lane :=
  { ln with cfg := { ln.cfg with geometry := { (lane17 ln).cfg.geometry with
      stationDistance := distances, exitDistance := exit, stationFraction := fractions } } }

/-- The nearest stations and exit that pass, and the four checks failed by one tc or one fraction. -/
def passing : Lane → Lane := measured #v[371, 372, 373] 629 #v[.metal, .plastic, .foam]
def failing1 : Lane → Lane := measured #v[371, 373, 373] 629 #v[.metal, .plastic, .foam]
def failing2 : Lane → Lane := measured #v[370, 372, 373] 629 #v[.metal, .plastic, .foam]
def failing3 : Lane → Lane := measured #v[371, 372, 373] 628 #v[.metal, .plastic, .foam]
def failing4 : Lane → Lane := measured #v[371, 372, 373] 629 #v[.metal, .plastic, .metal]

/-- Lane 0 of the part after reset, changed. -/
def from0 (f : Lane → Lane) : Geometry := (f State.reset.lanes[0]).cfg.geometry

theorem test_failedCheck_edges : (from0 passing).failedCheck = none ∧
    (from0 failing1).failedCheck = some (1, some 2) ∧ (from0 failing2).failedCheck = some (2, some 0) ∧
    (from0 failing3).failedCheck = some (3, none) ∧ (from0 failing4).failedCheck = some (4, some 2) := by
  decide +kernel

/-- START_LANE arms the monitor where the run's source is ENCODER and DRIVE_RUN is asserted, and not for a
two-stage start (R45, R118). -/
theorem test_startLane_arms_the_monitor :
    nextIs (exec (.startLane 7 [0]) { driving 0 (laneAs 0 passing (asked ⟨7, 0x17, [0]⟩)) with lineTime := 50 })
      (fun s => s.lanes[0].tb.monitor == some 50) = true ∧
    nextIs (takenWith passing .startLane 0x17 [0]) (fun s => s.lanes[0].tb.monitor == none) = true ∧
    nextIs (exec (.startLane 7 [0]) (driving 0 (laneAs 0 (fun ln => { passing ln with
      cfg := { (passing ln).cfg with setup := { ln.cfg.setup with twoStage := true } } }) (asked ⟨7, 0x17, [0]⟩))))
      (fun s => s.lanes[0].state == .running && s.lanes[0].tb.monitor == none) = true := by decide +kernel

theorem witness_StartLaneRuns :
    takeableOn passing 0x17 [byte 0] = true ∧ (laneOf passing 0x17 [byte 0]).state = .stopped ∧
    (asked ⟨7, 0x17, [byte 0]⟩).plantStop = false ∧ (from0 passing).headEnable[0] = true ∧
    (from0 passing).Reaches 350 ∧ (from0 passing).PassesTo 350 4 :=
  ⟨by decide +kernel, by decide +kernel, by decide +kernel, by decide +kernel,
    by unfold Geometry.Reaches; decide +kernel, failedCheck_none test_failedCheck_edges.1⟩

theorem witness_StartLaneRefusals :
    (ready 0x17 [4] = true ∧ 3 < (4 : Byte).toNat) ∧
    (ready 0x17 [3] = true ∧ (3 : Byte) = byte 3) ∧
    (laneOf (inState .halted) 0x17 [0]).state ≠ .stopped ∧
    ((laneOf same 0x17 [0]).state = .stopped ∧ ∀ h : HeadId, (laneOf same 0x17 [0]).cfg.geometry.headEnable[h] = false) ∧
    (takeableOn failing1 0x17 [0] = true ∧ (from0 failing1).headEnable[0] = true ∧
      (laneOf failing1 0x17 [0]).state = .stopped) ∧
    ((from0 failing1).PassesTo 350 0 ∧ (from0 failing1).Fails 350 1 (some 2)) ∧
    ((from0 failing2).PassesTo 350 1 ∧ (from0 failing2).Fails 350 2 (some 0)) ∧
    ((from0 failing3).PassesTo 350 2 ∧ (from0 failing3).Fails 350 3 none) ∧
    ((from0 failing4).PassesTo 350 3 ∧ (from0 failing4).Fails 350 4 (some 2)) :=
  ⟨by decide +kernel, by decide +kernel, by decide +kernel, by decide +kernel, by decide +kernel,
    failedCheck_some test_failedCheck_edges.2.1, failedCheck_some test_failedCheck_edges.2.2.1,
    failedCheck_some test_failedCheck_edges.2.2.2.1, failedCheck_some test_failedCheck_edges.2.2.2.2⟩

theorem witness_StopLaneDrains : takeableOn (inState .running) 0x18 [byte 0] = true ∧
    takeableOn (inState .draining) 0x18 [byte 0] = true ∧ takeableOn (inState .halted) 0x18 [byte 0] = true ∧
    (laneOf (inState .running) 0x18 [byte 0]).state = .running ∧
    (laneOf (inState .running) 0x18 [byte 0]).queue = [] ∧ takeableOn rescaled 0x18 [byte 0] = true ∧
    (laneOf rescaled 0x18 [byte 0]).state = .running ∧ (laneOf rescaled 0x18 [byte 0]).queue ≠ [] := by
  decide +kernel

theorem witness_ClearHaltReturnsToStopped : ready 0x19 [4] = true ∧ 3 < (4 : Byte).toNat ∧
    takeableOn (inState .halted) 0x19 [0] = true ∧ (0 : Byte) = byte 0 ∧
    (laneOf (inState .halted) 0x19 [0]).state = .halted ∧ (asked ⟨7, 0x19, [0]⟩).plantStop = false ∧
    (laneOf same 0x19 [0]).state ≠ .halted := by decide +kernel

/-- A lane whose lots agree with its queue: a parcel of the draining lot 310 and one of the filling lot 311,
with the filling lot's close pending. -/
def twoLots (ln : Lane) : Lane :=
  { withFiring ln with
    queue := [{ firing17 with serial := 5122, lot := some 310, lead := 40200, phase := .travelling .metal .passed },
      firing17]
    lots := { (withFiring ln).lots with
      filling := { LotRecord.fresh 1 311 0 with formed := 1 }
      draining := some { LotRecord.fresh 1 310 0 with formed := 1, closeCause := some .limit }
      pendingClose := true } }

theorem twoLots_agree : (twoLots State.reset.lanes[0]).LotsAgree :=
  ⟨by decide +kernel, by unfold LotRecord.Agrees; decide +kernel,
    by rintro d ⟨⟩; exact ⟨by unfold LotRecord.Agrees; decide +kernel, by decide +kernel, by decide +kernel⟩,
    by decide +kernel⟩

/-- A lane at rest whose draining lot has a parcel more than its outcomes account for. -/
def draining9 (ln : Lane) : Lane :=
  { ln with lots := { ln.lots with
      draining := some { LotRecord.fresh 0 9 0 with formed := 1, closeCause := some .host } } }

theorem test_resetLane_completes_two_lots : nextIs (takenWith twoLots .resetLane 0x1A [0]) (fun s =>
    s.lanes[0].lots.ring.map (·.id) == [310, 311] && s.lanes[0].lots.filling.id == 312 &&
      s.lanes[0].lots.draining == none && s.trace.map (fun e => (e.lot, e.detail)) == [(some 312, some 2)]) = true := by
  decide +kernel

theorem witness_ResetLaneEndsAll :
    (takeableOn withFiring 0x1A [byte 0] = true ∧ (laneOf withFiring 0x1A [byte 0]).active = true ∧
      (laneOf withFiring 0x1A [byte 0]).lots.pendingClose = false) ∧
    (takeableOn twoLots 0x1A [byte 0] = true ∧ (laneOf twoLots 0x1A [byte 0]).active = true ∧
      (laneOf twoLots 0x1A [byte 0]).LotsAgree ∧ (laneOf twoLots 0x1A [byte 0]).lots.pendingClose = true) ∧
    (takeableOn draining9 0x1A [byte 0] = true ∧ (laneOf draining9 0x1A [byte 0]).active = false ∧
      ∃ d, (laneOf draining9 0x1A [byte 0]).lots.draining = some d ∧ d.closeCause = some .host ∧
        (laneOf draining9 0x1A [byte 0]).lots.pendingClose = false) :=
  ⟨by decide +kernel, ⟨by decide +kernel, by decide +kernel, by
      have h : laneOf twoLots 0x1A [byte 0] = twoLots State.reset.lanes[0] := by decide +kernel
      rw [h]
      exact twoLots_agree, by decide +kernel⟩,
    ⟨by decide +kernel, by decide +kernel, _, rfl, rfl, rfl⟩⟩

theorem witness_InjectionStartsAndStops :
    (takeableOn (inState .running) 0x38 ([byte 0, byte 2, byte 31, byte 31] ++
      beBytes 2 4095 ++ beBytes 2 65535 ++ beBytes 2 16383) = true ∧
    (laneOf (inState .running) 0x38 []).state = .running) ∧
    ((∀ inj : Injection, inj.spelledBy 0 [0, 2, 31, 31, 0x0F, 0xFF, 0, 0, 0, 15] → ¬inj.inRange) ∧
      ready 0x38 [0, 2, 31, 31, 0x0F, 0xFF, 0, 0, 0, 15] = true) ∧
    ((⟨2, 31, 31, 4095, 16, none, 16⟩ : Injection).spelledBy 0 [0, 2, 31, 31, 0x0F, 0xFF, 0, 0, 0, 16] ∧
      (⟨2, 31, 31, 4095, 16, none, 16⟩ : Injection).inRange ∧
      ready 0x38 [0, 2, 31, 31, 0x0F, 0xFF, 0, 0, 0, 16] = true ∧ State.reset.lanes[0].state ≠ .running) ∧
    ready 0x39 [byte 3] = true := by
  refine ⟨by decide +kernel, ⟨fun inj hs hr => ?_, by decide +kernel⟩,
    ⟨by unfold Injection.spelledBy; decide, by unfold Injection.inRange; decide, by decide +kernel,
      by decide +kernel⟩, by decide +kernel⟩
  have h1 : inj.spacing = 15 := hs.2.2.2.2.2.1
  have h2 : 16 ≤ inj.spacing := hr.2.2.1
  omega

theorem witness_TimebaseSet :
    ((⟨.nominal, true, 1000, 50, 2000⟩ : TimebaseSetup).inRange ∧
      ready 0x13 (byte 3 :: (⟨.nominal, true, 1000, 50, 2000⟩ : TimebaseSetup).encode) = true ∧
      State.reset.lanes[3].state = .stopped ∧ State.reset.lanes[3].tb.pendingSwitch = none) ∧
    ((∀ t : TimebaseSetup, t.spelledBy [0, 2, 0, 0, 100, 10, 0, 200] → ¬t.inRange) ∧
      ready 0x13 [0, 2, 0, 0, 100, 10, 0, 200] = true) ∧
    ((⟨.encoder, true, 2, 1, 10⟩ : TimebaseSetup).spelledBy [0, 0, 255, 0, 2, 1, 0, 10] ∧
      (⟨.encoder, true, 2, 1, 10⟩ : TimebaseSetup).inRange ∧ ready 0x13 [0, 0, 255, 0, 2, 1, 0, 10] = true) := by
  refine ⟨⟨by unfold TimebaseSetup.inRange; decide, by decide +kernel⟩, ⟨fun t hs _ => ?_, by decide +kernel⟩,
    by unfold TimebaseSetup.spelledBy; decide, by unfold TimebaseSetup.inRange; decide, by decide +kernel⟩
  have h1 : t.source.code = 2 := hs.1
  cases hc : t.source <;> rw [hc] at h1 <;> cases h1

/-- A RUNNING lane on NOMINAL with a switch to ENCODER pending from line time 0. -/
def switching (ln : Lane) : Lane :=
  { ln with state := .running, tb := { ln.tb with
      source := .nominal, pendingSwitch := some (.toEncoder (.begin 0)) } }

theorem witness_ScaleSet : ready 0x14 ([byte 0, byte 64] ++ beBytes 2 10000) = true ∧
    (laneOf same 0x14 []).tb.pendingSwitch = none ∧
    takeableOn switching 0x14 ([byte 0, byte 1] ++ beBytes 2 1) = true ∧
    (laneOf switching 0x14 []).tb.pendingSwitch ≠ none ∧
    (ready 0x14 [0, 0, 0, 1] = true ∧ item [0, 0, 0, 1] 1 1 = 0) ∧
    (ready 0x14 [0, 65, 0, 1] = true ∧ 64 < item [0, 65, 0, 1] 1 1) ∧
    (ready 0x14 [0, 1, 0, 0] = true ∧ item [0, 1, 0, 0] 2 2 = 0) ∧
    (ready 0x14 [0, 1, 0x27, 0x11] = true ∧ 10000 < item [0, 1, 0x27, 0x11] 2 2) := by decide +kernel

theorem witness_SourceSwitchRequested :
    takeableOn (inState .running) 0x15 [byte 0, if Source.nominal = .encoder then 0 else 1] = true ∧
    (laneOf (inState .running) 0x15 []).state = .running ∧
    (ready 0x15 [byte 0, 2] = true ∧ 1 < (2 : Byte).toNat) ∧
    (ready 0x15 [byte 0, 1] = true ∧ (1 : Byte).toNat ≤ 1 ∧ (laneOf same 0x15 []).state ≠ .running) ∧
    ready 0x16 [byte 0] = true := by decide +kernel

/-- A RUNNING lane one decoder count below a completion, with a switch to NOMINAL pending. -/
def atEdge (ln : Lane) : Lane :=
  { ln with state := .running, tb := { ln.tb with
      residue := ln.cfg.scale - 1, pendingSwitch := some .toNominal } }

/-- A RUNNING lane two tc below its Pmax. -/
def reversed (ln : Lane) : Lane := { lane17 ln with tb := { (lane17 ln).tb with p := 40534 } }

theorem witness_EncoderMovesP : State.reset.phase = .working ∧
    ((false, false) = State.reset.lanes[0].tb.phases) ∧
    ((true, true) = (!State.reset.lanes[0].tb.phases.1, !State.reset.lanes[0].tb.phases.2)) ∧
    ((true, false) = (!State.reset.lanes[0].tb.phases.2, State.reset.lanes[0].tb.phases.1) ∧
      State.reset.lanes[0].tb.source = .encoder ∧
      (¬State.reset.lanes[0].cfg.scale ≤ State.reset.lanes[0].tb.residue + 1) ∧
      (atEdge State.reset.lanes[0]).cfg.scale ≤ (atEdge State.reset.lanes[0]).tb.residue + 1 ∧
      (atEdge State.reset.lanes[0]).tb.pendingSwitch = some .toNominal ∧
      State.reset.lanes[0].active = false ∧ (reversed State.reset.lanes[1]).active = true ∧
      ahead (reversed State.reset.lanes[1]).tb.pmax ((reversed State.reset.lanes[1]).tb.p + 1) = false) ∧
    ((false, true) = (State.reset.lanes[0].tb.phases.2, !State.reset.lanes[0].tb.phases.1) ∧
      State.reset.lanes[0].tb.residue = 0 ∧ (withFiring State.reset.lanes[1]).active = true ∧
      (withFiring State.reset.lanes[1]).tb.p = (withFiring State.reset.lanes[1]).tb.pmax ∧
      (∀ p ∈ (reversed State.reset.lanes[1]).queue, p.isFiring = false) ∧
      (∃ p ∈ (withFiring State.reset.lanes[1]).queue, p.isFiring = true) ∧
      ((withFiring State.reset.lanes[1]).queue.map (·.serial)).Nodup ∧
      ((withFiring State.reset.lanes[1]).tb.pmax - ((withFiring State.reset.lanes[1]).tb.p - 1)).toNat ≤
        (withFiring State.reset.lanes[1]).cfg.geometry.reverseLimit ∧
      (limit0 State.reset.lanes[1]).cfg.geometry.reverseLimit <
        ((limit0 State.reset.lanes[1]).tb.pmax - ((limit0 State.reset.lanes[1]).tb.p - 1)).toNat ∧
      (reversed State.reset.lanes[1]).tb.p ≠ (reversed State.reset.lanes[1]).tb.pmax ∧
      ((reversed State.reset.lanes[1]).tb.pmax - ((reversed State.reset.lanes[1]).tb.p - 1)).toNat ≤
        (reversed State.reset.lanes[1]).cfg.geometry.reverseLimit) := by decide +kernel

/-- A part whose lane 1 holds a sample back, and the sample that outruns the cut with it at the front of the
queue. -/
def outrunning : State :=
  { (laneAs 1 burst State.reset).setRaw 7 true with
    held := State.reset.held.set 1 [(false, true)], pending := [.encoderPhaseChange 1 true true] }

theorem outrunning_ahead : outrunning.OutrunAhead 1 outrunning.held[1] :=
  (outrunAhead_iff outrunning 1 _ (by decide +kernel)).mpr (by decide +kernel)

/-- A sample that may be held back, and one that is taken with the sample held before it. -/
theorem witness_EncoderMovesP_outrun :
    outrunning.lanes[1].Outruns outrunning.lineTime outrunning.held[1] (true, true) ∧
    outrunning.OutrunAhead 1 ([] ++ [(false, true)]) ∧
    (outrunning.lanes[1].queue.map (·.serial)).Nodup ∧ outrunning.lanes[1].queue.Pairwise Parcel.StandsBefore := by
  refine ⟨?_, outrunning_ahead, by decide +kernel, List.pairwise_singleton ..⟩
  by_contra h
  have h2 := (earlier_cases outrunning 1 (true, true)).2 h
  revert h2
  decide +kernel

/-- A RUNNING lane on NOMINAL whose switch to ENCODER has agreed. -/
def agreedSwitch (ln : Lane) : Lane :=
  { ln with state := .running, tb := { ln.tb with
      source := .nominal, pendingSwitch := some (.toEncoder { Settle.begin 0 with agreed := true }) } }

theorem witness_NominalCountMovesP : State.reset.phase = .working ∧
    (laneAs 0 (fun ln => { ln with tb := { ln.tb with accumulator := some 1000000 } })
      State.reset).lanes[0].tb.accumulator = some 1000000 ∧
    State.reset.lanes[0].tb.source = .encoder ∧
    (agreedSwitch State.reset.lanes[0]).tb.source = .nominal ∧
    (agreedSwitch State.reset.lanes[0]).tb.pendingSwitch = some (.toEncoder { Settle.begin 0 with agreed := true }) ∧
    ((reversed State.reset.lanes[1]).active = true ∧
      ahead (reversed State.reset.lanes[1]).tb.pmax ((reversed State.reset.lanes[1]).tb.p + 1) = false) := by
  decide +kernel

theorem witness_SettlePeriodJudged :
    (laneAs 0 switching { State.reset with lineTime := 200 }).lanes[0].tb.pendingSwitch =
      some (.toEncoder (.begin 0)) ∧ (Settle.begin 0).agreed = false ∧
    (laneAs 0 switching { State.reset with lineTime := 200 }).lanes[0].cfg.setup.settlePeriod ≤
      ((200 : Time) - (Settle.begin 0).periodStart).toNat := by decide +kernel

theorem witness_MonitorExpiryLosesEncoder :
    (laneAs 0 (fun ln => { ln with tb := { ln.tb with monitor := some 0 } })
      { State.reset with lineTime := 100 }).lanes[0].tb.monitor = some 0 ∧
    State.reset.lanes[0].cfg.setup.watchTime ≤ ((100 : Time) - 0).toNat := by decide +kernel

/-- A class table entry with every field at its greatest. -/
def fullEntry : ClassEntry :=
  ⟨true, #v[true, true, true], #v[255, 0, 7], #v[255, 0, 9], #v[65535, 0, 1], .residue, 7, 255⟩

/-- That entry for index 63, made valid by a byte other than 1. -/
def fullEntryPayload : List Byte := [63, 255] ++ fullEntry.encode.drop 1

theorem witness_ClassEntrySetAndRead :
    (fullEntry.inRange ∧ ready 0x20 (byte 63 :: fullEntry.encode) = true) ∧
    (item fullEntryPayload 0 1 = (63 : Fin 64).val ∧ fullEntry.spelledBy fullEntryPayload ∧
      fullEntryPayload.length = 18 ∧ ready 0x20 fullEntryPayload = true) ∧
    ((∀ e : ClassEntry, e.spelledBy (List.replicate 18 0) → ¬e.inRange) ∧
      ready 0x20 (List.replicate 18 0) = true) ∧
    (63 < item (64 :: fullEntry.encode) 0 1 ∧ ready 0x20 (64 :: fullEntry.encode) = true) ∧
    (ready 0x21 [64] = true ∧ 63 < (64 : Byte).toNat) ∧ ready 0x21 [byte 63] = true := by
  refine ⟨⟨by unfold ClassEntry.inRange; decide, by decide +kernel⟩,
    ⟨by decide, by unfold ClassEntry.spelledBy; decide, by decide, by decide +kernel⟩,
    ⟨fun e hs hr => ?_, by decide +kernel⟩, by decide +kernel⟩
  have h1 : e.density = 0 := hs.2.2.2.2.2
  have h2 : 1 ≤ e.density := hr.2.1
  omega

theorem witness_ProfileSetAndRead : ready 0x22 [8, 0, 0, 0, 1] = true ∧ 7 < (8 : Byte).toNat ∧
    ready 0x22 [7, 255, 255, 3, 250] = true ∧ (7 : Byte) = byte 7 ∧ (3 : Byte).toNat ≤ 3 ∧
    (250 : Byte).toNat ≤ 250 ∧ 250 < (251 : Byte).toNat ∧ ready 0x23 [8] = true ∧ ready 0x23 [7] = true := by
  decide +kernel

/-- A station configuration with every item at its greatest. -/
def tight : StationConfig := ⟨50, Vector.replicate 4 ⟨15, 65535⟩⟩

/-- That configuration for station C of lane 3. -/
def tightPayload : List Byte := [3, 2, 50] ++ (List.replicate 4 [15, 255, 255]).flatten

theorem witness_StationSetAndRead :
    (tight.inRange ∧ ready 0x28 ([byte 3, byte 2, byte tight.columnRest] ++
      tight.rules.toList.flatMap (fun r => byte r.count :: beBytes 2 r.window)) = true) ∧
    (tight.spelledBy tightPayload ∧ tightPayload.length = 15 ∧ item tightPayload 0 1 = (3 : LaneId).val ∧
      item tightPayload 1 1 = (2 : StationId).val ∧ ready 0x28 tightPayload = true) ∧
    ((∀ c : StationConfig, c.spelledBy (List.replicate 15 0) → ¬c.inRange) ∧
      ready 0x28 (List.replicate 15 0) = true) ∧
    ready 0x2B [byte 3, byte 2] = true := by
  refine ⟨⟨by unfold StationConfig.inRange; decide, by decide +kernel⟩,
    ⟨by unfold StationConfig.spelledBy; decide, by decide, by decide, by decide, by decide +kernel⟩,
    ⟨fun c hs hr => ?_, by decide +kernel⟩, by decide +kernel⟩
  have h1 : c.rules[0].count = 0 := (hs.2 0).1
  have h2 : 1 ≤ c.rules[0].count := (hr.2 0).1
  omega

/-- A lane with a FIRING and a SCHEDULED parcel at station A. -/
def bothAtA (ln : Lane) : Lane :=
  { (withFiring ln).modStation 0 fun x => { x with list := [⟨5123, 0xFE00, 120⟩, ⟨5124, 0xFE00, 120⟩] } with
    queue := [firing17,
      { firing17 with serial := 5124, lead := 40250, phase := .scheduled ⟨.metal, 0, 41420, 41571⟩ }] }

theorem witness_StationEnabledAndDisabled : ready 0x29 [byte 3, byte 2] = true ∧
    (ready 0x2A [byte 0, byte 0] = true ∧ (laneOf same 0x2A []).cfg.geometry.stationEnable[0] = false) ∧
    (takeableOn withFiring 0x2A [byte 0, byte 0] = true ∧
      (laneOf withFiring 0x2A []).cfg.geometry.stationEnable[0] = true ∧
      ((laneOf withFiring 0x2A []).queue.map (·.serial)).Nodup ∧
      ∀ e ∈ (laneOf withFiring 0x2A []).stations[0].list, ∃ p ∈ (laneOf withFiring 0x2A []).queue,
        p.serial = e.serial ∧ p.station? = some 0) ∧
    (takeableOn bothAtA 0x2A [byte 0, byte 0] = true ∧
      (laneOf bothAtA 0x2A []).cfg.geometry.stationEnable[0] = true ∧
      ((laneOf bothAtA 0x2A []).queue.map (·.serial)).Nodup) := by decide +kernel

theorem bothAtA_ordered (ln : Lane) : (bothAtA ln).queue.Pairwise Parcel.StandsBefore :=
  List.pairwise_pair.mpr (by show Parcel.StandsBefore _ _; unfold Parcel.StandsBefore; decide)

/-- The FIRING parcel is cut, the SCHEDULED one denied, in queue order (R109). -/
theorem test_disableStation_settles_both : nextIs (takenWith bothAtA .disableStation 0x2A [0, 0]) (fun s =>
    s.lanes[0].queue == [{ firing17 with serial := 5124, lead := 40250, phase := .travelling .metal .denied }] &&
    s.trace.map (·.reason) == [.cutStationOff, .deniedStationOff] && s.lanes[0].stations[0].list == []) = true := by
  decide +kernel

theorem witness_MaxOpenTimeEndsFiring :
    (laneAs 1 withFiring { State.reset with lineTime := 120 }).lanes[1].find firing17.serial = some firing17 ∧
    (laneAs 1 withFiring { State.reset with lineTime := 120 }).lanes[1].maxOpenOf 0 firing17.serial = some 120 ∧
    120 ≤ ((120 : Time) - 0).toNat := by decide +kernel

/-- A lane with a parcel FIRING whose changed set waits for the valve bar's line. -/
def withWaiting (ln : Lane) : Lane :=
  (withFiring ln).modStation 0 fun x => { x with port := { x.port with waiting := true } }

theorem witness_ValveBarFrameFinishes : State.reset.phase = .working ∧
    State.reset.lanes[3].stations[2].port.sending ≠ none ∧
    State.reset.lanes[3].stations[2].port.waiting = false ∧
    (laneAs 1 withWaiting State.reset).lanes[1].stations[0].port.sending ≠ none ∧
    (laneAs 1 withWaiting State.reset).lanes[1].stations[0].port.waiting = true ∧
    (laneAs 1 withWaiting State.reset).lanes[1].openSet 0 ≠
      (laneAs 1 withWaiting State.reset).lanes[1].stations[0].port.lastSent := by decide +kernel

theorem witness_CloseLotTaken :
    (ready 0x30 (4 :: beBytes 2 (9 : LotId).toNat) = true ∧ 3 < (4 : Byte).toNat) ∧
    (ready 0x30 (byte 0 :: beBytes 2 (0 : LotId).toNat) = true ∧ (0 : LotId) = (laneOf same 0x30 []).lots.filling.id) ∧
    ((laneOf (fun ln => { ln with lots := { ln.lots with draining := some (.fresh 0 9 0) } }) 0x30 []).lots.draining
      ≠ none) ∧
    (ready 0x30 (byte 0 :: beBytes 2 (65535 : LotId).toNat) = true ∧
      (65535 : LotId) ≠ (laneOf same 0x30 []).lots.filling.id ∧ (laneOf same 0x30 []).lots.draining = none ∧
      (laneOf same 0x30 []).lots.filling.allRemoved = true) ∧
    (laneOf (fun ln => { ln with lots := { ln.lots with filling := { ln.lots.filling with formed := 1 } } })
      0x30 []).lots.filling.allRemoved = false := by decide +kernel

/-- A completed lot record. -/
def record9 : LotRecord := { LotRecord.fresh 0 9 0 with completion := some 0 }

theorem witness_LotLimitSetAndLotsRead : ready 0x31 (byte 0 :: beBytes 3 16777215) = true ∧
    (ahead (5 : Count32) (BitVec.ofNat 32 5) = false ∧ ahead (5 : Count32) (BitVec.ofNat 32 6) = true) ∧
    ready 0x33 (byte 0 :: beBytes 2 (9 : LotId).toNat) = true ∧
    (laneOf (fun ln => { ln with lots := { ln.lots with ring := [record9] } }) 0x33 []).lots.ring =
      [] ++ record9 :: [] ∧ record9.id = 9 ∧ (∀ x ∈ (laneOf same 0x33 []).lots.ring, x.id ≠ 9) ∧
    (ready 0x32 [byte 0, 2] = true ∧ 1 < (2 : Byte).toNat) ∧
    ready 0x32 [byte 0, if false then 1 else 0] = true ∧
    ready 0x32 [byte 0, if true then 1 else 0] = true := by decide +kernel

/-- A lane with the parcel of section 1.7 in its draining lot. -/
def drains311 (ln : Lane) : Lane :=
  { withFiring ln with lots := { (withFiring ln).lots with
      filling := .fresh 1 312 0
      draining := some { LotRecord.fresh 1 311 0 with formed := 1, closeCause := some .host } } }

theorem witness_RemovalReported :
    (({ withFiring State.reset.lanes[1] with queue := [testFiring] } : Lane).find testFiring.serial =
      some testFiring ∧ testFiring.test = true) ∧
    ((withFiring State.reset.lanes[1]).find firing17.serial = some firing17 ∧ firing17.test = false ∧
      firing17.lot = some 311 ∧ (withFiring State.reset.lanes[1]).lots.draining = none ∧
      (withFiring State.reset.lanes[1]).lots.filling.id = 311) ∧
    ((drains311 State.reset.lanes[1]).find firing17.serial = some firing17 ∧
      ∃ d, (drains311 State.reset.lanes[1]).lots.draining = some d ∧ d.id = 311) :=
  ⟨by decide +kernel, by decide +kernel, by decide +kernel, _, rfl, rfl⟩

theorem witness_SerialHandedOutIsFree : (withFiring State.reset.lanes[1]).queue.length ≤ 256 ∧
    firing17 ∈ (withFiring State.reset.lanes[1]).queue := by decide +kernel

/-- The lines with a candidate from line time 0 on MILL_TRIP, and on DRIVE_RUN and AIR_OK of lane 0. -/
def standing : FieldLines :=
  { State.reset.lines with
    raw := ((State.reset.lines.raw.set 24 true).set 0 true).set 1 true
    candidate := ((State.reset.lines.candidate.set 24 (some 0)).set 0 (some 0)).set 1 (some 0) }

theorem witness_LineConfigSet :
    ready 0x40 ((#v[0, 255, 10, 0] : Vector Byte 4).toList ++
      (Vector.replicate 26 EdgeSelection.both).toList.map fun e => byte e.code) = true ∧
    (∀ i : DebouncedId, State.reset.lines.candidate[i] = none) ∧
    (∀ i : DebouncedId, i = 24 ∨ i = 0 →
      (({ asked ⟨7, 0x40, [0, 255, 10, 10] ++ List.replicate 26 3⟩ with
        lineTime := 10, lines := standing } : State).takeable
          ⟨7, 0x40, [0, 255, 10, 10] ++ List.replicate 26 3⟩ = true ∧
        standing.candidate[i] = some 0 ∧
        (#v[0, 255, 10, 10] : Vector Byte 4)[debounceGroup i].toNat ≤ ((10 : Time) - 0).toNat)) ∧
    (standing.candidate[airLine 0] = some 0 ∧
      ((10 : Time) - 0).toNat < (#v[0, 255, 10, 10] : Vector Byte 4)[debounceGroup (airLine 0)].toNat) ∧
    (ready 0x40 (List.replicate 29 0 ++ [4]) = true ∧ (List.replicate 29 (0 : Byte) ++ [4]).length = 30 ∧
      ∃ i : LineId, 3 < item (List.replicate 29 0 ++ [4]) (4 + i.val) 1) :=
  ⟨by decide +kernel, by decide +kernel, by decide +kernel, by decide +kernel, by decide +kernel,
    by decide, 25, by decide⟩

theorem witness_FieldItemsSet :
    ready 0x42 [byte 3, byte ChutePolicy.hold.code, byte ChutePolicy.redirect.code, byte ChutePolicy.hold.code] = true ∧
    (ready 0x42 [byte 3, 0, 1, 2] = true ∧ 1 < (2 : Byte).toNat) ∧
    ready 0x43 (byte 0 :: (Vector.replicate 7 (0 : Byte)).toList ++ [255]) = true ∧
    ready 0x44 [byte 0] = true ∧ ready 0x45 [byte 3] = true := by decide +kernel

theorem witness_MillTripReleased : ready 0x46 [0] = true ∧
    (asked ⟨7, 0x46, [0]⟩).lines.debounced[millTripLine] = false ∧
    ({ asked ⟨7, 0x46, [0]⟩ with lines := State.reset.lines.settle millTripLine true } : State).takeable
      ⟨7, 0x46, [0]⟩ = true ∧
    ({ asked ⟨7, 0x46, [0]⟩ with lines := State.reset.lines.settle millTripLine true } : State).lines.debounced[millTripLine]
      = true := by decide +kernel

theorem witness_FeedHoldOutputs : State.reset.phase = .working ∧ (settling true).phase = .settling ∧
    (State.reset.startUp .powerOn).phase = .starting ∧
    ({ State.reset with phase := .held .resetLine } : State).phase = .held .resetLine := by decide +kernel

/-- The part with debounce times of 0, and with raw AIR_OK of lane 0 asserted. -/
def undebounced : State :=
  { State.reset with device := { State.reset.device with debounce := Vector.replicate 4 0 } }

theorem test_debounce_time_0 : nextIs (exec (.rawLineChange 24 true) undebounced) (fun s =>
    s.lines.debounced[24] && s.lines.candidate[24] == none && s.millTripLatch) = true := by decide +kernel

/-- A candidate of lane 0's DRIVE_RUN that has held, and a rate set while its generator stood still. -/
def driveRises : State :=
  { laneAs 0 (fun ln => { ln with tb := { ln.tb with pendingRate := some ⟨2000, true⟩ } }) State.reset with
    lineTime := 60
    lines := ⟨State.reset.lines.raw.set 0 true, State.reset.lines.debounced,
      State.reset.lines.candidate.set 0 (some 0)⟩ }

/-- The rate is in force at the start of the generator (R30). -/
theorem test_rate_taken_at_the_start : nextIs (exec (.debounceExpiry 0) driveRises) (fun s =>
    s.lanes[0].cfg.rate == 2000 && s.lanes[0].tb.pendingRate == none) = true := by decide +kernel

theorem witness_Debouncing_drive : driveRises.phase = .working ∧ driveRises.lines.candidate[driveLine 0] = some 0 ∧
    driveRises.debounceOf (driveLine 0) ≤ ((60 : Time) - 0).toNat ∧
    driveRises.lanes[0].tb.pendingRate = some ⟨2000, true⟩ ∧
    driveRises.lines.raw[(driveLine 0).castSucc] = true := by decide +kernel

theorem witness_Debouncing :
    (State.reset.lines.raw[(24 : DebouncedId).castSucc] ≠ true ∧ 0 < State.reset.debounceOf 24 ∧
      ∀ l : LaneId, (24 : DebouncedId) ≠ airLine l) ∧
    (State.reset.lines.raw[(airLine 0).castSucc] ≠ true ∧ 0 < State.reset.debounceOf (airLine 0)) ∧
    (({ undebounced with lines := State.reset.lines.settle 24 true } : State).lines.raw[(24 : DebouncedId).castSucc]
        ≠ true ∧
      ({ undebounced with lines := State.reset.lines.settle 24 true } : State).lines.debounced[(24 : DebouncedId)] =
        true) ∧
    (undebounced.debounceOf 24 = 0 ∧ undebounced.lines.debounced[(24 : DebouncedId)] ≠ true ∧
      undebounced.lines.raw[(24 : DebouncedId).castSucc] ≠ true) ∧
    (undebounced.debounceOf (airLine 0) = 0 ∧ undebounced.lines.debounced[airLine 0] ≠ true ∧
      undebounced.lines.raw[(airLine 0).castSucc] ≠ true) ∧
    ({ State.reset with lines := { State.reset.lines with
        candidate := State.reset.lines.candidate.set 24 (some 0) } } : State).lines.candidate[24] = some 0 ∧
    State.reset.debounceOf 24 ≤ ((10 : Time) - 0).toNat := by decide +kernel

theorem witness_AirLossCutsFirings : State.reset.phase = .working ∧
    (((laneAs 1 bothAtA State.reset).setRaw 7 true).lines.raw[(airLine 1).castSucc] = true ∧
      (((laneAs 1 bothAtA State.reset).setRaw 7 true).lanes[1].queue.map (·.serial)).Nodup) ∧
    (State.reset.setRaw 7 true).lines.raw[(airLine 1).castSucc] = true ∧
    State.reset.lines.raw[(airLine 1).castSucc] = false := by decide +kernel

theorem witness_PlantStopHalts : State.reset.phase = .working ∧
    State.reset.lines.raw[plantStopLine] = false ∧ (State.reset.setRaw 25 true).lines.raw[plantStopLine] = true ∧
    (laneAs 1 withFiring State.reset).lanes[1].active = true ∧ State.reset.lanes[0].active = false ∧
    (twoLots State.reset.lanes[1]).active = true ∧ (twoLots State.reset.lanes[1]).lots.draining ≠ none := by
  decide +kernel

theorem witness_TraceReadAndCleared : ready 0x50 [1] = true ∧ ready 0x50 [12] = true ∧ ready 0x50 [13] = true ∧
    ready 0x50 [0] = true ∧ ready 0x51 [0] = true := by decide +kernel

/-- A trace entry. -/
def entry17 : TraceEntry := ⟨0, 1, .lost, none, some 311, false, none, some 2, false⟩

/-- A trace with so many entries. -/
def traced (n : Nat) : State := { State.reset with trace := List.replicate n entry17 }

theorem test_trace_half_and_full :
    ((traced 256).addTrace 1 (lostDraft 311 2)).deviceFlag 2 = true ∧
    ((traced 255).addTrace 1 (lostDraft 311 2)).deviceFlag 2 = false ∧
    ((traced 511).addTrace 1 (lostDraft 311 2)).deviceFlag 3 = true ∧
    ((traced 512).addTrace 1 (lostDraft 311 2)).deviceFlag 3 = false := by decide +kernel

theorem witness_GapMarkFollowsDrops : (traced 512).trace.length = 512 ∧
    ((traced 256).trace.length < 512 ∧ (traced 256).trace.length = 256) ∧
    ((traced 511).trace.length < 512 ∧ (traced 511).trace.length = 511) ∧
    ((traced 257).trace.length < 512 ∧ (traced 257).trace.length ≠ 256 ∧ (traced 257).trace.length ≠ 511) := by
  decide +kernel

/-- The part with every notice enabled and so many notices queued. -/
def noticed (n : Nat) : State :=
  { State.reset with
    device := { State.reset.device with noticeEnables := Vector.replicate 13 true }
    link := { Link.powerOn with output := List.replicate n ⟨0, 0xF5, [0, 0, 0, 0, 0]⟩ } }

theorem test_notice_queued_or_dropped :
    ((noticed 23).raise .millTrip).link.output.length = 24 ∧ ((noticed 24).raise .millTrip).link.dropped = 1 ∧
    (((noticed 0).raise (.laneState 2 .running .start)).link.output =
      [⟨0, 0xF0, [0, 0, 0, 0, 2, 1, 0]⟩]) := by decide +kernel

theorem witness_EventRequestsTaken :
    (Event.row .millTrip = (9, none, []) ∧
      Event.row (.lotDone 3 311 .limit 2) = (3, some 3, [3, 1, 55, 1, 0, 2])) ∧
    State.reset.device.noticeEnables[9] = false ∧
    ((noticed 23).device.noticeEnables[9] = true ∧
      ((noticed 23).link.output.filter (·.isNotice)).length < 24 ∧
      24 ≤ ((noticed 24).link.output.filter (·.isNotice)).length) ∧
    ready 0x52 [0] = true ∧
    ready 0x53 (((Vector.replicate 4 (31 : BitVec 5)).toList.map fun x => byte x.toNat) ++ [255]) = true ∧
    (ready 0x53 [0, 0, 0, 32, 255] = true ∧ 31 < item [0, 0, 0, 32, 255] (3 : LaneId).val 1) ∧
    ready 0x54 (Vector.replicate 13 (1 : Byte)).toList = true := by decide +kernel

theorem witness_StatusPeriodAndNotice : ready 0x55 (beBytes 2 60000) = true ∧ ready 0x55 (beBytes 2 9) = true ∧
    ({ State.reset with statusDue := some 0 } : State).statusDue = some State.reset.lineTime := by decide +kernel

theorem witness_HeadIdleCounted : State.reset.phase = .working ∧
    State.reset.lanes[0].receivers[2].asm = ⟨.hunt, [], none⟩ ∧ (2 : Byte).toNat = (2 : HeadId).val ∧
    (3 : Byte).toNat ≠ (2 : HeadId).val := by decide +kernel

/-- A detection in range of head 0 at the edges of its ranges. -/
def edgeDetection : DetectionRecord := ⟨0, 0, 31, 4095, 255, 255, 65535⟩

theorem witness_DetectionReceived : State.reset.phase = .working ∧
    State.reset.lanes[1].receivers[0].asm = ⟨.hunt, [], none⟩ ∧
    (edgeDetection.headNumber.toNat = (0 : HeadId).val ∧ edgeDetection.lastColumn.toNat ≤ 31 ∧
      edgeDetection.firstColumn.toNat ≤ edgeDetection.lastColumn.toNat ∧ 1 ≤ edgeDetection.length.toNat ∧
      edgeDetection.length.toNat ≤ 4095) ∧
    (laneAs 1 lane17 State.reset).lanes[1].cfg.geometry.headEnable[0] = true ∧
    (laneAs 1 lane17 State.reset).lanes[1].state = .running ∧ State.reset.lanes[1].state ≠ .running ∧
    ((0 : Fin 32).val = edgeDetection.firstColumn.toNat ∧ (31 : Fin 32).val = edgeDetection.lastColumn.toNat) ∧
    (¬({ edgeDetection with headNumber := 1 } : DetectionRecord).headNumber.toNat = (0 : HeadId).val ∧
      ¬({ edgeDetection with lastColumn := 32 } : DetectionRecord).lastColumn.toNat ≤ 31 ∧
      ¬1 ≤ ({ edgeDetection with length := 0 } : DetectionRecord).length.toNat) := by
  decide +kernel

/-- A queue of 256 parcels. -/
def fullQueue : List Parcel := (List.range 256).map fun i => { firing17 with serial := BitVec.ofNat 24 i }

/-- The detection of head 0 in section 1.7. -/
def seen17 : Detection := ⟨40250, 40330, 10, 13, ⟨0, 7, 900, 80⟩⟩

/-- The detection of head 1 in section 1.7. -/
def second17 : Detection := ⟨40247, 40331, 10, 14, ⟨1, 40, 1500, 84⟩⟩

/-- The parcel that head 0's detection forms. -/
def formed17 : Parcel := seen17.newParcel 5123 311 40700

/-- The parcel that head 1's detection is fused into: the same closing time, more columns. -/
def fused17 : Parcel :=
  { formed17 with
    lead := 40247, trail := 40331, lastColumn := 14
    contributions := [⟨0, 7, 900, 80⟩, ⟨1, 40, 1500, 84⟩], phase := .forming 40701 }

/-- A narrower FORMING parcel beside it. -/
def narrow17 : Parcel := { formed17 with serial := 5124, lead := 40251, firstColumn := 12 }

/-- The geometry of section 1.7, and one with head 2 enabled too. -/
def geometry17 (third : Bool) : Geometry :=
  { (lane17 State.reset.lanes[1]).cfg.geometry with headEnable := #v[true, true, third] }

theorem firing17_meets_nothing (d : Detection) (window : Nat) (i : Serial) :
    ¬d.Meets window { firing17 with serial := i } := fun h => nomatch h.1

/-- A new parcel: a queue with room and a full one, closing later and at once. -/
theorem witness_DetectionAdmittedOrDropped :
    (lane17 State.reset.lanes[1]).cfg.geometry.Reaches 350 ∧
    ((∀ p ∈ (withFiring State.reset.lanes[1]).queue, ¬seen17.Meets 20 p) ∧
      (withFiring State.reset.lanes[1]).queue.length < 256) ∧
    (256 ≤ fullQueue.length ∧ ∀ p ∈ fullQueue, ¬seen17.Meets 20 p) ∧
    (¬(formed17.Complete (geometry17 false) ∨ atOrBehind (40330 + 350 + 20) 40536 = true) ∧
      atOrBehind (40330 + 350 + 20) 40700 = true) := by
  refine ⟨by unfold Geometry.Reaches; decide +kernel, ⟨fun p hp => ?_, by decide⟩, ⟨by decide, fun p hp => ?_⟩,
    by unfold Parcel.Complete; decide +kernel⟩
  · cases List.mem_singleton.mp hp
    exact firing17_meets_nothing seen17 20 5123
  · obtain ⟨i, -, rfl⟩ := List.mem_map.mp hp
    exact firing17_meets_nothing seen17 20 _

/-- A fusion: two parcels that match, the wider taken; with two heads enabled the fused parcel is complete,
with three it is not. -/
theorem witness_DetectionAdmittedOrDropped_fusion :
    formed17 ∈ [formed17, narrow17] ∧ ([formed17, narrow17].map (·.serial)).Nodup ∧
    second17.Meets 20 formed17 ∧ second17.Meets 20 narrow17 ∧
    (∀ x ∈ [formed17, narrow17], second17.Meets 20 x → x ≠ formed17 → second17.Takes formed17 x) ∧
    second17.Fuses (geometry17 false) 350 formed17 fused17 ∧ fused17.lead ≠ formed17.lead ∧
    fused17.Complete (geometry17 false) ∧ ¬fused17.Complete (geometry17 true) := by
  refine ⟨by decide, by decide, ⟨⟨_, rfl⟩, by decide, by decide, by decide⟩,
    ⟨⟨_, rfl⟩, by decide, by decide, by decide⟩, fun x hx _ hne => ?_,
    ⟨rfl, by decide, by rintro far rfl; decide, by decide, by decide, rfl, by decide +kernel⟩, by decide,
    by unfold Parcel.Complete; decide +kernel, by unfold Parcel.Complete; decide +kernel⟩
  rcases List.mem_cons.mp hx with rfl | hx
  · exact absurd rfl hne
  · cases List.mem_singleton.mp hx
    exact .inl (by decide)

/-- A class table whose entry 12 is the first that the contributions of section 1.7 match. -/
def table17 : Vector ClassEntry 64 :=
  (Vector.replicate 64 .factory).set 12
    ⟨true, #v[true, true, false], #v[7, 40, 0], #v[7, 40, 0], #v[900, 1500, 0], .metal, 3, 1⟩

/-- A lane with the parcel of section 1.7 in the state given. -/
def holding (phase : ParcelPhase) (ln : Lane) : Lane :=
  { lane17 ln with queue := [{ firing17 with phase := phase }] }

/-- The test parcels' record. -/
def injection17 : Injection := ⟨0, 14, 17, 40, 100, some 1, 40536⟩

/-- Classification: an entry found and none, a station for the fraction and none, and each of R78's tests
at its edge. -/
theorem witness_ParcelClassifiedFiredAndRemoved :
    (holding (.forming 40536) State.reset.lanes[1]).find 5123 = some { firing17 with phase := .forming 40536 } ∧
    Scanned table17 firing17.contributions (some 12) ∧
    Scanned (Vector.replicate 64 .factory) firing17.contributions none ∧
    (lane17 State.reset.lanes[1]).StationOf .metal (some 0) ∧
    (lane17 State.reset.lanes[1]).StationOf .residue none ∧
    (atOrBehind (40247 + 1200 - 911) 40536 = true ∧ atOrBehind (40247 + 1200 - 910) 40536 = false) ∧
    (List.replicate 64 (⟨1, 0, 1⟩ : ListEntry)).length = 64 ∧
    (atOrBehind (firing17.trail + 205) 40536 = true ∧ atOrBehind (firing17.trail + 206) 40536 = false) ∧
    (256 ≤ fullQueue.length ∧ (withFiring State.reset.lanes[1]).queue.length < 256) := by
  refine ⟨by decide +kernel, ⟨?_, ?_⟩, ?_, by unfold Lane.StationOf; decide +kernel,
    by unfold Lane.StationOf; decide +kernel, by decide, by decide, by decide, by decide⟩
  · unfold ClassEntry.Meets; decide +kernel
  · unfold ClassEntry.Meets; decide +kernel
  · unfold Scanned ClassEntry.Meets; decide +kernel

/-- The generator: at its last creation, before it, and not yet due. -/
theorem witness_ParcelClassifiedFiredAndRemoved_injection :
    ((lane17 State.reset.lanes[1]).state = .running ∧ injection17.remaining = some 1 ∧
      atOrBehind injection17.nextPos (lane17 State.reset.lanes[1]).tb.pmax = true) ∧
    atOrBehind (40537 : Pos) (lane17 State.reset.lanes[1]).tb.pmax = false ∧
    State.reset.lanes[1].state ≠ .running := by decide +kernel

/-- Firing: a SCHEDULED parcel at a start, with air, no rule broken and columns free; a rule broken; a
column at rest. -/
theorem witness_ParcelClassifiedFiredAndRemoved_firing :
    (holding (.scheduled ⟨.metal, 0, 40536, 41571⟩) State.reset.lanes[1]).find 5123 =
      some { firing17 with phase := .scheduled ⟨.metal, 0, 40536, 41571⟩ } ∧
    env17.airOk = true ∧
    (∀ k : Fin 4, ¬(holding (.scheduled ⟨.metal, 0, 40536, 41571⟩) State.reset.lanes[1]).Breaks 0 env17.now k) ∧
    ({ lane17 State.reset.lanes[1] with cfg := { (lane17 State.reset.lanes[1]).cfg with
      stations := #v[tight, tight, tight] } }.modStation 0 fun x =>
        { x with history := List.replicate 15 1934466 }).Breaks 0 2000000 0 ∧
    ((lane17 State.reset.lanes[1]).modStation 0 fun x =>
      { x with restUntil := x.restUntil.set 9 (some 2000001) }).Rests 0 2000000 9 ∧
    ¬((lane17 State.reset.lanes[1]).modStation 0 fun x =>
      { x with restUntil := x.restUntil.set 9 (some 2000000) }).Rests 0 2000000 9 := by
  refine ⟨by decide +kernel, rfl, by unfold Lane.Breaks; decide +kernel, by unfold Lane.Breaks; decide +kernel,
    ⟨⟨_, rfl, by decide⟩, by decide +kernel⟩, ?_⟩
  rintro ⟨⟨r, hr, h⟩, -⟩
  cases hr
  exact absurd h (by decide)

/-- Removals: a firing at its end position, a parcel at its exit position, a FORMING one at its close
position, and each one tc before it. -/
theorem witness_ParcelClassifiedFiredAndRemoved_removals :
    (atOrBehind 41571 41571 = true ∧ atOrBehind 41571 41570 = false) ∧
    ({ holding (.travelling .metal .passed) State.reset.lanes[1] with
      tb := { State.reset.lanes[1].tb with pmax := 43331 } } : Lane).ExitDue
        { firing17 with phase := .travelling .metal .passed } .passed ∧
    ¬({ holding (.travelling .metal .passed) State.reset.lanes[1] with
      tb := { State.reset.lanes[1].tb with pmax := 43330 } } : Lane).ExitDue
        { firing17 with phase := .travelling .metal .passed } .passed ∧
    ((withFiring State.reset.lanes[1]).queue.map (·.serial)).Nodup :=
  ⟨by decide, ⟨⟨_, rfl⟩, by decide +kernel⟩, fun h => absurd h.2 (by decide +kernel), by decide⟩

theorem witness_SensorFrameRejectedCounted : State.reset.phase = .working ∧ (3 : Byte).toNat ≠ 2 ∧
    (3 : Byte).toNat ≠ 10 ∧ State.reset.lanes[0].receivers[0].asm = ⟨.hunt, [], none⟩ ∧
    ([0, 0] ≠ crcBytes (byte 2 :: [2, 0]) ∧ [0, 0] ≠ crcBytes (byte 10 :: List.replicate 10 0)) ∧
    (([0] : List Byte).length = 1 ∧ (1 : Byte).toNat ≠ 2) ∧
    ((List.replicate 9 (0 : Byte)).length = 9 ∧ (2 : Byte).toNat ≠ 1) ∧
    ((⟨0x00, true⟩ : LineByte).data ≠ 0xA5 ∧ (⟨0xA5, false⟩ : LineByte).stopBit = false) ∧
    ((laneAs 0 (fun ln => ln.modReceiver 0 fun r => { r with asm := ⟨.length, [], some 0⟩ })
      { State.reset with lineTime := 2 }).lanes[0].receivers[0].asm.lastByte = some 0 ∧
      1 < ((2 : Time) - 0).toNat) := by decide +kernel

theorem witness_LotTimeAccrues : ({ State.reset with micros := 1000 } : State).micros = 1000 ∧
    State.reset.phase = .working := by decide +kernel

theorem witness_StepKeepsBounds : (asked ⟨7, 0x41, [0]⟩).bounded ∧
    nextIs (step (asked ⟨7, 0x41, [0]⟩)) (fun _ => true) = true :=
  ⟨by unfold State.bounded Link.bounded Lane.bounded; decide +kernel, by decide +kernel⟩

/-- The safe state of the witnesses below: lane 1 RUNNING with a parcel FIRING and air present. -/
def firingState : State := (laneAs 1 withFiring State.reset).setRaw 7 true

theorem firingState_safe : firingState.safe :=
  ⟨⟨by unfold Image.limited; decide +kernel, fun _ h => nomatch h⟩,
    by unfold Lane.settled; decide +kernel, fun _ => by unfold Lane.safe; decide +kernel,
    fun l h => absurd (by revert l; decide +kernel) h⟩

theorem witness_StepKeepsValvesSafe : firingState.safe ∧
    nextIs (step { firingState with pending := [.rawAirOkChange 1 false] }) (fun _ => true) = true :=
  ⟨firingState_safe, by decide +kernel⟩

/-- Lane 1 RUNNING one tc below its Pmax. -/
def reversingState : State :=
  laneAs 1 (fun ln => { lane17 ln with tb := { (lane17 ln).tb with p := 40535 } }) State.reset

theorem reversingState_safe : reversingState.safe ∧ reversingState.lanes[1].reversing = true :=
  ⟨⟨⟨by unfold Image.limited; decide +kernel, fun _ h => nomatch h⟩,
    by unfold Lane.settled; decide +kernel, fun _ => by unfold Lane.safe; decide +kernel,
    fun l h => absurd (by revert l; decide +kernel) h⟩, by decide +kernel⟩

/-- Lane 1 holding a sample back (log 19). -/
theorem outrunning_safe : outrunning.safe :=
  ⟨⟨by unfold Image.limited; decide +kernel, fun _ h => nomatch h⟩,
    by unfold Lane.settled; decide +kernel, fun _ => by unfold Lane.safe; decide +kernel, fun l h => by
      have : l = 1 := by revert h; revert l; decide +kernel
      subst this
      exact ⟨rfl, outrunning_ahead⟩⟩

theorem witness_NoColumnOpenWhenForbidden : firingState.safe ∧ firingState.live = true ∧
    (firingState.lanes[0].state ≠ .running ∧ firingState.lanes[0].state ≠ .draining) ∧
    firingState.lines.raw[(airLine 2).castSucc] = false :=
  ⟨firingState_safe, by decide +kernel⟩

theorem witness_RequestsNameTheirCommands : (Instr.startLane 7 [0]).wf = true ∧
    (Instr.startLane 7 [0]).request? = some ⟨7, 0x17, [0]⟩ ∧ (Instr.unknownRequest 7 0x60 [0]).wf = true := by
  decide +kernel

end Sys2Proof.Tests
end

section
/-! What the removal of a parcel reports to its lot or to the test tally (R13, R137). -/

namespace Sys2Proof.Machine

/-- A test parcel that leaves the lane is counted under its outcome and leaves the lots alone (R13, R130). -/
theorem drop_tallyTest_counts (ln : Lane) (p : Parcel) (o : Outcome) :
    ((ln.drop p).tallyTest o).lots = ln.lots ∧
    ((ln.drop p).tallyTest o).testTally = ln.testTally.set o.code (holdInc ln.testTally[o.code]) := by
  obtain ⟨htally, hlots⟩ := drop_fields ln p
  refine ⟨hlots, ?_⟩
  unfold Lane.tallyTest
  rw [htally]

/-- The accrual of a removal leaves the draining lot of its id with that removal counted, or else the filling
lot of its id (R137). -/
theorem accrueRemoval_counts (table : Vector ClassEntry 64) (p : Parcel) (o : Outcome) (u : LotUnit)
    (lot : LotId) :
    (∀ d : LotRecord, u.draining = some d → d.id = lot → ∃ d' : LotRecord, d.Removed table p o d' ∧
      u.accrueRemoval lot (p.report table o) = { u with draining := some d' }) ∧
    ((∀ d : LotRecord, u.draining = some d → d.id ≠ lot) → u.filling.id = lot →
      ∃ r : LotRecord, u.filling.Removed table p o r ∧
        u.accrueRemoval lot (p.report table o) = { u with filling := r }) := by
  obtain ⟨hdraining, hfilling, -⟩ := accrueRemoval_lot u lot (p.report table o)
  exact ⟨fun d hd hid => ⟨_, accrueRemoval_removed table p o d, hdraining d hd hid⟩,
    fun hd hid => ⟨_, accrueRemoval_removed table p o u.filling, hfilling hd hid⟩⟩

end Sys2Proof.Machine

namespace Sys2Proof

open Machine

/-- Settles O37: by the branches of a removal, first those of a test parcel and then those of a detected one,
each on its own and in a flush. -/
theorem removalReported : Obligations.RemovalReported := by
  intro env ln p hp
  obtain ⟨hloseTest, hloseDetected⟩ := loseParcel_reports env ln p hp
  refine ⟨fun o => removeParcel_queue env p.serial o ln, loseParcel_queue env ln p.serial,
    fun htest => ⟨fun o => ?alone, ?flushed⟩, fun lot hdetected hlot => ⟨fun o => ?reported, ?lost⟩⟩
  case alone =>
    obtain ⟨hlots, htally⟩ := drop_tallyTest_counts ln p o
    obtain ⟨hreport, -, -⟩ := removeParcel_reports env ln p o hp
    rw [hreport htest]
    exact ⟨hlots, htally, quiet_effects _⟩
  case flushed =>
    rw [hloseTest htest]
    exact drop_tallyTest_counts ln p .lost
  case reported =>
    obtain ⟨-, -, hreport⟩ := removeParcel_reports env ln p o hp
    exact hreport lot hdetected hlot
  case lost =>
    obtain ⟨htally, -, -, hlots⟩ := hloseDetected hdetected
    rw [hlots lot hlot]
    exact ⟨htally, accrueRemoval_counts env.table p .lost ln.lots lot⟩

end Sys2Proof
end

section
/-! SET_PROFILE and GET_PROFILE on a payload of their length (R73). -/

namespace Sys2Proof.Machine

/-- A profile item above 7 names no profile. -/
theorem profileItem_high {b : Byte} (h : 7 < b.toNat) (rest : List Byte) : profileItem (b :: rest) 0 = none := by
  have h0 : item (b :: rest) 0 1 = b.toNat := item_one rfl
  unfold profileItem
  rw [h0]
  exact dif_neg (by omega)

/-- The fields of a profile payload are read where they stand, and together or not at all. -/
theorem profile_ofPayload (n lead lag spread open_ : Byte) :
    Profile.ofPayload? [n, lead, lag, spread, open_] =
      if spread.toNat ≤ 3 ∧ 1 ≤ open_.toNat ∧ open_.toNat ≤ 250 then
        some ⟨lead.toNat, lag.toNat, spread.toNat, open_.toNat⟩
      else none := by
  have hlead : item [n, lead, lag, spread, open_] 1 1 = lead.toNat := item_one rfl
  have hlag : item [n, lead, lag, spread, open_] 2 1 = lag.toNat := item_one rfl
  have hspread : item [n, lead, lag, spread, open_] 3 1 = spread.toNat := item_one rfl
  have hopen : item [n, lead, lag, spread, open_] 4 1 = open_.toNat := item_one rfl
  rw [Profile.ofPayload?, hlead, hlag, hspread, hopen]

/-- The reply bytes of a profile, in the order of R71. -/
theorem profile_encode (p : Profile) :
    p.encode = [byte p.leadMargin, byte p.lagMargin, byte p.spread, byte p.maxOpen] := by
  simp [Profile.encode, beBytes_one]

/-- With a profile number and fields in range SET_PROFILE replaces the whole profile (R73). -/
theorem setProfile_replaces {tag : Byte} {payload : List Byte} {i : Fin 8} {p : Profile} (s : State)
    (hi : profileItem payload 0 = some i) (hp : Profile.ofPayload? payload = some p) :
    setProfile tag payload s =
      (s.ok 0x22 tag []).withDevice fun d => { d with profiles := d.profiles.set i p } := by
  simp only [setProfile, hi, hp]

/-- With a profile number or a field out of range SET_PROFILE is refused (R73). -/
theorem setProfile_refused {tag : Byte} {payload : List Byte} (s : State)
    (h : profileItem payload 0 = none ∨ Profile.ofPayload? payload = none) :
    setProfile tag payload s = s.refuse 0x22 tag .badValue := by
  unfold setProfile
  split
  next i p hi hp =>
    rcases h with hnone | hnone
    · exact nomatch hi.symm.trans hnone
    · exact nomatch hp.symm.trans hnone
  next => rfl

/-- GET_PROFILE returns the profile that its item names (R73). -/
theorem getProfile_returns {tag : Byte} {payload : List Byte} {i : Fin 8} (s : State)
    (hi : profileItem payload 0 = some i) :
    getProfile tag payload s = s.ok 0x23 tag s.device.profiles[i].encode := by
  simp only [getProfile, hi]

/-- GET_PROFILE is refused where its item names no profile (R73). -/
theorem getProfile_refused {tag : Byte} {payload : List Byte} (s : State) (hi : profileItem payload 0 = none) :
    getProfile tag payload s = s.refuse 0x23 tag .badValue := by
  simp only [getProfile, hi]

/-- A SET_PROFILE that may be taken and has its length acts on the state it has left (R182). -/
theorem exec_setProfile_taken {s : State} {tag : Byte} {payload : List Byte}
    (h : s.takeable ⟨tag, 0x22, payload⟩ = true) (hl : payload.length = 5) :
    exec (.setProfile tag payload) s = .next (setProfile tag payload s.popInput) :=
  congrArg Host.Outcome.next (takeRequest_taken _ h hl)

/-- A GET_PROFILE that may be taken and has its length acts on the state it has left (R182). -/
theorem exec_getProfile_taken {s : State} {tag : Byte} {payload : List Byte}
    (h : s.takeable ⟨tag, 0x23, payload⟩ = true) (hl : payload.length = 1) :
    exec (.getProfile tag payload) s = .next (getProfile tag payload s.popInput) :=
  congrArg Host.Outcome.next (takeRequest_taken _ h hl)

end Sys2Proof.Machine

namespace Sys2Proof

open Machine

/-- Settles O30: by the request, and for each by whether its number and its fields are in range. -/
theorem profileSetAndRead : Obligations.ProfileSetAndRead := by
  intro s tag n lead lag spread open_
  refine ⟨fun hset => ?set, fun hget => ?get⟩
  case set =>
    rw [exec_setProfile_taken hset rfl]
    refine ⟨fun hbad => ?refused, fun i hn hspread hopen hmax => ?replaced⟩
    case refused =>
      have hnone : profileItem [n, lead, lag, spread, open_] 0 = none ∨
          Profile.ofPayload? [n, lead, lag, spread, open_] = none := by
        rcases hbad with hnumber | hfield
        · exact .inl (profileItem_high hnumber _)
        · exact .inr ((profile_ofPayload n lead lag spread open_).trans (if_neg (by omega)))
      rw [setProfile_refused _ hnone]
      rfl
    case replaced =>
      subst hn
      have hfields := (profile_ofPayload (byte i.val) lead lag spread open_).trans
        (if_pos ⟨hspread, hopen, hmax⟩)
      rw [setProfile_replaces _ (profileItem_byte i _) hfields]
      rfl
  case get =>
    rw [exec_getProfile_taken hget rfl]
    refine ⟨fun hnumber => ?refused, fun i hn => ?returned⟩
    case refused =>
      rw [getProfile_refused _ (profileItem_high hnumber _)]
      rfl
    case returned =>
      subst hn
      rw [getProfile_returns _ (profileItem_byte i _), ok_popInput, State.popInput_device, profile_encode]
      rfl

end Sys2Proof
end

section
/-! CLEAR_HALT on a payload of its length (R123). -/

namespace Sys2Proof.Machine

/-- No drain completes on a lane that is at rest (R120). -/
theorem drainIfEmpty_quiet_of_inactive (env : LaneEnv) (before : Lane) {after : Lane} (ha : after.active = false) :
    drainIfEmpty env before after = after.quiet := by
  refine if_neg fun hdrain => ?_
  simp [Lane.active, hdrain.1] at ha

/-- On a lane that is at rest the monitor is disarmed (R34). -/
theorem syncMonitor_of_inactive (env : LaneEnv) {ln : Lane} (ha : ln.active = false) :
    ln.syncMonitor env = { ln with tb := { ln.tb with monitor := none } } := by
  have hwatched : ln.watched env = false := by simp [Lane.watched, ha]
  simp [Lane.syncMonitor, hwatched]

/-- A step whose blocks leave the queue as it is and the lane at rest disarms the monitor around what they do
and reports what they report (R34, R167). -/
theorem laneStep_at_rest {f : LaneEnv → Lane → LaneOut} {env : LaneEnv} {ln : Lane}
    (hq : (f env ln).lane.queue = ln.queue) (ha : (f env ln).lane.active = false) :
    laneStep f env ln = ⟨{ (f env ln).lane with tb := { (f env ln).lane.tb with monitor := none } },
      inQueueOrder (f env ln).effects⟩ := by
  have hlane := (laneStep_lane_of_same_queue hq).trans (syncMonitor_of_inactive env ha)
  have heffects : (laneStep f env ln).effects = inQueueOrder (f env ln).effects := by
    show inQueueOrder ((f env ln).effects ++ (drainIfEmpty env ln (f env ln).lane).effects) = _
    rw [drainIfEmpty_quiet_of_inactive env ln ha, quiet_effects, List.append_nil]
  rw [← hlane, ← heffects]

/-- A whole step of CLEAR_HALT: the lane becomes STOPPED with its monitor disarmed, and LANE_STATE is reported
(R34, R123). -/
theorem laneStep_clearHalt (env : LaneEnv) (ln : Lane) :
    laneStep clearHalt env ln =
      ⟨{ ln with state := .stopped, tb := { ln.tb with monitor := none } },
        [.event (.laneState env.id .stopped .clear)]⟩ := by
  rw [laneStep_at_rest (f := clearHalt) rfl rfl, clearHalt, inQueueOrder_single]

/-- A step of a lane that reports one event leaves the lane set and the event raised. -/
theorem stepLane_of_event {s : State} {l : LaneId} {f : LaneEnv → Lane → LaneOut} {ln : Lane} {e : Event}
    (h : laneStep f (s.env l) s.lanes[l] = ⟨ln, [.event e]⟩) : s.stepLane l f = (s.setLane l ln).raise e := by
  rw [State.stepLane, State.onLane, h, commit_cons, commit_nil, State.effect]

/-- CLEAR_HALT is refused where its item names no lane (R123). -/
theorem clearHaltOf_badValue {tag : Byte} {payload : List Byte} (s : State) (hl : laneItem payload 0 = none) :
    clearHaltOf tag payload s = s.refuse 0x19 tag .badValue := by
  simp only [clearHaltOf, hl]

/-- CLEAR_HALT is refused on a lane that is not HALTED, or with raw PLANT_STOP asserted (R123). -/
theorem clearHaltOf_wrongState {tag : Byte} {payload : List Byte} {l : LaneId} (s : State)
    (hl : laneItem payload 0 = some l) (h : s.lanes[l].state ≠ .halted ∨ s.plantStop = true) :
    clearHaltOf tag payload s = s.refuse 0x19 tag .wrongState := by
  simp only [clearHaltOf, hl]
  exact if_pos h

/-- CLEAR_HALT of a HALTED lane, with raw PLANT_STOP not asserted, is answered OK before the lane becomes
STOPPED and LANE_STATE is raised (R123). -/
theorem clearHaltOf_clears {tag : Byte} {payload : List Byte} {l : LaneId} (s : State)
    (hl : laneItem payload 0 = some l) (hstate : s.lanes[l].state = .halted) (hstop : s.plantStop = false) :
    clearHaltOf tag payload s =
      ((s.ok 0x19 tag []).setLane l
        { s.lanes[l] with state := .stopped, tb := { s.lanes[l].tb with monitor := none } }).raise
        (.laneState l .stopped .clear) := by
  have hready : ¬(s.lanes[l].state ≠ .halted ∨ s.plantStop = true) :=
    not_or.mpr ⟨not_not.mpr hstate, by simp [hstop]⟩
  simp only [clearHaltOf, hl]
  rw [if_neg hready]
  exact stepLane_of_event (laneStep_clearHalt _ _)

/-- A CLEAR_HALT that may be taken and has its length acts on the state it has left (R182). -/
theorem exec_clearHalt_taken {s : State} {tag : Byte} {payload : List Byte}
    (h : s.takeable ⟨tag, 0x19, payload⟩ = true) (hl : payload.length = 1) :
    exec (.clearHalt tag payload) s = .next (clearHaltOf tag payload s.popInput) :=
  congrArg Host.Outcome.next (takeRequest_taken _ h hl)

end Sys2Proof.Machine

namespace Sys2Proof

open Machine

/-- Settles O19: by whether the number names a lane, and then by whether that lane may be cleared. -/
theorem clearHaltReturnsToStopped : Obligations.ClearHaltReturnsToStopped := by
  intro s tag b htake
  rw [exec_clearHalt_taken htake rfl]
  refine ⟨fun hnumber => ?badValue, fun l hb => ?lane⟩
  case badValue =>
    rw [clearHaltOf_badValue _ (laneItem_high hnumber _)]
    rfl
  case lane =>
    subst hb
    have hlane := laneItem_byte l []
    refine ⟨fun hrefused => ?wrongState, fun hstate hstop => ?cleared⟩
    case wrongState =>
      rw [clearHaltOf_wrongState s.popInput hlane hrefused]
      rfl
    case cleared =>
      rw [clearHaltOf_clears s.popInput hlane hstate hstop]
      rfl

end Sys2Proof
end

section
/-! An entry made, by the occupancy that finds it, and the requests that take entries out (R168 to R170). -/

namespace Sys2Proof.Machine

/-- The state with an entry appended under the gap pending mark, and the mark cleared, before any event of the
occupancy (R168). -/
def State.withEntry (s : State) (l : LaneId) (d : TraceDraft) : State :=
  { s with trace := s.trace ++ [d.entry l s.lineTime s.gapPending], gapPending := false }

/-- An entry made with room is appended, and its crossing decides the event it raises (R168, R169). -/
theorem addTrace_of_room {s : State} (l : LaneId) (d : TraceDraft) (h : s.trace.length < traceCapacity) :
    s.addTrace l d =
      if s.trace.length = 256 then (s.withEntry l d).raise .traceHalf
      else if s.trace.length = 511 then (s.withEntry l d).raise .traceFull
      else s.withEntry l d :=
  if_pos h

/-- The entry that takes the occupancy from 256 to 257 raises TRACE_HALF (R169). -/
theorem addTrace_at_half {s : State} (l : LaneId) (d : TraceDraft) (h : s.trace.length = 256) :
    s.addTrace l d = (s.withEntry l d).raise .traceHalf := by
  have hroom : s.trace.length < traceCapacity := by rw [h]; decide
  rw [addTrace_of_room l d hroom, if_pos h]

/-- The entry that takes the occupancy from 511 to 512 raises TRACE_FULL (R169). -/
theorem addTrace_at_last {s : State} (l : LaneId) (d : TraceDraft) (h : s.trace.length = 511) :
    s.addTrace l d = (s.withEntry l d).raise .traceFull := by
  have hroom : s.trace.length < traceCapacity := by rw [h]; decide
  rw [addTrace_of_room l d hroom, if_neg (by omega), if_pos h]

/-- Every other entry made with room raises nothing (R169). -/
theorem addTrace_between {s : State} (l : LaneId) (d : TraceDraft) (hroom : s.trace.length < traceCapacity)
    (hhalf : s.trace.length ≠ 256) (hlast : s.trace.length ≠ 511) : s.addTrace l d = s.withEntry l d := by
  rw [addTrace_of_room l d hroom, if_neg hhalf, if_neg hlast]

/-- READ_TRACE leaves the gap pending mark, refused or not (R170). -/
@[simp] theorem readTrace_gapPending (tag : Byte) (payload : List Byte) (s : State) :
    (readTrace tag payload s).gapPending = s.gapPending := by
  unfold readTrace
  dsimp only
  split
  case isTrue => exact State.refuse_gapPending ..
  case isFalse => rfl

/-- CLEAR_TRACE leaves the gap pending mark (R168, R170). -/
@[simp] theorem clearTrace_gapPending (tag : Byte) (payload : List Byte) (s : State) :
    (clearTrace tag payload s).gapPending = s.gapPending :=
  rfl

/-- A request whose act leaves the gap pending mark leaves it, taken, refused or not its turn (R182). -/
theorem takeRequest_gapPending {code tag : Byte} {payload : List Byte} {len : Nat} {act : State → State}
    (hact : ∀ s : State, (act s).gapPending = s.gapPending) (s : State) :
    (s.takeRequest code len tag payload act).gapPending = s.gapPending :=
  takeRequest_keeps (Φ := fun t => t.gapPending = s.gapPending) rfl
    (fun _ => by simp) (fun _ _ => by simp [hact])

end Sys2Proof.Machine

namespace Sys2Proof

open Machine

/-- Settles O47: an entry by the occupancy that finds it (512, 256, 511 and the rest), and then the two requests
that take entries out. -/
theorem gapMarkFollowsDrops : Obligations.GapMarkFollowsDrops := by
  refine ⟨fun s l d hfull => addTrace_full l d hfull.ge, fun s l d hroom added hadded => ?entry,
    fun s tag n => ?requests⟩
  case entry =>
    have hadded : added = s.withEntry l d := hadded
    subst hadded
    refine ⟨fun hhalf => ?half, fun hlast => ?last, addTrace_between l d hroom⟩
    case half =>
      rw [addTrace_at_half l d hhalf]
      exact raise_raises _ .traceHalf
    case last =>
      rw [addTrace_at_last l d hlast]
      exact raise_raises _ .traceFull
  case requests =>
    exact ⟨_, _, rfl, rfl, takeRequest_gapPending (readTrace_gapPending tag [n]) s,
      takeRequest_gapPending (clearTrace_gapPending tag [n]) s⟩

end Sys2Proof
end

section
/-! What keeps the bounds of the part's lists and the invariant of its valves: the shared operations, and then the
acts of the requests. -/

namespace Sys2Proof.Machine

/-! ## The two invariants together -/

/-- The invariant of the valves without what it says of the samples held back (R96; State.safe). -/
structure State.Sound (s : State) : Prop where
  store : s.store.limited
  settled : ∀ l : LaneId, s.lanes[l].settled
  safe : s.live = true → ∀ l : LaneId, s.lanes[l].safe (s.env l).airOk

/-- Going from one state to another keeps the bounds and the invariant of the valves. -/
structure State.Keeps (s t : State) : Prop where
  bounded : s.bounded → t.bounded
  sound : s.Sound → t.Sound

theorem State.Keeps.refl (s : State) : s.Keeps s := ⟨id, id⟩

theorem State.Keeps.trans {s t u : State} (h : s.Keeps t) (k : t.Keeps u) : s.Keeps u :=
  ⟨k.bounded ∘ h.bounded, k.sound ∘ h.sound⟩

/-- A state whose lanes keep their bounds and stay settled and safe one by one keeps both invariants if its trace,
its link and its store do, the clock runs only where it ran, and the air levels are as they were. -/
theorem State.Keeps.of_each {s t : State} (hb : ∀ l : LaneId, s.lanes[l].bounded → t.lanes[l].bounded)
    (hs : ∀ l : LaneId, s.lanes[l].settled → t.lanes[l].settled)
    (hf : ∀ (l : LaneId) (air : Bool), s.lanes[l].safe air → t.lanes[l].safe air)
    (htrace : t.trace.length ≤ s.trace.length) (hlink : s.link.bounded → t.link.bounded)
    (hstore : s.Sound → t.store.limited) (hphase : t.live = true → s.live = true)
    (hair : t.live = true → ∀ l : LaneId, (t.env l).airOk = (s.env l).airOk) : s.Keeps t := by
  refine ⟨fun ⟨trace, link, lanes⟩ => ⟨htrace.trans trace, hlink link, fun l => hb l (lanes l)⟩,
    fun h => ⟨hstore h, fun l => hs l (h.settled l), fun hlive l => ?_⟩⟩
  rw [hair hlive l]
  exact hf l _ (h.safe (hphase hlive) l)

/-- A state with the same lanes and levels keeps both invariants if its trace, its link and its store do. -/
theorem State.Keeps.of_lanes {s t : State} (hlanes : t.lanes = s.lanes)
    (htrace : t.trace.length ≤ s.trace.length) (hlink : s.link.bounded → t.link.bounded)
    (hstore : s.Sound → t.store.limited) (hphase : t.live = true → s.live = true)
    (hraw : t.lines.raw = s.lines.raw) : s.Keeps t :=
  .of_each (fun l h => by rwa [hlanes]) (fun l h => by rwa [hlanes]) (fun l _ h => by rwa [hlanes]) htrace hlink
    hstore hphase fun _ l => congrArg (·[(airLine l).castSucc]) hraw

/-- A state that shares the lanes, the trace, the link, the clock, the levels and the store keeps both. -/
theorem State.Keeps.same {s t : State} (hlanes : t.lanes = s.lanes) (htrace : t.trace = s.trace)
    (hlink : t.link = s.link) (hphase : t.phase = s.phase) (hraw : t.lines.raw = s.lines.raw)
    (hstore : t.store = s.store) : s.Keeps t :=
  .of_lanes hlanes (le_of_eq (congrArg _ htrace)) (fun h => hlink ▸ h) (fun h => hstore ▸ h.store)
    (fun h => by rwa [State.live, hphase] at h) hraw

/-- What the invariant of the valves says of one lane. -/
structure State.LaneSound (s : State) (l : LaneId) : Prop where
  settled : s.lanes[l].settled
  safe : s.live = true → s.lanes[l].safe (s.env l).airOk

/-- Where the clock runs it says that the lane is settled and safe. -/
theorem State.LaneSound.good {s : State} {l : LaneId} (h : s.LaneSound l) (hlive : s.live = true) :
    s.lanes[l].Good (s.env l).airOk := ⟨h.settled, h.safe hlive⟩

/-- A step that changed one lane alone keeps both invariants if it keeps those of the lane. -/
theorem State.Keeps.of_lane {s t : State} {l : LaneId} (hf : s.LaneFrame l t)
    (hshared : s.trace.length ≤ traceCapacity ∧ s.link.bounded → t.trace.length ≤ traceCapacity ∧ t.link.bounded)
    (hb : s.lanes[l].bounded → t.lanes[l].bounded) (hg : s.LaneSound l → t.LaneSound l) : s.Keeps t := by
  have hlive : t.live = s.live := by rw [State.live, State.live, hf.phase]
  have hair (k : LaneId) : (t.env k).airOk = (s.env k).airOk :=
    congrArg (fun f : FieldLines => f.raw[(airLine k).castSucc]) hf.lines
  have hlane (h : s.Sound) (k : LaneId) : t.LaneSound k := by
    by_cases hk : k = l
    · subst hk; exact hg ⟨h.settled k, fun hl => h.safe hl k⟩
    · refine ⟨?_, fun hl => ?_⟩
      · rw [hf.lanes k hk]; exact h.settled k
      · rw [hf.lanes k hk, hair k]; exact h.safe (hlive ▸ hl) k
  refine ⟨fun ⟨trace, link, lanes⟩ => ⟨(hshared ⟨trace, link⟩).1, (hshared ⟨trace, link⟩).2, fun k => ?_⟩,
    fun h => ⟨hf.store ▸ h.store, fun k => (hlane h k).settled, fun hl k => (hlane h k).safe hl⟩⟩
  by_cases hk : k = l
  · subst hk; exact hb (lanes k)
  · rw [hf.lanes k hk]; exact lanes k

/-! ## The shared operations -/

theorem raise_keeps (s : State) (e : Event) : s.Keeps (s.raise e) :=
  .of_lanes (by simp) (by simp) (raise_bounded e) (fun h => by simpa using h.store)
    (fun h => by simpa [State.live] using h) (by simp)

/-- A step of a lane of a part whose clock runs keeps both invariants if what its blocks do keeps those of the
lane. -/
theorem stepLane_keeps {s : State} {l : LaneId} {f : LaneEnv → Lane → LaneOut} (hlive : s.live = true)
    (hb : s.lanes[l].bounded → (f (s.env l) s.lanes[l]).lane.bounded)
    (hg : s.lanes[l].Good (s.env l).airOk → (f (s.env l) s.lanes[l]).lane.Good (s.env l).airOk) :
    s.Keeps (s.stepLane l f) := by
  refine .of_lane (stepLane_frame s l f) (fun h => commit_bounded l _ _ h) (fun h => ?_) fun h => ?_
  · rw [stepLane_lane]
    exact laneStep_bounded (hb h)
  · have hgood := laneStep_good (hg (h.good hlive))
    have hair : ((s.stepLane l f).env l).airOk = (s.env l).airOk :=
      congrArg (fun x : FieldLines => x.raw[(airLine l).castSucc]) (stepLane_frame s l f).lines
    exact ⟨stepLane_lane s l f ▸ hgood.1, fun _ => by rw [stepLane_lane, hair]; exact hgood.2⟩

/-- A change of a lane's data on a part whose clock runs keeps both invariants if it keeps those of the lane. -/
theorem editLane_keeps {s : State} {l : LaneId} {f : Lane → Lane} (hlive : s.live = true)
    (hb : s.lanes[l].bounded → (f s.lanes[l]).bounded)
    (hg : s.lanes[l].Good (s.env l).airOk → (f s.lanes[l]).Good (s.env l).airOk) : s.Keeps (s.editLane l f) := by
  have hlane : (s.editLane l f).lanes[l] = f s.lanes[l] := by simp
  refine .of_lane (editLane_frame s l f) id (fun h => hlane ▸ hb h) fun h => ?_
  have hgood := hg (h.good hlive)
  exact ⟨hlane ▸ hgood.1, fun _ => hlane ▸ hgood.2⟩

/-! ## Requests -/

/-- The state that a taken request acts on: a part that works, with no reply waiting (R182). -/
structure State.Ready (s : State) : Prop where
  phase : s.phase = .working
  noReply : s.link.replyWaits = false

theorem State.Ready.live {s : State} (h : s.Ready) : s.live = true := live_of_working h.phase

/-- The reply of a request of the code is no notice (R183). -/
def isReplyCode (code : Byte) : Bool := decide (code.toNat % 0x80 < 0x70)

/-- A reply keeps both invariants: no other waits (R182). -/
theorem State.Ready.answer {s : State} (h : s.Ready) (code tag : Byte) (st : Status) (items : List Byte)
    (hc : isReplyCode code = true) : s.Keeps (s.answer code tag st items) :=
  .of_lanes rfl (le_refl _) (answer_bounded (replyKind_not_notice (of_decide_eq_true hc) _ _) h.noReply) (fun k => k.store) id rfl

theorem popInput_keeps (s : State) : s.Keeps s.popInput := by
  refine .of_lanes rfl (le_refl _) (fun ⟨input, notices, replies⟩ => ⟨?_, notices, replies⟩)
    (fun h => h.store) id rfl
  exact (List.length_drop ▸ Nat.sub_le _ _ : (s.link.input.drop 1).length ≤ s.link.input.length).trans input

theorem popInput_ready {s : State} {r : Request} (h : s.takeable r = true) : s.popInput.Ready := by
  obtain ⟨hphase, hreply, -⟩ := takeable_elim h
  exact ⟨hphase, hreply⟩

/-- A request keeps both invariants if its act does (R182). -/
theorem takeRequest_keepsBoth {s : State} {code tag : Byte} {payload : List Byte} {len : Nat}
    {act : State → State} (hc : isReplyCode code = true) (ha : ∀ x : State, x.Ready → x.Keeps (act x)) :
    s.Keeps (s.takeRequest code len tag payload act) :=
  takeRequest_keeps (.refl s) (fun h => (popInput_keeps s).trans ((popInput_ready h).answer _ _ _ _ hc))
    fun h _ => (popInput_keeps s).trans (ha _ (popInput_ready h))

end Sys2Proof.Machine
end

section
/-! Every request keeps the bounds and the invariant of the valves: an act for each code of R186. -/

namespace Sys2Proof.Machine

variable {s : State} {tag : Byte} {payload : List Byte}

/-- An act that answers and then changes a lane's data keeps both invariants if the change does. -/
theorem State.Ready.answerEdit (h : s.Ready) (code tag : Byte) (st : Status) (items : List Byte) (l : LaneId)
    (f : Lane → Lane) (hb : s.lanes[l].bounded → (f s.lanes[l]).bounded)
    (hg : s.lanes[l].Good (s.env l).airOk → (f s.lanes[l]).Good (s.env l).airOk)
    (hc : isReplyCode code = true) : s.Keeps ((s.answer code tag st items).editLane l f) :=
  (h.answer code tag st items hc).trans (editLane_keeps (s := s.answer code tag st items) h.live hb hg)

/-- An act that answers and then takes a step of a lane keeps both invariants if the step's blocks do. -/
theorem State.Ready.answerStep (h : s.Ready) (code tag : Byte) (st : Status) (items : List Byte) (l : LaneId)
    (f : LaneEnv → Lane → LaneOut) (hb : s.lanes[l].bounded → (f (s.env l) s.lanes[l]).lane.bounded)
    (hg : s.lanes[l].Good (s.env l).airOk → (f (s.env l) s.lanes[l]).lane.Good (s.env l).airOk)
    (hc : isReplyCode code = true) : s.Keeps ((s.answer code tag st items).stepLane l f) :=
  (h.answer code tag st items hc).trans (stepLane_keeps (s := s.answer code tag st items) h.live hb hg)

/-! ## Requests over a lane -/

theorem clearTallies_good {ln : Lane} {air : Bool} (h : ln.Good air) : ln.clearTallies.Good air :=
  h.same rfl rfl rfl rfl rfl rfl rfl rfl

theorem getLaneStatus_keeps (h : s.Ready) : s.Keeps (getLaneStatus tag payload s) := by
  unfold getLaneStatus
  split
  next => exact h.answer _ _ _ _ rfl
  next l _ =>
    dsimp only
    split
    next => exact h.answerEdit _ _ _ _ _ _ (·.same rfl rfl rfl) clearTallies_good rfl
    next => exact h.answer _ _ _ _ rfl

/-- A geometry that a payload spells has a reverse limit in range (R125). -/
theorem geometry_ofPayload_limit {p : List Byte} {g : Geometry} (h : Geometry.ofPayload? p = some g) :
    g.reverseLimit ≤ maxReverseLimit := by
  unfold Geometry.ofPayload? at h
  dsimp only at h
  split at h
  next =>
    split at h
    next hr =>
      obtain ⟨-, -, -, -, -, -, -, hlimit⟩ := hr
      injection h with h
      subst h
      exact hlimit
    next => cases h
  next => cases h

/-- A lane at rest takes a geometry whose reverse limit is in range. -/
theorem withGeometry_good {ln : Lane} {air : Bool} {g : Geometry} (hg : g.reverseLimit ≤ maxReverseLimit)
    (hs : ln.state = .stopped) (h : ln.Good air) : (ln.withGeometry g).Good air := by
  obtain ⟨hrun, hrest, -, -⟩ := h.1
  have horderly : (ln.withGeometry g).orderly := ⟨hrun, hrest, hg⟩
  exact horderly.good (by simp [Lane.active, Lane.withGeometry, hs]) air

theorem setLaneGeometry_keeps (h : s.Ready) : s.Keeps (setLaneGeometry tag payload s) := by
  unfold setLaneGeometry
  split
  next l g _ hp =>
    split
    next hs =>
      exact h.answerEdit _ _ _ _ _ _ (·.same rfl rfl rfl) (withGeometry_good (geometry_ofPayload_limit hp) hs) rfl
    next => exact h.answer _ _ _ _ rfl
  next => exact h.answer _ _ _ _ rfl

theorem startLane_keeps (h : s.Ready) : s.Keeps (startLane tag payload s) := by
  unfold startLane
  split
  next => exact h.answer _ _ _ _ rfl
  next l _ =>
    split
    next => exact h.answer _ _ _ _ rfl
    next hs =>
      rw [not_or, not_not] at hs
      split
      next =>
        split
        next => exact h.answer _ _ _ _ rfl
        next =>
          exact h.answerStep _ _ _ _ _ _ startRun_bounded (fun hl => startRun_good _ hl.1 hs.1) rfl
      next => exact h.answer _ _ _ _ rfl

theorem stopLane_keeps (h : s.Ready) : s.Keeps (stopLane tag payload s) := by
  unfold stopLane
  split
  next => exact h.answer _ _ _ _ rfl
  next l _ =>
    split
    next hs => exact h.answerStep _ _ _ _ _ _ beginDrain_bounded (fun hl => beginDrain_good hl hs) rfl
    all_goals exact h.answer _ _ _ _ rfl

theorem clearHaltOf_keeps (h : s.Ready) : s.Keeps (clearHaltOf tag payload s) := by
  unfold clearHaltOf
  split
  next => exact h.answer _ _ _ _ rfl
  next l _ =>
    split
    next => exact h.answer _ _ _ _ rfl
    next hs =>
      rw [not_or, not_not] at hs
      exact h.answerStep _ _ _ _ _ _ clearHalt_bounded (fun hl => clearHalt_good _ hl.1 hs.1) rfl

theorem resetLaneOf_keeps (h : s.Ready) : s.Keeps (resetLaneOf tag payload s) := by
  unfold resetLaneOf
  split
  next => exact h.answer _ _ _ _ rfl
  next l _ => exact h.answerStep _ _ _ _ _ _ resetLane_bounded (fun hl => resetLane_good _ hl.1) rfl

theorem injectStart_keeps (h : s.Ready) : s.Keeps (injectStart tag payload s) := by
  unfold injectStart
  split
  next => exact h.answer _ _ _ _ rfl
  next l _ =>
    split
    next => exact h.answer _ _ _ _ rfl
    next inj _ =>
      split
      next hs =>
        exact h.answerEdit _ _ _ _ _ _ (·.same rfl rfl rfl) (fun hl => hl.running hs hs rfl rfl rfl id) rfl
      next => exact h.answer _ _ _ _ rfl

/-- A lane whose injection ends stays settled and safe. -/
theorem withoutInjection_good {ln : Lane} {air : Bool} (h : ln.Good air) : (ln.withInjection none).Good air := by
  obtain ⟨⟨hrun, hrest, hbelow, hlimit⟩, hsafe⟩ := h
  exact ⟨⟨fun hs => ⟨rfl, (hrun hs).2⟩, hrest, hbelow, hlimit⟩, hsafe.same rfl rfl rfl rfl⟩

theorem injectStop_keeps (h : s.Ready) : s.Keeps (injectStop tag payload s) := by
  unfold injectStop
  split
  next => exact h.answer _ _ _ _ rfl
  next => exact h.answerEdit _ _ _ _ _ _ (·.same rfl rfl rfl) withoutInjection_good rfl

/-! ## Requests over a lane's timebase -/

theorem setTimebase_keeps (h : s.Ready) : s.Keeps (setTimebase tag payload s) := by
  unfold setTimebase
  split
  next =>
    split
    next => exact h.answer _ _ _ _ rfl
    next =>
      split
      next =>
        exact h.answerEdit _ _ _ _ _ _ (·.same rfl rfl rfl) (·.same rfl rfl rfl rfl rfl rfl rfl rfl) rfl
      next => exact h.answer _ _ _ _ rfl
  next => exact h.answer _ _ _ _ rfl

/-- A new scale waits on a lane that runs or drains alone (R28), and a new rate is none of the valves' matter. -/
theorem newScale_newRate_good {ln : Lane} {air : Bool} (scale rate : Nat) (h : ln.Good air) :
    ((ln.newScale scale).newRate rate).Good air := by
  obtain ⟨⟨hrun, hrest, hbelow, hlimit⟩, hsafe⟩ := h
  unfold Lane.newScale
  split
  next ha =>
    refine ⟨⟨hrun, fun hi => ?_, hbelow, hlimit⟩, hsafe.same rfl rfl rfl rfl⟩
    exact nomatch ha.symm.trans hi
  next =>
    refine ⟨⟨hrun, fun hi => ?_, hbelow, hlimit⟩, hsafe.same rfl rfl rfl rfl⟩
    obtain ⟨hq, hp, -⟩ := hrest hi
    exact ⟨hq, hp, rfl⟩

theorem newScale_newRate_bounded {ln : Lane} (scale rate : Nat) (h : ln.bounded) :
    ((ln.newScale scale).newRate rate).bounded := by
  unfold Lane.newScale
  split <;> exact h.same rfl rfl rfl

theorem setScale_keeps (h : s.Ready) : s.Keeps (setScale tag payload s) := by
  unfold setScale
  dsimp only
  split
  next => exact h.answer _ _ _ _ rfl
  next =>
    split
    next =>
      split
      next => exact h.answer _ _ _ _ rfl
      next =>
        exact h.answerEdit _ _ _ _ _ _ (newScale_newRate_bounded _ _) (newScale_newRate_good _ _) rfl
    next => exact h.answer _ _ _ _ rfl

theorem switchSource_keeps (h : s.Ready) : s.Keeps (switchSource tag payload s) := by
  unfold switchSource
  split
  next =>
    split
    next hs =>
      exact h.answerEdit _ _ _ _ _ _ (·.same rfl rfl rfl) (fun hl => hl.running hs hs rfl rfl rfl id) rfl
    next => exact h.answer _ _ _ _ rfl
  next => exact h.answer _ _ _ _ rfl

theorem abortSwitch_keeps (h : s.Ready) : s.Keeps (abortSwitch tag payload s) := by
  unfold abortSwitch
  split
  next => exact h.answer _ _ _ _ rfl
  next =>
    exact h.answerEdit _ _ _ _ _ _ (·.same rfl rfl rfl) (·.dropSwitch rfl rfl rfl rfl rfl rfl rfl rfl) rfl

/-! ## Requests over the tables and the stations -/

/-- A change of the device-wide configuration is none of the invariants' matter. -/
theorem withDevice_keeps (s : State) (f : DeviceConfig → DeviceConfig) : s.Keeps (s.withDevice f) :=
  .same rfl rfl rfl rfl rfl rfl

theorem setClassEntry_keeps (h : s.Ready) : s.Keeps (setClassEntry tag payload s) := by
  unfold setClassEntry
  split
  next => exact (h.answer _ _ _ _ rfl).trans (withDevice_keeps ..)
  next => exact h.answer _ _ _ _ rfl

theorem setProfile_keeps (h : s.Ready) : s.Keeps (setProfile tag payload s) := by
  unfold setProfile
  split
  next => exact (h.answer _ _ _ _ rfl).trans (withDevice_keeps ..)
  next => exact h.answer _ _ _ _ rfl

theorem setStation_keeps (h : s.Ready) : s.Keeps (setStation tag payload s) := by
  unfold setStation
  split
  next => exact h.answerEdit _ _ _ _ _ _ (·.same rfl rfl rfl) (·.same rfl rfl rfl rfl rfl rfl rfl rfl) rfl
  next => exact h.answer _ _ _ _ rfl

theorem enableStation_keeps (h : s.Ready) : s.Keeps (enableStation tag payload s) := by
  unfold enableStation
  split
  next =>
    split
    next => exact h.answer _ _ _ _ rfl
    next => exact h.answerEdit _ _ _ _ _ _ (·.same rfl rfl rfl) (·.same rfl rfl rfl rfl rfl rfl rfl rfl) rfl
  next => exact h.answer _ _ _ _ rfl

theorem disableStationOf_keeps (h : s.Ready) : s.Keeps (disableStationOf tag payload s) := by
  unfold disableStationOf
  split
  next =>
    split
    next => exact h.answerStep _ _ _ _ _ _ disableStation_bounded disableStation_good rfl
    next => exact h.answer _ _ _ _ rfl
  next => exact h.answer _ _ _ _ rfl

/-! ## Requests over a lane's lots -/

theorem hostClose_good {id : LotId} {env : LaneEnv} {ln : Lane} {air : Bool} (h : ln.Good air) :
    (hostClose id env ln).lane.Good air := h.same rfl rfl rfl rfl rfl rfl rfl rfl

theorem closeLot_keeps (h : s.Ready) : s.Keeps (closeLot tag payload s) := by
  unfold closeLot
  split
  next => exact h.answer _ _ _ _ rfl
  next =>
    dsimp only
    split
    next => exact h.answer _ _ _ _ rfl
    next =>
      split
      next => exact h.answer _ _ _ _ rfl
      next => exact h.answerStep _ _ _ _ _ _ hostClose_bounded hostClose_good rfl

theorem setLotLimit_keeps (h : s.Ready) : s.Keeps (setLotLimit tag payload s) := by
  unfold setLotLimit
  split
  next => exact h.answer _ _ _ _ rfl
  next => exact h.answerEdit _ _ _ _ _ _ (·.same rfl rfl rfl) (·.same rfl rfl rfl rfl rfl rfl rfl rfl) rfl

/-! ## Requests over the field lines and the feed -/

theorem setChutePolicy_keeps (h : s.Ready) : s.Keeps (setChutePolicy tag payload s) := by
  unfold setChutePolicy
  split
  next => exact h.answerEdit _ _ _ _ _ _ (·.same rfl rfl rfl) (·.same rfl rfl rfl rfl rfl rfl rfl rfl) rfl
  next => exact h.answer _ _ _ _ rfl

theorem setBusyEnables_keeps (h : s.Ready) : s.Keeps (setBusyEnables tag payload s) := by
  unfold setBusyEnables
  split
  next => exact h.answer _ _ _ _ rfl
  next => exact h.answerEdit _ _ _ _ _ _ (·.same rfl rfl rfl) (·.same rfl rfl rfl rfl rfl rfl rfl rfl) rfl

theorem setHostHold_keeps {code : Byte} (hc : isReplyCode code = true) (hold : Bool) (h : s.Ready) :
    s.Keeps (setHostHold code hold tag payload s) := by
  unfold setHostHold
  split
  next => exact h.answer _ _ _ _ hc
  next =>
    exact h.answerEdit _ _ _ _ _ _ (·.same rfl rfl rfl) (·.same rfl rfl rfl rfl rfl rfl rfl rfl) hc

theorem releaseMillTrip_keeps (h : s.Ready) : s.Keeps (releaseMillTrip tag payload s) := by
  unfold releaseMillTrip
  split
  next => exact h.answer _ _ _ _ rfl
  next => exact (h.answer 0x46 tag .ok _ rfl).trans (.same rfl rfl rfl rfl rfl rfl)

/-! ## Requests over the trace, the events and the device -/

theorem readTrace_keeps (h : s.Ready) : s.Keeps (readTrace tag payload s) := by
  unfold readTrace
  dsimp only
  split
  next => exact h.answer _ _ _ _ rfl
  next =>
    refine (h.answer 0x50 tag .ok _ rfl).trans (.of_lanes rfl ?_ id (fun k => k.store) id rfl)
    simp

theorem clearTrace_keeps (h : s.Ready) : s.Keeps (clearTrace tag payload s) := by
  refine (h.answer 0x51 tag .ok _ rfl).trans (.of_lanes rfl ?_ id (fun k => k.store) id rfl)
  simp [clearTrace]

theorem clearEvents_keeps (h : s.Ready) : s.Keeps (clearEvents tag payload s) := by
  unfold clearEvents
  split
  next => exact (h.answer 0x53 tag .ok _ rfl).trans (.same rfl rfl rfl rfl rfl rfl)
  next => exact h.answer _ _ _ _ rfl

theorem setStatusPeriod_keeps (h : s.Ready) : s.Keeps (setStatusPeriod tag payload s) := by
  unfold setStatusPeriod
  dsimp only
  split
  next => exact h.answer _ _ _ _ rfl
  next => exact (h.answer 0x55 tag .ok _ rfl).trans (.same rfl rfl rfl rfl rfl rfl)

/-- The reverse limits of a snapshot are those of the lanes (R192). -/
theorem snapshot_limited (h : s.Sound) : s.snapshot.limited := by
  intro l
  obtain ⟨-, -, -, hlimit⟩ := h.settled l
  simpa [State.snapshot] using hlimit

theorem saveSettings_keeps (h : s.Ready) : s.Keeps (saveSettings tag payload s) := by
  unfold saveSettings
  split
  next => exact h.answer _ _ _ _ rfl
  next =>
    refine (h.answer 0x03 tag .accepted [] rfl).trans (.of_lanes rfl (le_refl _) id (fun k => ?_) id rfl)
    exact ⟨k.store.1, fun im him => Option.some.inj him ▸ snapshot_limited k⟩

theorem getLinkStatus_keeps (h : s.Ready) : s.Keeps (getLinkStatus tag payload s) := by
  unfold getLinkStatus
  dsimp only
  split
  next => exact (h.answer 0x04 tag .ok _ rfl).trans (.of_lanes rfl (le_refl _) id (fun k => k.store) id rfl)
  next => exact h.answer _ _ _ _ rfl

theorem resetDevice_keeps (h : s.Ready) : s.Keeps (resetDevice tag payload s) :=
  (h.answer 0x02 tag .ok _ rfl).trans (.of_lanes rfl (le_refl _) id (fun k => k.store) id rfl)

end Sys2Proof.Machine
end

section
/-! Every command keeps the bounds and the invariant of the valves: the field lines, power, the timers and the
links; and with the samples held back the two invariants of the part. -/

namespace Sys2Proof.Machine

/-! ## Field lines -/

theorem edgeNotice_keeps (s : State) (i : LineId) (level : Bool) : s.Keeps (s.edgeNotice i level) := by
  unfold State.edgeNotice
  split
  · exact raise_keeps ..
  · exact .refl s

theorem millEdge_keeps (s : State) (i : DebouncedId) (level : Bool) : s.Keeps (s.millEdge i level) := by
  unfold State.millEdge
  split
  · exact State.Keeps.trans (t := { s with millTripLatch := true }) (.same rfl rfl rfl rfl rfl rfl) (raise_keeps ..)
  · exact .refl s

theorem driveEdge_keeps {s : State} (hlive : s.live = true) (i : DebouncedId) (level : Bool) :
    s.Keeps (s.driveEdge i level) := by
  unfold State.driveEdge
  split
  · exact stepLane_keeps hlive driveEdge_bounded driveEdge_good
  · exact .refl s

/-- Field lines with the same raw levels are none of the invariants' matter. -/
theorem lines_keeps (s : State) (f : FieldLines) (hraw : f.raw = s.lines.raw) : s.Keeps { s with lines := f } :=
  .same rfl rfl rfl rfl hraw rfl

theorem debouncedEdge_keeps {s : State} (hlive : s.live = true) (i : DebouncedId) :
    s.Keeps (s.debouncedEdge i) := by
  have hlines := lines_keeps s (s.lines.settle i s.lines.raw[i.castSucc]) rfl
  have hdrive := driveEdge_keeps (s := { s with lines := s.lines.settle i s.lines.raw[i.castSucc] }) hlive i
  exact ((hlines.trans (hdrive _)).trans (millEdge_keeps ..)).trans (edgeNotice_keeps ..)

theorem settleLine_keeps {s : State} (hlive : s.live = true) (i : DebouncedId) : s.Keeps (s.settleLine i) := by
  unfold State.settleLine
  split
  · exact debouncedEdge_keeps hlive i
  · exact .refl s

theorem edgeNotice_phase (s : State) (i : LineId) (level : Bool) : (s.edgeNotice i level).phase = s.phase := by
  unfold State.edgeNotice
  split
  · exact State.raise_phase ..
  · rfl

/-- A debounced edge leaves the phase of the part. -/
theorem debouncedEdge_phase (s : State) (i : DebouncedId) : (s.debouncedEdge i).phase = s.phase := by
  have hdrive (x : State) (level : Bool) : (x.driveEdge i level).phase = x.phase := by
    unfold State.driveEdge
    split
    · exact (stepLane_frame _ _ _).phase
    · rfl
  have hmill (x : State) (level : Bool) : (x.millEdge i level).phase = x.phase := by
    unfold State.millEdge
    split
    · exact State.raise_phase ..
    · rfl
  exact (edgeNotice_phase ..).trans ((hmill ..).trans (hdrive ..))

theorem settleLine_phase (s : State) (i : DebouncedId) : (s.settleLine i).phase = s.phase := by
  unfold State.settleLine
  split
  · exact debouncedEdge_phase s i
  · rfl

theorem debounceRaw_keeps {s : State} (hlive : s.live = true) (i : DebouncedId) (level : Bool) :
    s.Keeps (s.debounceRaw i level) := by
  refine (lines_keeps s _ ?_).trans (settleLine_keeps ?_ i)
  · rfl
  · exact hlive

/-- The candidates that SET_LINE_CONFIG finds due are settled one after another (R152). -/
theorem settleLines_keeps (is : List DebouncedId) {s : State} (hlive : s.live = true) :
    s.Keeps (is.foldl State.settleLine s) := by
  induction is generalizing s with
  | nil => exact .refl s
  | cons i is ih =>
    refine (settleLine_keeps hlive i).trans (ih ?_)
    rw [State.live, settleLine_phase]
    exact hlive

theorem setLineConfig_keeps {s : State} {tag : Byte} {payload : List Byte} (h : s.Ready) :
    s.Keeps (setLineConfig tag payload s) := by
  unfold setLineConfig
  split
  next => exact h.answer _ _ _ _ rfl
  next edges _ =>
    refine (h.answer 0x40 tag .ok [] rfl).trans (State.Keeps.trans (withDevice_keeps _ fun d => { d with
      debounce := _, edges := edges }) (settleLines_keeps _ ?_))
    exact h.live

/-- The halts of PLANT_STOP keep both invariants, lane by lane (R121). -/
theorem haltLanes_keeps (ls : List LaneId) {s : State} (hlive : s.live = true) :
    s.Keeps (ls.foldl (fun x l => x.onLane l (laneStep (halt .plantStop))) s) := by
  induction ls generalizing s with
  | nil => exact .refl s
  | cons l ls ih =>
    refine (stepLane_keeps (f := halt .plantStop) hlive halt_bounded halt_good).trans (ih ?_)
    rw [State.live, (stepLane_frame s l _).phase]
    exact hlive

theorem plantStopChange_keeps {s : State} (hlive : s.live = true) (level : Bool) :
    s.Keeps (s.plantStopChange level) := by
  refine State.Keeps.trans ?_ (edgeNotice_keeps ..)
  split
  · exact (haltLanes_keeps _ hlive).trans (raise_keeps ..)
  · exact .refl s

/-- A raw level that is no air level of a part whose clock runs is none of the invariants' matter. -/
theorem setRaw_keeps (s : State) {i : LineId} (level : Bool)
    (hi : s.live = true → ∀ l : LaneId, i ≠ (airLine l).castSucc) : s.Keeps (s.setRaw i level) := by
  refine .of_each (fun _ h => h) (fun _ h => h) (fun _ _ h => h) (le_refl _) id (fun h => h.store) id
    fun hlive l => ?_
  have hne : i.val ≠ (airLine l).castSucc.val := fun e => hi hlive l (Fin.ext e)
  show (s.lines.raw.set i level)[(airLine l).castSucc] = s.lines.raw[(airLine l).castSucc]
  exact Vector.getElem_set_ne _ _ hne

/-- A state in which only lane `l` has changed, with its air level, and that lane fires nothing, is sound. -/
theorem State.Sound.of_noFire {s t : State} {l : LaneId} (h : s.Sound) (hstore : t.store = s.store)
    (hphase : t.phase = s.phase) (hair : ∀ k : LaneId, k ≠ l → (t.env k).airOk = (s.env k).airOk)
    (hlanes : ∀ k : LaneId, k ≠ l → t.lanes[k] = s.lanes[k]) (hs : t.lanes[l].settled)
    (hn : t.lanes[l].NoFire) : t.Sound := by
  refine ⟨hstore ▸ h.store, fun k => ?_, fun hlive k => ?_⟩
  · by_cases hk : k = l
    · subst hk; exact hs
    · rw [hlanes k hk]; exact h.settled k
  · by_cases hk : k = l
    · subst hk; exact hn.safe _
    · rw [hlanes k hk, hair k hk]
      exact h.safe (by rwa [State.live, hphase] at hlive) k

theorem setRaw_airOk_other (s : State) {l k : LaneId} (level : Bool) (hk : k ≠ l) :
    ((s.setRaw (airLine l).castSucc level).env k).airOk = (s.env k).airOk := by
  have hne : (airLine l).castSucc.val ≠ (airLine k).castSucc.val := fun e =>
    hk (Option.some.inj ((airOf_eq_some.mpr (Fin.ext e)).symm.trans (airOf_eq_some.mpr rfl)))
  exact Vector.getElem_set_ne (airLine l).castSucc.isLt (airLine k).castSucc.isLt hne

/-- The raw AIR_OK level of a lane changes: its loss cuts the firings, and without air there were none (R96,
R106, R154). -/
theorem airAction_keeps {s : State} (hlive : s.live = true) (l : LaneId) (level : Bool)
    (hchange : s.lines.raw[(airLine l).castSucc] ≠ level) :
    s.Keeps ((s.setRaw (airLine l).castSucc level).airAction (airLine l).castSucc level) := by
  have hair : airOf? (airLine l).castSucc = some l := airOf_eq_some.mpr rfl
  cases level with
  | true =>
    have hsame : (s.setRaw (airLine l).castSucc true).airAction (airLine l).castSucc true =
        s.setRaw (airLine l).castSucc true := by simp [State.airAction, hair]
    rw [hsame]
    refine ⟨fun h => h, fun h => h.of_noFire (l := l) rfl rfl (fun k hk => setRaw_airOk_other s true hk)
      (fun _ _ => rfl) (h.settled l) ?_⟩
    have hno : (s.env l).airOk = false := Bool.eq_false_iff.mpr hchange
    have hsafe := h.safe hlive l
    rw [hno] at hsafe
    exact hsafe rfl
  | false =>
    have hstep : (s.setRaw (airLine l).castSucc false).airAction (airLine l).castSucc false =
        (s.setRaw (airLine l).castSucc false).stepLane l fun env => cutLane env .cutAir := by
      simp [State.airAction, hair, State.stepLane]
    rw [hstep]
    have hframe := stepLane_frame (s.setRaw (airLine l).castSucc false) l fun env => cutLane env .cutAir
    refine ⟨fun h => onLane_bounded (s := s.setRaw _ _) h (laneStep_bounded (cutLane_bounded (h.2.2 l))),
      fun h => h.of_noFire (l := l) hframe.store hframe.phase (fun k hk => ?_) hframe.lanes ?_ ?_⟩
    · exact (congrArg (fun x : FieldLines => x.raw[(airLine k).castSucc]) hframe.lines).trans
        (setRaw_airOk_other s false hk)
    · rw [stepLane_lane]
      exact (laneStep_good ((cutLane_tame (s.env l).airOk _ _ _).good ⟨h.settled l, h.safe hlive l⟩)).1
    · rw [stepLane_lane]
      intro p hp
      rw [laneStep_queue] at hp
      exact cutLane_noFire _ _ _ p hp

theorem airAction_phase (s : State) (i : LineId) (level : Bool) : (s.airAction i level).phase = s.phase := by
  unfold State.airAction
  split
  next =>
    split
    · rfl
    · exact (stepLane_frame s _ _).phase
  next => rfl

theorem rawAction_keeps {s : State} (hlive : s.live = true) (i : LineId) (level : Bool)
    (hchange : s.lines.raw[i] ≠ level) : s.Keeps (s.rawAction i level) := by
  unfold State.rawAction
  split
  next hi =>
    have haction : s.Keeps ((s.setRaw i level).airAction i level) := by
      cases hair : airOf? i with
      | none =>
        have hsame : (s.setRaw i level).airAction i level = s.setRaw i level := by simp [State.airAction, hair]
        rw [hsame]
        refine setRaw_keeps s level fun _ l hl => ?_
        rw [airOf_eq_some.mpr hl] at hair
        cases hair
      | some l =>
        have hline := airOf_eq_some.mp hair
        subst hline
        exact airAction_keeps hlive l level hchange
    refine haction.trans (debounceRaw_keeps ?_ _ _)
    rw [State.live, airAction_phase]
    exact hlive
  next hi =>
    refine (setRaw_keeps s level fun _ l hl => hi ?_).trans (plantStopChange_keeps (s := s.setRaw i level) hlive level)
    rw [hl]
    exact (airLine l).isLt

/-- A raw level at an input keeps both invariants (R151, R154, R156). -/
theorem rawChange_keeps (s : State) (i : LineId) (level : Bool) : s.Keeps (s.rawChange i level) := by
  unfold State.rawChange
  split
  next => exact .refl s
  next hchange =>
    split
    next hlive => exact rawAction_keeps hlive i level hchange
    next hdown => exact setRaw_keeps s level fun hlive => absurd hlive hdown

/-! ## Power and the settings store -/

theorem startEvents_phase (s : State) (cause : ResetCause) : (s.startEvents cause).phase = s.phase := by
  unfold State.startEvents
  split <;> simp

theorem startEvents_keeps (s : State) (cause : ResetCause) : s.Keeps (s.startEvents cause) := by
  unfold State.startEvents
  split
  · exact raise_keeps ..
  · exact (raise_keeps ..).trans (raise_keeps ..)

/-- The image that a start-up loads has reverse limits in range (R133, R194). -/
theorem loaded_limited {st : Store} (h : st.limited) : st.loaded.limited := by
  unfold Store.loaded
  split
  · exact h.1
  · unfold Image.limited
    decide

/-- Every lane is at rest right after steps 1 and 2 of a start-up (R194). -/
theorem afresh_keeps (s : State) (cause : ResetCause) : s.Keeps (s.afresh cause) := by
  have hlane (l : LaneId) : (s.afresh cause).lanes[l] =
      Lane.powerOn l s.store.loaded.lanes[l] s.lanes[l].tb.phases := by simp [State.afresh]
  have hgood (h : s.store.limited) (l : LaneId) (air : Bool) : ((s.afresh cause).lanes[l]).Good air := by
    have horderly : (Lane.powerOn l s.store.loaded.lanes[l] s.lanes[l].tb.phases).orderly :=
      ⟨fun _ => ⟨rfl, rfl⟩, fun _ => ⟨rfl, rfl, rfl⟩, loaded_limited h l⟩
    rw [hlane]
    exact horderly.good rfl air
  refine ⟨fun _ => ⟨by simp [State.afresh], ?_, fun l => hlane l ▸ powerOn_bounded ..⟩,
    fun h => ⟨⟨h.store.1, fun im him => nomatch him⟩, fun l => (hgood h.store l true).1,
      fun _ l => (hgood h.store l _).2⟩⟩
  exact ⟨by simp [State.afresh, Link.powerOn], by simp [State.afresh, Link.powerOn, Link.notices],
    by simp [State.afresh, Link.powerOn]⟩

/-- Steps 1 to 3 of a start-up keep both invariants (R194). -/
theorem startUp_keeps (s : State) (cause : ResetCause) : s.Keeps (s.startUp cause) := by
  refine State.Keeps.trans (t := (s.afresh cause).startEvents cause)
    ((afresh_keeps s cause).trans (startEvents_keeps ..)) ?_
  unfold State.startUp State.firstSample
  split
  · refine plantStopChange_keeps ?_ true
    rw [State.live, startEvents_phase]
    rfl
  · exact .refl _

/-- A part that is no longer live keeps both invariants with its frames, its queues and its save cut off (R187,
R196). -/
theorem cutOff_keeps (s : State) {t : State} (hlanes : t.lanes = s.cutOff.lanes) (htrace : t.trace = s.trace)
    (hlink : t.link = s.cutOff.link) (hstore : t.store = s.cutOff.store) (hdown : t.live = false) : s.Keeps t := by
  have hlane (l : LaneId) : t.lanes[l] = { s.lanes[l] with
      stations := Vector.ofFn fun st : Fin 3 => { s.lanes[l].stations[st] with
        port := { s.lanes[l].stations[st].port with sending := none, waiting := false } } } := by
    rw [hlanes]
    simp [State.cutOff]
  refine .of_each (fun l h => ?_) (fun l h => ?_) (fun l _ h => ?_) (le_of_eq (congrArg _ htrace)) (fun _ => ?_)
    (fun h => ?_) (fun h => ?_) fun h => ?_
  · rw [hlane l]
    exact h.shrink (List.Sublist.refl _) h.2.1 fun st => by simp
  · rw [hlane l]
    exact h.same rfl rfl rfl rfl rfl rfl rfl rfl
  · rw [hlane l]
    exact h.same rfl rfl rfl rfl
  · rw [hlink]
    exact ⟨by simp [State.cutOff], by simp [State.cutOff, Link.notices], by simp [State.cutOff]⟩
  · rw [hstore]
    exact ⟨h.store.1, fun im him => nomatch him⟩
  · exact nomatch h.symm.trans hdown
  · exact nomatch h.symm.trans hdown

theorem powerUp_keeps (s : State) : s.Keeps s.powerUp := by
  unfold State.powerUp
  split
  · split
    · exact .of_lanes rfl (le_refl _) id (fun h => h.store) (fun h => nomatch h) rfl
    · exact startUp_keeps ..
  · split
    · exact .of_lanes rfl (le_refl _) id (fun h => h.store) (fun h => nomatch h) rfl
    · exact startUp_keeps ..
  · exact .refl s

theorem holdReset_keeps (s : State) : s.Keeps s.holdReset := by
  unfold State.holdReset
  split
  · exact .same rfl rfl rfl rfl rfl rfl
  · exact .same rfl rfl rfl rfl rfl rfl
  · exact cutOff_keeps s rfl rfl rfl rfl rfl

theorem releaseReset_keeps (s : State) : s.Keeps s.releaseReset := by
  have hlow : s.Keeps { s with rstAsserted := false } := .same rfl rfl rfl rfl rfl rfl
  unfold State.releaseReset
  split
  · exact hlow.trans (startUp_keeps ..)
  · exact hlow

theorem sendStartUpFrames_same (l : LaneId) (ln : Lane) :
    (ln.settled → (ln.sendStartUpFrames l).settled) ∧ ∀ air, ln.safe air → (ln.sendStartUpFrames l).safe air :=
  ⟨(·.same rfl rfl rfl rfl rfl rfl rfl rfl), fun _ h => h.same rfl rfl rfl rfl⟩

theorem beginWork_keeps {s : State} (hphase : s.phase = .starting) : s.Keeps s.beginWork := by
  have hlane (l : LaneId) : s.beginWork.lanes[l] = s.lanes[l].sendStartUpFrames l := by simp [State.beginWork]
  refine .of_each (fun l h => ?_) (fun l h => ?_) (fun l _ h => ?_) (le_refl _) id (fun h => h.store)
    (fun _ => live_of_starting hphase) fun _ _ => rfl
  · rw [hlane l]; exact sendStartUpFrames_bounded h
  · rw [hlane l]; exact (sendStartUpFrames_same ..).1 h
  · rw [hlane l]; exact (sendStartUpFrames_same ..).2 _ h

/-- The write of a save ends with its snapshot as the image (R193). -/
theorem endSave_keeps (s : State) (agrees : Bool) : s.Keeps (s.endSave agrees) := by
  unfold State.endSave
  split
  next => exact .refl s
  next im him =>
    refine State.Keeps.trans (t := { s with store := ⟨im, agrees, none⟩ }) ?_ (raise_keeps ..)
    exact .of_lanes rfl (le_refl _) id (fun h => ⟨h.store.2 im him, fun _ k => nomatch k⟩) id rfl

/-! ## The plant link -/

theorem fate_bounded {k : Link} (h : k.bounded) (f : Fate) : (k.fate f).bounded := by
  obtain ⟨input, notices, replies⟩ := h
  cases f with
  | underway => exact ⟨input, notices, replies⟩
  | abandoned => exact ⟨input, notices, replies⟩
  | complete body =>
    show (Link.offer _ _).bounded
    unfold Link.offer
    split
    next hroom => exact ⟨by simpa using hroom, notices, replies⟩
    next => exact ⟨input, notices, replies⟩

theorem receive_bounded (now : Time) (b : LineByte) {k : Link} (h : k.bounded) : (k.receive now b).bounded := by
  have hasm : ({ k with asm := (k.asm.take plantFormat now b).1 } : Link).bounded := h
  exact fate_bounded hasm _

theorem receiveAll_bounded (now : Time) (bytes : List LineByte) {k : Link} (h : k.bounded) :
    (k.receiveAll now bytes).bounded := by
  induction bytes generalizing k with
  | nil => exact h
  | cons b bytes ih => exact ih (receive_bounded now b h)

/-- A frame that has gone out makes room (R187). -/
theorem sent_bounded {k : Link} (h : k.bounded) (f : Frame) : (k.sent f).bounded := by
  obtain ⟨input, notices, replies⟩ := h
  have hsub : (k.output.drop 1).Sublist k.output := List.drop_sublist _ _
  have hout : (k.sent f).output = k.output.drop 1 ∧ (k.sent f).input = k.input := by
    unfold Link.sent
    split <;> exact ⟨rfl, rfl⟩
  refine ⟨hout.2 ▸ input, ?_, ?_⟩
  · rw [Link.notices, hout.1]
    exact (hsub.filter _).length_le.trans notices
  · rw [hout.1]
    exact ((hsub.drop 1).filter _).length_le.trans replies

theorem frameGone_keeps (s : State) : s.Keeps s.frameGone := by
  unfold State.frameGone
  split
  · exact .refl s
  · split
    · exact startUp_keeps ..
    · exact .of_lanes rfl (le_refl _) (sent_bounded · _) (fun h => h.store) id rfl

theorem takeUnknown_keeps (s : State) (tag kind : Byte) (payload : List Byte) :
    s.Keeps (s.takeUnknown tag kind payload) := by
  unfold State.takeUnknown
  split
  next h =>
    rw [Bool.and_eq_true] at h
    exact (popInput_keeps s).trans ((popInput_ready h.1).answer _ _ _ _ rfl)
  next => exact .refl s

theorem sendStatus_keeps (s : State) : s.Keeps s.sendStatus := by
  refine .of_lanes ?_ ?_ (offerNotice_bounded (State.statusNotice_isNotice s)) (fun h => ?_) (fun h => ?_) ?_
  · exact State.offerNotice_lanes ..
  · exact le_of_eq (congrArg _ (State.offerNotice_trace ..))
  · exact (State.offerNotice_store s s.statusNotice).symm ▸ h.store
  · have hphase : s.sendStatus.phase = s.phase := State.offerNotice_phase ..
    rwa [State.live, hphase] at h
  · exact congrArg (·.raw) (State.offerNotice_lines ..)

end Sys2Proof.Machine
end

section
/-! Every step keeps the bounds of the part's lists and the invariant of its valves (O55, O57). -/

namespace Sys2Proof.Machine

/-! ## The lanes' timers and lines -/

theorem chosen_keeps (s : State) : s.Keeps s.chosen := .same rfl rfl rfl rfl rfl rfl

theorem holding_keeps (s : State) (l : LaneId) (xs : List (Bool × Bool)) : s.Keeps (s.holding l xs) :=
  .same rfl rfl rfl rfl rfl rfl

/-- A lane line's samples keep both invariants: the earlier samples that a sample takes with it outrun the cut with
it (R96, R154). -/
theorem sampleTaken_keeps {s : State} (hlive : s.live = true) (l : LaneId) (a b : Bool) :
    s.Keeps (s.sampleTaken l a b) := by
  unfold State.sampleTaken
  split
  next => exact holding_keeps ..
  next =>
    refine (holding_keeps s l []).trans
      (stepLane_keeps (s := s.holding l []) hlive phaseSamples_bounded fun hg => phaseSamples_good hg ?_)
    by_cases ho : s.lanes[l].Outruns s.lineTime s.held[l] (a, b)
    · exact .inl (by rw [(earlier_cases s l (a, b)).1 ho]; exact ho)
    · exact .inr ((earlier_cases s l (a, b)).2 ho)

/-- The levels at the encoder pins of a part whose clock does not run (log 5). -/
theorem atPins_keeps {s : State} (hdown : s.live = false) (l : LaneId) (a b : Bool) :
    s.Keeps (s.editLane l (Lane.atPins a b)) := by
  have hlane : (s.editLane l (Lane.atPins a b)).lanes[l] = s.lanes[l].atPins a b := by simp
  refine .of_lane (editLane_frame s l _) id (fun h => hlane ▸ h.same rfl rfl rfl) fun h => ⟨?_, fun hlive => ?_⟩
  · rw [hlane]
    exact h.settled.same rfl rfl rfl rfl rfl rfl rfl rfl
  · exact nomatch hdown.symm.trans hlive

theorem execEncoderPhaseChange_keeps (s : State) (l : LaneId) (a b : Bool) :
    s.Keeps (if s.live then (s.sampleTaken l a b).chosen else s.editLane l (Lane.atPins a b)) := by
  split
  next hlive => exact (sampleTaken_keeps hlive l a b).trans (chosen_keeps _)
  next hdown => exact atPins_keeps (Bool.eq_false_iff.mpr hdown) l a b

/-- A step of a lane under a condition that only a part whose clock runs meets. -/
theorem guardedStep_keeps {s : State} {l : LaneId} {f : LaneEnv → Lane → LaneOut} {due : Bool}
    (hdue : due = true → s.live = true) (hb : s.lanes[l].bounded → (f (s.env l) s.lanes[l]).lane.bounded)
    (hg : s.lanes[l].Good (s.env l).airOk → (f (s.env l) s.lanes[l]).lane.Good (s.env l).airOk) :
    s.Keeps (if due then s.stepLane l f else s) := by
  split
  next h => exact stepLane_keeps (hdue h) hb hg
  next => exact .refl s

theorem live_of_works {s : State} (h : s.works = true) : s.live = true := by
  unfold State.live
  unfold State.works at h
  rw [h, Bool.or_true]

theorem live_of_and {s : State} {due : Bool} (h : (s.live && due) = true) : s.live = true :=
  (Bool.and_eq_true_iff.mp h).1

theorem sensorBytes_keeps (s : State) (l : LaneId) (h : HeadId) (bytes : List LineByte) :
    s.Keeps (s.sensorBytes l h bytes) :=
  guardedStep_keeps live_of_works receiveBytes_bounded receiveBytes_good

theorem execNominalCount_keeps (s : State) (l : LaneId) :
    s.Keeps (if s.live && s.lanes[l].nominalDue then (s.stepLane l nominalCount).chosen else s) := by
  split
  next h => exact (stepLane_keeps (live_of_and h) nominalCount_bounded nominalCount_good).trans (chosen_keeps _)
  next => exact .refl s

theorem execMaxOpenTimeExpiry_keeps (s : State) (l : LaneId) (serial : Serial) :
    s.Keeps (match s.lanes[l].overdue s.lineTime serial with
      | some p => if s.live then s.stepLane l fun env => endByMaxOpen env p else s
      | none => s) := by
  split
  next p _ =>
    exact guardedStep_keeps id endByMaxOpen_bounded fun hg => (endByMaxOpen_tame _ _ _ _).good hg
  next => exact .refl s

theorem portFinishes_keeps (s : State) (l : LaneId) (st : StationId) :
    s.Keeps (if s.works then s.editLane l (portFinishes st (s.env l)) else s) := by
  split
  next h => exact editLane_keeps (live_of_works h) portFinishes_bounded (·.same rfl rfl rfl rfl rfl rfl rfl rfl)
  next => exact .refl s

theorem debounceExpires_keeps (s : State) (i : DebouncedId) : s.Keeps (s.debounceExpires i) := by
  unfold State.debounceExpires
  split
  next hlive => exact settleLine_keeps hlive i
  next => exact .refl s

/-! ## The part's own clock -/

theorem runMs_same (hold : Bool) (ln : Lane) :
    (ln.settled → (ln.runMs hold).settled) ∧ ∀ air, ln.safe air → (ln.runMs hold).safe air := by
  unfold Lane.runMs
  split
  · exact ⟨(·.same rfl rfl rfl rfl rfl rfl rfl rfl), fun _ h => h.same rfl rfl rfl rfl⟩
  · exact ⟨id, fun _ => id⟩

theorem passMs_keeps (s : State) : s.Keeps s.passMs := by
  have hlane (l : LaneId) : s.passMs.lanes[l] = s.lanes[l].runMs (s.feedHold l) := by simp [State.passMs]
  refine .of_each (fun l h => ?_) (fun l h => ?_) (fun l _ h => ?_) (le_refl _) id (fun h => h.store) id fun _ _ => rfl
  · rw [hlane l]; exact runMs_bounded h
  · rw [hlane l]; exact (runMs_same ..).1 h
  · rw [hlane l]; exact (runMs_same ..).2 _ h

theorem passMicro_keeps (s : State) : s.Keeps s.passMicro := by
  have hlane (l : LaneId) : s.passMicro.lanes[l] = s.lanes[l].gain := by simp [State.passMicro]
  refine .of_each (fun l h => ?_) (fun l h => ?_) (fun l _ h => ?_) (le_refl _) id (fun h => h.store) id fun _ _ => rfl
  · rw [hlane l]; exact gain_bounded h
  · rw [hlane l]; exact h.same rfl rfl rfl rfl rfl rfl rfl rfl
  · rw [hlane l]; exact h.same rfl rfl rfl rfl

theorem idleDown_keeps (s : State) : s.Keeps s.idleDown := by
  unfold State.idleDown
  split
  next =>
    split
    · exact chosen_keeps s
    · exact .of_lanes rfl (le_refl _) id (fun h => h.store) (fun h => nomatch h) rfl
  next => exact .refl s

theorem idle_keeps (s : State) : s.Keeps s.idle := by
  unfold State.idle
  split
  next =>
    split
    next => exact .same rfl rfl rfl rfl rfl rfl
    next => exact passMicro_keeps s
  next => exact idleDown_keeps s

/-! ## Every command -/

theorem keeps_of_next {s u t : State} (h : s.Keeps u)
    (ht : (Host.Outcome.next u : Host.Outcome State Fault Refusal) = .next t) : s.Keeps t := by
  injection ht with ht
  exact ht ▸ h

theorem withLink_keeps {s : State} {f : Link → Link} (hf : s.link.bounded → (f s.link).bounded) :
    s.Keeps (s.withLink f) := .of_lanes rfl (le_refl _) hf (fun h => h.store) id rfl

/-- A condition keeps both invariants if what it guards does. -/
theorem guarded_keeps {s t : State} {c : Bool} (h : s.Keeps t) : s.Keeps (if c then t else s) := by
  split
  · exact h
  · exact .refl s

theorem identify_keeps {s : State} {tag : Byte} {payload : List Byte} (h : s.Ready) :
    s.Keeps (identify tag payload s) := h.answer _ _ _ _ rfl

theorem getLines_keeps {s : State} {tag : Byte} {payload : List Byte} (h : s.Ready) :
    s.Keeps (getLines tag payload s) := h.answer _ _ _ _ rfl

theorem getEvents_keeps {s : State} {tag : Byte} {payload : List Byte} (h : s.Ready) :
    s.Keeps (getEvents tag payload s) := h.answer _ _ _ _ rfl

theorem setNotices_keeps {s : State} {tag : Byte} {payload : List Byte} (h : s.Ready) :
    s.Keeps (setNotices tag payload s) := (h.answer 0x54 tag .ok [] rfl).trans (withDevice_keeps ..)

theorem getLaneGeometry_keeps {s : State} {tag : Byte} {payload : List Byte} (h : s.Ready) :
    s.Keeps (getLaneGeometry tag payload s) := by
  unfold getLaneGeometry
  split
  · exact h.answer _ _ _ _ rfl
  · exact h.answer _ _ _ _ rfl

theorem getClassEntry_keeps {s : State} {tag : Byte} {payload : List Byte} (h : s.Ready) :
    s.Keeps (getClassEntry tag payload s) := by
  unfold getClassEntry
  split
  · exact h.answer _ _ _ _ rfl
  · exact h.answer _ _ _ _ rfl

theorem getProfile_keeps {s : State} {tag : Byte} {payload : List Byte} (h : s.Ready) :
    s.Keeps (getProfile tag payload s) := by
  unfold getProfile
  split
  · exact h.answer _ _ _ _ rfl
  · exact h.answer _ _ _ _ rfl

theorem getStationStatus_keeps {s : State} {tag : Byte} {payload : List Byte} (h : s.Ready) :
    s.Keeps (getStationStatus tag payload s) := by
  unfold getStationStatus
  split
  · exact h.answer _ _ _ _ rfl
  · exact h.answer _ _ _ _ rfl

theorem getLotProgress_keeps {s : State} {tag : Byte} {payload : List Byte} (h : s.Ready) :
    s.Keeps (getLotProgress tag payload s) := by
  unfold getLotProgress
  split
  · exact h.answer _ _ _ _ rfl
  · exact h.answer _ _ _ _ rfl
  · exact h.answer _ _ _ _ rfl

theorem getLotResult_keeps {s : State} {tag : Byte} {payload : List Byte} (h : s.Ready) :
    s.Keeps (getLotResult tag payload s) := by
  unfold getLotResult
  split
  · exact h.answer _ _ _ _ rfl
  · split
    · exact h.answer _ _ _ _ rfl
    · exact h.answer _ _ _ _ rfl

theorem gapEnds_bounded {k : Link} (h : k.bounded) : k.gapEnds.bounded :=
  fate_bounded (k := { k with asm := .hunting }) h _

theorem losePower_keeps (s : State) : s.Keeps s.losePower := cutOff_keeps s rfl rfl rfl rfl rfl

/-- Every command keeps the bounds and the invariant of the valves. -/
theorem exec_keeps {c : Instr} {s t : State} (ht : exec c s = .next t) : s.Keeps t := by
  have request {code tag : Byte} {payload : List Byte} {len : Nat} {act : State → State}
      (hn : exec c s = .next (s.takeRequest code len tag payload act)) (hc : isReplyCode code = true)
      (ha : ∀ x : State, x.Ready → x.Keeps (act x)) : s.Keeps t :=
    keeps_of_next (takeRequest_keepsBoth hc ha) (hn.symm.trans ht)
  cases c with
  | powerApplied => exact keeps_of_next (powerUp_keeps s) ht
  | rstNAsserted => exact keeps_of_next (holdReset_keeps s) ht
  | rstNReleased => exact keeps_of_next (releaseReset_keeps s) ht
  | plantLinkFrame bytes => exact keeps_of_next (guarded_keeps (withLink_keeps (receiveAll_bounded _ _))) ht
  | plantLinkGapTimeout => exact keeps_of_next (guarded_keeps (withLink_keeps gapEnds_bounded)) ht
  | unknownRequest tag kind payload => exact keeps_of_next (takeUnknown_keeps s tag kind payload) ht
  | frameSent => exact keeps_of_next (guarded_keeps (frameGone_keeps s)) ht
  | identify tag payload => exact request rfl rfl fun _ => identify_keeps
  | resetDevice tag payload => exact request rfl rfl fun _ => resetDevice_keeps
  | saveSettings tag payload => exact request rfl rfl fun _ => saveSettings_keeps
  | saveWriteEnd agrees => exact keeps_of_next (endSave_keeps s agrees) ht
  | getLinkStatus tag payload => exact request rfl rfl fun _ => getLinkStatus_keeps
  | getLaneStatus tag payload => exact request rfl rfl fun _ => getLaneStatus_keeps
  | setLaneGeometry tag payload => exact request rfl rfl fun _ => setLaneGeometry_keeps
  | getLaneGeometry tag payload => exact request rfl rfl fun _ => getLaneGeometry_keeps
  | setTimebase tag payload => exact request rfl rfl fun _ => setTimebase_keeps
  | setScale tag payload => exact request rfl rfl fun _ => setScale_keeps
  | switchSource tag payload => exact request rfl rfl fun _ => switchSource_keeps
  | abortSwitch tag payload => exact request rfl rfl fun _ => abortSwitch_keeps
  | startLane tag payload => exact request rfl rfl fun _ => startLane_keeps
  | stopLane tag payload => exact request rfl rfl fun _ => stopLane_keeps
  | clearHalt tag payload => exact request rfl rfl fun _ => clearHaltOf_keeps
  | resetLane tag payload => exact request rfl rfl fun _ => resetLaneOf_keeps
  | setClassEntry tag payload => exact request rfl rfl fun _ => setClassEntry_keeps
  | getClassEntry tag payload => exact request rfl rfl fun _ => getClassEntry_keeps
  | setProfile tag payload => exact request rfl rfl fun _ => setProfile_keeps
  | getProfile tag payload => exact request rfl rfl fun _ => getProfile_keeps
  | setStation tag payload => exact request rfl rfl fun _ => setStation_keeps
  | enableStation tag payload => exact request rfl rfl fun _ => enableStation_keeps
  | disableStation tag payload => exact request rfl rfl fun _ => disableStationOf_keeps
  | getStationStatus tag payload => exact request rfl rfl fun _ => getStationStatus_keeps
  | closeLot tag payload => exact request rfl rfl fun _ => closeLot_keeps
  | setLotLimit tag payload => exact request rfl rfl fun _ => setLotLimit_keeps
  | getLotProgress tag payload => exact request rfl rfl fun _ => getLotProgress_keeps
  | getLotResult tag payload => exact request rfl rfl fun _ => getLotResult_keeps
  | injectStart tag payload => exact request rfl rfl fun _ => injectStart_keeps
  | injectStop tag payload => exact request rfl rfl fun _ => injectStop_keeps
  | setLineConfig tag payload => exact request rfl rfl fun _ => setLineConfig_keeps
  | getLines tag payload => exact request rfl rfl fun _ => getLines_keeps
  | setChutePolicy tag payload => exact request rfl rfl fun _ => setChutePolicy_keeps
  | setBusyEnables tag payload => exact request rfl rfl fun _ => setBusyEnables_keeps
  | holdFeed tag payload => exact request rfl rfl fun _ => setHostHold_keeps rfl true
  | releaseFeed tag payload => exact request rfl rfl fun _ => setHostHold_keeps rfl false
  | releaseMillTrip tag payload => exact request rfl rfl fun _ => releaseMillTrip_keeps
  | readTrace tag payload => exact request rfl rfl fun _ => readTrace_keeps
  | clearTrace tag payload => exact request rfl rfl fun _ => clearTrace_keeps
  | getEvents tag payload => exact request rfl rfl fun _ => getEvents_keeps
  | clearEvents tag payload => exact request rfl rfl fun _ => clearEvents_keeps
  | setNotices tag payload => exact request rfl rfl fun _ => setNotices_keeps
  | setStatusPeriod tag payload => exact request rfl rfl fun _ => setStatusPeriod_keeps
  | statusDue => exact keeps_of_next (guarded_keeps (sendStatus_keeps s)) ht
  | sensorFrameRejected lane head bytes => exact keeps_of_next (sensorBytes_keeps ..) ht
  | sensorLinkGapTimeout lane head =>
    exact keeps_of_next (guardedStep_keeps (fun h => live_of_works (Bool.and_eq_true_iff.mp h).1)
      receiverGap_bounded receiverGap_good) ht
  | headIdle lane head headNumber => exact keeps_of_next (sensorBytes_keeps ..) ht
  | detection lane head r => exact keeps_of_next (sensorBytes_keeps ..) ht
  | encoderPhaseChange lane a b => exact keeps_of_next (execEncoderPhaseChange_keeps s lane a b) ht
  | nominalCount lane => exact keeps_of_next (execNominalCount_keeps s lane) ht
  | valveBarFrameSent lane station => exact keeps_of_next (portFinishes_keeps s lane station) ht
  | settlePeriodEnd lane => exact keeps_of_next (guardedStep_keeps live_of_and settleEnd_bounded settleEnd_good) ht
  | encoderMonitorExpiry lane =>
    exact keeps_of_next (guardedStep_keeps live_of_and monitorExpires_bounded monitorExpires_good) ht
  | maxOpenTimeExpiry lane serial => exact keeps_of_next (execMaxOpenTimeExpiry_keeps s lane serial) ht
  | rawLineChange line asserted => exact keeps_of_next (rawChange_keeps ..) ht
  | debounceExpiry line => exact keeps_of_next (debounceExpires_keeps s line) ht
  | rawAirOkChange lane asserted => exact keeps_of_next (rawChange_keeps ..) ht
  | rawPlantStopAsserted => exact keeps_of_next (rawChange_keeps ..) ht
  | rawPlantStopReleased => exact keeps_of_next (rawChange_keeps ..) ht
  | lotTimeAccrual => exact keeps_of_next (guarded_keeps (passMs_keeps s)) ht
  | powerLost => exact keeps_of_next (losePower_keeps s) ht
  | partBeginsToWork =>
    refine keeps_of_next ?_ ht
    split
    next hphase => exact beginWork_keeps hphase
    next => exact .refl s

/-- Every step keeps the bounds and the invariant of the valves. -/
theorem step_keeps {s t : State} (ht : step s = .next t) : s.Keeps t := by
  unfold step at ht
  split at ht
  next c rest _ =>
    have hqueue : s.Keeps { s with pending := rest } := .same rfl rfl rfl rfl rfl rfl
    exact hqueue.trans (exec_keeps ht)
  next => exact keeps_of_next (idle_keeps s) ht

/-! ## The samples held back -/

/-- Samples are held back only where those that outrun the cut with them are the next commands (log 19). -/
def State.HeldAhead (s : State) : Prop :=
  ∀ l : LaneId, s.held[l] ≠ [] → s.live = true ∧ s.OutrunAhead l s.held[l]

theorem safe_iff (s : State) : s.safe ↔ s.Sound ∧ s.HeldAhead :=
  ⟨fun ⟨store, settled, safe, held⟩ => ⟨⟨store, settled, safe⟩, held⟩,
    fun ⟨⟨store, settled, safe⟩, held⟩ => ⟨store, settled, safe, held⟩⟩

/-- An empty queue holds no samples that outrun the cut. -/
theorem not_outrunAhead_of_empty {s : State} {l : LaneId} {xs : List (Bool × Bool)} (hp : s.pending = []) :
    ¬ s.OutrunAhead l xs := by
  rintro ⟨earlier, last, rest, hq, -⟩
  rw [hp] at hq
  have hlen := congrArg List.length hq
  simp [sampleCommands] at hlen

/-- A lane that holds samples back has a sample of its own at the front of the queue. -/
theorem State.HeldAhead.front {s : State} (h : s.HeldAhead) {c : Instr} {rest : List Instr}
    (hp : s.pending = c :: rest) {l : LaneId} (hl : s.held[l] ≠ []) : ∃ a b, c = .encoderPhaseChange l a b :=
  outrunAhead_front hp (h l hl).2

theorem idle_held (s : State) : s.idle.held = s.held := by
  unfold State.idle State.idleDown
  repeat' split
  all_goals rfl

/-- A sample of lane `l` that runs keeps what the part says of the samples held back, if no other lane holds
any. -/
theorem encoderPhaseChange_heldAhead {s t : State} {l : LaneId} {a b : Bool}
    (hother : ∀ k : LaneId, k ≠ l → s.held[k] = []) (hown : s.held[l] ≠ [] → s.live = true)
    (ht : exec (.encoderPhaseChange l a b) s = .next t) : t.HeldAhead := by
  injection ht with ht
  subst ht
  intro k hk
  by_cases hlive : s.live = true
  · rw [if_pos hlive] at hk ⊢
    rcases sampleTaken_cases s l a b with hheld | ⟨hsame, hahead⟩
    · have hkl : (s.sampleTaken l a b).chosen.held[k] = (s.held.set l [])[k] := congrArg (·[k]) hheld
      rw [hkl] at hk
      by_cases h : k = l
      · subst h
        exact absurd (heldSet_self ..) hk
      · exact absurd ((heldSet_other _ _ h).trans (hother k h)) hk
    · rw [hsame] at hk ⊢
      by_cases h : k = l
      · subst h
        have hown : (s.holding k (s.held[k] ++ [(a, b)])).chosen.held[k] = s.held[k] ++ [(a, b)] :=
          heldSet_self ..
        rw [hown]
        exact ⟨hlive, hahead⟩
      · exact absurd ((heldSet_other _ _ h).trans (hother k h)) hk
  · rw [if_neg hlive] at hk
    have hsame : (s.editLane l (Lane.atPins a b)).held[k] = s.held[k] := rfl
    rw [hsame] at hk
    by_cases h : k = l
    · subst h
      exact absurd (hown hk) hlive
    · exact absurd (hother k h) hk

theorem step_heldAhead {s t : State} (h : s.HeldAhead) (ht : step s = .next t) : t.HeldAhead := by
  unfold step at ht
  split at ht
  next c rest hp =>
    by_cases hc : ∃ l a b, c = .encoderPhaseChange l a b
    · obtain ⟨l, a, b, rfl⟩ := hc
      refine encoderPhaseChange_heldAhead (s := { s with pending := rest }) (fun k hk => ?_) (fun hl => (h l hl).1) ht
      by_contra hheld
      obtain ⟨_, _, e⟩ := h.front hp hheld
      injection e with e
      exact hk e.symm
    · have hunheld : ({ s with pending := rest } : State).Unheld := fun l => by
        by_contra hheld
        exact hc ⟨l, h.front hp hheld⟩
      intro l hl
      exact absurd (exec_unheld hunheld (fun l a b e => hc ⟨l, a, b, e⟩) ht l) hl
  next hp =>
    injection ht with ht
    subst ht
    intro l hl
    rw [idle_held] at hl
    exact absurd (h l hl).2 (not_outrunAhead_of_empty hp)

end Sys2Proof.Machine

namespace Sys2Proof
open Machine

/-- Settles O55: every command keeps the bounds, by what its blocks do (`exec_keeps`). -/
theorem stepKeepsBounds : Obligations.StepKeepsBounds := fun _ _ h ht => (step_keeps ht).bounded h

/-- Settles O57: every command keeps the lanes settled and safe (`exec_keeps`), and a sample is held back only while
those that outrun the cut with it follow. -/
theorem stepKeepsValvesSafe : Obligations.StepKeepsValvesSafe := by
  intro s t h ht
  obtain ⟨hsound, hheld⟩ := (safe_iff s).mp h
  exact (safe_iff t).mpr ⟨(step_keeps ht).sound hsound, step_heldAhead hheld ht⟩

end Sys2Proof
end

section
/-! The queue of commands, reset and power (R194 to R196): O1 to O6 and O56. -/

namespace Sys2Proof.Machine

/-! ## Start-up -/

/-- A state with frames added at the newest end of its output queue and device flags set. -/
def State.announced (s : State) (fs : List Frame) (flags : BitVec 8) : State :=
  { s with link := { s.link with output := s.link.output ++ fs }, deviceFlags := s.deviceFlags ||| flags }

theorem announced_announced (s : State) (fs gs : List Frame) (a b : BitVec 8) :
    (s.announced fs a).announced gs b = s.announced (fs ++ gs) (a ||| b) := by
  simp only [State.announced, List.append_assoc, BitVec.or_assoc]

theorem announced_nil (s : State) : s.announced [] 0 = s := by simp [State.announced]

theorem announced_notices (s : State) (fs : List Frame) (flags : BitVec 8) :
    (s.announced fs flags).link.notices ≤ s.link.notices + fs.length := by
  have hle := List.length_filter_le (·.isNotice) fs
  simp only [Link.notices, State.announced, List.filter_append, List.length_append]
  omega

/-- An event of the part itself is announced where its notice has room: its flag is set, and its notice sent if
it is enabled (R174, R188). -/
theorem raise_announced {s : State} {e : Event} (he : e.lane? = none) (hroom : s.link.notices < 24) :
    ∃ fs : List Frame, fs.length ≤ 1 ∧ (∀ f ∈ fs, f.isNotice = true) ∧
      s.raise e = s.announced fs (BitVec.ofNat 8 (2 ^ (e.kind.val - 5))) := by
  have hflag : s.setFlag e = s.announced [] (BitVec.ofNat 8 (2 ^ (e.kind.val - 5))) := by
    simp [State.setFlag, he, State.announced]
  unfold State.raise
  dsimp only
  rw [hflag]
  split
  · refine ⟨[e.notice s.lineTime], le_refl _, by simp, ?_⟩
    rw [offerNotice_room _ (by simpa [State.announced] using hroom)]
    simp [State.pushFrame, State.announced]
  · exact ⟨[], by simp, by simp, rfl⟩

/-- A lane at rest with its monitor disarmed takes no halt (R121). -/
theorem haltLane_at_rest {s : State} {l : LaneId} {cause : HaltCause} (ha : s.lanes[l].active = false)
    (hm : s.lanes[l].tb.monitor = none) : s.onLane l (laneStep (halt cause)) = s := by
  have hquiet : halt cause (s.env l) s.lanes[l] = s.lanes[l].quiet := if_neg (Bool.eq_false_iff.mp ha)
  have hstep : laneStep (halt cause) (s.env l) s.lanes[l] = s.lanes[l].quiet := by
    rw [laneStep_at_rest (by rw [hquiet]; rfl) (by rw [hquiet]; exact ha), hquiet]
    simp [Lane.quiet, ← hm, inQueueOrder]
  rw [State.onLane, hstep]
  show s.setLane l s.lanes[l] = s
  simp [State.setLane]

/-- PLANT_STOP halts no lane of a part whose lanes are all at rest (R121). -/
theorem haltAll_at_rest {s : State} (ha : ∀ l : LaneId, s.lanes[l].active = false)
    (hm : ∀ l : LaneId, s.lanes[l].tb.monitor = none) : s.haltAll = s := by
  unfold State.haltAll
  generalize List.finRange 4 = ls
  induction ls with
  | nil => rfl
  | cons l ls ih =>
    rw [List.foldl_cons, haltLane_at_rest (ha l) (hm l)]
    exact ih

/-- The first sample of PLANT_STOP on a part whose lanes are at rest is announced at most (R121, R165). -/
theorem firstSample_announced {s : State} (ha : ∀ l : LaneId, s.lanes[l].active = false)
    (hm : ∀ l : LaneId, s.lanes[l].tb.monitor = none) (hroom : s.link.notices ≤ 22) :
    ∃ (fs : List Frame) (flags : BitVec 8), (∀ f ∈ fs, f.isNotice = true) ∧ flags &&& 3 = 0 ∧
      s.firstSample = s.announced fs flags := by
  unfold State.firstSample State.plantStopChange State.plantStopAction
  split
  next =>
    rw [if_pos rfl, haltAll_at_rest ha hm]
    obtain ⟨fs, hlen, hfs, he⟩ := raise_announced (s := s) (e := .plantStop) rfl (by omega)
    have hle := announced_notices s fs (BitVec.ofNat 8 (2 ^ (Event.plantStop.kind.val - 5)))
    rw [he]
    unfold State.edgeNotice
    split
    · obtain ⟨gs, -, hgs, hg⟩ := raise_announced (s := s.announced fs (BitVec.ofNat 8 32))
        (e := .lineEdge plantStopLine true) rfl (by exact lt_of_le_of_lt hle (by omega))
      refine ⟨fs ++ gs, _, fun f hf => (List.mem_append.mp hf).elim (hfs f) (hgs f), ?_,
        hg.trans (announced_announced ..)⟩
      decide
    · exact ⟨fs, _, hfs, by decide, rfl⟩
  next => exact ⟨[], 0, by simp, by decide, (announced_nil s).symm⟩

theorem startEvents_announced {s : State} (cause : ResetCause) (hroom : s.link.notices = 0) :
    ∃ (fs : List Frame) (flags : BitVec 8), fs.length ≤ 2 ∧ (∀ f ∈ fs, f.isNotice = true) ∧
      flags = (if s.store.valid then 1 else 3) ∧ s.startEvents cause = s.announced fs flags := by
  obtain ⟨fs, hlen, hfs, he⟩ := raise_announced (s := s) (e := .powerOn cause) rfl (by omega)
  have hle := announced_notices s fs 1
  unfold State.startEvents
  rw [he]
  split
  · exact ⟨fs, _, by omega, hfs, by simp [Event.kind], rfl⟩
  · obtain ⟨gs, hlen', hgs, hg⟩ := raise_announced (s := s.announced fs 1) (e := .storeInvalid) rfl (by omega)
    refine ⟨fs ++ gs, _, ?_, fun f hf => (List.mem_append.mp hf).elim (hfs f) (hgs f), ?_,
      hg.trans (announced_announced ..)⟩
    · rw [List.length_append]
      omega
    · decide

/-- Steps 1 to 3 of a start-up: all is as power leaves it, but for the events of the start-up (R194). -/
theorem startUp_announced (s : State) (cause : ResetCause) :
    ∃ (fs : List Frame) (flags : BitVec 8), (∀ f ∈ fs, f.isNotice = true) ∧
      flags &&& 3 = (if s.store.valid then 1 else 3) ∧ s.startUp cause = (s.afresh cause).announced fs flags := by
  obtain ⟨fs, flags, hlen, hfs, hflags, he⟩ := startEvents_announced (s := s.afresh cause) cause rfl
  have hle := announced_notices (s.afresh cause) fs flags
  have hempty : (s.afresh cause).link.notices = 0 := rfl
  have hlane (l : LaneId) : (s.afresh cause).lanes[l] =
      Lane.powerOn l s.store.loaded.lanes[l] s.lanes[l].tb.phases := by simp [State.afresh]
  obtain ⟨gs, more, hgs, hmore, hg⟩ := firstSample_announced (s := (s.afresh cause).announced fs flags)
    (fun l => (congrArg Lane.active (hlane l)).trans rfl)
    (fun l => (congrArg (fun ln : Lane => ln.tb.monitor) (hlane l)).trans rfl) (by omega)
  refine ⟨fs ++ gs, flags ||| more, fun f hf => (List.mem_append.mp hf).elim (hfs f) (hgs f), ?_, ?_⟩
  · have hor : (flags ||| more) &&& 3 = flags &&& 3 ||| more &&& 3 := by
      ext i
      simp [Bool.and_or_distrib_right]
    rw [hor, hmore, hflags]
    show (if s.store.valid then 1 else 3 : BitVec 8) &&& 3 ||| 0 = _
    split
    · rfl
    · rfl
  · rw [State.startUp, he, hg, announced_announced]

theorem startUp_startedUp (s : State) (cause : ResetCause) : s.StartedUp cause (s.startUp cause) := by
  obtain ⟨fs, flags, hfs, hflags, he⟩ := startUp_announced s cause
  have hlane (l : LaneId) : (s.startUp cause).lanes[l] =
      Lane.powerOn l s.store.loaded.lanes[l] s.lanes[l].tb.phases := by
    rw [he]
    simp [State.announced, State.afresh]
  have hbit (k : Nat) (hk : k < 2) : (s.startUp cause).deviceFlag k =
      (if s.store.valid then 1 else 3 : BitVec 8).getLsbD k := by
    have hthree : (3 : BitVec 8).getLsbD k = true := by interval_cases k <;> rfl
    rw [← hflags, he, BitVec.getLsbD_and, hthree, Bool.and_true]
    simp [State.deviceFlag, State.announced, State.afresh]
  constructor
  case phase => rw [he]; rfl
  case cause => rw [he]; rfl
  case time => rw [he]; rfl
  case device => rw [he]; rfl
  case store => rw [he]; rfl
  case cfg => intro l; rw [hlane]; rfl
  case stopped => intro l; rw [hlane]; exact ⟨rfl, rfl⟩
  case queue => intro l; rw [hlane]; exact ⟨rfl, rfl⟩
  case belt => intro l; rw [hlane]; exact ⟨rfl, rfl, rfl, rfl⟩
  case lots => intro l; rw [hlane]; rfl
  case timebase => intro l; rw [hlane]; exact ⟨rfl, rfl, rfl, rfl, rfl, rfl, rfl⟩
  case receivers => intro l h; rw [hlane]; simp [Lane.powerOn, Receiver.powerOn, Assembler.hunting]
  case stations => intro l st; rw [hlane]; simp [Lane.powerOn, Station.powerOn, Lane.openSet]
  case ports => intro l st; rw [hlane]; simp [Lane.powerOn, Station.powerOn, Port.powerOn]
  case tallies => intro l; rw [hlane]; simp [Lane.powerOn]
  case injection => intro l; rw [hlane]; rfl
  case hostHold => intro l; rw [hlane]; rfl
  case laneFlags => intro l kind; rw [he]; simp [State.laneFlag, State.announced, State.afresh]
  case trace => rw [he]; exact ⟨rfl, rfl⟩
  case latch => rw [he]; rfl
  case held => intro l; exact startUp_unheld s cause l
  case input => rw [he]; exact ⟨rfl, rfl, rfl⟩
  case counters => rw [he]; exact ⟨rfl, rfl, rfl, rfl, rfl, rfl⟩
  case notices => rw [he]; exact hfs
  case powerOn => rw [hbit 0 (by omega)]; split <;> rfl
  case invalid => rw [hbit 1 (by omega)]; cases s.store.valid <;> rfl
  case lines => rw [he]; exact ⟨rfl, rfl⟩
  case statusDue => rw [he]; rfl

/-! ## What cuts the part off -/

theorem cutOff_port (s : State) (l : LaneId) (st : StationId) :
    s.cutOff.lanes[l].stations[st].port.sending = none := by simp [State.cutOff]

/-- On a part that is not live or whose work has not begun the feed is held, once the supply is applied
(R158, R163). -/
theorem feedHold_of_down {s : State} (h : s.phase = .settling ∨ ∃ cause, s.phase = .held cause) (l : LaneId) :
    s.feedHold l = true := by
  rcases h with h | ⟨cause, h⟩
  · simp [State.feedHold, h]
  · simp [State.feedHold, h]

theorem millFeedHold_of_down {s : State} (h : s.phase = .settling ∨ ∃ cause, s.phase = .held cause) :
    s.millFeedHold = true := by
  rcases h with h | ⟨cause, h⟩
  · simp [State.millFeedHold, h]
  · simp [State.millFeedHold, h]

theorem works_of_down {s : State} (h : s.phase = .settling ∨ ∃ cause, s.phase = .held cause) :
    s.works = false := by
  rcases h with h | ⟨cause, h⟩
  · simp [State.works, h]
  · simp [State.works, h]

/-- A part without a working front end takes no bytes and sends none (R194). -/
theorem exec_idle_of_down {s : State} (h : s.works = false) (bytes : List LineByte) :
    exec (.plantLinkFrame bytes) s = .next s ∧ exec .frameSent s = .next s ∧
      ∀ l : LaneId, (∀ hd : HeadId, exec (.sensorFrameRejected l hd bytes) s = .next s) ∧
        ∀ st : StationId, exec (.valveBarFrameSent l st) s = .next s := by
  have hdown : ¬ s.works = true := by simp [h]
  exact ⟨congrArg Host.Outcome.next (if_neg hdown), congrArg Host.Outcome.next (if_neg hdown), fun l =>
    ⟨fun hd => congrArg Host.Outcome.next (if_neg hdown), fun st => congrArg Host.Outcome.next (if_neg hdown)⟩⟩

/-- RST_N_ASSERTED on a part whose supply has settled cuts it off and holds it in reset (R194, R196). -/
theorem holdReset_of_settled {s : State} (hu : s.phase ≠ .unpowered) (hs : s.phase ≠ .settling) :
    s.holdReset = { s.cutOff with phase := .held s.phase.heldCause, rstAsserted := true } := by
  unfold State.holdReset
  split
  next h => exact absurd h hu
  next h => exact absurd h hs
  next => rfl

/-! ## The part's own clock -/

theorem chooseDue_mem (choice : Nat) {cs : List Instr} (h : cs ≠ []) : ∃ c ∈ cs, chooseDue choice cs = some c := by
  match cs, h with
  | [c], _ => exact ⟨c, by simp, rfl⟩
  | c :: d :: cs, _ =>
    have hlt : Config.pick choice 0 % (c :: d :: cs).length < (c :: d :: cs).length :=
      Nat.mod_lt _ (by simp)
    exact ⟨_, List.getElem_mem hlt, List.getElem?_eq_getElem hlt⟩

theorem idle_of_live_quiet {s : State} (hlive : s.live = true) (hdue : s.due = []) : s.idle = s.passMicro := by
  simp [State.idle, hlive, hdue, chooseDue]

theorem idle_of_live_due {s : State} (hlive : s.live = true) (hdue : s.due ≠ []) :
    ∃ c ∈ s.due, s.idle = { s with pending := [c], choices := s.choices + 1 } := by
  obtain ⟨c, hc, hchoose⟩ := chooseDue_mem s.choices hdue
  exact ⟨c, hc, by simp [State.idle, hlive, hchoose]⟩

theorem step_of_empty {s : State} (hp : s.pending = []) : step s = .next s.idle := by
  unfold step
  rw [hp]

theorem idle_of_down {s : State} (hdown : s.live = false) : s.idle = s.idleDown := by simp [State.idle, hdown]

/-! ## Step 4 of a start-up -/

theorem exec_partBeginsToWork {s : State} (h : s.phase = .starting) :
    exec .partBeginsToWork s = .next s.beginWork := by
  show Host.Outcome.next (match s.phase with | .starting => s.beginWork | _ => s) = _
  rw [h]

theorem exec_powerApplied_starts {s : State} (h : s.phase = .unpowered ∨ s.phase = .settling)
    (hr : s.rstAsserted = false) : exec .powerApplied s = .next (s.startUp .powerOn) := by
  refine congrArg Host.Outcome.next ?_
  rcases h with h | h
  · simp [State.powerUp, h, hr]
  · simp [State.powerUp, h, hr]

theorem exec_powerApplied_held {s : State} (h : s.phase = .unpowered ∨ s.phase = .settling)
    (hr : s.rstAsserted = true) : exec .powerApplied s = .next { s with phase := .held .powerOn } := by
  refine congrArg Host.Outcome.next ?_
  rcases h with h | h
  · simp only [State.powerUp, h, hr, if_pos]
  · simp only [State.powerUp, h, hr, if_pos]

theorem exec_rstNReleased_starts {s : State} {cause : ResetCause} (h : s.phase = .held cause) :
    exec .rstNReleased s = .next (State.startUp { s with rstAsserted := false } cause) := by
  refine congrArg Host.Outcome.next ?_
  simp only [State.releaseReset, h]

/-- A start-up leaves RST_N as it is (R194). -/
theorem startUp_rstAsserted (s : State) (cause : ResetCause) : (s.startUp cause).rstAsserted = s.rstAsserted := by
  obtain ⟨_, _, -, -, he⟩ := startUp_announced s cause
  rw [he]
  rfl

/-- The last byte of the RESET_DEVICE reply starts the part up (R189). -/
theorem exec_frameSent_resets {s : State} {tag : Byte} {fs : List Frame} (hphase : s.phase = .working)
    (htaken : s.link.resetTaken = true) (hout : s.link.output = ⟨tag, 0x82, [0x00]⟩ :: fs) :
    exec .frameSent s = .next (s.startUp .resetRequest) := by
  have hworks : s.works = true := works_of_working hphase
  have hreset : (s.link.resetTaken && (⟨tag, 0x82, [0x00]⟩ : Frame).isResetReply) = true := by
    rw [htaken]
    rfl
  refine congrArg Host.Outcome.next ((if_pos hworks).trans ?_)
  unfold State.frameGone
  rw [hout]
  exact if_pos hreset

end Sys2Proof.Machine

namespace Sys2Proof
open Machine

/-- Settles O1. -/
theorem stepRunsFrontCommand : Obligations.StepRunsFrontCommand := fun _ _ _ => rfl

/-- Settles O2: by what an empty queue does on a part that is down, and on one whose clock runs. -/
theorem emptyQueueRunsClock : Obligations.EmptyQueueRunsClock := by
  intro s hp
  rw [step_of_empty hp]
  refine ⟨fun hdown hpowered => ?reset, fun hunpowered => ?supply, fun hlive hdue => ?micro, fun hlive hdue => ?due⟩
  case reset =>
    rcases idleDown_cases s with ⟨-, he⟩ | ⟨h, -⟩
    · rw [idle_of_down hdown, he]
    · exact absurd h hpowered
  case supply =>
    have hdown : s.live = false := by simp [State.live, hunpowered]
    rcases idleDown_cases s with ⟨h, -⟩ | ⟨-, phase, hphase, he⟩
    · exact absurd hunpowered h
    · exact ⟨phase, hphase, by rw [idle_of_down hdown, he]⟩
  case micro =>
    rw [idle_of_live_quiet hlive hdue]
    rfl
  case due =>
    obtain ⟨c, hc, he⟩ := idle_of_live_due hlive hdue
    exact ⟨c, hc, congrArg Host.Outcome.next he⟩

/-- Settles O3. -/
theorem resetValues : Obligations.ResetValues := by
  have hlane (l : LaneId) : State.reset.lanes[l] =
      (Lane.powerOn l .factory (false, false)).sendStartUpFrames l := by simp [State.reset]
  refine ⟨rfl, rfl, rfl, rfl, rfl, rfl, rfl, rfl, rfl, rfl, rfl, rfl, rfl, rfl, fun l => ?_⟩
  rw [hlane]
  exact ⟨rfl, rfl, rfl, rfl, rfl, rfl, rfl, rfl, rfl⟩

/-- Settles O4: each cause runs `State.startUp`. -/
theorem startUpFromEachCause : Obligations.StartUpFromEachCause := by
  intro s
  refine ⟨fun hphase hr => ⟨_, exec_powerApplied_starts hphase hr, startUp_startedUp s _⟩,
    fun hphase hr => exec_powerApplied_held hphase hr,
    fun cause hphase => ⟨_, exec_rstNReleased_starts hphase, startUp_rstAsserted _ _, ?_⟩,
    fun tag fs hphase htaken hout => ⟨_, exec_frameSent_resets hphase htaken hout, startUp_startedUp s _⟩⟩
  have h := startUp_startedUp { s with rstAsserted := false } cause
  exact { h with }

/-- Settles O5: both cut the part off (`State.cutOff`). -/
theorem resetAndPowerLossCutOff : Obligations.ResetAndPowerLossCutOff := by
  intro s
  refine ⟨fun hu hs => ?asserted, fun hdown => ?level, ?lost, fun hdown => ?held⟩
  case asserted =>
    have hheld : ∃ cause, s.holdReset.phase = .held cause := ⟨_, congrArg State.phase (holdReset_of_settled hu hs)⟩
    refine ⟨_, rfl, ?_⟩
    refine ⟨?_, ?_, millFeedHold_of_down (.inr hheld), feedHold_of_down (.inr hheld), ?_⟩
    · rw [holdReset_of_settled hu hs]
    · rw [holdReset_of_settled hu hs]
      show Phase.held s.phase.heldCause = _
      generalize s.phase = phase
      cases phase <;> rfl
    · rw [holdReset_of_settled hu hs]
      exact ⟨rfl, rfl, rfl, cutOff_port s⟩
  case level =>
    refine congrArg Host.Outcome.next ?_
    rcases hdown with h | h
    · simp only [State.holdReset, h]
    · simp only [State.holdReset, h]
  case lost => exact ⟨_, rfl, rfl, rfl, rfl, rfl, cutOff_port s⟩
  case held =>
    exact ⟨millFeedHold_of_down hdown, feedHold_of_down hdown, exec_idle_of_down (works_of_down hdown)⟩

/-- Settles O6. -/
theorem partBeginsToWork : Obligations.PartBeginsToWork := by
  intro s h
  refine ⟨s.beginWork, exec_partBeginsToWork h, rfl, rfl, rfl, rfl, rfl, fun l st => ?_⟩
  have hlane : s.beginWork.lanes[l] = s.lanes[l].sendStartUpFrames l := by simp [State.beginWork]
  rw [hlane]
  refine ⟨?_, rfl, rfl, rfl, rfl⟩
  simp [Lane.sendStartUpFrames]

end Sys2Proof
end

section
/-! The plant link's requests: what every request does before its act, and the requests of the device itself (R180
to R195): O8 to O14, O41 and O59. -/

namespace Sys2Proof.Machine

variable {s : State} {i : Instr} {code tag : Byte} {payload : List Byte} {len : Nat} {act : State → State}

/-! ## The request taker (R182, R186) -/

/-- How the command of a request code takes its request: its length, and what it does where the payload names no
lane or no station. -/
structure TakenBy (i : Instr) (code tag : Byte) (payload : List Byte) (len : Nat) (act : State → State) : Prop where
  runs : ∀ s : State, exec i s = .next (s.takeRequest code len tag payload act)
  length : (code.toNat, len) ∈ requestLengths
  noLane : code.toNat ∈ laneCodes → laneItem payload 0 = none → ∀ s : State, act s = s.refuse code tag .badValue
  noStation : code.toNat ∈ stationCodes → stationItem payload 1 = none →
    ∀ s : State, act s = s.refuse code tag .badValue

/-- The command given, if there is one, takes the request of the code. -/
def TakesCode (command : Option Instr) (code tag : Byte) (payload : List Byte) : Prop :=
  ∀ i, command = some i → ∃ (len : Nat) (act : State → State), TakenBy i code tag payload len act

/-- A request whose payload names neither a lane nor a station. -/
theorem TakesCode.other (c : Byte) (hc : code.toNat = c.toNat) (len : Nat)
    (hruns : ∀ s : State, exec i s = .next (s.takeRequest c len tag payload act))
    (hlen : (c.toNat, len) ∈ requestLengths := by decide) (hlane : c.toNat ∉ laneCodes := by decide)
    (hstation : c.toNat ∉ stationCodes := by decide) : TakesCode (some i) code tag payload := by
  obtain rfl := BitVec.eq_of_toNat_eq hc
  rintro _ ⟨⟩
  exact ⟨len, act, hruns, hlen, fun h => absurd h hlane, fun h => absurd h hstation⟩

/-- A request whose payload names a lane. -/
theorem TakesCode.lane (c : Byte) (hc : code.toNat = c.toNat) (len : Nat)
    (hruns : ∀ s : State, exec i s = .next (s.takeRequest c len tag payload act))
    (hnone : ∀ s : State, laneItem payload 0 = none → act s = s.refuse c tag .badValue)
    (hlen : (c.toNat, len) ∈ requestLengths := by decide) (hstation : c.toNat ∉ stationCodes := by decide) :
    TakesCode (some i) code tag payload := by
  obtain rfl := BitVec.eq_of_toNat_eq hc
  rintro _ ⟨⟩
  exact ⟨len, act, hruns, hlen, fun _ h s => hnone s h, fun h => absurd h hstation⟩

/-- A request whose payload names a lane and a station. -/
theorem TakesCode.station (c : Byte) (hc : code.toNat = c.toNat) (len : Nat)
    (hruns : ∀ s : State, exec i s = .next (s.takeRequest c len tag payload act))
    (hlane : ∀ s : State, laneItem payload 0 = none → act s = s.refuse c tag .badValue)
    (hstation : ∀ s : State, stationItem payload 1 = none → act s = s.refuse c tag .badValue)
    (hlen : (c.toNat, len) ∈ requestLengths := by decide) : TakesCode (some i) code tag payload := by
  obtain rfl := BitVec.eq_of_toNat_eq hc
  rintro _ ⟨⟩
  exact ⟨len, act, hruns, hlen, fun _ h s => hlane s h, fun _ h s => hstation s h⟩

/-! The requests over a station refuse a payload that names none (R91, R92, R109, R113, R127). -/

theorem setStation_noStation (hst : stationItem payload 1 = none) (s : State) :
    setStation tag payload s = s.refuse 0x28 tag .badValue := by
  unfold setStation
  split
  next h _ => exact nomatch hst.symm.trans h
  next => rfl

theorem enableStation_noStation (hst : stationItem payload 1 = none) (s : State) :
    enableStation tag payload s = s.refuse 0x29 tag .badValue := by
  unfold enableStation
  split
  next h => exact nomatch hst.symm.trans h
  next => rfl

theorem disableStationOf_noStation (hst : stationItem payload 1 = none) (s : State) :
    disableStationOf tag payload s = s.refuse 0x2A tag .badValue := by
  unfold disableStationOf
  split
  next h => exact nomatch hst.symm.trans h
  next => rfl

theorem getStationStatus_noStation (hst : stationItem payload 1 = none) (s : State) :
    getStationStatus tag payload s = s.refuse 0x2B tag .badValue := by
  unfold getStationStatus
  split
  next h => exact nomatch hst.symm.trans h
  next => rfl

theorem injectionItem_noStation (hst : stationItem payload 1 = none) (pmax : Pos) :
    injectionItem payload pmax = none := by
  unfold injectionItem
  split
  next h _ _ => exact nomatch hst.symm.trans h
  next => rfl

theorem injectStart_noStation (hst : stationItem payload 1 = none) (s : State) :
    injectStart tag payload s = s.refuse 0x38 tag .badValue := by
  unfold injectStart
  split
  next => rfl
  next l _ => simp only [injectionItem_noStation hst]

/-- Each row of the code table (R186). -/
theorem codedRequest_takesCode (code tag : Byte) (payload : List Byte) :
    TakesCode (codedRequest code tag payload) code tag payload := by
  unfold codedRequest
  split
  next hc => exact .other 0x01 hc 1 (fun _ => rfl)
  next hc => exact .other 0x02 hc 1 (fun _ => rfl)
  next hc => exact .other 0x03 hc 1 (fun _ => rfl)
  next hc => exact .other 0x04 hc 1 (fun _ => rfl)
  next hc => exact .lane 0x10 hc 2 (fun _ => rfl) fun s h => by simp only [getLaneStatus, h]
  next hc => exact .lane 0x11 hc 27 (fun _ => rfl) fun s h => by simp only [setLaneGeometry, h]
  next hc => exact .lane 0x12 hc 1 (fun _ => rfl) fun s h => by simp only [getLaneGeometry, h]
  next hc => exact .lane 0x13 hc 8 (fun _ => rfl) fun s h => by simp only [setTimebase, h]
  next hc => exact .lane 0x14 hc 4 (fun _ => rfl) fun s h => by simp only [setScale, h]
  next hc => exact .lane 0x15 hc 2 (fun _ => rfl) fun s h => by simp only [switchSource, h]
  next hc => exact .lane 0x16 hc 1 (fun _ => rfl) fun s h => by simp only [abortSwitch, h]
  next hc => exact .lane 0x17 hc 1 (fun _ => rfl) fun s h => by simp only [startLane, h]
  next hc => exact .lane 0x18 hc 1 (fun _ => rfl) fun s h => by simp only [stopLane, h]
  next hc => exact .lane 0x19 hc 1 (fun _ => rfl) fun s h => by simp only [clearHaltOf, h]
  next hc => exact .lane 0x1A hc 1 (fun _ => rfl) fun s h => by simp only [resetLaneOf, h]
  next hc => exact .other 0x20 hc 18 (fun _ => rfl)
  next hc => exact .other 0x21 hc 1 (fun _ => rfl)
  next hc => exact .other 0x22 hc 5 (fun _ => rfl)
  next hc => exact .other 0x23 hc 1 (fun _ => rfl)
  next hc =>
    exact .station 0x28 hc 15 (fun _ => rfl) (fun s h => by simp only [setStation, h]) fun s h => setStation_noStation h s
  next hc =>
    exact .station 0x29 hc 2 (fun _ => rfl) (fun s h => by simp only [enableStation, h]) fun s h => enableStation_noStation h s
  next hc =>
    exact .station 0x2A hc 2 (fun _ => rfl) (fun s h => by simp only [disableStationOf, h]) fun s h => disableStationOf_noStation h s
  next hc =>
    exact .station 0x2B hc 2 (fun _ => rfl) (fun s h => by simp only [getStationStatus, h]) fun s h => getStationStatus_noStation h s
  next hc => exact .lane 0x30 hc 3 (fun _ => rfl) fun s h => by simp only [closeLot, h]
  next hc => exact .lane 0x31 hc 4 (fun _ => rfl) fun s h => by simp only [setLotLimit, h]
  next hc => exact .lane 0x32 hc 2 (fun _ => rfl) fun s h => by simp only [getLotProgress, h]
  next hc => exact .lane 0x33 hc 3 (fun _ => rfl) fun s h => by simp only [getLotResult, h]
  next hc =>
    exact .station 0x38 hc 10 (fun _ => rfl) (fun s h => by simp only [injectStart, h]) fun s h => injectStart_noStation h s
  next hc => exact .lane 0x39 hc 1 (fun _ => rfl) fun s h => by simp only [injectStop, h]
  next hc => exact .other 0x40 hc 30 (fun _ => rfl)
  next hc => exact .other 0x41 hc 1 (fun _ => rfl)
  next hc => exact .lane 0x42 hc 4 (fun _ => rfl) fun s h => by simp only [setChutePolicy, h]
  next hc => exact .lane 0x43 hc 9 (fun _ => rfl) fun s h => by simp only [setBusyEnables, h]
  next hc => exact .lane 0x44 hc 1 (fun _ => rfl) fun s h => by simp only [setHostHold, h]
  next hc => exact .lane 0x45 hc 1 (fun _ => rfl) fun s h => by simp only [setHostHold, h]
  next hc => exact .other 0x46 hc 1 (fun _ => rfl)
  next hc => exact .other 0x50 hc 1 (fun _ => rfl)
  next hc => exact .other 0x51 hc 1 (fun _ => rfl)
  next hc => exact .other 0x52 hc 1 (fun _ => rfl)
  next hc => exact .other 0x53 hc 5 (fun _ => rfl)
  next hc => exact .other 0x54 hc 13 (fun _ => rfl)
  next hc => exact .other 0x55 hc 2 (fun _ => rfl)
  next => exact fun _ h => nomatch h

/-- R186 gives each code one length. -/
theorem requestLengths_unique : ∀ p ∈ requestLengths, ∀ q ∈ requestLengths, p.1 = q.1 → p.2 = q.2 := by decide

theorem laneItem_none (h : 3 < item payload 0 1) : laneItem payload 0 = none := dif_neg (by omega)

theorem stationItem_none (h : 2 < item payload 1 1) : stationItem payload 1 = none := dif_neg (by omega)

/-- A request that may be taken and has its length acts on the state that it has left (R182). -/
theorem exec_taken (hruns : exec i s = .next (s.takeRequest code len tag payload act))
    (h : s.takeable ⟨tag, code, payload⟩ = true) (hl : payload.length = len) : exec i s = .next (act s.popInput) :=
  hruns.trans (congrArg Host.Outcome.next (takeRequest_taken act h hl))

/-- From the taking of RESET_DEVICE no request is taken (R189). -/
theorem takeable_of_resetTaken (h : s.link.resetTaken = true) (r : Request) : s.takeable r = false := by
  simp [State.takeable, State.mayTake, h]

/-! ## The frame sender (R187, R190) -/

theorem isResetReply_iff (f : Frame) : f.isResetReply = true ↔ ∃ tag : Byte, f = ⟨tag, 0x82, [0x00]⟩ := by
  constructor
  · intro h
    obtain ⟨hkind, hpayload⟩ := Bool.and_eq_true_iff.mp h
    exact ⟨f.tag, by rw [← eq_of_beq hkind]; exact congrArg (Frame.mk f.tag f.kind) (eq_of_beq hpayload)⟩
  · rintro ⟨tag, rfl⟩
    rfl

/-- A frame that is not the reply of a RESET_DEVICE leaves the queue and is counted (R187, R190). -/
theorem frameGone_counts {f : Frame} {fs : List Frame} (hout : s.link.output = f :: fs)
    (hreset : s.link.resetTaken = true → ∀ tag : Byte, f ≠ ⟨tag, 0x82, [0x00]⟩) :
    s.frameGone = { s with link := s.link.sent f } := by
  have hno : ¬ (s.link.resetTaken && f.isResetReply) = true := by
    rw [Bool.and_eq_true, isResetReply_iff]
    rintro ⟨htaken, tag, rfl⟩
    exact hreset htaken tag rfl
  unfold State.frameGone
  rw [hout]
  exact if_neg hno

theorem sent_eq {k : Link} {f : Frame} {fs : List Frame} (hout : k.output = f :: fs) :
    k.sent f = { k with
      output := fs
      noticesSent := if f.isNotice then holdInc k.noticesSent else k.noticesSent
      repliesSent := if f.isNotice then k.repliesSent else holdInc k.repliesSent } := by
  unfold Link.sent
  rw [hout]
  cases f.isNotice
  · rfl
  · rfl

/-! ## Device requests and the settings store -/

theorem identity_eq (s : State) : s.identity =
    ([0x3D, 0x01, 0xB0, 0x01, (match s.resetCause with | .powerOn => 0 | .resetLine => 1 | .resetRequest => 2),
      if s.store.valid then 0 else 1, if s.store.saving.isSome then 1 else 0] : List Byte) ++
      beBytes 4 s.lineTime.toNat := by
  have hcause (c : ResetCause) : beBytes 1 c.code =
      [match c with | .powerOn => 0 | .resetLine => 1 | .resetRequest => 2] := by cases c <;> rfl
  have hvalid (b : Bool) : beBytes 1 (if b then 0 else 1) = [if b then 0 else 1] := by cases b <;> rfl
  have hsaving (b : Bool) : beBytes 1 (if b then 1 else 0) = [if b then 1 else 0] := by cases b <;> rfl
  rw [State.identity, hcause, hvalid, hsaving]
  rfl

/-- The items of GET_LINK_STATUS on the state that the request has left (R190). -/
theorem linkStatus_popInput (s : State) : s.popInput.link.status =
    [s.link.goodFrames, s.link.badFrames, s.link.discarded, s.link.repliesSent, s.link.noticesSent,
      s.link.dropped].flatMap (fun c => beBytes 2 c.toNat) ++
      [byte (s.link.input.length - 1), byte s.link.output.length, byte s.link.notices] := by
  have hinput : s.popInput.link.input.length = s.link.input.length - 1 := List.length_drop
  rw [Link.status, hinput, List.append_assoc, List.append_assoc, beBytes_one, beBytes_one, beBytes_one]
  rfl

theorem getLinkStatus_of_clear {clear : Byte} (hz : clear = 0) (s : State) :
    getLinkStatus tag [clear] s = s.ok 0x04 tag s.link.status := by
  subst hz
  rfl

theorem onOff_of_ne_zero {b : Byte} (h : b ≠ 0) : onOff [b] 0 = true := by
  have hnat : b.toNat ≠ 0 := fun e => h (BitVec.eq_of_toNat_eq e)
  simp [onOff, item_one (payload := [b]) (off := 0) rfl, hnat]

/-- The end of a save raises SAVE_DONE on the state with the snapshot as its image (R193). -/
theorem exec_saveWriteEnd {im : Image} (h : s.store.saving = some im) (agrees : Bool) :
    exec (.saveWriteEnd agrees) s = .next (State.raise { s with store := ⟨im, agrees, none⟩ } (.saveDone agrees)) := by
  refine congrArg Host.Outcome.next ?_
  unfold State.endSave
  rw [h]

end Sys2Proof.Machine

namespace Sys2Proof
open Machine

/-- Settles O9: by the row of the code table that a request code has (`codedRequest_takesCode`). -/
theorem requestTakerChecks : Obligations.RequestTakerChecks := by
  refine ⟨fun s i code tag payload n hi hn htake => ?_, fun s i code tag payload hi htake => ?_⟩
  · obtain ⟨len, act, hruns, hlen, hlane, hstation⟩ := codedRequest_takesCode code tag payload i hi
    obtain rfl : n = len := requestLengths_unique _ hn _ hlen rfl
    refine ⟨fun hbad => ?length, fun hl hc hhigh => ?lane, fun hl hc hhigh => ?station⟩
    case length => exact (hruns s).trans (congrArg Host.Outcome.next (takeRequest_badLength act htake hbad))
    case lane =>
      exact (exec_taken (hruns s) htake hl).trans (congrArg Host.Outcome.next (hlane hc (laneItem_none hhigh) _))
    case station =>
      exact (exec_taken (hruns s) htake hl).trans
        (congrArg Host.Outcome.next (hstation hc (stationItem_none hhigh) _))
  · obtain ⟨len, act, hruns, -⟩ := codedRequest_takesCode code tag payload i hi
    exact (hruns s).trans (congrArg Host.Outcome.next (takeRequest_idle act htake))

/-- Settles O8. -/
theorem unknownRequestAnswered : Obligations.UnknownRequestAnswered := by
  intro s tag kind payload htake hkind
  refine congrArg Host.Outcome.next (if_pos ?_)
  rw [htake, hkind]
  rfl

/-- Settles O10. -/
theorem frameSentLeavesQueue : Obligations.FrameSentLeavesQueue := by
  intro s f fs hphase hout hreset
  have hworks : s.works = true := works_of_working hphase
  refine congrArg Host.Outcome.next ((if_pos hworks).trans ?_)
  rw [frameGone_counts hout hreset, sent_eq hout]

/-- Settles O11. -/
theorem deviceReadsReply : Obligations.DeviceReadsReply := by
  refine ⟨fun s tag b htake => ?identify, fun s tag clear htake => ?link, fun s tag b htake => ?lines⟩
  case identify =>
    rw [exec_taken (act := identify tag [b]) rfl htake rfl, identify, identity_eq]
    rfl
  case link =>
    refine ⟨_, exec_taken (act := getLinkStatus tag [clear]) rfl htake rfl, ?_⟩
    by_cases hz : clear = 0
    · rw [getLinkStatus_of_clear hz]
      refine ⟨?_, rfl, fun _ => ?_, fun h => absurd hz h⟩
      · rw [linkStatus_popInput]
        rfl
      · simp [State.ok, State.answer, State.pushFrame, State.popInput, State.answered]
    · have hclear : getLinkStatus tag [clear] s.popInput =
          (s.popInput.ok 0x04 tag s.popInput.link.status).withLink Link.cleared :=
        if_pos (onOff_of_ne_zero hz)
      rw [hclear]
      rw [linkStatus_popInput]
      refine ⟨rfl, rfl, fun h => absurd h hz, fun _ => ⟨rfl, rfl, rfl, rfl, rfl, rfl, rfl, rfl, rfl⟩⟩
  case lines => exact exec_taken (act := getLines tag [b]) rfl htake rfl

/-- Settles O12. -/
theorem resetDeviceAnswered : Obligations.ResetDeviceAnswered := fun _ tag b htake =>
  ⟨_, exec_taken (act := resetDevice tag [b]) rfl htake rfl, rfl, fun r => takeable_of_resetTaken rfl r⟩

/-- Settles O13. -/
theorem savingSettings : Obligations.SavingSettings := by
  refine ⟨fun s tag b htake => ?taken, fun s agrees im him => ?done⟩
  case taken =>
    rw [exec_taken (act := saveSettings tag [b]) rfl htake rfl]
    refine congrArg Host.Outcome.next ?_
    unfold saveSettings
    by_cases hs : s.store.saving.isSome = true
    · rw [if_pos hs]
      exact if_pos hs
    · rw [if_neg hs]
      exact if_neg hs
  case done =>
    refine ⟨_, exec_saveWriteEnd him agrees, State.raise_store .., ?_, State.raise_lanes .., State.raise_trace ..,
      State.raise_device ..⟩
    rw [raise_deviceFlag _ _ _ (by omega)]
    simp [Event.lane?, Event.kind]

/-- Settles O41. -/
theorem millTripReleased : Obligations.MillTripReleased := by
  intro s tag b htake
  rw [exec_taken (act := releaseMillTrip tag [b]) rfl htake rfl]
  refine ⟨fun h => congrArg Host.Outcome.next (if_pos h), fun h => congrArg Host.Outcome.next ?_⟩
  refine (if_neg (Bool.eq_false_iff.mp h)).trans ?_
  have hcode : (if s.millTripLatch then Result.released.code else Result.noChange.code) =
      (if s.millTripLatch then 11 else 0 : Byte) := rfl
  rw [← hcode]
  rfl

/-- Settles O59: a per-command law of the model's own (`RequestShape`). -/
theorem requestsNameTheirCommands : Obligations.RequestsNameTheirCommands := by
  intro i r hw hr
  cases i with
  | powerApplied => exact Laws.RequestShape.powerApplied hw r hr
  | rstNAsserted => exact Laws.RequestShape.rstNAsserted hw r hr
  | rstNReleased => exact Laws.RequestShape.rstNReleased hw r hr
  | plantLinkFrame _ => exact Laws.RequestShape.plantLinkFrame _ hw r hr
  | plantLinkGapTimeout => exact Laws.RequestShape.plantLinkGapTimeout hw r hr
  | unknownRequest _ _ _ => exact Laws.RequestShape.unknownRequest _ _ _ hw r hr
  | frameSent => exact Laws.RequestShape.frameSent hw r hr
  | identify _ _ => exact Laws.RequestShape.identify _ _ hw r hr
  | resetDevice _ _ => exact Laws.RequestShape.resetDevice _ _ hw r hr
  | saveSettings _ _ => exact Laws.RequestShape.saveSettings _ _ hw r hr
  | saveWriteEnd _ => exact Laws.RequestShape.saveWriteEnd _ hw r hr
  | getLinkStatus _ _ => exact Laws.RequestShape.getLinkStatus _ _ hw r hr
  | getLaneStatus _ _ => exact Laws.RequestShape.getLaneStatus _ _ hw r hr
  | setLaneGeometry _ _ => exact Laws.RequestShape.setLaneGeometry _ _ hw r hr
  | getLaneGeometry _ _ => exact Laws.RequestShape.getLaneGeometry _ _ hw r hr
  | setTimebase _ _ => exact Laws.RequestShape.setTimebase _ _ hw r hr
  | setScale _ _ => exact Laws.RequestShape.setScale _ _ hw r hr
  | switchSource _ _ => exact Laws.RequestShape.switchSource _ _ hw r hr
  | abortSwitch _ _ => exact Laws.RequestShape.abortSwitch _ _ hw r hr
  | startLane _ _ => exact Laws.RequestShape.startLane _ _ hw r hr
  | stopLane _ _ => exact Laws.RequestShape.stopLane _ _ hw r hr
  | clearHalt _ _ => exact Laws.RequestShape.clearHalt _ _ hw r hr
  | resetLane _ _ => exact Laws.RequestShape.resetLane _ _ hw r hr
  | setClassEntry _ _ => exact Laws.RequestShape.setClassEntry _ _ hw r hr
  | getClassEntry _ _ => exact Laws.RequestShape.getClassEntry _ _ hw r hr
  | setProfile _ _ => exact Laws.RequestShape.setProfile _ _ hw r hr
  | getProfile _ _ => exact Laws.RequestShape.getProfile _ _ hw r hr
  | setStation _ _ => exact Laws.RequestShape.setStation _ _ hw r hr
  | enableStation _ _ => exact Laws.RequestShape.enableStation _ _ hw r hr
  | disableStation _ _ => exact Laws.RequestShape.disableStation _ _ hw r hr
  | getStationStatus _ _ => exact Laws.RequestShape.getStationStatus _ _ hw r hr
  | closeLot _ _ => exact Laws.RequestShape.closeLot _ _ hw r hr
  | setLotLimit _ _ => exact Laws.RequestShape.setLotLimit _ _ hw r hr
  | getLotProgress _ _ => exact Laws.RequestShape.getLotProgress _ _ hw r hr
  | getLotResult _ _ => exact Laws.RequestShape.getLotResult _ _ hw r hr
  | injectStart _ _ => exact Laws.RequestShape.injectStart _ _ hw r hr
  | injectStop _ _ => exact Laws.RequestShape.injectStop _ _ hw r hr
  | setLineConfig _ _ => exact Laws.RequestShape.setLineConfig _ _ hw r hr
  | getLines _ _ => exact Laws.RequestShape.getLines _ _ hw r hr
  | setChutePolicy _ _ => exact Laws.RequestShape.setChutePolicy _ _ hw r hr
  | setBusyEnables _ _ => exact Laws.RequestShape.setBusyEnables _ _ hw r hr
  | holdFeed _ _ => exact Laws.RequestShape.holdFeed _ _ hw r hr
  | releaseFeed _ _ => exact Laws.RequestShape.releaseFeed _ _ hw r hr
  | releaseMillTrip _ _ => exact Laws.RequestShape.releaseMillTrip _ _ hw r hr
  | readTrace _ _ => exact Laws.RequestShape.readTrace _ _ hw r hr
  | clearTrace _ _ => exact Laws.RequestShape.clearTrace _ _ hw r hr
  | getEvents _ _ => exact Laws.RequestShape.getEvents _ _ hw r hr
  | clearEvents _ _ => exact Laws.RequestShape.clearEvents _ _ hw r hr
  | setNotices _ _ => exact Laws.RequestShape.setNotices _ _ hw r hr
  | setStatusPeriod _ _ => exact Laws.RequestShape.setStatusPeriod _ _ hw r hr
  | statusDue => exact Laws.RequestShape.statusDue hw r hr
  | sensorFrameRejected _ _ _ => exact Laws.RequestShape.sensorFrameRejected _ _ _ hw r hr
  | sensorLinkGapTimeout _ _ => exact Laws.RequestShape.sensorLinkGapTimeout _ _ hw r hr
  | headIdle _ _ _ => exact Laws.RequestShape.headIdle _ _ _ hw r hr
  | detection _ _ _ => exact Laws.RequestShape.detection _ _ _ hw r hr
  | encoderPhaseChange _ _ _ => exact Laws.RequestShape.encoderPhaseChange _ _ _ hw r hr
  | nominalCount _ => exact Laws.RequestShape.nominalCount _ hw r hr
  | valveBarFrameSent _ _ => exact Laws.RequestShape.valveBarFrameSent _ _ hw r hr
  | settlePeriodEnd _ => exact Laws.RequestShape.settlePeriodEnd _ hw r hr
  | encoderMonitorExpiry _ => exact Laws.RequestShape.encoderMonitorExpiry _ hw r hr
  | maxOpenTimeExpiry _ _ => exact Laws.RequestShape.maxOpenTimeExpiry _ _ hw r hr
  | rawLineChange _ _ => exact Laws.RequestShape.rawLineChange _ _ hw r hr
  | debounceExpiry _ => exact Laws.RequestShape.debounceExpiry _ hw r hr
  | rawAirOkChange _ _ => exact Laws.RequestShape.rawAirOkChange _ _ hw r hr
  | rawPlantStopAsserted => exact Laws.RequestShape.rawPlantStopAsserted hw r hr
  | rawPlantStopReleased => exact Laws.RequestShape.rawPlantStopReleased hw r hr
  | lotTimeAccrual => exact Laws.RequestShape.lotTimeAccrual hw r hr
  | powerLost => exact Laws.RequestShape.powerLost hw r hr
  | partBeginsToWork => exact Laws.RequestShape.partBeginsToWork hw r hr

end Sys2Proof
end

section
/-! What a payload spells (R179): each record that a request carries is taken exactly where the payload spells it
with every item in range, and the bytes that a record is sent as spell it. -/

namespace Sys2Proof.Machine

variable {p : List Byte}

/-! ## Items -/

theorem fromBe_lt (bs : List Byte) : fromBe bs < 256 ^ bs.length := by
  induction bs using List.reverseRecOn with
  | nil => decide
  | append_singleton bs b ih =>
    have hb := b.isLt
    rw [fromBe_append, fromBe_singleton, List.length_append, List.length_singleton,
      pow_succ 256 bs.length, pow_one]
    omega

theorem item_lt (p : List Byte) (off len : Nat) : item p off len < 256 ^ len :=
  (fromBe_lt _).trans_le (Nat.pow_le_pow_right (by omega) (List.length_take_le _ _))

theorem item_one_le (p : List Byte) (off : Nat) : item p off 1 ≤ 255 := by
  have h := item_lt p off 1
  omega

theorem item_two_le (p : List Byte) (off : Nat) : item p off 2 ≤ 65535 := by
  have h := item_lt p off 2
  omega

/-- The number that the two bytes of a number below 2^16 spell. -/
theorem two_bytes {x : Nat} (h : x ≤ 65535) : x / 256 % 256 * 256 + x % 256 = x := by omega

theorem laneItem_some {l : LaneId} (h : item p 0 1 = l.val) : laneItem p 0 = some l := by
  have hlt : item p 0 1 < 4 := h ▸ l.isLt
  rw [laneItem, dif_pos hlt]
  exact congrArg some (Fin.ext h)

theorem stationItem_some {st : StationId} (h : item p 1 1 = st.val) : stationItem p 1 = some st := by
  have hlt : item p 1 1 < 3 := h ▸ st.isLt
  rw [stationItem, dif_pos hlt]
  exact congrArg some (Fin.ext h)

theorem profileItem_eq_some {off : Nat} {i : Fin 8} : profileItem p off = some i ↔ i.val = item p off 1 := by
  unfold profileItem
  constructor
  · intro h
    split at h
    · injection h with h
      rw [← h]
    · cases h
  · intro h
    rw [dif_pos (h ▸ i.isLt)]
    exact congrArg some (Fin.ext h.symm)

theorem columnItem_eq_some {off : Nat} {c : Fin 32} : columnItem p off = some c ↔ c.val = item p off 1 := by
  unfold columnItem
  constructor
  · intro h
    split at h
    · injection h with h
      rw [← h]
    · cases h
  · intro h
    rw [dif_pos (h ▸ c.isLt)]
    exact congrArg some (Fin.ext h.symm)

theorem stationItem_eq_some {st : StationId} : stationItem p 1 = some st ↔ st.val = item p 1 1 := by
  refine ⟨fun h => ?_, fun h => stationItem_some h.symm⟩
  unfold stationItem at h
  split at h
  · injection h with h
    rw [← h]
  · cases h

theorem ChuteFraction.ofCode_eq_some {n : Nat} {f : ChuteFraction} :
    ChuteFraction.ofCode? n = some f ↔ f.code.val = n := by
  constructor
  · intro h
    unfold ChuteFraction.ofCode? at h
    split at h
    next => injection h with h; subst h; rfl
    next => injection h with h; subst h; rfl
    next => injection h with h; subst h; rfl
    next => cases h
  · rintro rfl
    cases f
    all_goals rfl

theorem Fraction.ofCode_eq_some {n : Nat} {f : Fraction} : Fraction.ofCode? n = some f ↔ f.code.val = n := by
  constructor
  · intro h
    unfold Fraction.ofCode? at h
    split at h
    next => injection h with h; subst h; rfl
    next => injection h with h; subst h; rfl
    next => injection h with h; subst h; rfl
    next => injection h with h; subst h; rfl
    next => cases h
  · rintro rfl
    cases f
    all_goals rfl

theorem Source.ofCode_eq_some {n : Nat} {x : Source} : Source.ofCode? n = some x ↔ x.code = n := by
  constructor
  · intro h
    unfold Source.ofCode? at h
    split at h
    next => injection h with h; subst h; rfl
    next => injection h with h; subst h; rfl
    next => cases h
  · rintro rfl
    cases x
    all_goals rfl

theorem Source.ofCode_none {n : Nat} (h : 1 < n) : Source.ofCode? n = none := by
  refine Option.eq_none_iff_forall_not_mem.mpr fun x hx => ?_
  have hcode := Source.ofCode_eq_some.mp hx
  cases x
  · exact absurd hcode (by simp [Source.code]; omega)
  · exact absurd hcode (by simp [Source.code]; omega)

/-- A record that a payload gives under no reading with every item in range is not taken. -/
theorem none_of_not_spelled {α : Type} {o : Option α} {spelled inRange : α → Prop}
    (hiff : ∀ x, o = some x ↔ spelled x ∧ inRange x) (h : ∀ x, spelled x → ¬inRange x) : o = none :=
  Option.eq_none_iff_forall_not_mem.mpr fun x hx => h x ((hiff x).mp hx).1 ((hiff x).mp hx).2

/-! ## The geometry (R125) -/

/-- A geometry, item by item. -/
theorem Geometry.items (g : Geometry) : ∃ (e0 e1 e2 : Bool) (o0 o1 o2 : Nat) (s0 s1 s2 : Bool) (d0 d1 d2 : Nat)
    (f0 f1 f2 : ChuteFraction) (exit window limit : Nat),
    g = ⟨#v[e0, e1, e2], #v[o0, o1, o2], #v[s0, s1, s2], #v[d0, d1, d2], #v[f0, f1, f2], exit, window, limit⟩ := by
  obtain ⟨heads, offsets, stations, distances, fractions, exit, window, limit⟩ := g
  obtain ⟨e0, e1, e2, rfl⟩ := vector_three heads
  obtain ⟨o0, o1, o2, rfl⟩ := vector_three offsets
  obtain ⟨s0, s1, s2, rfl⟩ := vector_three stations
  obtain ⟨d0, d1, d2, rfl⟩ := vector_three distances
  obtain ⟨f0, f1, f2, rfl⟩ := vector_three fractions
  exact ⟨_, _, _, _, _, _, _, _, _, _, _, _, _, _, _, _, _, _, rfl⟩

theorem bit_ne_zero (b : Bool) : ((if b = true then 1#8 else 0#8).toNat != 0) = b := onOff_bit b

theorem geometry_encode_spells (b : Byte) {g : Geometry} (h : g.inRange) : g.spelledBy (b :: g.encode) := by
  obtain ⟨e0, e1, e2, o0, o1, o2, s0, s1, s2, d0, d1, d2, f0, f1, f2, exit, window, limit, rfl⟩ := g.items
  simp [Geometry.inRange, forall_three, maxReverseLimit] at h
  simp [Geometry.spelledBy, Geometry.encode, forall_three, item, fromBe, bit, beBytes_one, beBytes_two, bit_ne_zero]
  omega

theorem geometry_ofPayload_iff (p : List Byte) (g : Geometry) :
    Geometry.ofPayload? p = some g ↔ g.spelledBy p ∧ g.inRange := by
  have hwindow := item_one_le p 24
  obtain ⟨e0, e1, e2, o0, o1, o2, s0, s1, s2, d0, d1, d2, f0, f1, f2, exit, window, limit, rfl⟩ := g.items
  constructor
  · intro h
    unfold Geometry.ofPayload? at h
    dsimp only at h
    split at h
    next fa fb fc ha hb hc =>
      rw [ChuteFraction.ofCode_eq_some] at ha hb hc
      split at h
      next hr =>
        simp only [Option.some.injEq, Geometry.mk.injEq] at h
        obtain ⟨heads, offsets, stations, distances, fractions, rfl, rfl, rfl⟩ := h
        simp at heads offsets stations distances fractions
        obtain ⟨rfl, rfl, rfl⟩ := heads
        obtain ⟨rfl, rfl, rfl⟩ := offsets
        obtain ⟨rfl, rfl, rfl⟩ := stations
        obtain ⟨rfl, rfl, rfl⟩ := distances
        obtain ⟨rfl, rfl, rfl⟩ := fractions
        simp only [Nat.reduceMul, Nat.reduceAdd] at hr
        simp [Geometry.spelledBy, Geometry.inRange, forall_three, maxReverseLimit, onOff, ha, hb, hc]
        omega
      next => cases h
    next => cases h
  · rintro ⟨hspell, hrange⟩
    simp [Geometry.spelledBy, forall_three] at hspell
    simp [Geometry.inRange, forall_three, maxReverseLimit] at hrange
    obtain ⟨⟨⟨rfl, rfl⟩, ⟨rfl, rfl⟩, rfl, rfl⟩, ⟨⟨rfl, rfl, h0⟩, ⟨rfl, rfl, h1⟩, rfl, rfl, h2⟩, rfl, rfl, rfl⟩ := hspell
    have hr : item p 4 2 ≤ 4095 ∧ item p 6 2 ≤ 4095 ∧ item p 8 2 ≤ 4095 ∧
        (1 ≤ item p 13 2 ∧ item p 13 2 ≤ 16383) ∧ (1 ≤ item p 15 2 ∧ item p 15 2 ≤ 16383) ∧
        (1 ≤ item p 17 2 ∧ item p 17 2 ≤ 16383) ∧ (1 ≤ item p 22 2 ∧ item p 22 2 ≤ 16383) ∧
        item p 25 2 ≤ 1023 := by omega
    simp only [Geometry.ofPayload?, ChuteFraction.ofCode_eq_some.mpr h0, ChuteFraction.ofCode_eq_some.mpr h1,
      ChuteFraction.ofCode_eq_some.mpr h2]
    exact if_pos hr

/-! ## The timebase setup (R44) -/

theorem setup_encode_spells (b : Byte) {t : TimebaseSetup} (h : t.inRange) : t.spelledBy (b :: t.encode) := by
  obtain ⟨source, twoStage, watch, tolerance, settle⟩ := t
  simp [TimebaseSetup.inRange] at h
  have hsource : source.code % 256 = source.code := by cases source <;> rfl
  simp [TimebaseSetup.spelledBy, TimebaseSetup.encode, item, fromBe, bit, beBytes_one, beBytes_two, bit_ne_zero,
    hsource]
  omega

theorem setup_ofPayload_iff (p : List Byte) (t : TimebaseSetup) :
    TimebaseSetup.ofPayload? p = some t ↔ t.spelledBy p ∧ t.inRange := by
  obtain ⟨source, twoStage, watch, tolerance, settle⟩ := t
  constructor
  · intro h
    unfold TimebaseSetup.ofPayload? at h
    split at h
    next x hx =>
      split at h
      next hr =>
        simp only [Option.some.injEq, TimebaseSetup.mk.injEq] at h
        obtain ⟨rfl, rfl, rfl, rfl, rfl⟩ := h
        exact ⟨⟨Source.ofCode_eq_some.mp hx, rfl, rfl, rfl, rfl⟩, hr⟩
      next => cases h
    next => cases h
  · rintro ⟨⟨hsource, htwo, hwatch, htol, hsettle⟩, hr⟩
    dsimp only at hsource htwo hwatch htol hsettle
    subst htwo hwatch htol hsettle
    simp only [TimebaseSetup.ofPayload?, Source.ofCode_eq_some.mpr hsource]
    exact if_pos hr

/-! ## The class table entry (R70) -/

/-- A class table entry, field by field. -/
theorem ClassEntry.items (e : ClassEntry) : ∃ (v r0 r1 r2 : Bool) (l0 l1 l2 h0 h1 h2 : Byte)
    (i0 i1 i2 : BitVec 16) (f : Fraction) (pr : Fin 8) (d : Nat),
    e = ⟨v, #v[r0, r1, r2], #v[l0, l1, l2], #v[h0, h1, h2], #v[i0, i1, i2], f, pr, d⟩ := by
  obtain ⟨v, requirement, low, high, intensity, f, pr, d⟩ := e
  obtain ⟨r0, r1, r2, rfl⟩ := vector_three requirement
  obtain ⟨l0, l1, l2, rfl⟩ := vector_three low
  obtain ⟨h0, h1, h2, rfl⟩ := vector_three high
  obtain ⟨i0, i1, i2, rfl⟩ := vector_three intensity
  exact ⟨_, _, _, _, _, _, _, _, _, _, _, _, _, _, _, _, rfl⟩

theorem ofNat_item_one {off : Nat} {b : Byte} : BitVec.ofNat 8 (item p off 1) = b ↔ b.toNat = item p off 1 := by
  have h := item_one_le p off
  constructor
  · rintro rfl
    rw [BitVec.toNat_ofNat]
    omega
  · intro hb
    rw [← hb, BitVec.ofNat_toNat, BitVec.setWidth_eq]

theorem ofNat_item_two {off : Nat} {b : BitVec 16} : BitVec.ofNat 16 (item p off 2) = b ↔ b.toNat = item p off 2 := by
  have h := item_two_le p off
  constructor
  · rintro rfl
    rw [BitVec.toNat_ofNat]
    omega
  · intro hb
    rw [← hb, BitVec.ofNat_toNat, BitVec.setWidth_eq]

theorem toNat_ofNat_item (p : List Byte) (off : Nat) : (BitVec.ofNat 8 (item p off 1)).toNat = item p off 1 :=
  ofNat_item_one.mp rfl

theorem classEntry_ofPayload_iff (p : List Byte) (e : ClassEntry) :
    ClassEntry.ofPayload? p = some e ↔ e.spelledBy p ∧ e.inRange := by
  have hdensity := item_one_le p 17
  obtain ⟨v, r0, r1, r2, l0, l1, l2, h0, h1, h2, i0, i1, i2, f, pr, d, rfl⟩ := e.items
  simp only [ClassEntry.spelledBy, ClassEntry.inRange, forall_three]
  constructor
  · intro h
    unfold ClassEntry.ofPayload? at h
    dsimp only at h
    split at h
    next fraction profile hf hpr =>
      split at h
      next hr =>
        simp only [Option.some.injEq, ClassEntry.mk.injEq] at h
        obtain ⟨rfl, requirement, low, high, intensity, rfl, rfl, rfl⟩ := h
        simp [ofNat_item_one, ofNat_item_two] at requirement low high intensity
        simp only [toNat_ofNat_item, Nat.reduceMul, Nat.reduceAdd] at hr
        obtain ⟨rfl, rfl, rfl⟩ := requirement
        simp [onOff, low, high, intensity, Fraction.ofCode_eq_some.mp hf, profileItem_eq_some.mp hpr]
        omega
      next => cases h
    next => cases h
  · rintro ⟨hspell, hrange⟩
    simp at hspell hrange
    obtain ⟨rfl, hbits, ⟨⟨rfl, hl0, hh0, hi0⟩, ⟨rfl, hl1, hh1, hi1⟩, rfl, hl2, hh2, hi2⟩, hf, hpr, rfl⟩ := hspell
    have hr : item p 2 1 < 8 ∧ l0.toNat ≤ h0.toNat ∧ l1.toNat ≤ h1.toNat ∧ l2.toNat ≤ h2.toNat ∧
        0 < item p 17 1 := ⟨hbits, hrange.1.1, hrange.1.2.1, hrange.1.2.2, hrange.2.1⟩
    simp only [ClassEntry.ofPayload?, Fraction.ofCode_eq_some.mpr hf, profileItem_eq_some.mpr hpr,
      Nat.reduceMul, Nat.reduceAdd, onOff, ofNat_item_one.mpr hl0, ofNat_item_one.mpr hl1,
      ofNat_item_one.mpr hl2, ofNat_item_one.mpr hh0, ofNat_item_one.mpr hh1, ofNat_item_one.mpr hh2,
      ofNat_item_two.mpr hi0, ofNat_item_two.mpr hi1, ofNat_item_two.mpr hi2, if_pos hr]
    simp

/-- The bits of a set of three members. -/
theorem bitSet_three (a b c : Bool) : bitSet 1 [a, b, c] = [byte (a.toNat + 2 * b.toNat + 4 * c.toNat)] := by
  cases a <;> cases b <;> cases c <;> rfl

theorem testBit_three (a b c : Bool) : ((a.toNat + 2 * b.toNat + 4 * c.toNat).testBit 0 = a ∧
    (a.toNat + 2 * b.toNat + 4 * c.toNat).testBit 1 = b ∧ (a.toNat + 2 * b.toNat + 4 * c.toNat).testBit 2 = c) ∧
    a.toNat + 2 * b.toNat + 4 * c.toNat < 8 := by
  revert a b c
  decide

theorem classEntry_encode_spells (b : Byte) {e : ClassEntry} (h : e.inRange) : e.spelledBy (b :: e.encode) := by
  obtain ⟨v, r0, r1, r2, l0, l1, l2, h0, h1, h2, i0, i1, i2, f, pr, d, rfl⟩ := e.items
  obtain ⟨⟨hb0, hb1, hb2⟩, hlt⟩ := testBit_three r0 r1 r2
  have hset : (r0.toNat + 2 * r1.toNat + 4 * r2.toNat) % 256 = r0.toNat + 2 * r1.toNat + 4 * r2.toNat :=
    Nat.mod_eq_of_lt (by omega)
  have hi (i : BitVec 16) : i.toNat / 256 % 256 * 256 + i.toNat % 256 = i.toNat :=
    two_bytes (by have := i.isLt; omega)
  have hdensity : d % 256 = d := Nat.mod_eq_of_lt (by have := h.2.2; simp at this; omega)
  have hf : f.code.val % 256 = f.code.val := by omega
  have hpr : pr.val % 256 = pr.val := by omega
  have hv : item (b :: ClassEntry.encode ⟨v, #v[r0, r1, r2], #v[l0, l1, l2], #v[h0, h1, h2], #v[i0, i1, i2], f,
      pr, d⟩) 2 1 = r0.toNat + 2 * r1.toNat + 4 * r2.toNat := by
    simp [ClassEntry.encode, bitSet_three, item, fromBe, bit, hset]
  refine ⟨?_, hv ▸ hlt, ?_⟩
  · simp [ClassEntry.encode, item, fromBe, bit, bit_ne_zero]
  · rw [hv, forall_three]
    simp [ClassEntry.encode, bitSet_three, item, fromBe, bit, beBytes_one, beBytes_two, hi, hdensity, hf, hpr]
    rw [Nat.testBit_zero] at hb0
    exact ⟨hb0.symm, hb1.symm, hb2.symm⟩

/-! ## The station configuration (R91) -/

theorem forall_four {P : Fin 4 → Prop} : (∀ k, P k) ↔ P 0 ∧ P 1 ∧ P 2 ∧ P 3 := by
  refine ⟨fun h => ⟨h 0, h 1, h 2, h 3⟩, fun ⟨h0, h1, h2, h3⟩ k => ?_⟩
  match k with
  | 0 => exact h0
  | 1 => exact h1
  | 2 => exact h2
  | 3 => exact h3

/-- A station configuration, item by item. -/
theorem StationConfig.items (c : StationConfig) : ∃ (rest n0 w0 n1 w1 n2 w2 n3 w3 : Nat),
    c = ⟨rest, #v[⟨n0, w0⟩, ⟨n1, w1⟩, ⟨n2, w2⟩, ⟨n3, w3⟩]⟩ := by
  obtain ⟨rest, rules⟩ := c
  obtain ⟨a, b, c, d, rfl⟩ := vector_four rules
  exact ⟨rest, _, _, _, _, _, _, _, _, rfl⟩

theorem stationConfig_ofPayload_iff (p : List Byte) (c : StationConfig) :
    StationConfig.ofPayload? p = some c ↔ c.spelledBy p ∧ c.inRange := by
  obtain ⟨rest, n0, w0, n1, w1, n2, w2, n3, w3, rfl⟩ := c.items
  have hw0 := item_two_le p 4
  have hw1 := item_two_le p 7
  have hw2 := item_two_le p 10
  have hw3 := item_two_le p 13
  constructor
  · intro h
    simp only [StationConfig.ofPayload?, Nat.reduceMul, Nat.reduceAdd, Option.ite_none_right_eq_some,
      Option.some.injEq, StationConfig.mk.injEq] at h
    obtain ⟨hr, rfl, hrules⟩ := h
    simp at hrules
    obtain ⟨⟨rfl, rfl⟩, ⟨rfl, rfl⟩, ⟨rfl, rfl⟩, rfl, rfl⟩ := hrules
    simp [StationConfig.spelledBy, StationConfig.inRange, forall_four]
    omega
  · rintro ⟨hspell, hrange⟩
    simp [StationConfig.spelledBy, forall_four] at hspell
    simp [StationConfig.inRange, forall_four] at hrange
    obtain ⟨rfl, ⟨rfl, rfl⟩, ⟨rfl, rfl⟩, ⟨rfl, rfl⟩, rfl, rfl⟩ := hspell
    exact if_pos (by simp only [Nat.reduceMul, Nat.reduceAdd]; omega)

theorem stationConfig_encode_spells (a b : Byte) {c : StationConfig} (h : c.inRange) :
    c.spelledBy ([a, b, byte c.columnRest] ++ c.rules.toList.flatMap fun r => byte r.count :: beBytes 2 r.window) := by
  obtain ⟨rest, n0, w0, n1, w1, n2, w2, n3, w3, rfl⟩ := c.items
  simp [StationConfig.inRange, forall_four] at h
  simp [StationConfig.spelledBy, forall_four, item, fromBe, beBytes_two]
  omega

/-! ## The injection record (R127) -/

theorem injectionItem_iff (p : List Byte) (pmax : Pos) (inj : Injection) :
    injectionItem p pmax = some inj ↔ inj.spelledBy pmax p ∧ inj.inRange := by
  obtain ⟨st, first, last, length, spacing, remaining, next⟩ := inj
  unfold injectionItem
  constructor
  · intro h
    split at h
    next x c d hx hc hd =>
      split at h
      next hr =>
        simp only [Option.some.injEq, Injection.mk.injEq] at h
        obtain ⟨rfl, rfl, rfl, rfl, rfl, rfl, rfl⟩ := h
        exact ⟨⟨stationItem_eq_some.mp hx, columnItem_eq_some.mp hc, columnItem_eq_some.mp hd, rfl, rfl, rfl, rfl⟩, hr⟩
      next => cases h
    next => cases h
  · rintro ⟨⟨hst, hfirst, hlast, rfl, rfl, rfl, rfl⟩, hr⟩
    simp only [stationItem_eq_some.mpr hst, columnItem_eq_some.mpr hfirst, columnItem_eq_some.mpr hlast]
    exact if_pos hr

end Sys2Proof.Machine
end

section
/-! Requests that read or set a lane's or the device's items on a payload of their length: O14, O15, O21 to O24,
O29, O31 and O40. -/

namespace Sys2Proof.Machine

variable {s : State} {tag : Byte} {p : List Byte} {l : LaneId}

/-! ## Geometry and status of a lane (R125, R126, R132) -/

/-- A geometry in range is taken on a STOPPED lane and refused on another (R125). -/
theorem setLaneGeometry_inRange {g : Geometry} (hl : laneItem p 0 = some l) (hg : g.spelledBy p) (hr : g.inRange) :
    setLaneGeometry tag p s = if s.lanes[l].state = .stopped
      then (s.ok 0x11 tag []).editLane l (Lane.withGeometry g) else s.refuse 0x11 tag .wrongState := by
  simp only [setLaneGeometry, hl, (geometry_ofPayload_iff p g).mpr ⟨hg, hr⟩]

theorem setLaneGeometry_outOfRange (hl : laneItem p 0 = some l) (h : ∀ g : Geometry, g.spelledBy p → ¬g.inRange) :
    setLaneGeometry tag p s = s.refuse 0x11 tag .badValue := by
  simp only [setLaneGeometry, hl, none_of_not_spelled (geometry_ofPayload_iff p) h]

theorem getLaneGeometry_returns (hl : laneItem p 0 = some l) :
    getLaneGeometry tag p s = s.ok 0x12 tag (s.lanes[l].cfg.geometry.encode ++ s.lanes[l].cfg.setup.encode) := by
  simp only [getLaneGeometry, hl]

theorem geometry_encode_length (g : Geometry) : g.encode.length = 26 := by
  obtain ⟨e0, e1, e2, o0, o1, o2, s0, s1, s2, d0, d1, d2, f0, f1, f2, exit, window, limit, rfl⟩ := g.items
  rfl

theorem getLaneStatus_replies (hl : laneItem p 0 = some l) :
    getLaneStatus tag p s = if onOff p 1 then (s.ok 0x10 tag (s.laneStatus l)).editLane l Lane.clearTallies
      else s.ok 0x10 tag (s.laneStatus l) := by
  simp only [getLaneStatus, hl]

theorem onOff_second (a b : Byte) : onOff [a, b] 1 = (b != 0) := by
  have h : item [a, b] 1 1 = b.toNat := item_one rfl
  rw [onOff, h, Bool.eq_iff_iff, bne_iff_ne, bne_iff_ne]
  exact not_congr ⟨fun e => BitVec.eq_of_toNat_eq e, fun e => e ▸ rfl⟩

/-! ## The injection generator (R127, R129) -/

/-- An injection record in range is taken on a RUNNING lane and refused on another (R127). -/
theorem injectStart_inRange {inj : Injection} (hl : laneItem p 0 = some l)
    (hi : inj.spelledBy s.lanes[l].tb.pmax p) (hr : inj.inRange) :
    injectStart tag p s = if s.lanes[l].state = .running then
        (s.ok 0x38 tag [if s.lanes[l].injection.isSome then Result.replaced.code else Result.started.code]).editLane l
          (Lane.withInjection (some inj))
      else s.refuse 0x38 tag .wrongState := by
  simp only [injectStart, hl, (injectionItem_iff p _ inj).mpr ⟨hi, hr⟩]

theorem injectStart_outOfRange (hl : laneItem p 0 = some l)
    (h : ∀ inj : Injection, inj.spelledBy s.lanes[l].tb.pmax p → ¬inj.inRange) :
    injectStart tag p s = s.refuse 0x38 tag .badValue := by
  simp only [injectStart, hl, none_of_not_spelled (injectionItem_iff p _) h]

theorem injectStop_stops (hl : laneItem p 0 = some l) :
    injectStop tag p s = (s.ok 0x39 tag
      [if s.lanes[l].injection.isSome then Result.stopped.code else Result.noChange.code]).editLane l
        (Lane.withInjection none) := by
  simp only [injectStop, hl]

/-- The bytes of INJECT_START spell the record that the generator takes (R127). -/
theorem injection_spelled (b : Byte) (st : StationId) (first last : Fin 32) {len count spacing : Nat} (pmax : Pos)
    (hlen : len ≤ 4095) (hcount : count ≤ 65535) (hspacing : spacing ≤ 16383) :
    Injection.spelledBy ⟨st, first, last, len, spacing, if count = 0 then none else some count,
      pmax + BitVec.ofNat 32 spacing⟩ pmax ([b, byte st.val, byte first.val, byte last.val] ++
        beBytes 2 len ++ beBytes 2 count ++ beBytes 2 spacing) := by
  have hbytes {x : Nat} (h : x ≤ 65535) := two_bytes h
  simp [Injection.spelledBy, item, fromBe, beBytes_two, hbytes hcount, hbytes (x := len) (by omega),
    hbytes (x := spacing) (by omega)]
  omega

/-! ## The timebase (R28, R38, R41, R42, R44) -/

/-- A timebase setup in range is refused while a switch is pending, then unless the lane is STOPPED (R42, R44). -/
theorem setTimebase_inRange {t : TimebaseSetup} (hl : laneItem p 0 = some l) (ht : t.spelledBy p) (hr : t.inRange) :
    setTimebase tag p s = if s.lanes[l].tb.pendingSwitch.isSome then s.refuse 0x13 tag .switchPending
      else if s.lanes[l].state = .stopped then
        (s.ok 0x13 tag []).editLane l fun ln => { ln with cfg := { ln.cfg with setup := t } }
      else s.refuse 0x13 tag .wrongState := by
  simp only [setTimebase, hl, (setup_ofPayload_iff p t).mpr ⟨ht, hr⟩]

theorem setTimebase_outOfRange (hl : laneItem p 0 = some l) (h : ∀ t : TimebaseSetup, t.spelledBy p → ¬t.inRange) :
    setTimebase tag p s = s.refuse 0x13 tag .badValue := by
  simp only [setTimebase, hl, none_of_not_spelled (setup_ofPayload_iff p) h]

theorem setScale_outOfRange
    (h : ¬((1 ≤ item p 1 1 ∧ item p 1 1 ≤ 64) ∧ (1 ≤ item p 2 2 ∧ item p 2 2 ≤ 10000))) :
    setScale tag p s = s.refuse 0x14 tag .badValue := by
  unfold setScale
  dsimp only
  split
  next => rfl
  next => exact if_neg h

/-- A scale and a rate in range are refused while a switch is pending (R42). -/
theorem setScale_inRange (hl : laneItem p 0 = some l)
    (h : (1 ≤ item p 1 1 ∧ item p 1 1 ≤ 64) ∧ (1 ≤ item p 2 2 ∧ item p 2 2 ≤ 10000)) :
    setScale tag p s = if s.lanes[l].tb.pendingSwitch.isSome then s.refuse 0x14 tag .switchPending
      else (s.ok 0x14 tag []).editLane l fun ln => (ln.newScale (item p 1 1)).newRate (item p 2 2) := by
  simp only [setScale, hl]
  exact if_pos h

/-- The lane after SET_SCALE: on a lane at rest the scale is in force at once (R28, R30). -/
theorem newScale_newRate (scale rate : Nat) (ln : Lane) : (ln.newScale scale).newRate rate = { ln with
    cfg := { ln.cfg with scale := if ln.active then ln.cfg.scale else scale }
    tb := { ln.tb with
      pendingScale := if ln.active then some scale else none
      residue := if ln.active then ln.tb.residue else 0
      pendingRate := some ⟨rate, ln.tb.accumulator.isNone⟩ } } := by
  unfold Lane.newScale Lane.newRate
  cases ln.active
  · rfl
  · rfl

/-- A target of SWITCH_SOURCE is taken on a RUNNING lane and refused on another (R38, R41). -/
theorem switchSource_inRange {target : Source} (hl : laneItem p 0 = some l) (ht : target.code = item p 1 1) :
    switchSource tag p s = if s.lanes[l].state = .running then
        (s.ok 0x15 tag ([if (requestedSwitch s.lineTime target s.lanes[l].tb.source).isSome then Result.pending.code
            else Result.noChange.code] ++ bit s.lanes[l].tb.pendingSwitch.isSome)).editLane l fun ln =>
          { ln with tb := { ln.tb with pendingSwitch := requestedSwitch s.lineTime target s.lanes[l].tb.source } }
      else s.refuse 0x15 tag .wrongState := by
  simp only [switchSource, hl, Source.ofCode_eq_some.mpr ht]

theorem switchSource_outOfRange (h : 1 < item p 1 1) : switchSource tag p s = s.refuse 0x15 tag .badValue := by
  unfold switchSource
  rw [Source.ofCode_none h]
  split
  next hx => exact nomatch hx
  next => rfl

theorem requestedSwitch_eq (now : Time) (target active : Source) : requestedSwitch now target active =
    if target = active then none
    else if target = .encoder then some (.toEncoder ⟨now, 0, 0, false, false, 0⟩) else some .toNominal := by
  unfold requestedSwitch
  cases target
  · rfl
  · rfl

/-- The reply to SWITCH_SOURCE says whether a switch is pending now and whether one was replaced (R38). -/
theorem switchReply (now : Time) (target active : Source) (replaced : Bool) :
    [if (requestedSwitch now target active).isSome then Result.pending.code else Result.noChange.code] ++
      bit replaced = [if target = active then 0 else 1, if replaced then 1 else 0] := by
  cases target
  · cases active
    · rfl
    · rfl
  · cases active
    · rfl
    · rfl

theorem source_of_le_one {n : Nat} (h : n ≤ 1) : ∃ target : Source, target.code = n := by
  match n, h with
  | 0, _ => exact ⟨.encoder, rfl⟩
  | 1, _ => exact ⟨.nominal, rfl⟩

theorem abortSwitch_aborts (hl : laneItem p 0 = some l) :
    abortSwitch tag p s = (s.ok 0x16 tag
      [if s.lanes[l].tb.pendingSwitch.isSome then Result.aborted.code else Result.noChange.code]).editLane l
        Lane.dropSwitch := by
  simp only [abortSwitch, hl]

/-! ## The class table and the stations (R72, R91, R113) -/

theorem entryItem_some {i : Fin 64} (h : item p 0 1 = i.val) : entryItem p 0 = some i := by
  have hlt : item p 0 1 < 64 := h ▸ i.isLt
  rw [entryItem, dif_pos hlt]
  exact congrArg some (Fin.ext h)

theorem entryItem_high (h : 63 < item p 0 1) : entryItem p 0 = none := dif_neg (by omega)

theorem setClassEntry_inRange {i : Fin 64} {e : ClassEntry} (hi : entryItem p 0 = some i) (he : e.spelledBy p)
    (hr : e.inRange) : setClassEntry tag p s =
      (s.ok 0x20 tag []).withDevice fun d => { d with classTable := d.classTable.set i e } := by
  simp only [setClassEntry, hi, (classEntry_ofPayload_iff p e).mpr ⟨he, hr⟩]

theorem setClassEntry_outOfRange (h : entryItem p 0 = none ∨ ClassEntry.ofPayload? p = none) :
    setClassEntry tag p s = s.refuse 0x20 tag .badValue := by
  unfold setClassEntry
  split
  next i e hi he =>
    rcases h with hnone | hnone
    · exact nomatch hi.symm.trans hnone
    · exact nomatch he.symm.trans hnone
  next => rfl

theorem getClassEntry_returns {i : Fin 64} (hi : entryItem p 0 = some i) :
    getClassEntry tag p s = s.ok 0x21 tag s.device.classTable[i].encode := by
  simp only [getClassEntry, hi]

theorem getClassEntry_refused (hi : entryItem p 0 = none) : getClassEntry tag p s = s.refuse 0x21 tag .badValue := by
  simp only [getClassEntry, hi]

theorem classEntry_encode_length (e : ClassEntry) : e.encode.length = 17 := by
  obtain ⟨v, r0, r1, r2, l0, l1, l2, h0, h1, h2, i0, i1, i2, f, pr, d, rfl⟩ := e.items
  rfl

theorem setStation_inRange {st : StationId} {c : StationConfig} (hl : laneItem p 0 = some l)
    (hst : stationItem p 1 = some st) (hc : c.spelledBy p) (hr : c.inRange) :
    setStation tag p s = (s.ok 0x28 tag []).editLane l (Lane.withStationConfig st c) := by
  simp only [setStation, hl, hst, (stationConfig_ofPayload_iff p c).mpr ⟨hc, hr⟩]

theorem setStation_outOfRange {st : StationId} (hl : laneItem p 0 = some l) (hst : stationItem p 1 = some st)
    (h : ∀ c : StationConfig, c.spelledBy p → ¬c.inRange) :
    setStation tag p s = s.refuse 0x28 tag .badValue := by
  simp only [setStation, hl, hst, none_of_not_spelled (stationConfig_ofPayload_iff p) h]

theorem getStationStatus_returns {st : StationId} (hl : laneItem p 0 = some l) (hst : stationItem p 1 = some st) :
    getStationStatus tag p s = s.ok 0x2B tag (s.stationStatus l st) := by
  simp only [getStationStatus, hl, hst]

theorem stationRules_length (rules : Vector EjectionRule 4) :
    (rules.toList.flatMap fun r => byte r.count :: beBytes 2 r.window).length = 12 := by
  obtain ⟨a, b, c, d, rfl⟩ := vector_four rules
  rfl

/-! ## Chutes, busy sources and host holds (R159 to R161) -/

theorem policy_ofCode (m : ChutePolicy) : ChutePolicy.ofCode? (byte m.code).toNat = some m := by
  cases m
  · rfl
  · rfl

theorem policy_ofCode_none {n : Nat} (h : 1 < n) : ChutePolicy.ofCode? n = none := by
  unfold ChutePolicy.ofCode?
  split
  · omega
  · omega
  · rfl

/-- The bytes in which SET_CHUTE_POLICY names its three policies (R159). -/
theorem item_policies (a m p f : Byte) :
    item [a, m, p, f] 1 1 = m.toNat ∧ item [a, m, p, f] 2 1 = p.toNat ∧ item [a, m, p, f] 3 1 = f.toNat :=
  ⟨item_one rfl, item_one rfl, item_one rfl⟩

theorem policiesItem_some (a : Byte) (m p f : ChutePolicy) :
    policiesItem [a, byte m.code, byte p.code, byte f.code] = some #v[m, p, f] := by
  obtain ⟨hm, hp, hf⟩ := item_policies a (byte m.code) (byte p.code) (byte f.code)
  rw [policiesItem, hm, hp, hf]
  simp only [policy_ofCode]

theorem policiesItem_none (a : Byte) {m p f : Byte} (h : 1 < m.toNat ∨ 1 < p.toNat ∨ 1 < f.toNat) :
    policiesItem [a, m, p, f] = none := by
  obtain ⟨hmItem, hpItem, hfItem⟩ := item_policies a m p f
  rw [policiesItem, hmItem, hpItem, hfItem]
  split
  next hm hp hf =>
    rcases h with h | h | h
    · rw [policy_ofCode_none h] at hm
      exact nomatch hm
    · rw [policy_ofCode_none h] at hp
      exact nomatch hp
    · rw [policy_ofCode_none h] at hf
      exact nomatch hf
  next => rfl

theorem setChutePolicy_takes {policies : Vector ChutePolicy 3} (hl : laneItem p 0 = some l)
    (hp : policiesItem p = some policies) : setChutePolicy tag p s = (s.ok 0x42 tag []).editLane l fun ln =>
      { ln with cfg := { ln.cfg with policies := policies } } := by
  simp only [setChutePolicy, hl, hp]

theorem setChutePolicy_refused (hp : policiesItem p = none) :
    setChutePolicy tag p s = s.refuse 0x42 tag .badValue := by
  unfold setChutePolicy
  rw [hp]
  split
  next hx => exact nomatch hx
  next => rfl

theorem setBusyEnables_takes (hl : laneItem p 0 = some l) : setBusyEnables tag p s =
    (s.ok 0x43 tag []).editLane l fun ln => { ln with cfg := { ln.cfg with
      busyEnables := Vector.ofFn fun i : Fin 7 => onOff p (1 + i.val)
      coupled := onOff p 8 } } := by
  simp only [setBusyEnables, hl]

theorem setHostHold_takes {code : Byte} {hold : Bool} (hl : laneItem p 0 = some l) : setHostHold code hold tag p s =
    (s.ok code tag [if s.lanes[l].hostHold = hold then Result.noChange.code else Result.changed.code]).editLane l
      fun ln => { ln with hostHold := hold } := by
  simp only [setHostHold, hl]

/-- A byte of a payload is on exactly if it is not 0 (R179). -/
theorem onOff_of_getElem {off : Nat} {b : Byte} (h : p[off]? = some b) : onOff p off = (b != 0) := by
  rw [onOff, item_one h, Bool.eq_iff_iff, bne_iff_ne, bne_iff_ne]
  exact not_congr ⟨fun e => BitVec.eq_of_toNat_eq e, fun e => e ▸ rfl⟩

/-- The on-bytes of SET_BUSY_ENABLES (R160). -/
theorem busyEnables_read (a coupled : Byte) (b : Vector Byte 7) :
    (Vector.ofFn fun i : Fin 7 => onOff (a :: b.toList ++ [coupled]) (1 + i.val)) = b.map (· != 0) ∧
      onOff (a :: b.toList ++ [coupled]) 8 = (coupled != 0) := by
  constructor
  · ext i hi
    rw [Vector.getElem_ofFn, Vector.getElem_map]
    refine onOff_of_getElem ?_
    simp [Nat.add_comm 1 i, List.getElem?_append, hi]
  · refine onOff_of_getElem ?_
    simp

end Sys2Proof.Machine

namespace Sys2Proof
open Machine

/-- Settles O14. -/
theorem getLaneStatusReplies : Obligations.GetLaneStatusReplies := by
  intro s tag clear l htake
  refine ⟨_, (exec_taken (act := getLaneStatus tag [byte l.val, clear]) rfl htake rfl), ?_⟩
  rw [getLaneStatus_replies (laneItem_byte l _), onOff_second]
  by_cases hz : clear = 0
  · subst hz
    exact ⟨rfl, fun _ => rfl, fun h => absurd rfl h, rfl, rfl, rfl⟩
  · rw [if_pos (bne_iff_ne.mpr hz)]
    refine ⟨rfl, fun h => absurd h hz, fun _ => ?_, rfl, rfl, rfl⟩
    have hlane : ((s.popInput.ok 0x10 tag (s.popInput.laneStatus l)).editLane l Lane.clearTallies).lanes[l] =
        s.lanes[l].clearTallies := by simp
    rw [hlane]
    refine ⟨rfl, rfl, rfl, rfl, fun h => ?_, rfl, rfl, rfl, rfl, rfl, fun k hk => ?_⟩
    · simp [Lane.clearTallies]
    · exact (editLane_frame _ l _).lanes k hk

/-- Settles O15: a geometry is taken exactly where the payload spells it with every item in range
(`geometry_ofPayload_iff`). -/
theorem laneGeometrySetAndRead : Obligations.LaneGeometrySetAndRead := by
  intro s tag l
  refine ⟨fun g hr hs htake => ?encoded, fun p hlen hlane htake => ⟨fun g hg hr hs => ?taken,
    fun g hg hr hs => ?wrongState, fun h => ?badValue⟩, fun htake => ?read⟩
  case encoded =>
    rw [exec_taken (act := setLaneGeometry tag (byte l.val :: g.encode)) rfl htake (by simp [geometry_encode_length]),
      setLaneGeometry_inRange (laneItem_byte l _) (geometry_encode_spells _ hr) hr]
    exact congrArg Host.Outcome.next (if_pos hs)
  case taken =>
    rw [exec_taken (act := setLaneGeometry tag p) rfl htake hlen,
      setLaneGeometry_inRange (laneItem_some hlane) hg hr]
    exact congrArg Host.Outcome.next (if_pos hs)
  case wrongState =>
    rw [exec_taken (act := setLaneGeometry tag p) rfl htake hlen,
      setLaneGeometry_inRange (laneItem_some hlane) hg hr]
    exact congrArg Host.Outcome.next (if_neg hs)
  case badValue =>
    rw [exec_taken (act := setLaneGeometry tag p) rfl htake hlen, setLaneGeometry_outOfRange (laneItem_some hlane) h]
    rfl
  case read =>
    rw [exec_taken (act := getLaneGeometry tag [byte l.val]) rfl htake rfl,
      getLaneGeometry_returns (laneItem_byte l _)]
    rfl

/-- Settles O21: an injection record is taken exactly where the payload spells it with every item in range
(`injectionItem_iff`). -/
theorem injectionStartsAndStops : Obligations.InjectionStartsAndStops := by
  intro s tag l
  refine ⟨fun st first last len count spacing horder hlen hlen' hcount hspacing hspacing' hs htake => ?start,
    fun p hlen hlane htake => ⟨fun h => ?badValue, fun inj hi hr hs => ?wrongState⟩, fun htake => ?stop⟩
  case start =>
    refine (exec_taken (act := injectStart tag _) rfl htake rfl).trans (congrArg Host.Outcome.next ?_)
    exact (injectStart_inRange (s := s.popInput) (laneItem_byte l _)
      (injection_spelled _ st first last s.lanes[l].tb.pmax hlen' hcount hspacing')
      ⟨horder, ⟨hlen, hlen'⟩, hspacing, hspacing'⟩).trans (if_pos hs)
  case badValue =>
    refine (exec_taken (act := injectStart tag p) rfl htake hlen).trans (congrArg Host.Outcome.next ?_)
    exact injectStart_outOfRange (s := s.popInput) (laneItem_some hlane) h
  case wrongState =>
    refine (exec_taken (act := injectStart tag p) rfl htake hlen).trans (congrArg Host.Outcome.next ?_)
    exact (injectStart_inRange (s := s.popInput) (laneItem_some hlane) hi hr).trans (if_neg hs)
  case stop =>
    rw [exec_taken (act := injectStop tag [byte l.val]) rfl htake rfl, injectStop_stops (laneItem_byte l _)]
    rfl

/-- Settles O22: a setup is taken exactly where the payload spells it with every item in range
(`setup_ofPayload_iff`). -/
theorem timebaseSet : Obligations.TimebaseSet := by
  intro s tag l
  refine ⟨fun t hr hs hp htake => ?encoded, fun p hlen hlane htake => ⟨fun h => ?badValue, fun t ht hr => ?taken⟩⟩
  case encoded =>
    rw [exec_taken (act := setTimebase tag (byte l.val :: t.encode)) rfl htake rfl,
      setTimebase_inRange (laneItem_byte l _) (setup_encode_spells _ hr) hr]
    refine congrArg Host.Outcome.next ((if_neg ?_).trans (if_pos hs))
    simpa using hp
  case badValue =>
    rw [exec_taken (act := setTimebase tag p) rfl htake hlen, setTimebase_outOfRange (laneItem_some hlane) h]
    rfl
  case taken =>
    rw [exec_taken (act := setTimebase tag p) rfl htake hlen, setTimebase_inRange (laneItem_some hlane) ht hr]
    refine congrArg Host.Outcome.next ?_
    by_cases hp : s.lanes[l].tb.pendingSwitch = none
    · rw [if_neg (not_not.mpr hp)]
      refine (if_neg (by simpa using hp)).trans ?_
      by_cases hs : s.lanes[l].state = .stopped
      · rw [if_neg (not_not.mpr hs)]
        exact if_pos hs
      · rw [if_pos hs]
        exact if_neg hs
    · rw [if_pos hp]
      exact if_pos (Option.isSome_iff_ne_none.mpr hp)

/-- Settles O23. -/
theorem scaleSet : Obligations.ScaleSet := by
  refine ⟨fun s tag p hlen htake hbad => ?badValue, fun s tag l scale rate hs hs' hr hr' htake => ?inRange⟩
  case badValue =>
    rw [exec_taken (act := setScale tag p) rfl htake hlen, setScale_outOfRange (by omega)]
    rfl
  case inRange =>
    have hscale : item ([byte l.val, byte scale] ++ beBytes 2 rate) 1 1 = scale := by
      simp [item, fromBe]
      omega
    have hrate : item ([byte l.val, byte scale] ++ beBytes 2 rate) 2 2 = rate := by
      simp [item, fromBe, beBytes_two]
      omega
    have hlane : laneItem ([byte l.val, byte scale] ++ beBytes 2 rate) 0 = some l := laneItem_byte l _
    have hrange := setScale_inRange (s := s.popInput) (tag := tag) hlane
      (by rw [hscale, hrate]; exact ⟨⟨hs, hs'⟩, hr, hr'⟩)
    rw [hscale, hrate] at hrange
    rw [exec_taken (act := setScale tag _) rfl htake rfl, hrange]
    refine ⟨fun hp => congrArg Host.Outcome.next (if_pos (Option.isSome_iff_ne_none.mpr hp)),
      fun hp => congrArg Host.Outcome.next ((if_neg (by simpa using hp)).trans ?_)⟩
    exact congrArg ((s.popInput.ok 0x14 tag []).setLane l) (newScale_newRate scale rate s.lanes[l])

/-- Settles O24. -/
theorem sourceSwitchRequested : Obligations.SourceSwitchRequested := by
  intro s tag l
  refine ⟨fun target hs htake => ?switch, fun b htake => ⟨fun hb => ?badValue, fun hb hs => ?wrongState⟩,
    fun htake => ?abort⟩
  case switch =>
    have hcode : target.code = item [byte l.val, if target = .encoder then 0 else 1] 1 1 := by cases target <;> rfl
    rw [exec_taken (act := switchSource tag _) rfl htake rfl, switchSource_inRange (laneItem_byte l _) hcode]
    refine congrArg Host.Outcome.next ((if_pos hs).trans ?_)
    rw [switchReply, requestedSwitch_eq]
    rfl
  case badValue =>
    have hitem : item [byte l.val, b] 1 1 = b.toNat := item_one rfl
    rw [exec_taken (act := switchSource tag _) rfl htake rfl, switchSource_outOfRange (hitem ▸ hb)]
    rfl
  case wrongState =>
    obtain ⟨target, hcode⟩ := source_of_le_one hb
    have hitem : target.code = item [byte l.val, b] 1 1 := hcode.trans (item_one (b := b) rfl).symm
    rw [exec_taken (act := switchSource tag _) rfl htake rfl, switchSource_inRange (laneItem_byte l _) hitem]
    exact congrArg Host.Outcome.next (if_neg hs)
  case abort =>
    rw [exec_taken (act := abortSwitch tag [byte l.val]) rfl htake rfl, abortSwitch_aborts (laneItem_byte l _)]
    rfl

/-- Settles O29: an entry is taken exactly where the payload spells it with every field in range
(`classEntry_ofPayload_iff`). -/
theorem classEntrySetAndRead : Obligations.ClassEntrySetAndRead := by
  intro s tag i
  refine ⟨fun e hr htake => ?encoded, fun p hlen htake => ⟨fun e hi he hr => ?taken, fun h => ?badValue⟩,
    fun b hb htake => ?noEntry, fun htake => ?read⟩
  case encoded =>
    rw [exec_taken (act := setClassEntry tag (byte i.val :: e.encode)) rfl htake
      (by simp [classEntry_encode_length]), setClassEntry_inRange (entryItem_byte i _) (classEntry_encode_spells _ hr) hr]
    rfl
  case taken =>
    rw [exec_taken (act := setClassEntry tag p) rfl htake hlen, setClassEntry_inRange (entryItem_some hi) he hr]
    rfl
  case badValue =>
    have hnone : entryItem p 0 = none ∨ ClassEntry.ofPayload? p = none :=
      h.imp entryItem_high (none_of_not_spelled (classEntry_ofPayload_iff p))
    rw [exec_taken (act := setClassEntry tag p) rfl htake hlen, setClassEntry_outOfRange hnone]
    rfl
  case noEntry =>
    have hitem : item [b] 0 1 = b.toNat := item_one rfl
    rw [exec_taken (act := getClassEntry tag [b]) rfl htake rfl, getClassEntry_refused (entryItem_high (hitem ▸ hb))]
    rfl
  case read =>
    rw [exec_taken (act := getClassEntry tag [byte i.val]) rfl htake rfl, getClassEntry_returns (entryItem_byte i _)]
    rfl

/-- Settles O31: a station configuration is taken exactly where the payload spells it with every item in range
(`stationConfig_ofPayload_iff`). -/
theorem stationSetAndRead : Obligations.StationSetAndRead := by
  intro s tag l st
  refine ⟨fun c hr htake => ?encoded, fun p hlen hlane hst htake => ⟨fun c hc hr => ?taken, fun h => ?badValue⟩,
    fun htake => ?read⟩
  case encoded =>
    refine (exec_taken (act := setStation tag _) rfl htake
      (by rw [List.length_append, stationRules_length]; rfl)).trans (congrArg Host.Outcome.next ?_)
    exact setStation_inRange (s := s.popInput) (laneItem_byte l _) (stationItem_byte _ st _)
      (stationConfig_encode_spells _ _ hr) hr
  case taken =>
    rw [exec_taken (act := setStation tag p) rfl htake hlen,
      setStation_inRange (laneItem_some hlane) (stationItem_some hst) hc hr]
    rfl
  case badValue =>
    rw [exec_taken (act := setStation tag p) rfl htake hlen,
      setStation_outOfRange (laneItem_some hlane) (stationItem_some hst) h]
    rfl
  case read =>
    rw [exec_taken (act := getStationStatus tag _) rfl htake rfl,
      getStationStatus_returns (laneItem_byte l _) (stationItem_byte _ st _)]
    rfl

/-- Settles O40. -/
theorem fieldItemsSet : Obligations.FieldItemsSet := by
  refine ⟨fun s tag l => ⟨fun m p f htake => ?policy, fun m p f hbad htake => ?badPolicy,
    fun b coupled htake => ?busy⟩, fun s tag l => ⟨fun htake => ?hold, fun htake => ?release⟩⟩
  case policy =>
    rw [exec_taken (act := setChutePolicy tag _) rfl htake rfl,
      setChutePolicy_takes (laneItem_byte l _) (policiesItem_some _ m p f)]
    rfl
  case badPolicy =>
    rw [exec_taken (act := setChutePolicy tag _) rfl htake rfl, setChutePolicy_refused (policiesItem_none _ hbad)]
    rfl
  case busy =>
    obtain ⟨henables, hcoupled⟩ := busyEnables_read (byte l.val) coupled b
    have hlane : laneItem (byte l.val :: b.toList ++ [coupled]) 0 = some l := laneItem_byte l _
    have htakes := setBusyEnables_takes (s := s.popInput) (tag := tag) hlane
    rw [exec_taken (act := setBusyEnables tag _) rfl htake (by simp), htakes, henables, hcoupled]
    rfl
  case hold =>
    rw [exec_taken (act := setHostHold 0x44 true tag [byte l.val]) rfl htake rfl,
      setHostHold_takes (laneItem_byte l _)]
    rfl
  case release =>
    have hcode (b : Bool) : (if b = false then Result.noChange.code else Result.changed.code) =
        (if b then 10 else 0) := by
      cases b
      · rfl
      · rfl
    rw [exec_taken (act := setHostHold 0x45 false tag [byte l.val]) rfl htake rfl,
      setHostHold_takes (laneItem_byte l _), hcode]
    rfl

end Sys2Proof
end

section
/-! The trace, the events, the lots' readings, the feed holds, the ports and the clock: O34, O36, O38, O42, O46, O48,
O49, O54, O56 and O58. -/

namespace Sys2Proof.Machine

variable {s : State} {tag : Byte} {p : List Byte} {l : LaneId}

/-! ## The trace (R170) -/

theorem readTrace_inRange {n : Byte} (h : 1 ≤ n.toNat) (h' : n.toNat ≤ 12) :
    readTrace tag [n] s = { s.ok 0x50 tag (s.traceItems n.toNat) with trace := s.trace.drop n.toNat } := by
  have hitem : item [n] 0 1 = n.toNat := item_one rfl
  unfold readTrace
  rw [hitem]
  exact if_neg (by unfold readLimit; omega)

theorem readTrace_outOfRange {n : Byte} (h : n.toNat = 0 ∨ 12 < n.toNat) :
    readTrace tag [n] s = s.refuse 0x50 tag .badValue := by
  have hitem : item [n] 0 1 = n.toNat := item_one rfl
  unfold readTrace
  rw [hitem]
  exact if_pos h

theorem traceItems_eq (s : State) (n : Nat) : s.traceItems n =
    [byte (min n s.trace.length)] ++ (s.trace.take n).flatMap TraceEntry.encode ++ beBytes 2 (s.trace.length - n) := by
  rw [State.traceItems, beBytes_one, List.length_take, List.length_drop]

/-! ## Event flags and notices (R171, R172, R174) -/

theorem flagsExist_iff (p : List Byte) : flagsExist p = true ↔ ∀ l : LaneId, item p l.val 1 ≤ 31 := by
  rw [flagsExist, List.all_eq_true]
  constructor
  · intro h l
    have hl := h l.val (List.mem_range.mpr l.isLt)
    rw [decide_eq_true_eq] at hl
    omega
  · intro h i hi
    have hl := h ⟨i, List.mem_range.mp hi⟩
    dsimp only at hl
    rw [decide_eq_true_eq]
    omega

/-- The bytes of CLEAR_EVENTS (R172). -/
theorem clearItems_read (f : Vector (BitVec 5) 4) (d : Byte) :
    (∀ l : LaneId, item ((f.toList.map fun x => byte x.toNat) ++ [d]) l.val 1 = f[l].toNat) ∧
      item ((f.toList.map fun x => byte x.toNat) ++ [d]) 4 1 = d.toNat := by
  have hbyte (x : BitVec 5) : (byte x.toNat).toNat = x.toNat := by
    have hx := x.isLt
    rw [byte_toNat]
    omega
  constructor
  · intro l
    rw [← hbyte]
    refine item_one ?_
    simp [List.getElem?_append]
  · refine item_one ?_
    simp

/-! ## The status notice (R175) -/

theorem setStatusPeriod_eq {period : Nat} (h : item p 0 2 = period) : setStatusPeriod tag p s =
    if (1 ≤ period ∧ period ≤ 9) ∨ 60000 < period then s.refuse 0x55 tag .badValue
    else { (s.ok 0x55 tag []).withDevice fun d => { d with statusPeriod := period } with
      statusDue := dueAfter s.lineTime period } := by
  subst h
  rfl

theorem exec_statusDue (hphase : s.phase = .working) (hdue : s.statusDue = some s.lineTime) :
    exec .statusDue s = .next s.sendStatus := by
  refine congrArg Host.Outcome.next (if_pos ?_)
  have hat : atOrBehind s.lineTime s.lineTime = true := by simp [atOrBehind]
  simp [State.statusIsDue, works_of_working hphase, hdue, hat]

/-! ## Readings of the lots (R135, R143, R145, R146) -/

theorem setLotLimit_takes (hl : laneItem p 0 = some l) :
    setLotLimit tag p s = (s.ok 0x31 tag []).editLane l (Lane.newLimit (item p 1 3)) := by
  simp only [setLotLimit, hl]

theorem newLimit_eq (limit : Nat) (ln : Lane) : ln.newLimit limit = { ln with
    cfg := { ln.cfg with lotLimit := limit }
    lots := { ln.lots with
      pendingClose := if limit = 0 ∨ ahead ln.lots.filling.formed (BitVec.ofNat 32 limit) = true then false
        else ln.lots.pendingClose } } := by
  have hmark (b c : Bool) : (b && limit != 0 && !c) = (if limit = 0 ∨ c = true then false else b) := by
    by_cases hz : limit = 0
    · simp [hz]
    · cases c
      · simp [hz]
      · simp
  rw [Lane.newLimit, hmark]

theorem getLotResult_found {r : LotRecord} (hl : laneItem p 0 = some l)
    (hr : s.lanes[l].lots.result (BitVec.ofNat 16 (item p 1 2)) = some r) :
    getLotResult tag p s = s.ok 0x33 tag r.encode := by
  simp only [getLotResult, hl, hr]

theorem getLotResult_missing (hl : laneItem p 0 = some l)
    (hr : s.lanes[l].lots.result (BitVec.ofNat 16 (item p 1 2)) = none) :
    getLotResult tag p s = s.refuse 0x33 tag .notFound := by
  simp only [getLotResult, hl, hr]

/-- The newest record of the ring with an id (R145). -/
theorem result_newest {u : LotUnit} {older newer : List LotRecord} {r : LotRecord}
    (hring : u.ring = older ++ r :: newer) (hnewer : ∀ x ∈ newer, x.id ≠ r.id) : u.result r.id = some r := by
  have hnone : newer.reverse.find? (·.id == r.id) = none :=
    List.find?_eq_none.mpr fun x hx => by simpa using hnewer x (List.mem_reverse.mp hx)
  rw [LotUnit.result, hring, List.reverse_append, List.reverse_cons, List.append_assoc, List.find?_append, hnone]
  simp

theorem result_none {u : LotUnit} {id : LotId} (h : ∀ x ∈ u.ring, x.id ≠ id) : u.result id = none :=
  List.find?_eq_none.mpr fun x hx => by simpa using h x (List.mem_reverse.mp hx)

theorem item_lotId (b : Byte) (id : LotId) : BitVec.ofNat 16 (item (b :: beBytes 2 id.toNat) 1 2) = id := by
  have hitem : item (b :: beBytes 2 id.toNat) 1 2 = id.toNat := by
    have hid := id.isLt
    simp [item, fromBe, beBytes_two]
    omega
  rw [hitem, BitVec.ofNat_toNat, BitVec.setWidth_eq]

theorem getLotProgress_returns {draining : Bool} (hl : laneItem p 0 = some l)
    (hd : item p 1 1 = if draining then 1 else 0) :
    getLotProgress tag p s = s.ok 0x32 tag (s.lanes[l].lotProgress draining) := by
  unfold getLotProgress
  rw [hl, hd]
  cases draining
  · rfl
  · rfl

theorem getLotProgress_refused (h : 1 < item p 1 1) : getLotProgress tag p s = s.refuse 0x32 tag .badValue := by
  unfold getLotProgress
  split
  next hd => omega
  next hd => omega
  next => rfl

/-! ## The feed holds (R160, R162, R163) -/

theorem any_seven {v : Vector Bool 7} : v.toList.any id = true ↔ v[0] = true ∨ v[1] = true ∨ v[2] = true ∨
    v[3] = true ∨ v[4] = true ∨ v[5] = true ∨ v[6] = true := by
  rw [List.any_eq_true]
  simp only [Vector.mem_toList_iff, Vector.mem_iff_getElem, id]
  constructor
  · rintro ⟨_, ⟨i, hi, rfl⟩, hx⟩
    interval_cases i
    all_goals simp [hx]
  · rintro (h | h | h | h | h | h | h)
    · exact ⟨_, ⟨0, by omega, rfl⟩, h⟩
    · exact ⟨_, ⟨1, by omega, rfl⟩, h⟩
    · exact ⟨_, ⟨2, by omega, rfl⟩, h⟩
    · exact ⟨_, ⟨3, by omega, rfl⟩, h⟩
    · exact ⟨_, ⟨4, by omega, rfl⟩, h⟩
    · exact ⟨_, ⟨5, by omega, rfl⟩, h⟩
    · exact ⟨_, ⟨6, by omega, rfl⟩, h⟩

/-! ## The clock (R138) -/

theorem runMs_eq (hold : Bool) (ln : Lane) : ln.runMs hold = if ln.state = .running then
      { ln with lots := { ln.lots with filling := { ln.lots.filling with
        holdMs := ln.lots.filling.holdMs + (if hold then 1 else 0)
        liveMs := ln.lots.filling.liveMs + (if hold then 0 else 1) } } }
    else ln := by
  unfold Lane.runMs LotUnit.accrueTime
  cases hold
  · simp
  · simp

/-! ## The valves (R96) -/

theorem mayOpen_of_forbidden {ln : Lane} {air : Bool}
    (h : air = false ∨ ln.reversing = true ∨ (ln.state ≠ .running ∧ ln.state ≠ .draining)) :
    ln.mayOpen air = false := by
  rcases h with h | h | ⟨hrun, hdrain⟩
  · simp [Lane.mayOpen, h]
  · simp [Lane.mayOpen, h]
  · simp [Lane.mayOpen, Lane.active, hrun, hdrain]

theorem openAt_bit (q : Parcel) (st : StationId) (c : Nat) : (q.openAt st).getLsbD c = true ↔
    ∃ aim shot, q.phase = .firing aim shot ∧ aim.station = st ∧ shot.columns.getLsbD c = true := by
  unfold Parcel.openAt
  split
  next aim shot hphase =>
    constructor
    · intro h
      split at h
      next hst => exact ⟨aim, shot, hphase, hst, h⟩
      next => simp at h
    · rintro ⟨aim', shot', heq, hst, hbit⟩
      injection hphase.symm.trans heq with haim hshot
      subst haim hshot
      rw [if_pos hst]
      exact hbit
  next hno =>
    constructor
    · intro h
      simp at h
    · rintro ⟨aim, shot, heq, -⟩
      exact absurd heq (hno aim shot)

/-- The open-column set is the union over the FIRING parcels (R96). -/
theorem openSet_bit (ln : Lane) (st : StationId) (c : Nat) :
    (ln.openSet st).getLsbD c = true ↔ ∃ q ∈ ln.queue, (q.openAt st).getLsbD c = true := by
  have key (qs : List Parcel) (acc : Columns) :
      (qs.foldl (fun acc q => acc ||| q.openAt st) acc).getLsbD c = true ↔
        acc.getLsbD c = true ∨ ∃ q ∈ qs, (q.openAt st).getLsbD c = true := by
    induction qs generalizing acc with
    | nil => simp
    | cons q qs ih =>
      rw [List.foldl_cons, ih, BitVec.getLsbD_or, Bool.or_eq_true, or_assoc, List.exists_mem_cons_iff]
  rw [Lane.openSet, key]
  simp

/-- The port after the frame on its line has finished (R112). -/
theorem port_finish (lane : LaneId) (st : StationId) (set : Columns) (port : Port) : port.finish lane st set =
    if port.waiting = true ∧ set ≠ port.lastSent
    then ⟨set, port.sequence + 1, some (valveFrame lane st (port.sequence + 1) set), false⟩
    else ⟨port.lastSent, port.sequence, none, false⟩ := by
  unfold Port.finish
  dsimp only
  by_cases h : port.waiting = true ∧ set ≠ port.lastSent
  · rw [if_pos h, if_pos (by rw [Bool.and_eq_true, bne_iff_ne]; exact h)]
    rfl
  · rw [if_neg h, if_neg (by rw [Bool.and_eq_true, bne_iff_ne]; exact h)]

theorem portFinishes_eq {ln : Lane} {st : StationId} (env : LaneEnv)
    (h : ln.stations[st].port.sending.isSome = true) : portFinishes st env ln = { ln with
      stations := ln.stations.set st { ln.stations[st] with
        port := ln.stations[st].port.finish env.id st (ln.openSet st) } } := by
  unfold portFinishes Lane.modStation
  dsimp only
  rw [if_pos h]

/-! ## The state after reset -/

theorem factory_limited : Image.factory.limited := by
  unfold Image.limited
  decide

theorem factoryLane_limited : LaneConfig.factory.geometry.reverseLimit ≤ maxReverseLimit := by decide

theorem powerOnLane_good (l : LaneId) (air : Bool) :
    ((Lane.powerOn l .factory (false, false)).sendStartUpFrames l).Good air := by
  have horderly : ((Lane.powerOn l .factory (false, false)).sendStartUpFrames l).orderly :=
    ⟨fun _ => ⟨rfl, rfl⟩, fun _ => ⟨rfl, rfl, rfl⟩, factoryLane_limited⟩
  exact horderly.good rfl air

end Sys2Proof.Machine

namespace Sys2Proof
open Machine

/-- Settles O38: a queue within its bound leaves a serial free (`freshSerial_not_mem`). -/
theorem serialHandedOutIsFree : Obligations.SerialHandedOutIsFree := by
  intro ln hlen p hp heq
  have hfree := freshSerial_not_mem (ln.queue.map (·.serial)) ln.queue.length ln.nextSerial (by simp) (by omega)
  exact hfree (List.mem_map.mpr ⟨p, hp, heq⟩)

/-- Settles O46. -/
theorem traceReadAndCleared : Obligations.TraceReadAndCleared := by
  intro s tag n
  refine ⟨fun h h' htake => ?read, fun h htake => ?badValue, fun htake => ?clear⟩
  case read =>
    rw [exec_taken (act := readTrace tag [n]) rfl htake rfl, readTrace_inRange h h', traceItems_eq]
    rfl
  case badValue =>
    rw [exec_taken (act := readTrace tag [n]) rfl htake rfl, readTrace_outOfRange h]
    rfl
  case clear => exact exec_taken (act := clearTrace tag [n]) rfl htake rfl

/-- Settles O48. -/
theorem eventRequestsTaken : Obligations.EventRequestsTaken := by
  intro s tag
  refine ⟨fun e kind lane? particulars hrow => ?raises, fun b htake => ?read, fun f d htake => ?clear,
    fun p hlen htake hbad => ?badValue, fun e htake => ?notices⟩
  case raises =>
    rw [row_eq] at hrow
    injection hrow with hkind hrest
    injection hrest with hlane hparticulars
    subst hkind hlane hparticulars
    exact raise_raises s e
  case read => exact exec_taken (act := getEvents tag [b]) rfl htake rfl
  case clear =>
    obtain ⟨hlanes, hdevice⟩ := clearItems_read f d
    have hexist : flagsExist ((f.toList.map fun x => byte x.toNat) ++ [d]) = true :=
      (flagsExist_iff _).mpr fun l => by
        have hl := f[l].isLt
        rw [hlanes l]
        omega
    rw [exec_taken (act := clearEvents tag _) rfl htake (by simp)]
    refine congrArg Host.Outcome.next ((if_pos hexist).trans ?_)
    simp only [State.clearFlags, hlanes, hdevice, BitVec.ofNat_toNat, BitVec.setWidth_eq]
    rfl
  case badValue =>
    obtain ⟨l, hl⟩ := hbad
    have hexist : ¬ flagsExist p = true := fun h => absurd ((flagsExist_iff p).mp h l) (by omega)
    rw [exec_taken (act := clearEvents tag p) rfl htake hlen]
    exact congrArg Host.Outcome.next (if_neg hexist)
  case notices =>
    have henables : (Vector.ofFn fun i : Fin 13 => onOff e.toList i.val) = e.map (· != 0) := by
      ext i hi
      rw [Vector.getElem_ofFn, Vector.getElem_map]
      exact onOff_of_getElem (by simp [hi])
    rw [exec_taken (act := setNotices tag e.toList) rfl htake (by simp), setNotices, henables]
    rfl

/-- Settles O49. -/
theorem statusPeriodAndNotice : Obligations.StatusPeriodAndNotice := by
  intro s
  refine ⟨fun tag period hp htake => ?set, fun hphase hdue => ?due⟩
  case set =>
    have hitem : item (beBytes 2 period) 0 2 = period := by
      simp [item, fromBe, beBytes_two]
      omega
    rw [exec_taken (act := setStatusPeriod tag (beBytes 2 period)) rfl htake rfl, setStatusPeriod_eq hitem]
    rfl
  case due =>
    rw [exec_statusDue hphase hdue, State.sendStatus, hdue]
    by_cases hroom : s.link.notices < 24
    · rw [offerNotice_room _ hroom, if_pos hroom]
      rfl
    · rw [offerNotice_full _ (by omega), if_neg hroom]
      rfl

/-- Settles O36. -/
theorem lotLimitSetAndLotsRead : Obligations.LotLimitSetAndLotsRead := by
  refine ⟨fun s tag l limit hlimit htake => ?set, fun s tag l => ⟨fun id htake => ⟨fun older newer r hring hid hnewer =>
    ?found, fun hnone => ?missing⟩, fun b hb htake => ?badChoice, fun draining htake => ?progress⟩⟩
  case set =>
    have hitem : item (byte l.val :: beBytes 3 limit) 1 3 = limit := by
      simp [item, fromBe, beBytes_three]
      omega
    rw [exec_taken (act := setLotLimit tag _) rfl htake rfl, setLotLimit_takes (laneItem_byte l _), hitem]
    exact congrArg (fun ln => Host.Outcome.next ((s.popInput.ok 0x31 tag []).setLane l ln))
      (newLimit_eq limit s.lanes[l])
  case found =>
    subst hid
    have hfound : s.lanes[l].lots.result (BitVec.ofNat 16 (item (byte l.val :: beBytes 2 r.id.toNat) 1 2)) = some r := by
      rw [item_lotId]
      exact result_newest hring hnewer
    refine (exec_taken (act := getLotResult tag _) rfl htake rfl).trans (congrArg Host.Outcome.next ?_)
    exact getLotResult_found (s := s.popInput) (laneItem_byte l _) hfound
  case missing =>
    have hmissing : s.lanes[l].lots.result (BitVec.ofNat 16 (item (byte l.val :: beBytes 2 id.toNat) 1 2)) = none := by
      rw [item_lotId]
      exact result_none hnone
    refine (exec_taken (act := getLotResult tag _) rfl htake rfl).trans (congrArg Host.Outcome.next ?_)
    exact getLotResult_missing (s := s.popInput) (laneItem_byte l _) hmissing
  case badChoice =>
    have hitem : item [byte l.val, b] 1 1 = b.toNat := item_one rfl
    rw [exec_taken (act := getLotProgress tag _) rfl htake rfl, getLotProgress_refused (hitem ▸ hb)]
    rfl
  case progress =>
    have hitem : item [byte l.val, if draining then 1 else 0] 1 1 = if draining then 1 else 0 := by
      cases draining
      · rfl
      · rfl
    rw [exec_taken (act := getLotProgress tag _) rfl htake rfl, getLotProgress_returns (laneItem_byte l _) hitem]
    rfl

/-- Settles O42. -/
theorem feedHoldOutputs : Obligations.FeedHoldOutputs := by
  intro s
  refine ⟨fun hphase => ⟨fun l => ?lane, ?mill⟩, fun hdown => ?down⟩
  case lane =>
    rw [State.feedHold, hphase]
    dsimp only
    rw [Bool.or_eq_true, bne_iff_ne, any_seven]
    simp [State.busyActive, State.busyConditions, State.chuteBusy, exists_three]
    refine or_congr Iff.rfl ?_
    rw [or_assoc, or_assoc]
    exact or_congr and_comm (or_congr and_comm (or_congr and_comm (or_congr and_comm (or_congr and_comm
      (or_congr and_comm and_comm)))))
  case mill =>
    rw [State.millFeedHold, hphase]
    simp [State.plantStop, or_assoc]
  case down =>
    rcases hdown with h | h | ⟨cause, h⟩
    · exact ⟨millFeedHold_of_down (.inl h), feedHold_of_down (.inl h)⟩
    · exact ⟨by simp [State.millFeedHold, h], fun l => by simp [State.feedHold, h]⟩
    · exact ⟨millFeedHold_of_down (.inr ⟨cause, h⟩), feedHold_of_down (.inr ⟨cause, h⟩)⟩

/-- Settles O54. -/
theorem lotTimeAccrues : Obligations.LotTimeAccrues := by
  intro s hphase hmicros
  have hdue : (s.live && s.micros == microsPerMs) = true := by
    rw [live_of_working hphase, hmicros]
    rfl
  refine congrArg Host.Outcome.next ((if_pos hdue).trans ?_)
  simp only [State.passMs, runMs_eq]

/-- Settles O56. -/
theorem resetIsBoundedAndSafe : Obligations.ResetIsBoundedAndSafe := by
  have hlane (l : LaneId) : State.reset.lanes[l] =
      (Lane.powerOn l .factory (false, false)).sendStartUpFrames l := by simp [State.reset]
  refine ⟨⟨by decide, ⟨by decide, by decide, by decide⟩, fun l => ?_⟩,
    ⟨factory_limited, fun _ h => nomatch h⟩, fun l => ?_, fun _ l => ?_, fun l h => ?_⟩
  · rw [hlane]
    exact sendStartUpFrames_bounded (powerOn_bounded ..)
  · rw [hlane]
    exact (powerOnLane_good l true).1
  · rw [hlane]
    exact (powerOnLane_good l _).2
  · exact absurd (by simp [State.reset]) h

/-- Settles O58: a lane that may not open fires nothing, so its sets are empty. -/
theorem noColumnOpenWhenForbidden : Obligations.NoColumnOpenWhenForbidden := by
  intro s l st hsafe hlive hforbidden
  obtain ⟨-, -, hlanes, -⟩ := hsafe
  refine openSet_of_noFire (hlanes hlive l ?_) st
  exact mayOpen_of_forbidden hforbidden

/-- Settles O34. -/
theorem valveBarFrameFinishes : Obligations.ValveBarFrameFinishes := by
  refine ⟨fun ln st c => ?union, fun s l st hphase hsending => ?finish⟩
  case union =>
    rw [openSet_bit]
    simp only [openAt_bit]
  case finish =>
    refine congrArg Host.Outcome.next ((if_pos (works_of_working hphase)).trans ?_)
    have hports := portFinishes_eq (s.env l) (Option.isSome_iff_ne_none.mpr hsending)
    rw [port_finish] at hports
    exact congrArg (s.setLane l) hports

end Sys2Proof
end

section
/-! What the links receive (R49 to R55, R180, R181): O7, O50, O51, O53. -/

namespace Sys2Proof.Machine

/-! ## One byte at an assembler (R49, R180) -/

/-- A byte without its stop bit abandons the frame it stands in. -/
theorem take_noStop {fmt : FrameFormat} {a : Assembler} (now : Time) (b : Byte) (ha : a.phase ≠ .hunt) :
    a.take fmt now ⟨b, false⟩ = (.hunting, .abandoned) := by
  rw [Assembler.take, if_neg ha]
  split
  · rfl
  · rfl

/-- In HUNT a byte that is no marker, or has no stop bit, changes nothing. -/
theorem take_hunting_other {fmt : FrameFormat} {b : LineByte} (now : Time)
    (hb : b.data ≠ fmt.marker ∨ b.stopBit = false) :
    Assembler.hunting.take fmt now b = (.hunting, .underway) := by
  have hmarker : (b.stopBit && b.data == fmt.marker) = false := by
    rcases hb with hb | hb <;> simp [hb]
  rw [Assembler.take, if_pos (show Assembler.hunting.phase = .hunt from rfl), Assembler.hunt, hmarker]
  rfl

theorem take_hunting_marker (fmt : FrameFormat) (now : Time) :
    Assembler.hunting.take fmt now ⟨fmt.marker, true⟩ = (⟨.length, [], some now⟩, .underway) := by
  rw [Assembler.take, if_pos (show Assembler.hunting.phase = .hunt from rfl), Assembler.hunt, if_pos (by simp)]

/-- A length byte that the format does not allow abandons the frame. -/
theorem take_badLength {fmt : FrameFormat} (now : Time) {n : Byte} (hn : fmt.allowed n.toNat = false) :
    (⟨.length, [], some now⟩ : Assembler).take fmt now ⟨n, true⟩ = (.hunting, .abandoned) := by
  rw [take_now _ _ _ _ _ (by decide)]
  simp [Assembler.collect, hn]

theorem gapDue_of_lastByte {a : Assembler} {since now : Time} {gap : Nat} (ha : a.lastByte = some since)
    (hgap : gap < (now - since).toNat) : a.gapDue gap now = true := by
  rw [Assembler.gapDue, ha]
  exact decide_eq_true hgap

/-! ## The plant link (R180, R181) -/

/-- The interface after a bad frame: counted, the assembler in HUNT. -/
def Link.afterBadFrame (k : Link) : Link := { k with asm := .hunting, badFrames := holdInc k.badFrames }

theorem afterBadFrame_of_hunting {k : Link} (hk : k.asm = .hunting) :
    k.afterBadFrame = { k with badFrames := holdInc k.badFrames } := by
  rw [Link.afterBadFrame, ← hk]

theorem receive_underway {k : Link} {now : Time} {b : LineByte} {a : Assembler}
    (h : k.asm.take plantFormat now b = (a, .underway)) : k.receive now b = { k with asm := a } := by
  rw [Link.receive, h]
  rfl

theorem receive_abandoned {k : Link} {now : Time} {b : LineByte}
    (h : k.asm.take plantFormat now b = (.hunting, .abandoned)) : k.receive now b = k.afterBadFrame := by
  rw [Link.receive, h]
  rfl

theorem receiveAll_badLength {k : Link} (now : Time) {n : Byte} (hk : k.asm = .hunting)
    (hn : n.toNat < 3 ∨ 250 < n.toNat) : k.receiveAll now (onLine [plantMarker, n]) = k.afterBadFrame := by
  have hallowed : plantFormat.allowed n.toNat = false := by
    simp [plantFormat]
    omega
  have hmarker : k.receive now ⟨plantMarker, true⟩ = { k with asm := ⟨.length, [], some now⟩ } :=
    receive_underway (hk ▸ take_hunting_marker plantFormat now)
  show Link.receive now (k.receive now ⟨plantMarker, true⟩) ⟨n, true⟩ = _
  rw [hmarker]
  exact receive_abandoned (take_badLength now hallowed)

theorem exec_plantLinkFrame {s : State} (hw : s.phase = .working) (bytes : List LineByte) :
    exec (.plantLinkFrame bytes) s = .next { s with link := s.link.receiveAll s.lineTime bytes } :=
  congrArg Host.Outcome.next (if_pos (works_of_working hw))

theorem offer_fields (r : Request) (k : Link) :
    k.offer r = { k with
      input := if k.input.length < 4 then k.input ++ [r] else k.input
      discarded := if k.input.length < 4 then k.discarded else holdInc k.discarded } := by
  unfold Link.offer
  split <;> rfl

theorem plantLinkFrame_request {s : State} {r : Request} (hw : s.phase = .working) (hk : s.link.asm = .hunting)
    (hr : payloadWf r.payload = true) :
    exec (.plantLinkFrame (onLine (requestBytes r))) s = .next { s with
      link := Link.offer r { s.link with goodFrames := holdInc s.link.goodFrames } } := by
  simp only [payloadWf, Bool.and_eq_true, decide_eq_true_eq] at hr
  rw [exec_plantLinkFrame hw, requestBytes, receiveAll_frame _ _ _ hk]
  · rfl
  · simp only [List.length_cons]
    omega
  · simp only [List.length_cons]
    omega

/-! ## A discard at a receiver (R53) -/

/-- A step that leaves the queue as it is and reports one event changes, around what its blocks do, the monitor
alone. -/
theorem laneStep_event {f : LaneEnv → Lane → LaneOut} {env : LaneEnv} {ln x : Lane} {e : Event}
    (h : f env ln = ⟨x, [.event e]⟩) (hq : x.queue = ln.queue) :
    laneStep f env ln = ⟨x.syncMonitor env, [.event e]⟩ := by
  have hlane := laneStep_lane_of_same_queue (f := f) (env := env) (ln := ln) (by rw [h]; exact hq)
  have hdrain : drainIfEmpty env ln x = x.quiet :=
    if_neg fun hd => hd.2.1 (hq ▸ hd.2.2)
  have heffects : (laneStep f env ln).effects = [.event e] := by
    show inQueueOrder ((f env ln).andThen (drainIfEmpty env ln)).effects = _
    rw [h, LaneOut.andThen]
    dsimp only
    rw [hdrain, quiet_effects, List.append_nil, inQueueOrder_single]
  calc laneStep f env ln = ⟨(laneStep f env ln).lane, (laneStep f env ln).effects⟩ := rfl
    _ = ⟨(f env ln).lane.syncMonitor env, [.event e]⟩ := by rw [hlane, heffects]
    _ = ⟨x.syncMonitor env, [.event e]⟩ := by rw [h]

theorem setLane_raise (s : State) (l : LaneId) (ln : Lane) (e : Event) :
    (s.setLane l ln).raise e = (s.raise e).setLane l ln := by
  have hflag : (s.setLane l ln).setFlag e = (s.setFlag e).setLane l ln := by
    unfold State.setFlag
    split <;> rfl
  have hoffer (f : Frame) : ((s.setFlag e).setLane l ln).offerNotice f =
      ((s.setFlag e).offerNotice f).setLane l ln := by
    unfold State.offerNotice
    rw [apply_ite (State.setLane · l ln)]
    rfl
  unfold State.raise
  dsimp only
  rw [hflag, hoffer, apply_ite (State.setLane · l ln)]
  rfl

/-- What a discarded record does at a receiver, and what it leaves alone (R53). -/
structure State.DiscardsRecord (s : State) (l : LaneId) (h : HeadId) (cause : LinkCause) (t : State) : Prop where
  receiver : t.lanes[l].receivers[h] = { s.lanes[l].receivers[h] with
    asm := .hunting, errors := holdInc s.lanes[l].receivers[h].errors }
  flag : t.laneFlag l 4 = true
  output : t.link.output = (s.raise (.headLinkError l h cause)).link.output
  queue : t.lanes[l].queue = s.lanes[l].queue
  lots : t.lanes[l].lots = s.lanes[l].lots
  cfg : t.lanes[l].cfg = s.lanes[l].cfg
  discarded : t.lanes[l].discarded = s.lanes[l].discarded
  testTally : t.lanes[l].testTally = s.lanes[l].testTally
  position : t.lanes[l].tb.p = s.lanes[l].tb.p
  trace : t.trace = s.trace
  frame : s.LaneFrame l t

/-- The receiver's assembler back in HUNT. -/
def Lane.huntAt (h : HeadId) (ln : Lane) : Lane := ln.modReceiver h fun r => { r with asm := .hunting }

theorem stepLane_discardsRecord {s : State} {l : LaneId} {h : HeadId} {cause : LinkCause}
    {f : LaneEnv → Lane → LaneOut}
    (hf : f (s.env l) s.lanes[l] = discardRecord h cause (s.env l) (s.lanes[l].huntAt h)) :
    s.DiscardsRecord l h cause (s.stepLane l f) := by
  have hstep := stepLane_of_event (laneStep_event hf rfl)
  have hlane : (s.stepLane l f).lanes[l] = _ :=
    (stepLane_lane s l f).trans (congrArg LaneOut.lane (laneStep_event hf rfl))
  have hraised : s.stepLane l f = (s.raise (.headLinkError l h cause)).setLane l _ := hstep.trans (setLane_raise ..)
  refine ⟨?_, ?_, ?_, ?_, ?_, ?_, ?_, ?_, ?_, ?_, stepLane_frame s l f⟩
  · rw [hlane]
    simp [Lane.syncMonitor, Lane.huntAt, modReceiver_modReceiver]
  · rw [State.stepLane, State.onLane, laneStep_event hf rfl]
    exact commit_laneFlag _ l _ _ rfl (List.mem_singleton_self _)
  · rw [hraised, State.setLane_link]
  · rw [hlane]; rfl
  · rw [hlane]; rfl
  · rw [hlane]; rfl
  · rw [hlane]; rfl
  · rw [hlane]; rfl
  · rw [hlane]; rfl
  · rw [hstep, State.raise_trace]; rfl

/-- The fields of a discard that the statements about rejected frames name. -/
theorem State.DiscardsRecord.frameRejected {s t : State} {l : LaneId} {h : HeadId} {cause : LinkCause}
    (hd : s.DiscardsRecord l h cause t) :
    t.lanes[l].receivers[h] = { s.lanes[l].receivers[h] with
        asm := .hunting, errors := holdInc s.lanes[l].receivers[h].errors } ∧
      t.laneFlag l 4 = true ∧ t.link.output = (s.raise (.headLinkError l h cause)).link.output ∧
      t.lanes[l].queue = s.lanes[l].queue ∧ t.lanes[l].lots = s.lanes[l].lots ∧
      t.lanes[l].discarded = s.lanes[l].discarded ∧ t.lanes[l].testTally = s.lanes[l].testTally ∧
      t.trace = s.trace ∧ s.LaneFrame l t :=
  ⟨hd.receiver, hd.flag, hd.output, hd.queue, hd.lots, hd.discarded, hd.testTally, hd.trace, hd.frame⟩

theorem State.DiscardsRecord.receiver_of_hunting {s t : State} {l : LaneId} {h : HeadId} {cause : LinkCause}
    (hd : s.DiscardsRecord l h cause t) (ha : s.lanes[l].receivers[h].asm = .hunting) :
    t.lanes[l].receivers[h] =
      { s.lanes[l].receivers[h] with errors := holdInc s.lanes[l].receivers[h].errors } := by
  rw [hd.receiver, ← ha]

/-- A receiver in HUNT stands there already. -/
theorem huntAt_of_hunting {ln : Lane} {h : HeadId} (ha : ln.receivers[h].asm = .hunting) : ln.huntAt h = ln :=
  modReceiver_same ln h .hunting ha

/-! ## Bytes at a receiver (R49, R51) -/

section Receiver

variable {h : HeadId} {env : LaneEnv} {ln : Lane}

theorem receiveByte_abandoned {b : LineByte}
    (hb : ln.receivers[h].asm.take sensorFormat env.now b = (.hunting, .abandoned)) :
    receiveByte h env b ln = discardRecord h .frame env (ln.huntAt h) := by
  rw [receiveByte, hb]
  rfl

theorem andThen_nil (o : LaneOut) : o.andThen (fun x => x.quiet) = o := by
  simp [LaneOut.andThen]

theorem receiveBytes_single (b : LineByte) : receiveBytes h [b] env ln = receiveByte h env b ln := by
  rw [receiveBytes, runEach_cons]
  exact andThen_nil _

theorem receiveBytes_noStop (b : Byte) (ha : ln.receivers[h].asm.phase ≠ .hunt) :
    receiveBytes h [⟨b, false⟩] env ln = discardRecord h .frame env (ln.huntAt h) := by
  rw [receiveBytes_single, receiveByte_abandoned (take_noStop _ _ ha)]

theorem receiveBytes_badLength {n : Byte} (ha : ln.receivers[h].asm = .hunting) (h2 : n.toNat ≠ 2)
    (h10 : n.toNat ≠ 10) :
    receiveBytes h (onLine [sensorMarker, n]) env ln = discardRecord h .frame env (ln.huntAt h) := by
  have hallowed : sensorFormat.allowed n.toNat = false := by simp [sensorFormat, h2, h10]
  have hmarker : receiveByte h env ⟨sensorMarker, true⟩ ln =
      (ln.modReceiver h fun r => { r with asm := ⟨.length, [], some env.now⟩ }).quiet :=
    receiveByte_underway (ha ▸ take_hunting_marker sensorFormat env.now)
  have hlength := take_badLength env.now hallowed
  show receiveBytes h [⟨sensorMarker, true⟩, ⟨n, true⟩] env ln = _
  rw [receiveBytes, runEach_cons, hmarker, andThen_quiet]
  refine (receiveBytes_single _).trans ((receiveByte_abandoned ?_).trans ?_)
  · rw [modReceiver_receiver]
    exact hlength
  · rw [Lane.huntAt, modReceiver_modReceiver]
    rfl

/-- In HUNT a byte that is no marker, or has no stop bit, changes nothing. -/
theorem receiveBytes_hunting_other {b : LineByte} (ha : ln.receivers[h].asm = .hunting)
    (hb : b.data ≠ sensorMarker ∨ b.stopBit = false) : receiveBytes h [b] env ln = ln.quiet := by
  have htake : ln.receivers[h].asm.take sensorFormat env.now b = (.hunting, .underway) := by
    rw [ha]
    exact take_hunting_other env.now hb
  rw [receiveBytes_single, receiveByte_underway htake, modReceiver_same ln h _ ha]

/-- A record type that does not fit the length of its body is discarded (R51). -/
theorem checkRecord_wrongKind {kind : Byte} {rest : List Byte}
    (hk : (rest.length = 1 ∧ kind.toNat ≠ 2) ∨ (rest.length = 9 ∧ kind.toNat ≠ 1)) :
    checkRecord h (kind :: rest) env ln = discardRecord h .frame env ln := by
  unfold checkRecord
  have hdetection : detectionOf? (kind :: rest) = none := by
    unfold detectionOf?
    split
    · rename_i heq
      obtain ⟨rfl, rfl⟩ := List.cons.inj heq
      rcases hk with ⟨hlen, _⟩ | ⟨_, hkind⟩
      · cases hlen
      · exact absurd rfl hkind
    · rfl
  rw [hdetection]
  dsimp only
  split
  · rename_i heq
    obtain ⟨rfl, rfl⟩ := List.cons.inj heq
    rcases hk with ⟨_, hkind⟩ | ⟨hlen, _⟩
    · exact absurd rfl hkind
    · cases hlen
  · rfl

end Receiver

/-! ## The record checks of a DETECTION (R52) -/

/-- A DETECTION that the checks of R52 pass at a link. -/
def RecordPasses (r : DetectionRecord) (h : HeadId) (g : Geometry) : Prop :=
  r.headNumber.toNat = h.val ∧ r.lastColumn.toNat ≤ 31 ∧ r.firstColumn.toNat ≤ r.lastColumn.toNat ∧
    1 ≤ r.length.toNat ∧ r.length.toNat ≤ 4095 ∧ g.headEnable[h] = true

section Detection

variable {h : HeadId} {r : DetectionRecord} {env : LaneEnv} {ln : Lane}

theorem checkDetection_discards (hr : ¬RecordPasses r h ln.cfg.geometry) :
    ∃ cause, checkDetection h r env ln = discardRecord h cause env ln := by
  unfold checkDetection
  split
  case isTrue => exact ⟨_, rfl⟩
  case isFalse hhead =>
    split
    case isFalse => exact ⟨_, rfl⟩
    case isTrue hcolumns =>
      split
      case isTrue => exact ⟨_, rfl⟩
      case isFalse horder =>
        split
        case isTrue => exact ⟨_, rfl⟩
        case isFalse hlength =>
          simp only [maxLength] at hlength
          rw [if_neg]
          · exact ⟨_, rfl⟩
          · exact fun henabled => hr ⟨by omega, by omega, by omega, by omega, by omega, henabled⟩

theorem checkDetection_takes {first last : Fin 32} (hr : RecordPasses r h ln.cfg.geometry)
    (hfirst : first.val = r.firstColumn.toNat) (hlast : last.val = r.lastColumn.toNat) :
    checkDetection h r env ln = takeDetection env (locate ln h r first last) (ln.countRecord h env.now) := by
  obtain ⟨hhead, hcolumn, horder, hmin, hmax, henabled⟩ := hr
  have hfirst' : (⟨r.firstColumn.toNat, by omega⟩ : Fin 32) = first := Fin.ext hfirst.symm
  have hlast' : (⟨r.lastColumn.toNat, by omega⟩ : Fin 32) = last := Fin.ext hlast.symm
  rw [← hfirst', ← hlast']
  unfold checkDetection
  rw [if_neg (not_not.mpr hhead), dif_pos ⟨by omega, by omega⟩, if_neg (by omega),
    if_neg (by simp only [maxLength]; omega), if_pos henabled]

theorem countRecord_receiver (ln : Lane) (h : HeadId) (now : Time) :
    (ln.countRecord h now).receivers[h] =
      { ln.receivers[h] with records := ln.receivers[h].records + 1, lastRecord := some now } :=
  modReceiver_receiver ln h _

theorem eq_locate {d : Detection} {first last : Fin 32} (hfirst : d.firstColumn = first)
    (hlast : d.lastColumn = last)
    (hlead : d.lead = ln.tb.p - BitVec.ofNat 32 r.length.toNat - BitVec.ofNat 32 r.trailLag.toNat -
      BitVec.ofNat 32 ln.cfg.geometry.headOffset[h])
    (htrail : d.trail = d.lead + BitVec.ofNat 32 r.length.toNat)
    (hitem : d.item = ⟨h, r.classCode, r.intensity, r.length.toNat⟩) : d = locate ln h r first last := by
  obtain ⟨lead, trail, firstColumn, lastColumn, item⟩ := d
  dsimp only at hfirst hlast hlead htrail hitem
  rw [hfirst, hlast, hitem, htrail, hlead]
  rfl

theorem place_sameBelt (ln : Lane) (old new : Parcel) : ln.SameBelt (ln.place old new) := by
  unfold Lane.place
  split
  · exact revise_sameBelt _ _ _
  · exact ⟨rfl, rfl, rfl, rfl, rfl, rfl, rfl, rfl⟩

theorem admitFormed_sameBelt (env : LaneEnv) (p : Parcel) (ln : Lane) : ln.SameBelt (ln.admitFormed env p) :=
  ⟨rfl, rfl, rfl, rfl, rfl, rfl, rfl, rfl⟩

theorem closeIfComplete_sameBelt (env : LaneEnv) (d : Detection) (p : Parcel) (ln : Lane) :
    ln.SameBelt (closeIfComplete env d p ln).lane := by
  unfold closeIfComplete
  split
  · exact classify_sameBelt _ _ _
  · exact .refl _

theorem formDetection_sameBelt (env : LaneEnv) (d : Detection) (ln : Lane) :
    ln.SameBelt (formDetection env d ln).lane := by
  unfold formDetection
  split
  case h_1 => exact (place_sameBelt _ _ _).trans (closeIfComplete_sameBelt _ _ _ _)
  case h_2 =>
    split
    · exact (admitFormed_sameBelt _ _ _).trans (closeIfComplete_sameBelt _ _ _ _)
    · exact ⟨rfl, rfl, rfl, rfl, rfl, rfl, rfl, rfl⟩

end Detection

/-! ## Bytes at a sensor link of a part that works (R48, R194) -/

section Links

variable {s : State} {l : LaneId} {h : HeadId}

theorem sensorBytes_working (hw : s.phase = .working) (bytes : List LineByte) :
    s.sensorBytes l h bytes = s.stepLane l (receiveBytes h bytes) := if_pos (works_of_working hw)

theorem exec_headIdle {n : Byte} (hw : s.phase = .working) (ha : s.lanes[l].receivers[h].asm = .hunting) :
    exec (.headIdle l h n) s = .next (s.stepLane l (checkIdle h n)) := by
  have hrecord : receiveBytes h (onLine (frameOf sensorMarker (headIdleBody n))) (s.env l) s.lanes[l] =
      checkIdle h n (s.env l) s.lanes[l] := receiveBytes_frame h _ _ _ ha (.inl rfl)
  refine congrArg Host.Outcome.next ((sensorBytes_working hw _).trans ?_)
  rw [State.stepLane, State.stepLane, State.onLane, State.onLane, laneStep_congr hrecord]

theorem exec_detection {r : DetectionRecord} (hw : s.phase = .working)
    (ha : s.lanes[l].receivers[h].asm = .hunting) :
    exec (.detection l h r) s = .next (s.stepLane l (checkDetection h r)) := by
  have hrecord : receiveBytes h (onLine (frameOf sensorMarker (detectionBody r))) (s.env l) s.lanes[l] =
      checkDetection h r (s.env l) s.lanes[l] := by
    rw [receiveBytes_frame h _ _ _ ha (.inr rfl)]
    simp only [checkRecord, detectionOf_detectionBody]
  refine congrArg Host.Outcome.next ((sensorBytes_working hw _).trans ?_)
  rw [State.stepLane, State.stepLane, State.onLane, State.onLane, laneStep_congr hrecord]

/-- A step that reports nothing and leaves the queue as it is sets the lane, the monitor following. -/
theorem stepLane_quiet {f : LaneEnv → Lane → LaneOut} {x : Lane} (hf : f (s.env l) s.lanes[l] = x.quiet)
    (hq : x.queue = s.lanes[l].queue) : s.stepLane l f = s.setLane l (x.syncMonitor (s.env l)) := by
  rw [State.stepLane, State.onLane, laneStep_quiet hf hq]
  rfl

theorem stepLane_quiet_lane {f : LaneEnv → Lane → LaneOut} {x : Lane} (hf : f (s.env l) s.lanes[l] = x.quiet)
    (hq : x.queue = s.lanes[l].queue) : (s.stepLane l f).lanes[l] = x.syncMonitor (s.env l) :=
  (stepLane_lane s l f).trans (congrArg LaneOut.lane (laneStep_quiet hf hq))

/-- A step on a RUNNING lane whose blocks leave its belt side alone leaves it alone itself. -/
theorem laneStep_running {f : LaneEnv → Lane → LaneOut} {env : LaneEnv} {ln x : Lane}
    (hf : x.SameBelt (f env ln).lane) (hr : x.state = .running) :
    (laneStep f env ln).lane.receivers = x.receivers ∧ (laneStep f env ln).lane.cfg = x.cfg ∧
      (laneStep f env ln).lane.discarded = x.discarded ∧ (laneStep f env ln).lane.tb.p = x.tb.p := by
  have hstate : (f env ln).lane.state ≠ .draining := by simp [hf.state, hr]
  rw [laneStep_lane fun hd => hstate hd.1]
  exact ⟨hf.receivers, hf.cfg, hf.discarded, (congrArg Timebase.p hf.tb :)⟩

/-- A good record on a lane that is not RUNNING is counted and tallied (R54, R55). -/
theorem detection_tallied {r : DetectionRecord} (hr : RecordPasses r h s.lanes[l].cfg.geometry)
    (hstate : s.lanes[l].state ≠ .running) :
    ∃ x : Lane, checkDetection h r (s.env l) s.lanes[l] = x.quiet ∧
      x = { s.lanes[l].countRecord h s.lineTime with discarded := holdInc s.lanes[l].discarded } := by
  have htake := checkDetection_takes (env := s.env l) (first := ⟨r.firstColumn.toNat, by
    have := hr.2.1; have := hr.2.2.1; omega⟩) (last := ⟨r.lastColumn.toNat, by have := hr.2.1; omega⟩) hr rfl rfl
  exact ⟨_, htake.trans (if_neg hstate), rfl⟩

end Links

end Sys2Proof.Machine

namespace Sys2Proof

open Machine

/-- Settles O7: a whole frame, a bad one in each of its ways, and a byte that is none at the assembler. -/
theorem plantLinkReception : Obligations.PlantLinkReception := by
  unfold Obligations.PlantLinkReception
  refine ⟨fun s r hw hk hr => ?_, fun s hw => ?_⟩
  · refine (plantLinkFrame_request hw hk hr).trans ?_
    rw [offer_fields]
  · refine ⟨fun body high low hk hmin hmax hcrc => ?_, fun n hk hn => ?_, fun b hk => ?_, fun b hk hb => ?_,
      fun t ht hgap => ?_⟩
    · refine (exec_plantLinkFrame hw _).trans ?_
      exact congrArg (fun k : Link => Host.Outcome.next { s with link := k })
        ((receiveAll_wrongCrc _ _ _ _ _ hk hmin hmax hcrc).trans (afterBadFrame_of_hunting hk).symm)
    · refine (exec_plantLinkFrame hw _).trans ?_
      exact congrArg (fun k : Link => Host.Outcome.next { s with link := k }) (receiveAll_badLength _ hk hn)
    · refine (exec_plantLinkFrame hw _).trans ?_
      exact congrArg (fun k : Link => Host.Outcome.next { s with link := k })
        (receive_abandoned (take_noStop _ b hk))
    · refine (exec_plantLinkFrame hw _).trans ?_
      have htake : s.link.asm.take plantFormat s.lineTime b = (s.link.asm, .underway) := by
        rw [show s.link.asm = Assembler.hunting from hk]
        exact take_hunting_other s.lineTime hb
      have hsame : s.link.receive s.lineTime b = s.link := receive_underway htake
      exact congrArg (fun k : Link => Host.Outcome.next { s with link := k }) hsame
    · have hdue : s.plantGapDue = true := by
        rw [State.plantGapDue, works_of_working hw, Bool.true_and]
        exact gapDue_of_lastByte ht hgap
      exact congrArg Host.Outcome.next (if_pos hdue)

/-- Settles O50: the one record check of a HEAD_IDLE counts it or discards it. -/
theorem headIdleCounted : Obligations.HeadIdleCounted := by
  unfold Obligations.HeadIdleCounted
  intro s l h n hw ha
  refine ⟨_, exec_headIdle hw ha, ?_⟩
  by_cases hn : n.toNat = h.val
  case pos =>
    have hf : checkIdle h n (s.env l) s.lanes[l] = (s.lanes[l].countRecord h s.lineTime).quiet :=
      if_neg (not_not.mpr hn)
    have hlane := stepLane_quiet_lane hf rfl
    rw [if_pos hn, hlane]
    refine ⟨countRecord_receiver s.lanes[l] h _, fun hc => absurd hn hc, rfl, rfl, rfl, rfl, rfl,
      ?_, stepLane_frame _ _ _⟩
    rw [stepLane_quiet hf rfl]
    rfl
  case neg =>
    have hf : checkIdle h n (s.env l) s.lanes[l] =
        discardRecord h .head (s.env l) (s.lanes[l].huntAt h) := by
      rw [huntAt_of_hunting ha]
      exact if_pos hn
    have hd := stepLane_discardsRecord hf
    rw [if_neg hn]
    exact ⟨hd.receiver_of_hunting ha, fun _ => hd.flag, hd.queue, hd.lots, hd.cfg,
      hd.discarded, hd.position, hd.trace, hd.frame⟩

/-- Settles O51: the record checks in their order, then the lane's state. -/
theorem detectionReceived : Obligations.DetectionReceived := by
  unfold Obligations.DetectionReceived
  intro s l h r hw ha
  refine ⟨_, exec_detection hw ha, stepLane_frame _ _ _, ?_⟩
  by_cases hr : RecordPasses r h s.lanes[l].cfg.geometry
  case neg =>
    obtain ⟨cause, hcause⟩ := checkDetection_discards (env := s.env l) hr
    have hd := stepLane_discardsRecord (hcause.trans (by rw [huntAt_of_hunting ha]))
    refine ⟨hd.position, hd.cfg, fun good hgood => ?_⟩
    have hbad : good = false := hgood.trans (decide_eq_false hr)
    subst hbad
    refine ⟨fun _ => ⟨hd.receiver_of_hunting ha, hd.flag, hd.queue, hd.discarded⟩, nofun, nofun, nofun⟩
  case pos =>
    by_cases hstate : s.lanes[l].state = .running
    case neg =>
      obtain ⟨x, hf, hx⟩ := detection_tallied hr hstate
      have hlane := stepLane_quiet_lane hf (by rw [hx]; rfl)
      subst hx
      rw [hlane]
      refine ⟨rfl, rfl, fun good hgood => ⟨fun hbad => ?_, fun _ => countRecord_receiver s.lanes[l] h _,
        fun _ _ => ⟨rfl, rfl⟩, fun _ hrun => absurd hrun hstate⟩⟩
      rw [hgood.trans (decide_eq_true hr)] at hbad
      cases hbad
    case pos =>
      have hcolumns : r.firstColumn.toNat < 32 ∧ r.lastColumn.toNat < 32 := by
        obtain ⟨_, hmax, horder, _⟩ := hr
        omega
      have hforms {first last : Fin 32} (hfirst : first.val = r.firstColumn.toNat)
          (hlast : last.val = r.lastColumn.toNat) : checkDetection h r (s.env l) s.lanes[l] =
            formDetection (s.env l) (locate s.lanes[l] h r first last) (s.lanes[l].countRecord h s.lineTime) :=
        (checkDetection_takes hr hfirst hlast).trans (if_pos hstate)
      have hbelt : (s.lanes[l].countRecord h s.lineTime).SameBelt (checkDetection h r (s.env l) s.lanes[l]).lane := by
        rw [hforms (first := ⟨_, hcolumns.1⟩) (last := ⟨_, hcolumns.2⟩) rfl rfl]
        exact formDetection_sameBelt _ _ _
      obtain ⟨hreceivers, hcfg, hdiscarded, hp⟩ := laneStep_running hbelt hstate
      rw [stepLane_lane]
      refine ⟨hp, hcfg, fun good hgood => ⟨fun hbad => ?_, fun _ => ?_, fun _ hrest => absurd hstate hrest,
        fun _ _ => ⟨hdiscarded, fun first last d out hfirst hlast hd hd' hlead htrail hitem hout => ?_⟩⟩⟩
      · rw [hgood.trans (decide_eq_true hr)] at hbad
        cases hbad
      · rw [hreceivers]
        exact countRecord_receiver s.lanes[l] h _
      · have hd := eq_locate hd hd' hlead htrail hitem
        rw [hout, State.stepLane, State.onLane, hd]
        exact congrArg (fun o : LaneOut => (s.setLane l o.lane).commit l o.effects)
          (laneStep_congr (hforms hfirst hlast))

/-- Settles O53: a frame is discarded in the same way, whichever check it fails. -/
theorem sensorFrameRejectedCounted : Obligations.SensorFrameRejectedCounted := by
  unfold Obligations.SensorFrameRejectedCounted
  intro s l h hw
  have hexec (bytes : List LineByte) : exec (.sensorFrameRejected l h bytes) s =
      .next (s.stepLane l (receiveBytes h bytes)) := congrArg Host.Outcome.next (sensorBytes_working hw bytes)
  refine ⟨fun n h2 h10 ha => ?_, fun b ha => ?_, fun body high low ha hlen hcrc => ?_, fun kind rest ha hkind => ?_,
    fun since hsince hgap => ?_, fun b ha hb => ?_⟩
  · exact ⟨_, hexec _, (stepLane_discardsRecord (receiveBytes_badLength ha h2 h10)).frameRejected⟩
  · exact ⟨_, hexec _, (stepLane_discardsRecord (receiveBytes_noStop b ha)).frameRejected⟩
  · refine ⟨_, hexec _, (stepLane_discardsRecord ?_).frameRejected⟩
    exact (receiveBytes_wrongCrc _ _ _ _ _ _ ha hlen hcrc).trans (by rw [huntAt_of_hunting ha])
  · refine ⟨_, hexec _, (stepLane_discardsRecord ?_).frameRejected⟩
    rw [huntAt_of_hunting ha]
    refine (receiveBytes_frame h (s.env l) s.lanes[l] (kind :: rest) ha ?_).trans (checkRecord_wrongKind hkind)
    simp only [List.length_cons]
    omega
  · have hdue : s.sensorGapDue l h = true := by
      rw [State.sensorGapDue, works_of_working hw, Bool.true_and]
      exact gapDue_of_lastByte hsince hgap
    exact ⟨_, congrArg Host.Outcome.next (if_pos hdue), (stepLane_discardsRecord rfl).frameRejected⟩
  · have hquiet := receiveBytes_hunting_other (env := s.env l) ha hb
    have hlane := stepLane_quiet_lane hquiet rfl
    refine ⟨_, hexec _, ?_, ?_, ?_, stepLane_frame _ _ _⟩
    · rw [hlane]; rfl
    · rw [hlane]; rfl
    · rw [stepLane_quiet hquiet rfl]; rfl

end Sys2Proof
end

section
/-! The forming unit on a detection (R14 to R18, R58 to R64): O52. -/

namespace Sys2Proof.Machine

/-! ## What the acts on one parcel leave of the others -/

/-- The serial counter stands, and every parcel of another serial is still in the queue as it was. -/
structure Lane.KeepsOthers (serial : Serial) (a b : Lane) : Prop where
  counter : b.nextSerial = a.nextSerial
  others : ∀ p ∈ a.queue, p.serial ≠ serial → p ∈ b.queue

namespace Lane.KeepsOthers

variable {serial : Serial} {a b c : Lane}

theorem refl (serial : Serial) (a : Lane) : Lane.KeepsOthers serial a a := ⟨rfl, fun _ hp _ => hp⟩

theorem trans (h : Lane.KeepsOthers serial a b) (k : Lane.KeepsOthers serial b c) :
    Lane.KeepsOthers serial a c :=
  ⟨k.counter.trans h.counter, fun p hp hs => k.others p (h.others p hp hs) hs⟩

theorem of_same (hn : b.nextSerial = a.nextSerial) (hq : b.queue = a.queue) : Lane.KeepsOthers serial a b :=
  ⟨hn, fun _ hp _ => hq ▸ hp⟩

end Lane.KeepsOthers

theorem revise_keepsOthers (serial : Serial) (f : Parcel → Parcel) (ln : Lane) :
    Lane.KeepsOthers serial ln (ln.revise serial f) :=
  ⟨rfl, fun p hp hs => List.mem_map.mpr ⟨p, hp, if_neg hs⟩⟩

theorem leaveList_keepsOthers (serial : Serial) (p : Parcel) (ln : Lane) :
    Lane.KeepsOthers serial ln (ln.leaveList p) := by
  unfold Lane.leaveList
  split
  · exact .of_same rfl rfl
  · exact .refl _ _

theorem drop_keepsOthers (p : Parcel) (ln : Lane) : Lane.KeepsOthers p.serial ln (ln.drop p) := by
  have hleave := leaveList_keepsOthers p.serial p ln
  exact ⟨hleave.counter, fun q hq hs => List.mem_filter.mpr ⟨hq, by simpa using hs⟩⟩

theorem removeParcel_keepsOthers (env : LaneEnv) (serial : Serial) (o : Outcome) (ln : Lane) :
    Lane.KeepsOthers serial ln (removeParcel env serial o ln).lane := by
  unfold removeParcel
  split
  case h_1 => exact .refl _ _
  case h_2 p hp =>
    obtain rfl : p.serial = serial := by simpa using List.find?_some hp
    have hdrop := drop_keepsOthers p ln
    split
    · exact hdrop.trans (.of_same rfl rfl)
    · split
      · exact hdrop
      · exact hdrop.trans (.of_same rfl rfl)

theorem travel_keepsOthers (env : LaneEnv) (p : Parcel) (f : Fraction) (o : Outcome) (ln : Lane) :
    Lane.KeepsOthers p.serial ln (travel env p f o ln).lane := by
  have hrides := (leaveList_keepsOthers p.serial p ln).trans
    (revise_keepsOthers p.serial (fun q => { q with phase := .travelling f o }) (ln.leaveList p))
  unfold travel
  split
  · exact hrides.trans (removeParcel_keepsOthers _ _ _ _)
  · exact hrides

theorem settleVerdict_keepsOthers (env : LaneEnv) (p : Parcel) (f : Fraction) (v : Verdict) (ln : Lane) :
    Lane.KeepsOthers p.serial ln (settleVerdict env p f v ln).lane := by
  cases v with
  | scheduled aim widened maxOpen => exact (revise_keepsOthers _ _ _).trans (.of_same rfl rfl)
  | passed => exact travel_keepsOthers _ _ _ _ _
  | redirected st => exact travel_keepsOthers _ _ _ _ _
  | late st => exact travel_keepsOthers _ _ _ _ _
  | listFull st => exact travel_keepsOthers _ _ _ _ _

theorem classify_keepsOthers (env : LaneEnv) (serial : Serial) (ln : Lane) :
    Lane.KeepsOthers serial ln (classify env serial ln).lane := by
  unfold classify
  split
  case h_1 => exact .refl _ _
  case h_2 p hp =>
    obtain rfl : p.serial = serial := by simpa using List.find?_some hp
    exact (revise_keepsOthers _ _ _).trans (settleVerdict_keepsOthers _ _ _ _ _)

theorem closeIfComplete_keepsOthers (env : LaneEnv) (d : Detection) (p : Parcel) (ln : Lane) :
    Lane.KeepsOthers p.serial ln (closeIfComplete env d p ln).lane := by
  unfold closeIfComplete
  split
  · exact classify_keepsOthers _ _ _
  · exact .refl _ _

/-! ## Closing at once (R63, R64) -/

section Forming

variable {env : LaneEnv} {d : Detection} {ln : Lane} {p : Parcel}

/-- The parcel closes at once: every enabled head has contributed, or the detection's close position is passed. -/
def ClosesAtOnce (d : Detection) (p : Parcel) (ln : Lane) : Prop :=
  p.Complete ln.cfg.geometry ∨ atOrBehind (closePosition ln.cfg.geometry d.trail) ln.tb.pmax = true

theorem closeIfComplete_of_closes (h : ClosesAtOnce d p ln) :
    closeIfComplete env d p ln = classify env p.serial ln := by
  refine if_pos ?_
  rw [Bool.or_eq_true, reported_iff]
  exact h

theorem closeIfComplete_of_open (h : ¬ClosesAtOnce d p ln) : closeIfComplete env d p ln = ln.quiet := by
  refine if_neg ?_
  rw [Bool.or_eq_true, reported_iff]
  exact h

/-! ## The parcel taken (R58, R59) -/

theorem formDetection_unmatched (h : ∀ p ∈ ln.queue, ¬d.Meets ln.cfg.geometry.window p) :
    formDetection env d ln = if ln.queue.length < 256
      then closeIfComplete env d (d.parcel ln) (ln.admitFormed env (d.parcel ln)) else dropDetection ln := by
  unfold formDetection
  rw [choose_none h]
  rfl

/-- Of two parcels one is taken before the other, or is the other's equal, but not both ways round. -/
theorem not_takes_of_atLeast {x : Parcel} (h : d.AtLeast x p) : ¬d.Takes p x := by
  have hp : d.overlap p = d.shared p := rfl
  have hx : d.overlap x = d.shared x := rfl
  unfold Detection.AtLeast at h
  unfold Detection.Takes
  omega

theorem formDetection_matched (hp : p ∈ ln.queue) (hm : d.Meets ln.cfg.geometry.window p)
    (hbest : ∀ x ∈ ln.queue, d.Meets ln.cfg.geometry.window x → x ≠ p → d.Takes p x) :
    formDetection env d ln = closeIfComplete env d (d.fuse ln.cfg.geometry p)
      (ln.place p (d.fuse ln.cfg.geometry p)) := by
  obtain ⟨r, hr, hmem, hmeets, hleast⟩ := choose_best hp hm
  have hrp : r = p := by
    by_contra hne
    exact not_takes_of_atLeast (hleast p hp hm) (hbest r hmem hmeets hne)
  subst hrp
  unfold formDetection
  rw [hr]

/-- The fusion of R60 and R61. -/
theorem fuse_fuses {g : Geometry} {reach : Nat} (hreach : g.Reaches reach) (d : Detection) (p : Parcel) :
    d.Fuses g reach p (d.fuse g p) where
  rest := rfl
  lead := rfl
  trail := by
    rintro far rfl
    rfl
  first := rfl
  last := rfl
  contributions := rfl
  phase := by
    rw [← reach_of_reaches hreach]
    rfl

/-- In a queue of distinct serials a serial names the parcel. -/
theorem serial_eq_iff {q : List Parcel} (hn : (q.map (·.serial)).Nodup) {x : Parcel} (hp : p ∈ q) (hx : x ∈ q) :
    x.serial = p.serial ↔ x = p :=
  ⟨fun h => List.inj_on_of_nodup_map hn hx hp h, fun h => h ▸ rfl⟩

/-- The place of the fused parcel: the old one's, or, if its lead_ref changed, the one of queue order (R15). -/
theorem place_eq {new : Parcel} (hn : (ln.queue.map (·.serial)).Nodup) (hp : p ∈ ln.queue) :
    ∃ q, ln.place p new = { ln with queue := q } ∧
      (new.lead = p.lead → q = ln.queue.map fun x => if x = p then new else x) ∧
      (new.lead ≠ p.lead → PlacedIn new (ln.queue.filter fun x => decide (x ≠ p)) q) := by
  by_cases hl : new.lead = p.lead
  case pos =>
    refine ⟨_, if_pos hl, fun _ => List.map_congr_left fun x hx => ?_, fun h => absurd hl h⟩
    simp only [serial_eq_iff hn hp hx]
  case neg =>
    refine ⟨_, if_neg hl, fun h => absurd h hl, fun _ => ?_⟩
    have hfilter : (ln.queue.filter (·.serial != p.serial)) = ln.queue.filter fun x => decide (x ≠ p) := by
      refine List.filter_congr fun x hx => ?_
      rw [Bool.eq_iff_iff, bne_iff_ne, decide_eq_true_iff, ne_eq, serial_eq_iff hn hp hx]
    rw [hfilter]
    exact insertParcel_placed _ _

end Forming

end Sys2Proof.Machine

namespace Sys2Proof

open Machine

/-- Settles O52: no match and no room, no match and room, or the fusion into the parcel that is taken. -/
theorem detectionAdmittedOrDropped : Obligations.DetectionAdmittedOrDropped := by
  unfold Obligations.DetectionAdmittedOrDropped
  intro env d ln reach hreach
  have hr : ln.cfg.geometry.reach = reach := reach_of_reaches hreach
  subst hr
  refine ⟨fun hnone => ⟨fun hfull => ?_, fun hroom => ?_⟩, fun p hp hn hm hbest => ?_⟩
  · rw [formDetection_unmatched hnone, if_neg (by omega)]
    rfl
  · have hform : formDetection env d ln = _ := (formDetection_unmatched hnone).trans (if_pos hroom)
    have hkeeps := closeIfComplete_keepsOthers env d (d.parcel ln) (ln.admitFormed env (d.parcel ln))
    rw [hform]
    refine ⟨hkeeps.counter, fun p hp hs => hkeeps.others p (insertParcel_mem.mpr (.inr hp)) hs,
      (closeIfComplete_sameBelt _ _ _ _).tb, ?_⟩
    rintro p rfl
    refine ⟨_, _, insertParcel_placed _ _, form_counts _ _ _ _ _, fun hopen => ?_, fun hcloses => ?_⟩
    · exact closeIfComplete_of_open (ln := ln.admitFormed env (d.parcel ln)) hopen
    · exact closeIfComplete_of_closes (ln := ln.admitFormed env (d.parcel ln)) hcloses
  · obtain ⟨q, hplace, hsame, hmoved⟩ := place_eq (new := d.fuse ln.cfg.geometry p) hn hp
    rw [formDetection_matched hp hm hbest, hplace]
    refine ⟨_, q, fuse_fuses hreach d p, hsame, hmoved, fun hopen => ?_, fun hcloses => ?_⟩
    · exact closeIfComplete_of_open (ln := { ln with queue := q }) hopen
    · exact closeIfComplete_of_closes (ln := { ln with queue := q }) hcloses

end Sys2Proof
end

section
/-! What the blocks of a lane do to its parcels (R65, R66, R75 to R105, R128): O60. -/

namespace Sys2Proof.Machine

variable {env : LaneEnv} {ln : Lane}

/-! ## Classification (R66, R75 to R87) -/

/-- No station takes the residue. -/
theorem Lane.StationOf.residue {st? : Option StationId} (h : ln.StationOf .residue st?) : st? = none := by
  cases st? with
  | none => rfl
  | some st =>
    have hfraction := h.2.1
    cases hc : ln.cfg.geometry.stationFraction[st] <;> simp [hc, ChuteFraction.fraction] at hfraction

/-- Without a station no profile is read. -/
theorem Lane.Settles.anyProfile {p : Parcel} {f : Fraction} {prof : Profile} {out : LaneOut}
    (h : ln.Settles env p f none prof out) (other : Profile) : ln.Settles env p f none other out :=
  ⟨h.1, nofun⟩

theorem classify_settled {p : Parcel} {i? : Option (Fin 64)} {f : Fraction} {st? : Option StationId} {prof : Profile}
    (hp : ln.find p.serial = some p) (hi : Scanned env.table p.contributions i?) (hnone : i? = none → f = .residue)
    (hsome : ∀ i : Fin 64, i? = some i → f = env.table[i].fraction ∧ prof = env.profiles[env.table[i].profile])
    (hst : ln.StationOf f st?) :
    Lane.Settles env (ln.revise p.serial fun q => { q with entry := i? }) p f st? prof
      (classify env p.serial ln) := by
  have hsettles := classify_settles env ln p hp
  obtain rfl : i? = scan env.table p.contributions := scanned_unique hi (scan_scanned _ _)
  cases hscan : scan env.table p.contributions with
  | none =>
    obtain rfl : f = .residue := hnone hscan
    obtain rfl := hst.residue
    have hstation : ln.stationFor .residue = none := (stationFor_stationOf ln .residue).residue
    rw [hscan] at hsettles
    simp only [fractionOf, hstation] at hsettles
    exact hsettles.anyProfile prof
  | some i =>
    obtain ⟨rfl, rfl⟩ := hsome i hscan
    have hstation : ln.stationFor env.table[i].fraction = st? := stationOf_unique (stationFor_stationOf ln _) hst
    rw [hscan] at hsettles
    simp only [fractionOf, profileOf, hstation] at hsettles
    exact hsettles

/-! ## Test parcels (R19, R86, R128) -/

theorem createTest_full (inj : Injection) (h : 256 ≤ ln.queue.length) :
    createTest env inj ln = ⟨{ ln with skipped := holdInc ln.skipped }, []⟩ :=
  if_neg (Nat.not_lt.mpr h)

theorem createTest_room (inj : Injection) (h : ln.queue.length < 256) :
    createTest env inj ln = classifyTest env (testParcel ln inj) inj.station (ln.enqueue (testParcel ln inj)) :=
  if_pos h

theorem injectionDue_of_due {inj : Injection} (hs : ln.state = .running) (hi : ln.injection = some inj)
    (hd : atOrBehind inj.nextPos ln.tb.pmax = true) : ln.injectionDue = some inj := by
  simp [Lane.injectionDue, hs, hi, hd]

theorem injectionDue_of_not_due (h : ln.state ≠ .running ∨ ∀ inj : Injection, ln.injection = some inj →
    atOrBehind inj.nextPos ln.tb.pmax = false) : ln.injectionDue = none := by
  unfold Lane.injectionDue
  split
  case isFalse => rfl
  case isTrue hs =>
    refine Option.filter_eq_none_iff.mpr fun inj hi => ?_
    simp [h.resolve_left (not_not.mpr hs) inj hi]

theorem injectAdvance_of_due {inj : Injection} (h : ln.injectionDue = some inj) :
    injectAdvance env ln = createTest env inj { ln with injection := inj.next } := by
  simp only [injectAdvance, h]

theorem injectAdvance_of_none (h : ln.injectionDue = none) : injectAdvance env ln = ln.quiet := by
  simp only [injectAdvance, h]

/-! ## What is due at an advance (R65, R97, R103) -/

theorem startDue_true_iff (ln : Lane) (e : ListEntry) : ln.startDue e = true ↔ ∃ p aim, ln.find e.serial = some p ∧
    p.phase = .scheduled aim ∧ atOrBehind aim.firePos ln.tb.pmax = true := by
  unfold Lane.startDue
  cases ln.find e.serial with
  | none => simp
  | some p => cases hp : p.phase <;> simp [hp]

theorem endDue_some_iff (ln : Lane) (e : ListEntry) (o : Outcome) : ln.endDue e = some o ↔
    ∃ p aim shot, ln.find e.serial = some p ∧ p.phase = .firing aim shot ∧
      atOrBehind aim.endPos ln.tb.pmax = true ∧ o = if shot.isPartial then .isPartial else .ejected := by
  unfold Lane.endDue
  cases ln.find e.serial with
  | none => simp
  | some p =>
    cases hp : p.phase with
    | firing aim shot =>
      constructor
      · intro h
        dsimp only at h
        rw [hp] at h
        dsimp only at h
        split at h
        case isTrue hd => exact ⟨p, aim, shot, rfl, hp, hd, (Option.some.inj h).symm⟩
        case isFalse => cases h
      · rintro ⟨q, a, x, hq, hx, hd, rfl⟩
        obtain rfl := Option.some.inj hq
        obtain ⟨rfl, rfl⟩ := ParcelPhase.firing.inj (hp.symm.trans hx)
        dsimp only
        rw [hp]
        exact if_pos hd
    | forming | scheduled | travelling => simp [hp]

theorem closeDue_true_iff (ln : Lane) (p : Parcel) : ln.closeDue p = true ↔
    ∃ c, p.phase = .forming c ∧ atOrBehind c ln.tb.pmax = true := by
  unfold Lane.closeDue
  cases p.phase <;> simp

/-! ## Removals by outcome (R21, R103, R105) -/

/-- The removals that the members of a list ask for. -/
def removalsOf {α : Type} (serial : α → Serial) (due : α → Option Outcome) (xs : List α) : List (Serial × Outcome) :=
  xs.filterMap fun x => (due x).map fun o => (serial x, o)

theorem removalsOf_any {α : Type} (serial : α → Serial) (due : α → Option Outcome) (xs : List α) (s : Serial) :
    ((removalsOf serial due xs).any fun x => x.1 == s) = xs.any fun x => (due x).isSome && serial x == s := by
  rw [removalsOf, List.any_filterMap]
  congr 1
  funext x
  cases due x <;> rfl

theorem removals_queue {α : Type} (serial : α → Serial) (due : α → Option Outcome) (xs : List α) :
    (runEach (fun x => removeParcel env x.1 x.2) (removalsOf serial due xs) ln).lane.queue =
      ln.queue.filter fun p => !xs.any fun x => (due x).isSome && serial x == p.serial := by
  rw [runEach_removes]
  simp only [removalsOf_any]

/-- Of distinct serials each names one parcel, so the parcels removed are those that ask for it. -/
theorem removals_queue_of_nodup {q : List Parcel} (hn : (q.map (·.serial)).Nodup) (due : Parcel → Option Outcome) :
    (q.filter fun p => !q.any fun x => (due x).isSome && x.serial == p.serial) =
      q.filter fun p => !(due p).isSome := by
  refine List.filter_congr fun p hp => congrArg _ (Bool.eq_iff_iff.mpr ?_)
  rw [List.any_eq_true]
  constructor
  · rintro ⟨x, hx, hd⟩
    obtain ⟨hdue, hserial⟩ := Bool.and_eq_true_iff.mp hd
    obtain rfl := (serial_eq_iff hn hp hx).mp (beq_iff_eq.mp hserial)
    exact hdue
  · exact fun hdue => ⟨p, hp, Bool.and_eq_true_iff.mpr ⟨hdue, beq_self_eq_true _⟩⟩

theorem stationEnds_closes (env : LaneEnv) (st : StationId) (ln : Lane) :
    ln.Closes env.now (stationEnds env st ln).lane :=
  withClosing_closes (runEach_lists (fun _ _ => removeParcel_lists _ _ _ _) _ ln)
    (by rw [(runEach_sameBelt (fun _ _ => removeParcel_sameBelt _ _ _ _) _ ln).cfg])

theorem stationEnds_queue (env : LaneEnv) (st : StationId) (ln : Lane) :
    (stationEnds env st ln).lane.queue = ln.queue.filter fun p =>
      !ln.stations[st].list.any fun e => (ln.endDue e).isSome && e.serial == p.serial :=
  (closeColumns_queue _ _ _).trans (removals_queue (·.serial) ln.endDue ln.stations[st].list)

/-- The ends as removals whose freed columns close together. -/
theorem stationEnds_eq (env : LaneEnv) (st : StationId) (ln : Lane) {removed : LaneOut}
    (h : removed = runEach (fun x => removeParcel env x.1 x.2)
      (removalsOf (·.serial) ln.endDue ln.stations[st].list) ln) :
    stationEnds env st ln = ⟨closeColumns env ln removed.lane, removed.effects⟩ := by
  rw [h]
  rfl

theorem exits_eq (env : LaneEnv) (ln : Lane) : exits env ln =
    runEach (fun x => removeParcel env x.1 x.2) (removalsOf (·.serial) ln.exiting ln.queue) ln := rfl

theorem exits_queue (hn : (ln.queue.map (·.serial)).Nodup) :
    (exits env ln).lane.queue = ln.queue.filter fun p => !(ln.exiting p).isSome := by
  rw [exits_eq, removals_queue, removals_queue_of_nodup hn]

end Sys2Proof.Machine

namespace Sys2Proof

open Machine

/-- Settles O60, block by block. -/
theorem parcelClassifiedFiredAndRemoved : Obligations.ParcelClassifiedFiredAndRemoved := by
  unfold Obligations.ParcelClassifiedFiredAndRemoved
  intro env ln
  refine ⟨fun p i? f st? prof hp hi hnone hsome hst => classify_settled hp hi hnone hsome hst, fun inj =>
    ⟨createTest_full inj, fun hroom => ?_⟩, fun inj hs hi hd => injectAdvance_of_due (injectionDue_of_due hs hi hd),
    fun h => injectAdvance_of_none (injectionDue_of_not_due h), fun st e p aim hp ha =>
    fireStart_starts env st ln e p aim hp ha, fun st due hdue => ?_, fun st due hdue removed hremoved => ?_,
    fun due hdue => ?_, fun due hdue => ?_⟩
  · rw [createTest_room inj hroom]
    exact ⟨testParcel ln inj, _, insertParcel_placed _ _, rfl, rfl, rfl, rfl, rfl, rfl, rfl, rfl, rfl, rfl,
      judge_settles _ _ _ _ _ _⟩
  · obtain rfl : due = ln.startDue := funext fun e =>
      Bool.eq_iff_iff.mpr ((hdue e).trans (startDue_true_iff ln e).symm)
    rfl
  · obtain rfl : due = ln.endDue := funext fun e =>
      Option.ext fun o => (hdue e o).trans (endDue_some_iff ln e o).symm
    have hcloses := stationEnds_closes env st ln
    have hbelt := stationEnds_sameBelt env st ln
    have heq := stationEnds_eq env st ln hremoved
    refine ⟨?_, stationEnds_queue env st ln, ?_, ?_, hbelt.tb, hbelt.cfg, hbelt.state, fun k =>
      ⟨?_, hcloses.history k, hcloses.rest k⟩⟩
    · rw [heq]
    · rw [heq]
      rfl
    · rw [heq]
      rfl
    · rw [heq]
      dsimp only
      rw [closeColumns_station]
  · obtain rfl : due = ln.exiting := funext fun p => Option.ext fun o => (hdue p o).trans (exiting_iff ln p o).symm
    refine ⟨rfl, fun hn => ?_⟩
    exact exits_queue hn
  · obtain rfl : due = ln.closeDue := funext fun p =>
      Bool.eq_iff_iff.mpr ((hdue p).trans (closeDue_true_iff ln p).symm)
    rfl

end Sys2Proof
end

section
/-! Starting and stopping a lane (R45, R116 to R120): O16, O17, O18. -/

namespace Sys2Proof.Machine

/-! ## What a whole step of a lane reports -/

section Step

variable {s : State} {l : LaneId} {f : LaneEnv → Lane → LaneOut} {env : LaneEnv} {ln : Lane}

theorem mem_laneStep_effects {e : Event} (h : .event e ∈ (f env ln).effects) :
    .event e ∈ (laneStep f env ln).effects :=
  (mem_inQueueOrder ⟨e, rfl⟩).mpr (List.mem_append_left _ h)

theorem stepLane_flag {e : Event} (hl : e.lane? = some l) (h : .event e ∈ (f (s.env l) s.lanes[l]).effects) :
    (s.stepLane l f).laneFlag l e.kind.val = true :=
  commit_laneFlag _ l _ e hl (mem_laneStep_effects h)

/-- A step whose blocks make no trace entry leaves the trace. -/
theorem stepLane_trace_of_events (h : ∀ e ∈ (f (s.env l) s.lanes[l]).effects, ∃ x, e = .event x) :
    (s.stepLane l f).trace = s.trace := by
  have hall : ∀ e ∈ ((f (s.env l) s.lanes[l]).andThen (drainIfEmpty (s.env l) s.lanes[l])).effects,
      ∃ x, e = .event x := by
    intro e he
    rcases List.mem_append.mp he with he | he
    · exact h e he
    · obtain ⟨es, hes⟩ := drainIfEmpty_events (s.env l) s.lanes[l] (f (s.env l) s.lanes[l]).lane
      rw [hes] at he
      obtain ⟨x, _, rfl⟩ := List.mem_map.mp he
      exact ⟨x, rfl⟩
  have heffects : (laneStep f (s.env l) s.lanes[l]).effects = _ := inQueueOrder_events hall
  refine (commit_trace_of_events l _ _ fun e he => hall e ?_).1
  rw [heffects] at he
  exact he

/-- A step that leaves the queue as it is leaves the lane as its blocks do, but for the monitor. -/
theorem stepLane_lane_of_same_queue (h : (f (s.env l) s.lanes[l]).lane.queue = s.lanes[l].queue) :
    (s.stepLane l f).lanes[l] = (f (s.env l) s.lanes[l]).lane.syncMonitor (s.env l) :=
  (stepLane_lane s l f).trans (laneStep_lane_of_same_queue h)

end Step

variable {s : State} {tag : Byte} {p : List Byte} {l : LaneId}

/-- The monitor is no part of what a stop leaves of the timebase. -/
theorem Lane.TimebaseKept.syncMonitor {a b : Lane} (h : a.TimebaseKept b) (env : LaneEnv) :
    a.TimebaseKept (b.syncMonitor env) :=
  ⟨h.setup, h.rate, h.pendingRate, h.accumulator, h.phases, h.phaseErrors⟩

/-! ## START_LANE (R45, R116 to R118) -/

theorem hasHead_iff (g : Geometry) : g.hasHead = true ↔ ∃ h : HeadId, g.headEnable[h] = true := by
  simp [Geometry.hasHead, List.any_eq_true]

theorem startLane_badValue (hl : laneItem p 0 = none) : startLane tag p s = s.refuse 0x17 tag .badValue := by
  simp only [startLane, hl]

theorem startLane_wrongState (hl : laneItem p 0 = some l) (h : s.lanes[l].state ≠ .stopped ∨ s.plantStop = true) :
    startLane tag p s = s.refuse 0x17 tag .wrongState := by
  simp only [startLane, hl]
  exact if_pos h

theorem startLane_permitted (hstate : s.lanes[l].state = .stopped) (hstop : s.plantStop = false) :
    ¬(s.lanes[l].state ≠ .stopped ∨ s.plantStop = true) :=
  not_or.mpr ⟨not_not.mpr hstate, by simp [hstop]⟩

theorem startLane_noHeads (hl : laneItem p 0 = some l) (hstate : s.lanes[l].state = .stopped)
    (hstop : s.plantStop = false) (h : ∀ h : HeadId, s.lanes[l].cfg.geometry.headEnable[h] = false) :
    startLane tag p s = s.refuse 0x17 tag .noHeads := by
  have hnone : ¬s.lanes[l].cfg.geometry.hasHead = true := by
    rw [hasHead_iff]
    rintro ⟨k, hk⟩
    rw [h k] at hk
    cases hk
  simp only [startLane, hl]
  rw [if_neg (startLane_permitted hstate hstop), if_neg hnone]

theorem startLane_failed {check : Nat} {st : Option StationId} (hl : laneItem p 0 = some l)
    (hstate : s.lanes[l].state = .stopped) (hstop : s.plantStop = false)
    (hhead : ∃ h : HeadId, s.lanes[l].cfg.geometry.headEnable[h] = true)
    (h : s.lanes[l].cfg.geometry.failedCheck = some (check, st)) :
    startLane tag p s = s.answer 0x17 tag .geometry (beBytes 1 check ++ optional 1 (st.map (·.val))) := by
  simp only [startLane, hl, h]
  rw [if_neg (startLane_permitted hstate hstop), if_pos ((hasHead_iff _).mpr hhead)]

theorem startLane_runs (hl : laneItem p 0 = some l) (hstate : s.lanes[l].state = .stopped)
    (hstop : s.plantStop = false) (hhead : ∃ h : HeadId, s.lanes[l].cfg.geometry.headEnable[h] = true)
    (h : s.lanes[l].cfg.geometry.failedCheck = none) :
    startLane tag p s = (s.ok 0x17 tag []).stepLane l startRun := by
  simp only [startLane, hl, h]
  rw [if_neg (startLane_permitted hstate hstop), if_pos ((hasHead_iff _).mpr hhead)]

theorem optional_station (st : StationId) : optional 1 ((some st).map (·.val)) = [1, byte st.val] := by
  rw [Option.map_some, optional, beBytes_one]

theorem optional_noStation : optional 1 ((none : Option StationId).map (·.val)) = [0, 0] := rfl

/-! ## STOP_LANE (R119, R120) -/

/-- A lane that STOP_LANE has set draining. -/
def Lane.setDraining (ln : Lane) : Lane := Lane.dropSwitch { ln with state := .draining, injection := none }

theorem beginDrain_waits (env : LaneEnv) {ln : Lane} (h : ln.queue ≠ []) :
    beginDrain env ln = ⟨ln.setDraining, [.event (.laneState env.id .draining .stop)]⟩ := by
  unfold beginDrain LaneOut.andThen
  dsimp only
  rw [if_neg (show ¬(Lane.dropSwitch { ln with state := .draining, injection := none }).queue = [] from h)]
  rfl

theorem beginDrain_empty (env : LaneEnv) {ln : Lane} (h : ln.queue = []) :
    beginDrain env ln = ⟨Lane.rest { ln.setDraining with state := .stopped },
      [.event (.laneState env.id .draining .stop), .event (.laneState env.id .stopped .drained)]⟩ := by
  unfold beginDrain LaneOut.andThen
  dsimp only
  rw [if_pos (show (Lane.dropSwitch { ln with state := .draining, injection := none }).queue = [] from h)]
  rfl

theorem beginDrain_events (env : LaneEnv) (ln : Lane) :
    .event (.laneState env.id .draining .stop) ∈ (beginDrain env ln).effects ∧
      ∀ e ∈ (beginDrain env ln).effects, ∃ x, e = .event x := by
  by_cases hq : ln.queue = []
  case neg =>
    rw [beginDrain_waits env hq]
    exact ⟨List.mem_singleton_self _, fun e he => ⟨_, List.mem_singleton.mp he⟩⟩
  case pos =>
    rw [beginDrain_empty env hq]
    refine ⟨List.mem_cons_self .., fun e he => ?_⟩
    rcases List.mem_cons.mp he with rfl | he
    · exact ⟨_, rfl⟩
    · exact ⟨_, List.mem_singleton.mp he⟩

/-- What STOP_LANE leaves of a lane, by whether there are parcels to wait for. -/
structure Lane.StopsTo (a b : Lane) : Prop where
  state : b.state = if a.queue = [] then .stopped else .draining
  injection : b.injection = none
  pendingSwitch : b.tb.pendingSwitch = none
  position : b.tb.p = a.tb.p
  pmax : b.tb.pmax = if a.queue = [] then a.tb.p else a.tb.pmax
  taken : a.queue = [] → a.ScaleTaken b
  kept : a.queue ≠ [] → a.ScaleKept b
  monitor : b.tb.monitor = a.tb.monitor
  source : b.tb.source = a.tb.source
  lost : b.tb.encoderLost = a.tb.encoderLost
  timebase : a.TimebaseKept b
  queue : b.queue = a.queue
  lots : b.lots = a.lots

theorem beginDrain_stopsTo (env : LaneEnv) (ln : Lane) : ln.StopsTo (beginDrain env ln).lane := by
  by_cases hq : ln.queue = []
  case neg =>
    rw [beginDrain_waits env hq]
    exact ⟨(if_neg hq).symm, rfl, rfl, rfl, (if_neg hq).symm, fun h => absurd h hq, fun _ => ⟨rfl, rfl, rfl⟩, rfl, rfl,
      rfl, ⟨rfl, rfl, rfl, rfl, rfl, rfl⟩, rfl, rfl⟩
  case pos =>
    rw [beginDrain_empty env hq]
    obtain ⟨hqueue, hinjection, hswitch, _, hpmax, hp, hstate, _, _, _, _, _, _, hlots⟩ :=
      rest_lane { ln.setDraining with state := .stopped }
    obtain ⟨htaken, hkept, hmonitor, hsource, hlost⟩ := rest_scale { ln.setDraining with state := .stopped }
    exact ⟨hstate.trans (if_pos hq).symm, hinjection, hswitch, hp, hpmax.trans (if_pos hq).symm, fun _ => htaken,
      fun h => absurd hq h, hmonitor, hsource, hlost, ⟨hkept.setup, hkept.rate, hkept.pendingRate, hkept.accumulator,
      hkept.phases, hkept.phaseErrors⟩, hqueue, hlots⟩

theorem stopLane_running (hl : laneItem p 0 = some l) (h : s.lanes[l].state = .running) :
    stopLane tag p s = (s.ok 0x18 tag [Result.draining.code]).stepLane l beginDrain := by
  simp only [stopLane, hl, h]

theorem stopLane_draining (hl : laneItem p 0 = some l) (h : s.lanes[l].state = .draining) :
    stopLane tag p s = s.ok 0x18 tag [Result.noChange.code] := by
  simp only [stopLane, hl, h]

theorem stopLane_wrongState (hl : laneItem p 0 = some l)
    (h : s.lanes[l].state = .stopped ∨ s.lanes[l].state = .halted) :
    stopLane tag p s = s.refuse 0x18 tag .wrongState := by
  rcases h with h | h <;> simp only [stopLane, hl, h]

end Sys2Proof.Machine

namespace Sys2Proof

open Machine

/-- Settles O16. -/
theorem startLaneRuns : Obligations.StartLaneRuns := by
  unfold Obligations.StartLaneRuns
  intro s tag l h hstate hstop hhead reach hreach hpasses
  have hnone : s.lanes[l].cfg.geometry.failedCheck = none :=
    (failedCheck_spec _).1 (by rw [reach_of_reaches hreach]; exact hpasses)
  have hrun := (exec_taken (act := startLane tag [byte l.val]) (i := .startLane tag [byte l.val]) rfl h rfl).trans
    (congrArg Host.Outcome.next (startLane_runs (s := s.popInput) (laneItem_byte l []) hstate hstop hhead hnone))
  refine ⟨_, hrun, ?_⟩
  have hlane := stepLane_lane_of_same_queue (s := s.popInput.ok 0x17 tag []) (l := l) (f := startRun) rfl
  have hevents : ∀ e ∈ (startRun (s.env l) s.lanes[l]).effects, ∃ x, e = .event x :=
    fun e he => ⟨_, List.mem_singleton.mp he⟩
  rw [hlane]
  refine ⟨rfl, rfl, rfl, rfl, syncMonitor_watched _ _, ⟨rfl, rfl, rfl⟩, ⟨rfl, rfl, rfl, rfl, rfl, rfl⟩, rfl, rfl,
    rfl, rfl, rfl, rfl, rfl, ⟨rfl, rfl, rfl, rfl, rfl⟩, ?_, ?_, stepLane_frame _ _ _⟩
  · exact stepLane_flag (e := .laneState l .running .start) rfl (List.mem_singleton_self _)
  · exact stepLane_trace_of_events hevents

/-- Settles O17: the refusals in their order, the geometry checks by `failedCheck_spec`. -/
theorem startLaneRefusals : Obligations.StartLaneRefusals := by
  unfold Obligations.StartLaneRefusals
  intro s tag b h
  have htaken := exec_taken (act := startLane tag [b]) (i := .startLane tag [b]) rfl h rfl
  refine ⟨fun hb => ?_, ?_⟩
  · exact htaken.trans (congrArg Host.Outcome.next (startLane_badValue (laneItem_high hb _)))
  · rintro l rfl
    have hl := laneItem_byte l []
    refine ⟨fun hrefused => ?_, fun hstate hstop => ⟨fun hhead => ?_,
      fun hhead reach check st hreach hpasses hfails => ?_⟩⟩
    · exact htaken.trans (congrArg Host.Outcome.next (startLane_wrongState (s := s.popInput) hl hrefused))
    · exact htaken.trans (congrArg Host.Outcome.next (startLane_noHeads (s := s.popInput) hl hstate hstop hhead))
    · have hr := reach_of_reaches hreach
      subst hr
      have hfailed := (failedCheck_spec _).2 check st hpasses hfails
      refine htaken.trans (congrArg Host.Outcome.next
        ((startLane_failed (s := s.popInput) hl hstate hstop hhead hfailed).trans ?_))
      rw [beBytes_one]
      cases st with
      | none =>
        rw [optional_noStation]
        rfl
      | some x =>
        rw [optional_station]
        rfl

/-- Settles O18: a drain that has nothing to wait for completes in the same step. -/
theorem stopLaneDrains : Obligations.StopLaneDrains := by
  unfold Obligations.StopLaneDrains
  intro s tag l h
  have htaken := exec_taken (act := stopLane tag [byte l.val]) (i := .stopLane tag [byte l.val]) rfl h rfl
  have hl := laneItem_byte l []
  refine ⟨fun hstate => ?_, fun hstate => ?_, fun hstate => ?_⟩
  case refine_2 => exact htaken.trans (congrArg Host.Outcome.next (stopLane_draining (s := s.popInput) hl hstate))
  case refine_3 => exact htaken.trans (congrArg Host.Outcome.next (stopLane_wrongState (s := s.popInput) hl hstate))
  case refine_1 =>
    refine ⟨_, htaken.trans (congrArg Host.Outcome.next (stopLane_running (s := s.popInput) hl hstate)), ?_⟩
    have hevents := beginDrain_events (s.env l) s.lanes[l]
    have hflag : ((s.popInput.ok 0x18 tag [Result.draining.code]).stepLane l beginDrain).laneFlag l 0 = true :=
      stepLane_flag (e := .laneState l .draining .stop) rfl hevents.1
    have htrace : ((s.popInput.ok 0x18 tag [Result.draining.code]).stepLane l beginDrain).trace = s.trace :=
      stepLane_trace_of_events hevents.2
    have hstops := beginDrain_stopsTo (s.env l) s.lanes[l]
    have hlane : ((s.popInput.ok 0x18 tag [Result.draining.code]).stepLane l beginDrain).lanes[l] =
        (beginDrain (s.env l) s.lanes[l]).lane.syncMonitor (s.env l) := stepLane_lane_of_same_queue hstops.queue
    have hwatched := syncMonitor_watched (s.env l) (beginDrain (s.env l) s.lanes[l]).lane
    rw [Lane.keptTime, hstops.monitor] at hwatched
    rw [hlane]
    exact ⟨hstops.state, hstops.injection, hstops.pendingSwitch, hstops.position,
      hstops.pmax, hstops.taken, hstops.kept,
      hwatched, hstops.source, hstops.lost, hstops.timebase.syncMonitor _, hstops.queue, hstops.lots, hflag, htrace,
      stepLane_frame _ _ _⟩

end Sys2Proof
end

section
/-! Firings that end before their time: the max open time (R104), the loss of air (R106) and a station disabled
(R109): O32, O33, O44. -/

namespace Sys2Proof.Machine

/-! ## A step whose blocks close columns -/

section Step

variable {s : State} {l : LaneId} {f : LaneEnv → Lane → LaneOut}

theorem laneStep_steady (f : LaneEnv → Lane → LaneOut) (env : LaneEnv) (ln : Lane) :
    (f env ln).lane.Steady (laneStep f env ln).lane :=
  Lane.Steady.trans (b := (drainIfEmpty env ln (f env ln).lane).lane) (drainIfEmpty_steady _ _ _)
    ⟨rfl, rfl, rfl, rfl, rfl, rfl, rfl, rfl, rfl, fun h => ⟨h, rfl, rfl⟩⟩

/-- What a step shows whose blocks close columns and leave the lane's state, its scale and its monitor alone. -/
structure State.ClosesOn (s : State) (l : LaneId) (t : State) : Prop where
  ports : s.lanes[l].PortsFollow l t.lanes[l]
  rest : s.lanes[l].ClosedRest s.lineTime t.lanes[l]
  history : ∀ st : StationId, t.lanes[l].stations[st].history = s.lanes[l].stations[st].history
  drains : s.lanes[l].Drains t.lanes[l] (t.laneFlag l 0 = true)
  watched : t.lanes[l].WatchedFrom s.lines.debounced[driveLine l] (s.lanes[l].keptTime s.lineTime)

theorem stepLane_closesOn (hc : s.lanes[l].Closes s.lineTime (f (s.env l) s.lanes[l]).lane)
    (hs : (f (s.env l) s.lanes[l]).lane.state = s.lanes[l].state)
    (hk : s.lanes[l].ScaleKept (f (s.env l) s.lanes[l]).lane)
    (hm : (f (s.env l) s.lanes[l]).lane.tb.monitor = s.lanes[l].tb.monitor) :
    s.ClosesOn l (s.stepLane l f) := by
  obtain ⟨hports, hrest, hhistory⟩ := laneStep_closes hc
  have hlane := stepLane_lane s l f
  refine ⟨?_, ?_, fun st => ?_, stepLane_drains s l f hs hk, stepLane_watched s l f hm⟩
  · rw [hlane]
    exact hports
  · rw [hlane]
    exact hrest
  · rw [hlane]
    exact hhistory st

/-- A step whose blocks leave the belt side of the lane alone, and close columns. -/
theorem stepLane_closesOn_of_sameBelt (hc : s.lanes[l].Closes s.lineTime (f (s.env l) s.lanes[l]).lane)
    (hb : s.lanes[l].SameBelt (f (s.env l) s.lanes[l]).lane) : s.ClosesOn l (s.stepLane l f) :=
  stepLane_closesOn hc hb.state hb.scale (congrArg Timebase.monitor hb.tb)

theorem stepLane_steady (hb : s.lanes[l].SameBelt (f (s.env l) s.lanes[l]).lane) :
    s.lanes[l].Steady (s.stepLane l f).lanes[l] := by
  rw [stepLane_lane]
  exact hb.steady.trans (laneStep_steady _ _ _)

/-- What a step leaves of the parcels, the lots, the tally and the lists is what its blocks leave of them. -/
theorem stepLane_stock (s : State) (l : LaneId) (f : LaneEnv → Lane → LaneOut) :
    (s.stepLane l f).lanes[l].queue = (f (s.env l) s.lanes[l]).lane.queue ∧
      (s.stepLane l f).lanes[l].lots = (f (s.env l) s.lanes[l]).lane.lots ∧
      (s.stepLane l f).lanes[l].testTally = (f (s.env l) s.lanes[l]).lane.testTally ∧
      ∀ st : StationId, (s.stepLane l f).lanes[l].stations[st].list =
        (f (s.env l) s.lanes[l]).lane.stations[st].list := by
  rw [stepLane_lane]
  exact laneStep_stock f (s.env l) s.lanes[l]

end Step

/-! ## The max open time (R104) -/

section MaxOpen

variable {env : LaneEnv} {ln : Lane} {p : Parcel} {aim : Aim} {shot : Shot}

theorem endByMaxOpen_lane (hp : p.phase = .firing aim shot) :
    (endByMaxOpen env p ln).lane = closeColumns env ln (removeParcel env p.serial .isPartial ln).lane := by
  rw [endByMaxOpen, withClosing_lane, endFiring_eq _ _ _ _ _ _ hp]

theorem closeColumns_list (env : LaneEnv) (a b : Lane) (st : StationId) :
    (closeColumns env a b).stations[st].list = b.stations[st].list := by
  rw [closeColumns_station]

theorem overdue_of_due {now : Time} {m : Nat} (hfind : ln.find p.serial = some p) (hp : p.phase = .firing aim shot)
    (hmax : ln.maxOpenOf aim.station p.serial = some m) (hm : m ≤ (now - shot.openTime).toNat) :
    ln.overdue now p.serial = some p := by
  have hdue : ln.maxOpenDue now p = true := by
    rw [Lane.maxOpenDue, hp]
    dsimp only
    rw [hmax]
    exact decide_eq_true hm
  rw [Lane.overdue, hfind, Option.filter_some, if_pos hdue]

theorem removeParcel_list (o : Outcome) (hfind : ln.find p.serial = some p) (st : StationId) :
    (removeParcel env p.serial o ln).lane.stations[st].list =
      if p.station? = some st then ln.stations[st].list.filter (·.serial != p.serial)
      else ln.stations[st].list := by
  have hdrop : (ln.drop p).stations[st].list = _ := congrArg Station.list (leaveList_stations ln p st)
  unfold removeParcel
  rw [hfind]
  dsimp only
  split
  · exact hdrop
  · split
    · exact hdrop
    · exact hdrop

theorem station_of_firing (hp : p.phase = .firing aim shot) : p.station? = some aim.station := by
  rw [Parcel.station?, hp]

theorem endDrafts_of_firing (r : TraceReason) (hp : p.phase = .firing aim shot) :
    p.endDrafts r = [p.draftOf r aim.station] := by
  rw [Parcel.endDrafts, hp]

end MaxOpen

/-! ## The lines besides what acts on a lane (R151, R153) -/

theorem raise_laneFlag_mono {s : State} {l : LaneId} {k : Nat} (e : Event) (h : s.laneFlag l k = true) :
    (s.raise e).laneFlag l k = true := by
  unfold State.laneFlag at *
  rw [(raise_flags s e).1]
  unfold State.setFlag
  split
  case h_2 => exact h
  case h_1 j _ =>
    by_cases hj : j = l
    case pos =>
      subst hj
      simp only [Fin.getElem_fin, Vector.getElem_set_self, BitVec.getLsbD_or]
      exact Bool.or_eq_true_iff.mpr (.inl h)
    case neg =>
      have hne : j.val ≠ l.val := fun he => hj (Fin.ext he)
      simp only [Fin.getElem_fin, Vector.getElem_set_ne j.isLt l.isLt hne]
      exact h

theorem edgeNotice_laneFlag_mono {s : State} {l : LaneId} {k : Nat} (i : LineId) (level : Bool)
    (h : s.laneFlag l k = true) : (s.edgeNotice i level).laneFlag l k = true := by
  unfold State.edgeNotice
  split
  · exact raise_laneFlag_mono _ h
  · exact h

theorem millEdge_laneFlag_mono {s : State} {l : LaneId} {k : Nat} (i : DebouncedId) (level : Bool)
    (h : s.laneFlag l k = true) : (s.millEdge i level).laneFlag l k = true := by
  unfold State.millEdge
  split
  · exact raise_laneFlag_mono _ h
  · exact h

theorem driveEdge_other {s : State} {i : DebouncedId} (level : Bool) (hi : ∀ l, i ≠ driveLine l) :
    s.driveEdge i level = s := by
  have hnone : driveOf? i = none := by
    cases hd : driveOf? i with
    | none => rfl
    | some l => exact absurd (driveOf_eq_some.mp hd) (hi l)
  rw [State.driveEdge, hnone]

/-- A line that is no DRIVE_RUN leaves a flag that is set. -/
theorem settleLine_laneFlag_mono {s : State} {l : LaneId} {k : Nat} {i : DebouncedId} (hi : ∀ l, i ≠ driveLine l)
    (h : s.laneFlag l k = true) : (s.settleLine i).laneFlag l k = true := by
  unfold State.settleLine
  split
  · unfold State.debouncedEdge
    dsimp only
    rw [driveEdge_other _ hi]
    exact edgeNotice_laneFlag_mono _ _ (millEdge_laneFlag_mono _ _ h)
  · exact h

theorem airLine_ne_driveLine (l k : LaneId) : airLine l ≠ driveLine k := by
  revert l k
  decide

/-- The debouncer takes a change of a line that is no DRIVE_RUN: the lanes, the trace and the raw levels stay. -/
structure State.Debounces (s t : State) : Prop where
  raw : t.lines.raw = s.lines.raw
  trace : t.trace = s.trace
  gap : t.gapPending = s.gapPending
  lanes : ∀ l : LaneId, t.lanes[l] = s.lanes[l]
  flags : ∀ (l : LaneId) (k : Nat), s.laneFlag l k = true → t.laneFlag l k = true

/-- The state with a line's candidate as the debouncer leaves it on a raw change (R151). -/
def State.withCandidate (s : State) (i : DebouncedId) (level : Bool) : State :=
  let start := if s.lines.debounced[i] = level then none else some s.lineTime
  { s with lines := { s.lines with candidate := s.lines.candidate.set i start } }

theorem debounceRaw_eq (s : State) (i : DebouncedId) (level : Bool) :
    s.debounceRaw i level = (s.withCandidate i level).settleLine i := rfl

theorem debounceRaw_debounces (s : State) {i : DebouncedId} (level : Bool) (hi : ∀ l, i ≠ driveLine l) :
    s.Debounces (s.debounceRaw i level) := by
  obtain ⟨hraw, htrace, hgap, hlanes⟩ := settleLine_rest (s.withCandidate i level) i
  rw [debounceRaw_eq]
  exact ⟨hraw, htrace, hgap, fun l => hlanes l (hi l), fun l k h => settleLine_laneFlag_mono hi h⟩

/-! ## The raw AIR_OK level (R106, R154) -/

theorem rawChange_air {s : State} {l : LaneId} {level : Bool} (hw : s.phase = .working)
    (h : s.lines.raw[(airLine l).castSucc] = !level) :
    s.rawChange (airLine l).castSucc level =
      (if level then s.setRaw (airLine l).castSucc level
        else (s.setRaw (airLine l).castSucc level).stepLane l fun env => cutLane env .cutAir).debounceRaw
        (airLine l) level := by
  have hne : ¬s.lines.raw[(airLine l).castSucc] = level := by rw [h]; simp
  have hair : airOf? (airLine l).castSucc = some l := airOf_eq_some.mpr rfl
  rw [State.rawChange, if_neg hne, if_pos (live_of_working hw), State.rawAction,
    dif_pos (show (airLine l).castSucc.val < 25 from (airLine l).isLt), State.airAction, hair]
  rfl

/-- A removal reads of the part around a lane its number, the line time and the class table. -/
theorem removeParcel_congr {a b : LaneEnv} (hid : a.id = b.id) (hnow : a.now = b.now) (htable : a.table = b.table) :
    removeParcel a = removeParcel b := by
  funext serial o ln
  unfold removeParcel
  rw [hid, hnow, htable]

/-- The cut of a lane takes of a queue the parcels that fire, and those of their serials. -/
theorem cutLane_keeps (env : LaneEnv) (r : TraceReason) {ln : Lane} {p : Parcel} (hp : p ∈ ln.queue)
    (hs : ∀ q ∈ ln.queue, q.isFiring = true → q.serial ≠ p.serial) : p ∈ (cutLane env r ln).lane.queue := by
  have hkeeps : ∀ (x : Parcel) (y : Lane), x.isFiring = true ∧ x.serial ≠ p.serial → p ∈ y.queue →
      p ∈ (endFiring env r .cut x y).lane.queue := by
    intro x y hx hy
    rw [endFiring_queue _ _ _ _ _ hx.1]
    exact List.mem_filter.mpr ⟨hy, bne_iff_ne.mpr (Ne.symm hx.2)⟩
  have hall : ∀ (xs : List Parcel), (∀ x ∈ xs, x.isFiring = true ∧ x.serial ≠ p.serial) → ∀ y : Lane,
      p ∈ y.queue → p ∈ (runEach (endFiring env r .cut) xs y).lane.queue := by
    intro xs
    induction xs with
    | nil => exact fun _ _ hy => hy
    | cons x xs ih =>
      intro hx y hy
      rw [runEach_cons]
      exact ih (fun z hz => hx z (List.mem_cons_of_mem _ hz)) _ (hkeeps x y (hx x (List.mem_cons_self ..)) hy)
  refine hall _ (fun x hx => ?_) ln hp
  obtain ⟨hmem, hfiring⟩ := List.mem_filter.mp hx
  exact ⟨hfiring, hs x hmem hfiring⟩

/-- What the loss of air does on its lane (R106). -/
structure State.FiringsCut (s : State) (l : LaneId) (t : State) : Prop where
  noFire : t.lanes[l].NoFire
  keeps : ∀ p ∈ s.lanes[l].queue, p.isFiring = false → (∀ q ∈ s.lanes[l].queue, q.isFiring = true →
    q.serial ≠ p.serial) → p ∈ t.lanes[l].queue
  queue : (s.lanes[l].queue.map (·.serial)).Nodup → t.lanes[l].queue = s.lanes[l].queue.filter fun p => !p.isFiring
  stock : ∀ env : LaneEnv, env.id = l → env.now = s.lineTime → env.table = s.device.classTable →
    ∀ removed : LaneOut, removed = runEach (fun p => removeParcel env p.serial .cut)
        (s.lanes[l].queue.filter (·.isFiring)) s.lanes[l] →
      t.lanes[l].lots = removed.lane.lots ∧ t.lanes[l].testTally = removed.lane.testTally ∧
      ∀ st : StationId, t.lanes[l].stations[st].list = removed.lane.stations[st].list
  traces : s.lanes[l].queue.Pairwise Parcel.StandsBefore → s.Traces t (cutEntries s.lineTime l .cutAir s.lanes[l].queue)
  closes : s.ClosesOn l t
  steady : s.lanes[l].Steady t.lanes[l]
  others : ∀ k : LaneId, k ≠ l → t.lanes[k] = s.lanes[k]

theorem stepLane_firingsCut (s : State) (l : LaneId) :
    s.FiringsCut l (s.stepLane l fun env => cutLane env .cutAir) := by
  have hbelt := cutLane_sameBelt (s.env l) .cutAir s.lanes[l]
  have hcloses := stepLane_closesOn_of_sameBelt (f := fun env => cutLane env .cutAir)
    (cutLane_closes (s.env l) .cutAir s.lanes[l]) hbelt
  have hsteady := stepLane_steady (f := fun env => cutLane env .cutAir) hbelt
  obtain ⟨hqueue, hlots, htally, hlist⟩ := stepLane_stock s l fun env => cutLane env .cutAir
  obtain ⟨hlane, _, _, hcut⟩ := cutLane_cuts (s.env l) .cutAir s.lanes[l]
  refine ⟨?_, fun p hp _ hs => ?_, fun hn => hqueue.trans (hcut hn), fun env hid hnow htable removed hremoved => ?_,
    cut_traces s l .cutAir, hcloses, hsteady, (stepLane_frame s l _).lanes⟩
  · rw [Lane.NoFire, hqueue]
    exact cutLane_noFire _ _ _
  · rw [hqueue]
    exact cutLane_keeps _ _ hp hs
  · have henv : removeParcel env = removeParcel (s.env l) := removeParcel_congr hid hnow htable
    rw [henv] at hremoved
    subst hremoved
    refine ⟨?_, ?_, fun st => ?_⟩
    · rw [hlots, hlane]
      rfl
    · rw [htally, hlane]
      rfl
    · rw [hlist, hlane, closeColumns_list]

/-- The debouncer changes nothing of what the loss of air has done. -/
theorem State.FiringsCut.debounced {s t u : State} {l : LaneId} (h : s.FiringsCut l t) (hd : t.Debounces u) :
    s.FiringsCut l u where
  noFire := by rw [hd.lanes]; exact h.noFire
  keeps := by rw [hd.lanes]; exact h.keeps
  queue := by rw [hd.lanes]; exact h.queue
  stock := by rw [hd.lanes]; exact h.stock
  traces := fun hp => (h.traces hp).congr rfl rfl hd.trace hd.gap
  closes :=
    { ports := by rw [hd.lanes]; exact h.closes.ports
      rest := by rw [hd.lanes]; exact h.closes.rest
      history := by rw [hd.lanes]; exact h.closes.history
      drains := by rw [hd.lanes]; exact h.closes.drains.imp (hd.flags l 0)
      watched := by rw [hd.lanes]; exact h.closes.watched }
  steady := by rw [hd.lanes]; exact h.steady
  others := fun k hk => (hd.lanes k).trans (h.others k hk)

theorem setRaw_raw (s : State) (i : LineId) (level : Bool) : (s.setRaw i level).lines.raw[i] = level := by
  simp [State.setRaw]

/-- The raw level falls first, then the firings of the lane are cut, then the debouncer takes the change. -/
theorem exec_rawAirOkChange_loss {s : State} {l : LaneId} (hw : s.phase = .working)
    (h : s.lines.raw[(airLine l).castSucc] = true) :
    ∃ t, exec (.rawAirOkChange l false) s = .next t ∧ t.lines.raw[(airLine l).castSucc] = false ∧
      (s.setRaw (airLine l).castSucc false).FiringsCut l t := by
  have hd := debounceRaw_debounces ((s.setRaw (airLine l).castSucc false).stepLane l fun env => cutLane env .cutAir)
    false (airLine_ne_driveLine l)
  have hraw := (stepLane_frame (s.setRaw (airLine l).castSucc false) l fun env => cutLane env .cutAir).lines
  refine ⟨_, congrArg Host.Outcome.next (rawChange_air (level := false) hw h), ?_, ?_⟩
  · rw [if_neg (by decide), hd.raw, hraw]
    exact setRaw_raw _ _ _
  · rw [if_neg (by decide)]
    exact (stepLane_firingsCut _ _).debounced hd

end Sys2Proof.Machine

namespace Sys2Proof

open Machine

/-- Settles O33. -/
theorem maxOpenTimeEndsFiring : Obligations.MaxOpenTimeEndsFiring := by
  unfold Obligations.MaxOpenTimeEndsFiring
  intro s l p aim shot m hw hfind hp hmax hm
  have hexec : exec (.maxOpenTimeExpiry l p.serial) s =
      .next (s.stepLane l fun env => endByMaxOpen env p) := by
    show execMaxOpenTimeExpiry l p.serial s = _
    simp only [execMaxOpenTimeExpiry, overdue_of_due hfind hp hmax hm, live_of_working hw, if_true]
  have hbelt := endByMaxOpen_sameBelt (s.env l) p s.lanes[l]
  have hcloses := stepLane_closesOn_of_sameBelt (f := fun env => endByMaxOpen env p)
    (endByMaxOpen_closes (s.env l) p s.lanes[l]) hbelt
  have hsteady := stepLane_steady (f := fun env => endByMaxOpen env p) hbelt
  obtain ⟨hqueue, hlots, htally, hlist⟩ := stepLane_stock s l fun env => endByMaxOpen env p
  have hlane := endByMaxOpen_lane (env := s.env l) (ln := s.lanes[l]) hp
  refine ⟨_, hexec, ?_, hsteady.pos, hsteady.receivers, hsteady.geometry, hsteady.hostHold,
    ?_, ?_, ?_, ?_, hcloses.ports,
    hcloses.rest, hcloses.drains, hcloses.watched, stepLane_frame _ _ _⟩
  · rw [hqueue, hlane]
    exact removeParcel_queue _ _ _ _
  · rw [hlist, hlane, closeColumns_list, removeParcel_list _ hfind, if_pos (station_of_firing hp)]
  · rw [hlots, hlane]
    rfl
  · rw [htally, hlane]
    rfl
  · obtain ⟨hdrafts, hparcels⟩ := endFiring_drafts (s.env l) .cutMaxopen .isPartial p s.lanes[l]
    exact stepLane_traces s l (fun env => endByMaxOpen env p) [p.draftOf .cutMaxopen aim.station]
      (hdrafts.trans (endDrafts_of_firing _ hp)) hparcels (List.pairwise_singleton _ _)

/-- Settles O44. -/
theorem airLossCutsFirings : Obligations.AirLossCutsFirings := by
  unfold Obligations.AirLossCutsFirings
  intro s l hw
  refine ⟨fun hair => ?_, fun hair => ?_⟩
  case refine_2 =>
    have hd := debounceRaw_debounces (s.setRaw (airLine l).castSucc true) true (airLine_ne_driveLine l)
    refine ⟨_, congrArg Host.Outcome.next (rawChange_air (level := true) hw hair), ?_, fun k => hd.lanes k⟩
    exact (congrArg (fun v : Vector Bool 26 => v[(airLine l).castSucc]) hd.raw).trans (setRaw_raw _ _ _)
  case refine_1 =>
    obtain ⟨t, hexec, hraw, hcut⟩ := exec_rawAirOkChange_loss hw hair
    exact ⟨t, hexec, hraw, hcut.noFire, openSet_of_noFire hcut.noFire, hcut.keeps, hcut.queue,
      hcut.stock (s.env l) rfl rfl rfl, hcut.traces, hcut.closes.ports, hcut.closes.rest, hcut.closes.drains,
      hcut.closes.watched, hcut.steady.pos, hcut.others⟩

end Sys2Proof
end

section
/-! A station enabled and disabled (R92, R109): O32. -/

namespace Sys2Proof.Machine

/-! ## The parcels of the station leave it (R109) -/

section StationOff

variable {env : LaneEnv} {st : StationId} {p q : Parcel} {ln : Lane}

/-- A parcel sent on is no longer in the queue as it was, unless it has another serial. -/
theorem travel_leaves {f : Fraction} {o : Outcome} (hq : q ∈ (travel env p f o ln).lane.queue) :
    (q ∈ ln.queue ∧ q.serial ≠ p.serial) ∨ q.station? = none := by
  have hrides : ∀ x ∈ ((ln.leaveList p).revise p.serial fun y => { y with phase := .travelling f o }).queue,
      (x ∈ ln.queue ∧ x.serial ≠ p.serial) ∨ x.station? = none := by
    intro x hx
    obtain ⟨y, hy, rfl⟩ := List.mem_map.mp hx
    rw [leaveList_queue] at hy
    split
    case isTrue => exact .inr rfl
    case isFalse hs => exact .inl ⟨hy, hs⟩
  unfold travel at hq
  split at hq
  · rw [removeParcel_queue] at hq
    exact hrides q (List.mem_filter.mp hq).1
  · exact hrides q hq

theorem stationOff_leaves (hp : p.station? = some st) (hq : q ∈ (stationOff env st p ln).lane.queue) :
    (q ∈ ln.queue ∧ q.serial ≠ p.serial) ∨ q.station? = none := by
  cases hphase : p.phase with
  | firing aim shot =>
    have hfiring : p.isFiring = true := by rw [Parcel.isFiring, hphase]
    simp only [stationOff, hphase] at hq
    rw [endFiring_queue _ _ _ _ _ hfiring] at hq
    obtain ⟨hmem, hs⟩ := List.mem_filter.mp hq
    exact .inl ⟨hmem, bne_iff_ne.mp hs⟩
  | scheduled aim =>
    simp only [stationOff, hphase] at hq
    exact travel_leaves hq
  | forming c => simp [Parcel.station?, hphase] at hp
  | travelling f o => simp [Parcel.station?, hphase] at hp

/-- After every parcel of the station has been taken off, none stands at it. -/
theorem runEach_stationOff_clears (ps : List Parcel) (hps : ∀ p ∈ ps, p.station? = some st) (ln : Lane)
    (hq : ∀ q ∈ ln.queue, q.station? = some st → ∃ p ∈ ps, p.serial = q.serial) :
    ∀ q ∈ (runEach (stationOff env st) ps ln).lane.queue, q.station? ≠ some st := by
  induction ps generalizing ln with
  | nil =>
    intro q hmem hst
    obtain ⟨p, hp, _⟩ := hq q hmem hst
    cases hp
  | cons p ps ih =>
    rw [runEach_cons]
    refine ih (fun x hx => hps x (List.mem_cons_of_mem _ hx)) _ fun q hmem hst => ?_
    rcases stationOff_leaves (hps p (List.mem_cons_self ..)) hmem with ⟨hold, hs⟩ | hnone
    · obtain ⟨x, hx, hxs⟩ := hq q hold hst
      rcases List.mem_cons.mp hx with rfl | hx
      · exact absurd hxs.symm hs
      · exact ⟨x, hx, hxs⟩
    · rw [hnone] at hst
      cases hst

/-- The lane with the station's enable off (R109). -/
def Lane.stationDisabled (st : StationId) (ln : Lane) : Lane :=
  { ln with cfg := { ln.cfg with geometry :=
    { ln.cfg.geometry with stationEnable := ln.cfg.geometry.stationEnable.set st false } } }

theorem disableStation_clears (env : LaneEnv) (st : StationId) (ln : Lane) :
    ∀ q ∈ (disableStation env st ln).lane.queue, q.station? ≠ some st :=
  runEach_stationOff_clears _ (fun _ hp => beq_iff_eq.mp (List.mem_filter.mp hp).2) _ fun q hq hst =>
    ⟨q, List.mem_filter.mpr ⟨hq, beq_iff_eq.mpr hst⟩, rfl⟩

theorem disableStation_belt (env : LaneEnv) (st : StationId) (ln : Lane) :
    (ln.stationDisabled st).SameBelt (disableStation env st ln).lane :=
  withClosing_sameBelt env _ _ (runEach_sameBelt (stationOff_sameBelt env st) _ _)

theorem offDrafts_shape (p : Parcel) : (if p.station? = some st then p.offDrafts st else []) = [] ∨
    ∃ d, (if p.station? = some st then p.offDrafts st else []) = [d] ∧ d.serial = some p.serial ∧
      d.lead = some p.lead := by
  split
  case isFalse => exact .inl rfl
  case isTrue =>
    unfold Parcel.offDrafts
    split
    · exact .inr ⟨_, rfl, rfl, rfl⟩
    · exact .inr ⟨_, rfl, rfl, rfl⟩
    · exact .inl rfl

end StationOff

/-! ## The request (R92, R109) -/

section Request

variable {s : State} {tag : Byte} {p : List Byte} {l : LaneId} {st : StationId}

theorem enableStation_takes (hl : laneItem p 0 = some l) (hst : stationItem p 1 = some st) :
    enableStation tag p s = if s.lanes[l].cfg.geometry.stationEnable[st] then s.ok 0x29 tag [Result.noChange.code]
      else (s.ok 0x29 tag [Result.enabled.code]).editLane l (Lane.enableStation st) := by
  simp only [enableStation, hl, hst]

theorem disableStationOf_noChange (hl : laneItem p 0 = some l) (hst : stationItem p 1 = some st)
    (h : s.lanes[l].cfg.geometry.stationEnable[st] = false) :
    disableStationOf tag p s = s.ok 0x2A tag [Result.noChange.code] := by
  have hoff : ¬s.lanes[l].cfg.geometry.stationEnable[st] = true := by rw [h]; decide
  simp only [disableStationOf, hl, hst]
  exact if_neg hoff

theorem disableStationOf_disables (hl : laneItem p 0 = some l) (hst : stationItem p 1 = some st)
    (h : s.lanes[l].cfg.geometry.stationEnable[st] = true) :
    disableStationOf tag p s =
      (s.ok 0x2A tag [Result.disabled.code]).stepLane l fun env => disableStation env st := by
  simp only [disableStationOf, hl, hst]
  exact if_pos h

/-- What DISABLE_STATION does on its lane (R109). -/
structure State.StationOff (s : State) (l : LaneId) (st : StationId) (t : State) : Prop where
  off : t.lanes[l].cfg.geometry.stationEnable[st] = false
  clears : ∀ p ∈ t.lanes[l].queue, p.station? ≠ some st
  queue : (s.lanes[l].queue.map (·.serial)).Nodup → t.lanes[l].queue = s.lanes[l].queue.filterMap fun p =>
    if p.station? = some st then p.offLeaves s.lanes[l].cfg.geometry.exitDistance s.lanes[l].tb.pmax else some p
  counts : (s.lanes[l].queue.map (·.serial)).Nodup → t.lanes[l].SameCounts
    (runEach (fun z => removeParcel (s.env l) z.1 z.2) (s.lanes[l].queue.filterMap fun p => if p.station? = some st
      then (p.offRemoves s.lanes[l].cfg.geometry.exitDistance s.lanes[l].tb.pmax).map fun o => (p.serial, o)
      else none) s.lanes[l]).lane
  list : (s.lanes[l].queue.map (·.serial)).Nodup → t.lanes[l].stations[st].list =
    s.lanes[l].stations[st].list.filter fun e =>
      !s.lanes[l].queue.any fun p => p.station? == some st && p.serial == e.serial
  traces : s.lanes[l].queue.Pairwise Parcel.StandsBefore → s.Traces t ((s.lanes[l].queue.flatMap fun p =>
    if p.station? = some st then p.offDrafts st else []).map (·.entry l s.lineTime false))
  closes : s.ClosesOn l t
  position : t.lanes[l].tb.p = s.lanes[l].tb.p
  receivers : t.lanes[l].receivers = s.lanes[l].receivers
  frame : s.LaneFrame l t

theorem stepLane_stationOff (s : State) (l : LaneId) (st : StationId) :
    s.StationOff l st (s.stepLane l fun env => disableStation env st) := by
  have hbelt := disableStation_belt (s.env l) st s.lanes[l]
  obtain ⟨hdrafts, hparcels, hsettled⟩ := disableStation_settles (s.env l) st s.lanes[l]
  obtain ⟨hqueue, hlots, htally, hlist⟩ := stepLane_stock s l fun env => disableStation env st
  have hsteady := laneStep_steady (fun env => disableStation env st) (s.env l) s.lanes[l]
  have hlane := stepLane_lane s l fun env => disableStation env st
  refine ⟨?_, ?_, fun hn => hqueue.trans (hsettled hn).1, fun hn => ?_, fun hn => ?_, fun hp => ?_,
    stepLane_closesOn (disableStation_closes (s.env l) st _) hbelt.state ?_ ?_, ?_, ?_, stepLane_frame _ _ _⟩
  · rw [hlane, hsteady.geometry, hbelt.cfg]
    simp [Lane.stationDisabled]
  · rw [hqueue]
    exact disableStation_clears _ _ _
  · obtain ⟨hl, ht⟩ := (hsettled hn).2.1
    exact ⟨hlots.trans hl, htally.trans ht⟩
  · rw [hlist, (hsettled hn).2.2 st, if_pos rfl]
  · exact stepLane_traces s l (fun env => disableStation env st) _ hdrafts hparcels
      (drafts_pairwise offDrafts_shape hp)
  · exact hbelt.scale
  · rw [hbelt.tb]
    rfl
  · rw [hlane, hsteady.pos, hbelt.tb]
    rfl
  · rw [hlane, hsteady.receivers, hbelt.receivers]
    rfl

theorem exec_disableStation_disables (h : s.takeable ⟨tag, 0x2A, [byte l.val, byte st.val]⟩ = true)
    (hon : s.lanes[l].cfg.geometry.stationEnable[st] = true) :
    ∃ t, exec (.disableStation tag [byte l.val, byte st.val]) s = .next t ∧
      (s.answered ⟨tag, 0xAA, [0x00, 0x06]⟩).StationOff l st t := by
  refine ⟨_, (exec_taken (act := disableStationOf tag [byte l.val, byte st.val])
    (i := .disableStation tag [byte l.val, byte st.val]) rfl h rfl).trans (congrArg Host.Outcome.next
    (disableStationOf_disables (s := s.popInput) (laneItem_byte l _) (stationItem_byte _ st _) hon)), ?_⟩
  exact stepLane_stationOff _ l st

end Request

end Sys2Proof.Machine

namespace Sys2Proof

open Machine

/-- Settles O32: enabling changes the enable alone; disabling takes every parcel of the station off it. -/
theorem stationEnabledAndDisabled : Obligations.StationEnabledAndDisabled := by
  unfold Obligations.StationEnabledAndDisabled
  intro s tag l st
  refine ⟨fun h => ?_, fun h => ⟨fun hoff => ?_, fun hon => ?_⟩⟩
  · refine (exec_taken (act := enableStation tag [byte l.val, byte st.val])
      (i := .enableStation tag [byte l.val, byte st.val]) rfl h rfl).trans (congrArg Host.Outcome.next ?_)
    refine (enableStation_takes (s := s.popInput) (laneItem_byte l _) (stationItem_byte _ st _)).trans ?_
    split
    · exact (if_pos ‹_›).symm
    · exact (if_neg ‹_›).symm
  · exact (exec_taken (act := disableStationOf tag [byte l.val, byte st.val])
      (i := .disableStation tag [byte l.val, byte st.val]) rfl h rfl).trans (congrArg Host.Outcome.next
      (disableStationOf_noChange (s := s.popInput) (laneItem_byte l _) (stationItem_byte _ st _) hoff))
  · obtain ⟨t, hexec, hoff⟩ := exec_disableStation_disables h hon
    refine ⟨t, hexec, hoff.off, hoff.clears, fun hn => ⟨?_, fun removed hremoved => ?_, fun hlist => ?_⟩, fun hp => ?_,
      hoff.closes.ports, hoff.closes.rest, hoff.closes.drains, hoff.closes.watched, hoff.position, hoff.receivers,
      hoff.closes.history st, hoff.frame⟩
    · refine (hoff.queue hn).trans (List.filterMap_congr fun p _ => ?_)
      cases hphase : p.phase with
      | firing aim shot => simp [Parcel.station?, Parcel.offLeaves, hphase]
      | scheduled aim =>
        by_cases hst : aim.station = st
        · simp only [Parcel.station?, Parcel.offLeaves, hphase, hst, if_true, ne_eq, not_true_eq_false, if_false]
          rfl
        · simp [Parcel.station?, hphase, hst]
      | forming c => simp [Parcel.station?, hphase]
      | travelling f o => simp [Parcel.station?, hphase]
    · have hcounts := hoff.counts hn
      rw [hremoved]
      refine (congrArg (fun xs => t.lanes[l].SameCounts (runEach
        (fun (z : Serial × Outcome) => removeParcel (s.env l) z.1 z.2) xs s.lanes[l]).lane)
        (List.filterMap_congr fun p _ => ?_)).mp hcounts
      cases hphase : p.phase with
      | firing aim shot => simp [Parcel.station?, Parcel.offRemoves, hphase]
      | scheduled aim =>
        by_cases hst : aim.station = st
        · simp only [Parcel.station?, Parcel.offRemoves, hphase, hst, if_true, true_and]
          exact apply_ite (Option.map fun o => (p.serial, o)) _ _ _
        · simp [Parcel.station?, hphase, hst]
      | forming c => simp [Parcel.station?, hphase]
      | travelling f o => simp [Parcel.station?, hphase]
    · rw [hoff.list hn, List.filter_eq_nil_iff]
      intro e he
      obtain ⟨p, hp, hserial, hst⟩ := hlist e he
      simp only [Bool.not_eq_true', Bool.not_eq_false, List.any_eq_true]
      exact ⟨p, hp, by simp [hserial, hst]⟩
    · have htraces := hoff.traces hp
      rw [List.map_flatMap] at htraces
      refine (congrArg (s.Traces t) (List.flatMap_congr fun p _ => ?_)).mp htraces
      cases hphase : p.phase with
      | firing aim shot =>
        by_cases hst : aim.station = st
        · simp only [Parcel.station?, Parcel.offDrafts, hphase, hst, if_true, List.map_cons, List.map_nil]
          rw [draftOf_entry]
          rfl
        · simp [Parcel.station?, hphase, hst]
      | scheduled aim =>
        by_cases hst : aim.station = st
        · simp only [Parcel.station?, Parcel.offDrafts, hphase, hst, if_true, List.map_cons, List.map_nil]
          rw [draftOf_entry]
          rfl
        · simp [Parcel.station?, hphase, hst]
      | forming c => simp [Parcel.station?, hphase]
      | travelling f o => simp [Parcel.station?, hphase]

end Sys2Proof
end

section
/-! A lot closed by the host (R139, R140): O35. -/

namespace Sys2Proof.Machine

variable {s : State} {tag : Byte} {p : List Byte} {l : LaneId} {id : LotId}

/-! ## The close at the lot unit -/

/-- The record of a filling lot that the host closes. -/
def LotRecord.hostClosed (r : LotRecord) (now : Time) : LotRecord :=
  { r with closeTime := some now, closeCause := some .host }

/-- The lot unit after a close by the host whose lot completes in the same step (R139). -/
def LotUnit.hostCompleted (u : LotUnit) (lane : LaneId) (now : Time) (id : LotId) : LotUnit :=
  (u.closeFilling lane now .host id).completed now (u.filling.hostClosed now)

theorem closedRing_last (ring : List LotRecord) (r : LotRecord) :
    ((ring ++ [r]).drop ((ring ++ [r]).length - 4)).getLast? = some r := by
  rw [List.getLast?_drop, if_neg (by simp only [List.length_append, List.length_singleton]; omega),
    List.getLast?_concat]

theorem hostClose_waits (env : LaneEnv) {ln : Lane} (h : ln.lots.filling.allRemoved = false) :
    hostClose id env ln = ({ ln with lots := ln.lots.closeFilling env.id env.now .host id } : Lane).quiet := by
  obtain ⟨hwaits, _⟩ := settle_ends env.id env.now (ln.lots.closeFilling env.id env.now .host id)
    (ln.lots.filling.hostClosed env.now) rfl
  have hnot : ¬(ln.lots.filling.hostClosed env.now).Done := fun hd =>
    absurd (h.symm.trans ((allRemoved_iff _).mpr hd)) (by decide)
  obtain ⟨hunit, hevents⟩ := hwaits hnot
  rw [hostClose, Lane.withLots, hunit, hevents]
  rfl

theorem hostClose_completes (env : LaneEnv) {ln : Lane} (h : ln.lots.filling.allRemoved = true) :
    hostClose id env ln = ⟨{ ln with lots := ln.lots.hostCompleted env.id env.now id },
      [.event (.lotDone env.id ln.lots.filling.id .host ln.lots.nextCompletion)]⟩ := by
  obtain ⟨_, hends⟩ := settle_ends env.id env.now (ln.lots.closeFilling env.id env.now .host id)
    (ln.lots.filling.hostClosed env.now) rfl
  have hdone : (ln.lots.filling.hostClosed env.now).Done := (allRemoved_iff _).mp h
  obtain ⟨hunit, hevents⟩ := (hends .host rfl hdone).1 rfl
  rw [hostClose, Lane.withLots, hunit, hevents]
  rfl

/-! ## CLOSE_LOT -/

theorem closeLot_badLane (hl : laneItem p 0 = none) : closeLot tag p s = s.refuse 0x30 tag .badValue := by
  simp only [closeLot, hl]

theorem closeLot_sameId (hl : laneItem p 0 = some l) (hid : BitVec.ofNat 16 (item p 1 2) = id)
    (h : id = s.lanes[l].lots.filling.id) : closeLot tag p s = s.refuse 0x30 tag .badValue := by
  simp only [closeLot, hl, hid]
  exact if_pos h

theorem closeLot_draining (hl : laneItem p 0 = some l) (hid : BitVec.ofNat 16 (item p 1 2) = id)
    (h : id ≠ s.lanes[l].lots.filling.id) (hd : s.lanes[l].lots.draining ≠ none) :
    closeLot tag p s = s.refuse 0x30 tag .lotDraining := by
  simp only [closeLot, hl, hid]
  rw [if_neg h]
  exact if_pos (Option.isSome_iff_ne_none.mpr hd)

theorem closeLot_closes (hl : laneItem p 0 = some l) (hid : BitVec.ofNat 16 (item p 1 2) = id)
    (h : id ≠ s.lanes[l].lots.filling.id) (hd : s.lanes[l].lots.draining = none) :
    closeLot tag p s = (s.ok 0x30 tag [if s.lanes[l].lots.filling.allRemoved then Result.completed.code
      else Result.draining.code]).stepLane l (hostClose id) := by
  simp only [closeLot, hl, hid]
  rw [if_neg h, if_neg (by rw [hd]; decide)]
  rfl

/-- What a close by the host does on its lane. -/
structure State.HostCloses (s : State) (l : LaneId) (id : LotId) (t : State) : Prop where
  filling : t.lanes[l].lots.filling = .fresh l id s.lineTime
  pendingClose : t.lanes[l].lots.pendingClose = false
  waits : s.lanes[l].lots.filling.allRemoved = false →
    t.lanes[l].lots.draining = some (s.lanes[l].lots.filling.hostClosed s.lineTime)
  completes : s.lanes[l].lots.filling.allRemoved = true → t.lanes[l].lots.draining = none ∧
    t.lanes[l].lots.nextCompletion = s.lanes[l].lots.nextCompletion + 1 ∧
    t.lanes[l].lots.ring.getLast? = some { s.lanes[l].lots.filling.hostClosed s.lineTime with
      doneTime := some s.lineTime, completion := some s.lanes[l].lots.nextCompletion } ∧
    t.laneFlag l 3 = true
  queue : t.lanes[l].queue = s.lanes[l].queue
  position : t.lanes[l].tb.p = s.lanes[l].tb.p
  trace : t.trace = s.trace
  frame : s.LaneFrame l t

theorem stepLane_hostCloses (s : State) (l : LaneId) (id : LotId) :
    s.HostCloses l id (s.stepLane l (hostClose id)) := by
  cases hr : s.lanes[l].lots.filling.allRemoved with
  | false =>
    have hf := hostClose_waits (id := id) (s.env l) hr
    have hlane := stepLane_quiet_lane hf rfl
    refine ⟨?_, ?_, fun _ => ?_, fun h => absurd (hr.symm.trans h) (by decide), ?_, ?_, ?_, stepLane_frame _ _ _⟩
    · rw [hlane]; rfl
    · rw [hlane]; rfl
    · rw [hlane]; rfl
    · rw [hlane]; rfl
    · rw [hlane]; rfl
    · rw [stepLane_quiet hf rfl]; rfl
  | true =>
    have hf := hostClose_completes (id := id) (s.env l) hr
    have hlane : (s.stepLane l (hostClose id)).lanes[l] = _ :=
      (stepLane_lane s l _).trans (congrArg LaneOut.lane (laneStep_event hf rfl))
    refine ⟨?_, ?_, fun h => absurd (hr.symm.trans h) (by decide), fun _ => ⟨?_, ?_, ?_, ?_⟩, ?_, ?_, ?_,
      stepLane_frame _ _ _⟩
    · rw [hlane]; rfl
    · rw [hlane]; rfl
    · rw [hlane]; rfl
    · rw [hlane]; rfl
    · rw [hlane]
      exact closedRing_last _ _
    · exact stepLane_flag (e := .lotDone l _ _ _) rfl (by rw [hf]; exact List.mem_singleton_self _)
    · rw [hlane]; rfl
    · rw [hlane]; rfl
    · exact stepLane_trace_of_events fun e he => ⟨_, List.mem_singleton.mp (by rw [hf] at he; exact he)⟩

/-- CLOSE_LOT is answered COMPLETED where the lot completes at once, DRAINING where it does not (R139). -/
theorem closeLot_answer (s : State) (tag : Byte) (completes : Bool) :
    s.popInput.ok 0x30 tag [if completes then Result.completed.code else Result.draining.code] =
      s.answered ⟨tag, 0xB0, [0x00, if completes then 0x04 else 0x03]⟩ := by
  cases completes with
  | false => rfl
  | true => rfl

theorem exec_closeLot_taken (h : s.takeable ⟨tag, 0x30, byte l.val :: beBytes 2 id.toNat⟩ = true)
    (hid : id ≠ s.lanes[l].lots.filling.id) (hd : s.lanes[l].lots.draining = none) :
    ∃ t, exec (.closeLot tag (byte l.val :: beBytes 2 id.toNat)) s = .next t ∧
      (s.answered ⟨tag, 0xB0,
        [0x00, if s.lanes[l].lots.filling.allRemoved then 0x04 else 0x03]⟩).HostCloses l id t := by
  refine ⟨_, (exec_taken (act := closeLot tag (byte l.val :: beBytes 2 id.toNat)) (i := .closeLot tag _) rfl h
    rfl).trans (congrArg Host.Outcome.next
    (closeLot_closes (s := s.popInput) (laneItem_byte l _) (item_lotId _ id) hid hd)), ?_⟩
  rw [← closeLot_answer]
  exact stepLane_hostCloses _ l id

end Sys2Proof.Machine

namespace Sys2Proof

open Machine

/-- Settles O35. -/
theorem closeLotTaken : Obligations.CloseLotTaken := by
  unfold Obligations.CloseLotTaken
  refine ⟨fun s tag b id hb h => ?_, fun s tag l id h => ⟨fun hid => ?_, fun hid hd => ?_, fun hid hd => ?_⟩⟩
  · exact (exec_taken (act := closeLot tag (b :: beBytes 2 id.toNat)) (i := .closeLot tag _) rfl h rfl).trans
      (congrArg Host.Outcome.next (closeLot_badLane (laneItem_high hb _)))
  · exact (exec_taken (act := closeLot tag (byte l.val :: beBytes 2 id.toNat)) (i := .closeLot tag _) rfl h rfl).trans
      (congrArg Host.Outcome.next (closeLot_sameId (s := s.popInput) (laneItem_byte l _) (item_lotId _ id) hid))
  · exact (exec_taken (act := closeLot tag (byte l.val :: beBytes 2 id.toNat)) (i := .closeLot tag _) rfl h rfl).trans
      (congrArg Host.Outcome.next (closeLot_draining (s := s.popInput) (laneItem_byte l _) (item_lotId _ id) hid hd))
  · obtain ⟨t, hexec, hc⟩ := exec_closeLot_taken h hid hd
    refine ⟨t, hexec, hc.filling, hc.pendingClose, fun hr => ⟨hc.waits hr, ?_⟩, fun hr => ?_, hc.queue, hc.position,
      hc.trace⟩
    · have hframe := hc.frame
      rw [hr] at hframe
      exact hframe
    · obtain ⟨hdraining, hnext, hring, hflag⟩ := hc.completes hr
      have hframe := hc.frame
      rw [hr] at hframe
      exact ⟨hdraining, hnext, hring, hflag, hframe⟩

end Sys2Proof
end

section
/-! A lane that is flushed: RESET_LANE (R22, R47, R122, R124, R147): O20. -/

namespace Sys2Proof.Machine

/-! ## A step that brings its lane to rest -/

section Step

variable {s : State} {l : LaneId} {f : LaneEnv → Lane → LaneOut} {env : LaneEnv} {ln z : Lane}

theorem laneStep_lane_of_rest (hz : (f env ln).lane = z) (ha : z.active = false) :
    (laneStep f env ln).lane = syncPorts env.id ln (z.syncMonitor env) := by
  show syncPorts env.id ln ((drainIfEmpty env ln (f env ln).lane).lane.syncMonitor env) = _
  rw [hz, drainIfEmpty_rest env ln ha]

/-- The entries of a step that names no parcel in them (R167). -/
theorem stepLane_traces_loose {ls : List TraceDraft}
    (hp : (f (s.env l) s.lanes[l]).effects.filterMap Effect.parcelDraft? = [])
    (hl : (f (s.env l) s.lanes[l]).effects.filterMap Effect.looseDraft? = ls) :
    s.Traces (s.stepLane l f) (ls.map (·.entry l s.lineTime false)) := by
  obtain ⟨es, he⟩ := drainIfEmpty_events (s.env l) s.lanes[l] (f (s.env l) s.lanes[l]).lane
  have heffects : ((f (s.env l) s.lanes[l]).andThen (drainIfEmpty (s.env l) s.lanes[l])).effects =
      (f (s.env l) s.lanes[l]).effects ++ es.map .event := congrArg (_ ++ ·) he
  have hparcels : ((f (s.env l) s.lanes[l]).andThen (drainIfEmpty (s.env l) s.lanes[l])).effects.filterMap
      Effect.parcelDraft? = [] := by
    rw [heffects, List.filterMap_append, hp, parcelDrafts_events, List.append_nil]
  have hloose : ((f (s.env l) s.lanes[l]).andThen (drainIfEmpty (s.env l) s.lanes[l])).effects.filterMap
      Effect.looseDraft? = ls := by
    rw [heffects, List.filterMap_append, hl, looseDrafts_events, List.append_nil]
  have hentries : entriesOf l s.lineTime (laneStep f (s.env l) s.lanes[l]).effects =
      ls.map (·.entry l s.lineTime false) := entriesOf_parts l s.lineTime hparcels hloose .nil
  have hcommit := commit_traces l (laneStep f (s.env l) s.lanes[l]).effects
    (s.setLane l (laneStep f (s.env l) s.lanes[l]).lane)
  rw [show (s.setLane l (laneStep f (s.env l) s.lanes[l]).lane).lineTime = s.lineTime from rfl, hentries] at hcommit
  exact hcommit

end Step

/-! ## What a flush leaves of the lots (R140, R142, R147) -/

section Flush

variable {env : LaneEnv} {a b ln : Lane}

/-- What a flush leaves is a matter of the queue, the firing lists, the tally and, where they agree, the lots. -/
theorem Lane.Flushes.of_parts {b' : Lane} (h : a.Flushes env b) (hq : b'.queue = b.queue)
    (hlist : ∀ st : StationId, b'.stations[st].list = b.stations[st].list) (htally : b'.testTally = b.testTally)
    (hlots : a.LotsAgree → b'.lots = b.lots) : a.Flushes env b' where
  queue := hq.trans h.queue
  lists := fun hn st he => (hlist st).trans (h.lists hn st he)
  tally := by rw [htally]; exact h.tally
  otherTally := by rw [htally]; exact h.otherTally
  lots := fun hagree => by rw [hlots hagree]; exact h.lots hagree

theorem LotUnit.finish_idle {u : LotUnit} (lane : LaneId) (now : Time) (hd : u.draining = none)
    (hp : u.pendingClose = false) : u.finish lane now = ⟨u, []⟩ := by
  have hcomplete : u.complete lane now = ⟨u, []⟩ := by rw [LotUnit.complete, hd]
  rw [LotUnit.finish, hcomplete]
  exact if_neg fun h => absurd (hp.symm.trans h.2) (by decide)

theorem complete_unit {u : LotUnit} {d : LotRecord} (lane : LaneId) (now : Time) (hd : u.draining = some d) :
    u.complete lane now = ⟨u.completed now d, [.lotDone lane d.id (d.closeCause.getD .host) u.nextCompletion]⟩ := by
  rw [LotUnit.complete, hd]
  simp [LotUnit.completed, appendRing, ringCapacity]

theorem complete_parts (lane : LaneId) (now : Time) (u : LotUnit) :
    (u.complete lane now).unit.draining = none ∧ (u.complete lane now).unit.pendingClose = u.pendingClose := by
  cases hd : u.draining with
  | none =>
    rw [LotUnit.complete, hd]
    exact ⟨hd, rfl⟩
  | some d =>
    rw [complete_unit lane now hd]
    exact ⟨rfl, rfl⟩

/-- Without a pending close a completion is all that follows (R142). -/
theorem finish_of_not_pending {u : LotUnit} (lane : LaneId) (now : Time) (hp : u.pendingClose = false) :
    u.finish lane now = u.complete lane now := by
  refine if_neg fun h => ?_
  rw [(complete_parts lane now u).2, hp] at h
  exact absurd h.2 (by decide)

theorem finish_parts_of_not_pending {u : LotUnit} (lane : LaneId) (now : Time) (hp : u.pendingClose = false) :
    (u.finish lane now).unit.draining = none ∧ (u.finish lane now).unit.pendingClose = false := by
  rw [finish_of_not_pending lane now hp]
  obtain ⟨hdraining, hpending⟩ := complete_parts lane now u
  exact ⟨hdraining, hpending.trans hp⟩

theorem accrueRemoval_pendingClose (lot : LotId) (r : RemovalReport) (u : LotUnit) :
    (u.accrueRemoval lot r).pendingClose = u.pendingClose := by
  unfold LotUnit.accrueRemoval
  split
  · split
    · rfl
    · split
      · rfl
      · rfl
  · split
    · rfl
    · rfl

theorem loseParcel_pendingClose (env : LaneEnv) (ln : Lane) (serial : Serial) :
    (loseParcel env ln serial).lots.pendingClose = ln.lots.pendingClose := by
  unfold loseParcel
  split
  case h_1 => rfl
  case h_2 p _ =>
    have hdrop := congrArg LotUnit.pendingClose (drop_fields ln p).2
    split
    · exact hdrop
    · split
      · exact hdrop
      · exact accrueRemoval_pendingClose _ _ _

theorem loseAll_pendingClose (env : LaneEnv) (ln : Lane) :
    (loseAll env ln).lots.pendingClose = ln.lots.pendingClose := by
  have hall : ∀ (xs : List Serial) (x : Lane),
      (xs.foldl (loseParcel env) x).lots.pendingClose = x.lots.pendingClose := by
    intro xs
    induction xs with
    | nil => exact fun _ => rfl
    | cons serial xs ih => exact fun x => (ih _).trans (loseParcel_pendingClose env x serial)
  exact hall _ ln

theorem flush_lots (env : LaneEnv) (ln : Lane) : (flush env ln).lane.lots =
    ((loseAll env { ln with injection := none }).lots.settle env.id env.now).unit :=
  (rest_stock (Lane.dropSwitch { loseAll env { ln with injection := none } with
    lots := ((loseAll env { ln with injection := none }).lots.settle env.id env.now).unit })).lots

theorem flush_pendingClose (env : LaneEnv) (hp : ln.lots.pendingClose = false) :
    (flush env ln).lane.lots.pendingClose = false := by
  have hlost := (loseAll_pendingClose env { ln with injection := none }).trans hp
  rw [flush_lots, LotUnit.settle]
  split
  · exact (finish_parts_of_not_pending _ _ hlost).2
  · exact hlost

/-- Where the lots agree, a flush completes the draining lot (R140, R147). -/
theorem flush_lotDone (hagree : ln.LotsAgree) (hd : ln.lots.draining ≠ none) :
    ∃ id cause n, .event (.lotDone env.id id cause n) ∈ (flush env ln).effects := by
  obtain ⟨d, hdraining⟩ := Option.ne_none_iff_exists'.mp hd
  obtain ⟨cause, hcause⟩ := Option.ne_none_iff_exists'.mp (hagree.draining d hdraining).2.2
  obtain ⟨d', r, v, es, hdone, hcause', _, hends, heffects⟩ := (flush_flushes env ln).2.1 d hdraining hagree
  obtain ⟨hwhole, hpending⟩ := hends.2 cause (hcause'.trans hcause) hdone
  refine ⟨d'.id, cause, ln.lots.nextCompletion, ?_⟩
  rw [heffects]
  refine List.mem_append_left _ ?_
  cases hp : ln.lots.pendingClose with
  | false =>
    rw [(hwhole hp).2]
    exact List.mem_singleton_self _
  | true =>
    by_cases hc : LotRecord.Done { r with closeTime := some env.now, closeCause := some .limit }
    · rw [((hpending hp).2 hc).2]
      exact List.mem_cons_self ..
    · rw [((hpending hp).1 hc).2]
      exact List.mem_singleton_self _

/-- Where the lots agree, a flush takes a pending close too, and completes its lot (R142, R147). -/
theorem Lane.Flushes.pendingClose (h : a.Flushes env b) (hagree : a.LotsAgree)
    (hp : a.lots.pendingClose = true) : b.lots.nextCompletion = a.lots.nextCompletion + 2 ∧
      b.lots.filling = .fresh env.id (a.lots.filling.id + 1) env.now := by
  obtain ⟨d, hdraining⟩ := Option.ne_none_iff_exists'.mp (hagree.pending hp)
  obtain ⟨cause, hcause⟩ := Option.ne_none_iff_exists'.mp (hagree.draining d hdraining).2.2
  obtain ⟨r, hlost, hdone, _, hcompletes, _⟩ := h.lots hagree
  obtain ⟨d', es, hlost', hdone', hends⟩ := hcompletes d hdraining
  have hcause' : d'.closeCause = some cause := by rw [hlost'.rest]; exact hcause
  have hid : r.id = a.lots.filling.id := by rw [hlost.rest]
  rw [(((hends.2 cause hcause' hdone').2 hp).2 hdone).1, ← hid]
  refine ⟨?_, rfl⟩
  show a.lots.nextCompletion + 1 + 1 = _
  rw [BitVec.add_assoc]
  rfl

end Flush

/-! ## RESET_LANE (R47, R124, R147) -/

section Reset

variable {s : State} {l : LaneId} {env : LaneEnv} {ln : Lane}

/-- The first act of a reset: the flush of a lane that runs or drains. -/
def Lane.flushedIfActive (env : LaneEnv) (ln : Lane) : LaneOut := if ln.active then flush env ln else ln.quiet

/-- The lots of a reset: what follows the flush. -/
def Lane.resetLots (env : LaneEnv) (ln : Lane) : LotOut := (ln.flushedIfActive env).lane.lots.finish env.id env.now

/-- The lane that a reset leaves to come to rest. -/
def Lane.resetFields (env : LaneEnv) (ln : Lane) : Lane :=
  let x : Lane := (ln.flushedIfActive env).lane.dropSwitch
  { x with
    lots := (ln.resetLots env).unit
    state := .stopped
    injection := none
    tb := { x.tb with source := x.cfg.setup.source, encoderLost := false } }

theorem resetLane_lane (env : LaneEnv) (ln : Lane) : (resetLane env ln).lane = (ln.resetFields env).rest := rfl

theorem resetLane_effects (env : LaneEnv) (ln : Lane) : (resetLane env ln).effects =
    (ln.flushedIfActive env).effects ++ (ln.resetLots env).events.map .event ++
      if ln.state = .stopped then [] else [.event (.laneState env.id .stopped .reset)] := rfl

theorem flushedIfActive_of_active (ha : ln.active = true) : ln.flushedIfActive env = flush env ln := if_pos ha

theorem flushedIfActive_of_inactive (ha : ln.active = false) : ln.flushedIfActive env = ln.quiet :=
  if_neg (by rw [ha]; decide)

/-- What a reset leaves on every lane. -/
structure Lane.ResetTo (a b : Lane) : Prop where
  state : b.state = .stopped
  source : b.tb.source = a.cfg.setup.source
  pendingSwitch : b.tb.pendingSwitch = none
  lost : b.tb.encoderLost = false
  injection : b.injection = none
  position : b.tb.p = a.tb.p
  pmax : b.tb.pmax = a.tb.p
  nextSerial : b.nextSerial = a.nextSerial
  haltCause : b.haltCause = a.haltCause
  receivers : b.receivers = a.receivers
  discarded : b.discarded = a.discarded
  geometry : b.cfg.geometry = a.cfg.geometry

theorem resetLane_resetTo (env : LaneEnv) (ln : Lane) : ln.ResetTo (resetLane env ln).lane := by
  obtain ⟨_, hinjection, hswitch, _, hpmax, hp, hstate, hcause, hgeometry, _, hserial, hreceivers, hdiscarded, _⟩ :=
    rest_lane (ln.resetFields env)
  obtain ⟨_, _, _, hsource, hlost⟩ := rest_scale (ln.resetFields env)
  rw [resetLane_lane]
  cases ha : ln.active with
  | true =>
    obtain ⟨_, _, _, _, _, fp, _, fcause, fgeometry, fsetup, fserial, freceivers, fdiscarded⟩ := flush_lane env ln
    rw [← flushedIfActive_of_active ha] at fp fcause fgeometry fsetup fserial freceivers fdiscarded
    exact ⟨hstate, hsource.trans (congrArg TimebaseSetup.source fsetup), hswitch, hlost, hinjection, hp.trans fp,
      hpmax.trans fp, hserial.trans fserial, hcause.trans fcause, hreceivers.trans freceivers,
      hdiscarded.trans fdiscarded, hgeometry.trans fgeometry⟩
  | false =>
    have hsame : (ln.flushedIfActive env).lane = ln := by rw [flushedIfActive_of_inactive ha]; rfl
    exact ⟨hstate, hsource.trans (by rw [Lane.resetFields, hsame]; rfl), hswitch, hlost, hinjection,
      hp.trans (by rw [Lane.resetFields, hsame]; rfl), hpmax.trans (by rw [Lane.resetFields, hsame]; rfl),
      hserial.trans (by rw [Lane.resetFields, hsame]; rfl), hcause.trans (by rw [Lane.resetFields, hsame]; rfl),
      hreceivers.trans (by rw [Lane.resetFields, hsame]; rfl), hdiscarded.trans (by rw [Lane.resetFields, hsame]; rfl),
      hgeometry.trans (by rw [Lane.resetFields, hsame]; rfl)⟩

theorem resetLane_stock (env : LaneEnv) (ln : Lane) :
    (resetLane env ln).lane.queue = (ln.flushedIfActive env).lane.queue ∧
      (resetLane env ln).lane.stations = (ln.flushedIfActive env).lane.stations ∧
      (resetLane env ln).lane.testTally = (ln.flushedIfActive env).lane.testTally ∧
      (resetLane env ln).lane.lots = (ln.resetLots env).unit := by
  obtain ⟨hqueue, hstations, htally, hlots⟩ := rest_stock (ln.resetFields env)
  exact ⟨hqueue, hstations, htally, hlots⟩

theorem resetLane_lots (env : LaneEnv) (ln : Lane) : (resetLane env ln).lane.lots = (ln.resetLots env).unit :=
  (rest_stock (ln.resetFields env)).lots

/-- Where the lots agree, nothing follows the flush: it leaves no draining lot and no pending close. -/
theorem resetLots_of_agree (ha : ln.active = true) (hagree : ln.LotsAgree) :
    ln.resetLots env = ⟨(flush env ln).lane.lots, []⟩ := by
  obtain ⟨_, _, _, _, _, hdraining, hpending⟩ := (flush_flushes env ln).1.lots hagree
  rw [Lane.resetLots, flushedIfActive_of_active ha, LotUnit.finish_idle _ _ hdraining hpending]

theorem resetLots_draining (hp : ln.lots.pendingClose = false) : (ln.resetLots env).unit.draining = none := by
  have hflushed : (ln.flushedIfActive env).lane.lots.pendingClose = false := by
    cases ha : ln.active with
    | true => rw [flushedIfActive_of_active ha]; exact flush_pendingClose env hp
    | false => rw [flushedIfActive_of_inactive ha]; exact hp
  exact (finish_parts_of_not_pending _ _ hflushed).1

theorem resetLane_flushes (ha : ln.active = true) : ln.Flushes env (resetLane env ln).lane := by
  obtain ⟨hqueue, hstations, htally, hlots⟩ := resetLane_stock env ln
  rw [flushedIfActive_of_active ha] at hqueue hstations htally
  refine (flush_flushes env ln).1.of_parts hqueue (fun st => by rw [hstations]) htally fun hagree => ?_
  rw [hlots, resetLots_of_agree ha hagree]

/-- What RESET_LANE does on its lane. -/
structure State.ResetOn (s : State) (l : LaneId) (t : State) : Prop where
  fields : s.lanes[l].ResetTo t.lanes[l]
  scale : s.lanes[l].ScaleTaken t.lanes[l]
  timebase : s.lanes[l].TimebaseKept t.lanes[l]
  monitor : t.lanes[l].tb.monitor = none
  notPending : s.lanes[l].lots.pendingClose = false → t.lanes[l].lots.draining = none
  stateFlag : s.lanes[l].state ≠ .stopped → t.laneFlag l 0 = true
  history : ∀ st : StationId, t.lanes[l].stations[st].history = s.lanes[l].stations[st].history
  frame : s.LaneFrame l t

/-- What RESET_LANE does on a lane that it flushes. -/
structure State.ResetFlushes (s : State) (l : LaneId) (t : State) : Prop where
  flushes : s.lanes[l].Flushes (s.env l) t.lanes[l]
  ports : s.lanes[l].PortsFollow l t.lanes[l]
  rest : s.lanes[l].ClosedRest s.lineTime t.lanes[l]
  traces : s.lanes[l].LotsAgree → s.Traces t [lostEntry s.lineTime l s.lanes[l] t.lanes[l]]
  lotDone : s.lanes[l].LotsAgree → s.lanes[l].lots.draining ≠ none → t.laneFlag l 3 = true

/-- What RESET_LANE does on a lane at rest. -/
structure State.ResetRests (s : State) (l : LaneId) (t : State) : Prop where
  queue : t.lanes[l].queue = s.lanes[l].queue
  stations : t.lanes[l].stations = s.lanes[l].stations
  tally : t.lanes[l].testTally = s.lanes[l].testTally
  traces : s.Traces t []
  completes : ∀ d cause, s.lanes[l].lots.draining = some d → d.closeCause = some cause →
    s.lanes[l].lots.pendingClose = false →
    t.lanes[l].lots = s.lanes[l].lots.completed s.lineTime d ∧ t.laneFlag l 3 = true

theorem resetLane_inactive (env : LaneEnv) (ln : Lane) : (resetLane env ln).lane.active = false := by
  rw [Lane.active, (resetLane_resetTo env ln).state]
  rfl

theorem stepLane_resetRests (ha : s.lanes[l].active = false) : s.ResetRests l (s.stepLane l resetLane) := by
  obtain ⟨hqueue, hstations, htally, hlots⟩ := resetLane_stock (s.env l) s.lanes[l]
  have heffects := resetLane_effects (s.env l) s.lanes[l]
  rw [flushedIfActive_of_inactive ha] at hqueue hstations htally heffects
  have hlane : (s.stepLane l resetLane).lanes[l] = (resetLane (s.env l) s.lanes[l]).lane.syncMonitor (s.env l) :=
    stepLane_lane_of_same_queue hqueue
  have hevents : ∃ es : List Event, (resetLane (s.env l) s.lanes[l]).effects = es.map .event := by
    rw [heffects]
    by_cases hs : s.lanes[l].state = .stopped
    · refine ⟨(s.lanes[l].resetLots (s.env l)).events, ?_⟩
      rw [if_pos hs, quiet_effects, List.nil_append, List.append_nil]
    · refine ⟨(s.lanes[l].resetLots (s.env l)).events ++ [.laneState l .stopped .reset], ?_⟩
      rw [if_neg hs, quiet_effects, List.nil_append, List.map_append]
      rfl
  obtain ⟨es, hes⟩ := hevents
  refine ⟨?_, ?_, ?_, ?_, fun d cause hd hcause hp => ?_⟩
  · rw [hlane]; exact hqueue
  · rw [hlane]; exact hstations
  · rw [hlane]; exact htally
  · exact stepLane_traces_loose (ls := []) (by rw [hes, parcelDrafts_events]) (by rw [hes, looseDrafts_events])
  · have hreset : s.lanes[l].resetLots (s.env l) = ⟨s.lanes[l].lots.completed s.lineTime d,
        [.lotDone l d.id (d.closeCause.getD .host) s.lanes[l].lots.nextCompletion]⟩ := by
      rw [Lane.resetLots, flushedIfActive_of_inactive ha]
      exact (finish_of_not_pending _ _ hp).trans (complete_unit _ _ hd)
    refine ⟨?_, ?_⟩
    · rw [hlane]
      exact hlots.trans (by rw [hreset])
    · refine stepLane_flag (e := .lotDone l d.id (d.closeCause.getD .host) s.lanes[l].lots.nextCompletion) rfl ?_
      rw [heffects, hreset]
      exact List.mem_append_left _ (List.mem_append_right _ (List.mem_singleton_self _))

/-- What a reset reports behind its flush and its lots is events alone. -/
theorem resetLane_tail (env : LaneEnv) (ln : Lane) : ∃ es : List Event,
    (if ln.state = .stopped then [] else [Effect.event (.laneState env.id .stopped .reset)]) = es.map .event := by
  split
  · exact ⟨[], rfl⟩
  · exact ⟨[_], rfl⟩

theorem stepLane_resetFlushes (ha : s.lanes[l].active = true) : s.ResetFlushes l (s.stepLane l resetLane) := by
  obtain ⟨hports, hrest, _⟩ := laneStep_closes (f := resetLane) (resetLane_closes (s.env l) s.lanes[l] ha)
  obtain ⟨hqueue, hlots, htally, hlist⟩ := stepLane_stock s l resetLane
  have hlane := stepLane_lane s l resetLane
  have heffects := resetLane_effects (s.env l) s.lanes[l]
  rw [flushedIfActive_of_active ha] at heffects
  refine ⟨(resetLane_flushes ha).of_parts hqueue hlist htally fun _ => hlots, ?_, ?_, fun hagree => ?_,
    fun hagree hd => ?_⟩
  · rw [hlane]; exact hports
  · rw [hlane]; exact hrest
  · obtain ⟨es, hes⟩ := (flush_flushes (s.env l) s.lanes[l]).2.2
    rw [hes, resetLots_of_agree ha hagree, List.map_nil, List.append_nil] at heffects
    have hlost : lostEntry s.lineTime l s.lanes[l] (s.stepLane l resetLane).lanes[l] =
        (lostDraft (flush (s.env l) s.lanes[l]).lane.lots.filling.id s.lanes[l].queue.length).entry l s.lineTime
          false := by
      rw [lostEntry, hlots, resetLane_lots, resetLots_of_agree ha hagree]
      rfl
    obtain ⟨tail, htail⟩ := resetLane_tail (s.env l) s.lanes[l]
    rw [htail] at heffects
    rw [hlost]
    refine stepLane_traces_loose (ls := [_]) ?_ ?_
    · simp only [heffects, List.filterMap_append, parcelDrafts_events]
      rfl
    · simp only [heffects, List.filterMap_append, looseDrafts_events]
      rfl
  · obtain ⟨id, cause, n, hmem⟩ := flush_lotDone (env := s.env l) hagree hd
    refine stepLane_flag (e := .lotDone l id cause n) rfl ?_
    rw [heffects]
    exact List.mem_append_left _ (List.mem_append_left _ hmem)

/-- The frame of a step around a reset disarms the monitor and follows the ports. -/
theorem Lane.ResetTo.framed {a z : Lane} (h : a.ResetTo z) (ha : z.active = false) (id : LaneId) (env : LaneEnv) :
    a.ResetTo (syncPorts id a (z.syncMonitor env)) := by
  rw [syncMonitor_of_inactive env ha]
  exact ⟨h.state, h.source, h.pendingSwitch, h.lost, h.injection, h.position, h.pmax, h.nextSerial, h.haltCause,
    h.receivers, h.discarded, h.geometry⟩

theorem stepLane_resetOn (s : State) (l : LaneId) : s.ResetOn l (s.stepLane l resetLane) := by
  have hina := resetLane_inactive (s.env l) s.lanes[l]
  have hlane := (stepLane_lane s l resetLane).trans (laneStep_lane_of_rest rfl hina)
  obtain ⟨htb, hcfg, _, _⟩ := laneStep_rests (f := resetLane) (env := s.env l) (ln := s.lanes[l]) rfl hina
  rw [← stepLane_lane] at htb hcfg
  obtain ⟨hscale, hkept, _⟩ := resetLane_scale (s.env l) s.lanes[l]
  obtain ⟨htaken, htimebase⟩ := hscale.rests hkept htb hcfg
  refine ⟨?_, htaken, htimebase, by rw [htb], fun hp => ?_, fun hs => ?_, fun st => ?_, stepLane_frame s l resetLane⟩
  · rw [hlane]
    exact (resetLane_resetTo (s.env l) s.lanes[l]).framed hina l (s.env l)
  · obtain ⟨_, hlots, _⟩ := stepLane_stock s l resetLane
    rw [hlots, resetLane_lots]
    exact resetLots_draining hp
  · refine stepLane_flag (e := .laneState l .stopped .reset) rfl ?_
    rw [resetLane_effects, if_neg hs]
    exact List.mem_append_right _ (List.mem_singleton_self _)
  · cases ha : s.lanes[l].active with
    | true =>
      rw [stepLane_lane]
      exact (laneStep_closes (resetLane_closes (s.env l) s.lanes[l] ha)).2.2 st
    | false => rw [(stepLane_resetRests ha).stations]

theorem exec_resetLane (tag : Byte) (h : s.takeable ⟨tag, 0x1A, [byte l.val]⟩ = true) :
    ∃ t, exec (.resetLane tag [byte l.val]) s = .next t ∧ (s.answered ⟨tag, 0x9A, [0x00]⟩).ResetOn l t ∧
      (s.lanes[l].active = true → (s.answered ⟨tag, 0x9A, [0x00]⟩).ResetFlushes l t) ∧
      (s.lanes[l].active = false → (s.answered ⟨tag, 0x9A, [0x00]⟩).ResetRests l t) := by
  refine ⟨(s.answered ⟨tag, 0x9A, [0x00]⟩).stepLane l resetLane, ?_, stepLane_resetOn _ l,
    fun ha => stepLane_resetFlushes (s := s.answered ⟨tag, 0x9A, [0x00]⟩) ha,
    fun ha => stepLane_resetRests (s := s.answered ⟨tag, 0x9A, [0x00]⟩) ha⟩
  refine (exec_taken (act := resetLaneOf tag [byte l.val]) (i := .resetLane tag [byte l.val]) rfl h rfl).trans
    (congrArg Host.Outcome.next ?_)
  simp only [resetLaneOf, laneItem_byte]
  rfl

end Reset

end Sys2Proof.Machine

namespace Sys2Proof

open Machine

/-- Settles O20: the reset of a lane is one step of it, and the frame around the step sees a lane at rest; of a
lane that runs, the reset is a flush, after which no lot is left to complete. -/
theorem resetLaneEndsAll : Obligations.ResetLaneEndsAll := by
  intro s tag l h
  obtain ⟨t, hexec, hon, hflushes, hrests⟩ := exec_resetLane tag h
  refine ⟨t, hexec, hon.fields.state, hon.fields.source, hon.fields.pendingSwitch, hon.fields.lost,
    hon.fields.injection, hon.fields.position, hon.fields.pmax, hon.scale, hon.monitor, hon.timebase, hon.notPending,
    fun ha => ?_, fun ha => ?_, hon.stateFlag, hon.fields.nextSerial, hon.fields.haltCause, hon.fields.receivers,
    hon.fields.discarded, hon.history, hon.fields.geometry, hon.frame⟩
  · have hf := hflushes ha
    exact ⟨hf.flushes, hf.ports, hf.rest, fun hagree => ⟨hf.traces hagree, hf.lotDone hagree,
      hf.flushes.pendingClose hagree⟩⟩
  · have hr := hrests ha
    exact ⟨hr.queue, hr.stations, hr.tally, hr.traces, hr.completes⟩

end Sys2Proof
end

section
/-! The two periods that a lane's timebase judges: the settle period (R40) and the encoder monitor's (R34, R35, R43):
O27 and O28. -/

namespace Sys2Proof.Machine

variable {s : State} {l : LaneId} {env : LaneEnv} {ln : Lane} {st : Settle}

/-! ## The settle period (R40) -/

theorem agrees_iff (tolerance : Nat) (st : Settle) : st.agrees tolerance = true ↔
    1 ≤ st.currentAdvance.toNat ∧ st.backwardSeen = false ∧
      ((st.encoderAdvance.toNat : Int) - st.currentAdvance.toNat).natAbs * 100 ≤
        tolerance * st.currentAdvance.toNat := by
  have hspread : max st.encoderAdvance.toNat st.currentAdvance.toNat -
      min st.encoderAdvance.toNat st.currentAdvance.toNat =
        ((st.encoderAdvance.toNat : Int) - st.currentAdvance.toNat).natAbs := by omega
  simp [Settle.agrees, hspread, and_assoc]

theorem judge_eq (setup : TimebaseSetup) (st : Settle) : st.judge setup =
    if 1 ≤ st.currentAdvance.toNat ∧ st.backwardSeen = false ∧
      ((st.encoderAdvance.toNat : Int) - st.currentAdvance.toNat).natAbs * 100 ≤
        setup.tolerance * st.currentAdvance.toNat
    then { st with agreed := true }
    else ⟨st.periodStart + BitVec.ofNat 32 setup.settlePeriod, 0, 0, false, false, holdInc st.failedPeriods⟩ := by
  rw [Settle.judge]
  exact if_congr (agrees_iff _ _) rfl rfl

theorem settleDue_of_over {now : Time} (hp : ln.tb.pendingSwitch = some (.toEncoder st)) (ha : st.agreed = false)
    (ht : ln.cfg.setup.settlePeriod ≤ (now - st.periodStart).toNat) : ln.settleDue now = true := by
  simp only [Lane.settleDue, hp, ha]
  exact decide_eq_true ht

theorem judged_toEncoder {f : Settle → Settle} (hp : ln.tb.pendingSwitch = some (.toEncoder st))
    (ha : st.agreed = false) :
    ln.judged f = { ln with tb := { ln.tb with pendingSwitch := some (.toEncoder (f st)) } } := by
  rw [judged_pending, hp]
  simp [PendingSwitch.judging, ha]

theorem exec_settlePeriodEnd (hphase : s.phase = .working) (hdue : s.lanes[l].settleDue s.lineTime = true) :
    exec (.settlePeriodEnd l) s = .next (s.stepLane l settleEnd) := by
  show Host.Outcome.next (if s.live && s.lanes[l].settleDue s.lineTime then s.stepLane l settleEnd else s) = _
  rw [live_of_working hphase, hdue]
  rfl

theorem stepLane_settleEnd (hp : s.lanes[l].tb.pendingSwitch = some (.toEncoder st)) (ha : st.agreed = false) :
    s.stepLane l settleEnd = s.setLane l (Lane.syncMonitor (s.env l) { s.lanes[l] with
      tb := { s.lanes[l].tb with pendingSwitch := some (.toEncoder (st.judge s.lanes[l].cfg.setup)) } }) := by
  rw [← judged_toEncoder (f := fun x => x.judge s.lanes[l].cfg.setup) hp ha]
  exact stepLane_quiet rfl (by rw [judged_pending])

/-! ## The encoder monitor (R34, R35, R43) -/

theorem expiryDue_of_over {now since : Time} (hm : ln.tb.monitor = some since)
    (ht : ln.cfg.setup.watchTime ≤ (now - since).toNat) : ln.expiryDue now = true := by
  rw [Lane.expiryDue, hm]
  exact decide_eq_true ht

theorem exec_encoderMonitorExpiry (hphase : s.phase = .working) (hdue : s.lanes[l].expiryDue s.lineTime = true) :
    exec (.encoderMonitorExpiry l) s = .next (s.stepLane l monitorExpires) := by
  show Host.Outcome.next (if s.live && s.lanes[l].expiryDue s.lineTime then s.stepLane l monitorExpires else s) = _
  rw [live_of_working hphase, hdue]
  rfl

/-- On a NOMINAL source the monitor is disarmed (R34). -/
theorem syncMonitor_of_nominal (h : ln.tb.source = .nominal) :
    ln.syncMonitor env = { ln with tb := { ln.tb with monitor := none } } := by
  have hwatched : ln.watched env = false := by simp [Lane.watched, h]
  simp [Lane.syncMonitor, hwatched]

theorem stepLane_monitorExpires_lane (s : State) (l : LaneId) : (s.stepLane l monitorExpires).lanes[l] =
    { s.lanes[l] with tb := { s.lanes[l].tb with
      source := .nominal, encoderLost := true, pendingSwitch := none, monitor := none } } :=
  (stepLane_lane_of_same_queue (f := monitorExpires) rfl).trans (syncMonitor_of_nominal rfl)

end Sys2Proof.Machine

namespace Sys2Proof

open Machine

/-- Settles O27: the judgement changes the record of the pending switch alone, and the frame of the step the
monitor. -/
theorem settlePeriodJudged : Obligations.SettlePeriodJudged := by
  intro s l st hphase hp ha ht
  refine ⟨_, (exec_settlePeriodEnd hphase (settleDue_of_over hp ha ht)).trans
    (congrArg Host.Outcome.next (stepLane_settleEnd hp ha)), ?_⟩
  rw [← judge_eq]
  rw [State.setLane_lanes, Fin.getElem_fin, Vector.getElem_set_self]
  exact ⟨rfl, rfl, rfl, rfl, ⟨rfl, rfl, rfl, rfl, rfl⟩, rfl, stepLane_settleEnd hp ha ▸ stepLane_frame s l settleEnd⟩

/-- Settles O28: on the NOMINAL source that the expiry leaves, the frame of the step arms no monitor. -/
theorem monitorExpiryLosesEncoder : Obligations.MonitorExpiryLosesEncoder := by
  intro s l since hphase hm ht
  have hlane := stepLane_monitorExpires_lane s l
  have hflag : (s.stepLane l monitorExpires).laneFlag l 1 = true :=
    stepLane_flag (e := .encoderLost l) rfl (List.mem_singleton_self _)
  have htrace : (s.stepLane l monitorExpires).trace = s.trace :=
    stepLane_trace_of_events fun e he => ⟨_, List.mem_singleton.mp he⟩
  refine ⟨_, exec_encoderMonitorExpiry hphase (expiryDue_of_over hm ht), ?_⟩
  rw [hlane]
  exact ⟨rfl, rfl, rfl, rfl, hflag, rfl, rfl, rfl, rfl, ⟨rfl, rfl, rfl, rfl, rfl⟩, htrace,
    stepLane_frame s l monitorExpires⟩

end Sys2Proof
end

section
/-! A nominal count that is due (R29 to R31, R34, R40, R120): O26. -/

namespace Sys2Proof.Machine

variable {s : State} {l : LaneId} {env : LaneEnv} {ln : Lane}

theorem laneStep_nominalCount_of_nominal (h : ln.tb.source = .nominal) :
    ln.countedNominal.StepsUp env ln (laneStep nominalCount env ln) := by
  have hstep : nominalCount env ln = stepForward env ln.countedNominal := (nominalCount_eq env ln).trans (if_pos h)
  rw [laneStep_congr (g := fun env _ => stepForward env ln.countedNominal) hstep]
  exact stepForward_up env ln ln.countedNominal

theorem laneStep_nominalCount_of_encoder (h : ln.tb.source = .encoder) :
    laneStep nominalCount env ln = (ln.countedNominal.syncMonitor env).quiet :=
  laneStep_quiet ((nominalCount_eq env ln).trans (if_neg (by rw [h]; decide))) rfl

/-- The lane position that a nominal count leaves. -/
def Lane.nominalPos (ln : Lane) : Pos := if ln.tb.source = .nominal then ln.tb.p + 1 else ln.tb.p

/-- What a nominal count leaves on either source. -/
theorem laneStep_nominalCount (env : LaneEnv) (ln : Lane) :
    (ln.countedNominal.movedTo ln.nominalPos ln.tb.pmax).Steady (laneStep nominalCount env ln).lane ∧
      (laneStep nominalCount env ln).lane.WatchedFrom env.driveRun (ln.keptTime env.now) := by
  cases hs : ln.tb.source with
  | nominal =>
    have hup := laneStep_nominalCount_of_nominal (env := env) hs
    rw [Lane.nominalPos, if_pos hs]
    exact ⟨(hup.result rfl).1, hup.watched⟩
  | encoder =>
    rw [laneStep_nominalCount_of_encoder hs, Lane.nominalPos, if_neg (by rw [hs]; decide)]
    exact ⟨⟨rfl, rfl, rfl, rfl, rfl, rfl, rfl, rfl, rfl, fun h => ⟨h, rfl, rfl⟩⟩,
      syncMonitor_watched env ln.countedNominal⟩

/-- An agreed switch is due, and a count leaves it as it is. -/
theorem countedNominal_switchDue {st : Settle} (hsource : ln.tb.source = .nominal)
    (hp : ln.tb.pendingSwitch = some (.toEncoder st)) (ha : st.agreed = true) :
    ln.countedNominal.SwitchDue .encoder := by
  refine .inr ⟨⟨st, ?_, ha⟩, hsource, rfl⟩
  simp [Lane.countedNominal, hsource, hp, PendingSwitch.judging, ha]

theorem exec_nominalCount {acc : Nat} (hphase : s.phase = .working) (ha : s.lanes[l].tb.accumulator = some acc)
    (hdue : 1000000 ≤ acc) :
    exec (.nominalCount l) s = .next (s.stepped l (laneStep nominalCount (s.env l) s.lanes[l])) := by
  have hfull : s.lanes[l].nominalDue = true := by
    rw [Lane.nominalDue, ha]
    exact decide_eq_true hdue
  show Host.Outcome.next (if s.live && s.lanes[l].nominalDue then (s.stepLane l nominalCount).chosen else s) = _
  rw [live_of_working hphase, hfull, ← stepLane_chosen]
  rfl

end Sys2Proof.Machine

namespace Sys2Proof

open Machine

/-- Settles O26: on a NOMINAL source the count is a step of P up of the counted lane, on an ENCODER source it is
quiet; the works of a step of P leave what the count has set. -/
theorem nominalCountMovesP : Obligations.NominalCountMovesP := by
  intro s l acc hphase hacc hdue
  obtain ⟨hsteady, hwatched⟩ := laneStep_nominalCount (s.env l) s.lanes[l]
  have hlane := stepped_lane s l (laneStep nominalCount (s.env l) s.lanes[l])
  have hflag := stepped_flag s l (laneStep nominalCount (s.env l) s.lanes[l])
  refine ⟨laneStep nominalCount (s.env l) s.lanes[l], _, exec_nominalCount hphase hacc hdue, rfl, hlane, ?_⟩
  rw [hlane]
  refine ⟨hsteady.accumulator.trans (congrArg (Option.map (· - 1000000)) hacc), hsteady.pendingRate, hsteady.rate,
    hsteady.pos, laneStep_nominalCount_of_encoder, fun hsource => ?_, hwatched, hsteady.geometry, hsteady.receivers,
    hsteady.hostHold, stepped_frame s l _⟩
  have hup := laneStep_nominalCount_of_nominal (env := s.env l) hsource
  obtain ⟨_, hswitch, hmoves⟩ := hup.result rfl
  have hdrains := (hup.drains rfl).imp fun h => hflag (.laneState l .stopped .drained) rfl h
  refine ⟨hup, hmoves, ⟨hdrains.completes, hdrains.goesOn⟩, fun st hp hagreed => ?_⟩
  obtain ⟨htarget, hnone, hlost, hevent⟩ := hswitch .encoder (countedNominal_switchDue hsource hp hagreed)
  exact ⟨htarget, hnone, hlost rfl, hflag (.sourceSwitched l .encoder) rfl hevent⟩

end Sys2Proof
end

section
/-! The debounced lines (R30, R34, R151, R153 to R157): O43. -/

namespace Sys2Proof.Machine

/-! ## The device-wide flags around a step of a lane (R167, R171) -/

/-- No effect is an event of a device-wide kind. -/
def Effects.OfLanes (es : List Effect) : Prop := ∀ e, .event e ∈ es → e.lane? ≠ none

theorem ofLanes_nil : Effects.OfLanes [] := fun _ h => nomatch h

theorem ofLanes_append {xs ys : List Effect} (hx : Effects.OfLanes xs) (hy : Effects.OfLanes ys) :
    Effects.OfLanes (xs ++ ys) :=
  fun e h => (List.mem_append.mp h).elim (hx e) (hy e)

theorem runEach_ofLanes {α : Type} {f : α → Lane → LaneOut} (h : ∀ x ln, Effects.OfLanes (f x ln).effects)
    (xs : List α) (ln : Lane) : Effects.OfLanes (runEach f xs ln).effects := by
  induction xs generalizing ln with
  | nil => exact ofLanes_nil
  | cons x xs ih =>
    rw [runEach_cons]
    exact ofLanes_append (h x ln) (ih _)

/-- The lot unit raises events of its lane alone. -/
theorem complete_ofLane (lane : LaneId) (now : Time) (u : LotUnit) : ∀ e ∈ (u.complete lane now).events,
    e.lane? ≠ none := by
  unfold LotUnit.complete
  split
  · exact fun _ h => nomatch h
  · intro e he
    rw [List.mem_singleton.mp he]
    exact Option.some_ne_none lane

theorem finish_ofLane (lane : LaneId) (now : Time) (u : LotUnit) : ∀ e ∈ (u.finish lane now).events,
    e.lane? ≠ none := by
  unfold LotUnit.finish
  dsimp only
  split
  · intro e he
    rcases List.mem_append.mp he with he | he
    · exact complete_ofLane lane now u e he
    · unfold LotUnit.completeIfDone at he
      split at he
      · exact complete_ofLane lane now _ e he
      · cases he
  · exact complete_ofLane lane now u

theorem settle_ofLane (lane : LaneId) (now : Time) (u : LotUnit) : ∀ e ∈ (u.settle lane now).events,
    e.lane? ≠ none := by
  unfold LotUnit.settle
  split
  · exact finish_ofLane lane now u
  · exact fun _ h => nomatch h

theorem report_ofLane (lane : LaneId) (now : Time) (lot : LotId) (r : RemovalReport) (u : LotUnit) :
    ∀ e ∈ (u.report lane now lot r).events, e.lane? ≠ none := by
  unfold LotUnit.report
  dsimp only
  split
  · exact settle_ofLane lane now _
  · exact fun _ h => nomatch h

theorem ofLanes_events {es : List Event} (h : ∀ e ∈ es, e.lane? ≠ none) : Effects.OfLanes (es.map .event) := by
  intro e he
  obtain ⟨x, hx, hxe⟩ := List.mem_map.mp he
  cases hxe
  exact h _ hx

theorem removeParcel_ofLanes (env : LaneEnv) (serial : Serial) (o : Outcome) (ln : Lane) :
    Effects.OfLanes (removeParcel env serial o ln).effects := by
  unfold removeParcel
  split
  · exact ofLanes_nil
  · split
    · exact ofLanes_nil
    · split
      · exact ofLanes_nil
      · exact ofLanes_events (report_ofLane _ _ _ _ _)

theorem endFiring_ofLanes (env : LaneEnv) (r : TraceReason) (o : Outcome) (p : Parcel) (ln : Lane) :
    Effects.OfLanes (endFiring env r o p ln).effects := by
  unfold endFiring
  split
  · refine ofLanes_append (fun e he => ?_) (removeParcel_ofLanes env p.serial o _)
    cases List.mem_singleton.mp he
  · exact ofLanes_nil

theorem drainIfEmpty_ofLanes (env : LaneEnv) (a b : Lane) : Effects.OfLanes (drainIfEmpty env a b).effects := by
  unfold drainIfEmpty
  split
  · intro e he
    cases List.mem_singleton.mp he
    exact Option.some_ne_none env.id
  · exact ofLanes_nil

theorem laneStep_ofLanes {f : LaneEnv → Lane → LaneOut} {env : LaneEnv} {ln : Lane}
    (h : Effects.OfLanes (f env ln).effects) : Effects.OfLanes (laneStep f env ln).effects :=
  fun e he => ofLanes_append h (drainIfEmpty_ofLanes env ln _) e ((mem_inQueueOrder ⟨e, rfl⟩).mp he)

theorem raise_deviceFlag_other (s : State) {e : Event} {k : Nat} (hk : k < 8)
    (h : e.lane? ≠ none ∨ e.kind.val ≠ k + 5) : (s.raise e).deviceFlag k = s.deviceFlag k := by
  have hnot : ¬(e.lane? = none ∧ e.kind.val = k + 5) := fun hboth => h.elim (· hboth.1) (· hboth.2)
  rw [raise_deviceFlag s e k hk, decide_eq_false hnot, Bool.or_false]

/-- Of the device-wide flags the trace raises TRACE_HALF and TRACE_FULL alone (R169). -/
theorem addTrace_deviceFlag (s : State) (l : LaneId) (d : TraceDraft) {k : Nat} (hk : k < 8) (h2 : k ≠ 2)
    (h3 : k ≠ 3) : (s.addTrace l d).deviceFlag k = s.deviceFlag k := by
  have hhalf : (Event.traceHalf).kind.val ≠ k + 5 := by
    show 7 ≠ k + 5
    omega
  have hfull : (Event.traceFull).kind.val ≠ k + 5 := by
    show 8 ≠ k + 5
    omega
  unfold State.addTrace
  split
  · dsimp only
    split
    · exact raise_deviceFlag_other _ hk (.inr hhalf)
    · split
      · exact raise_deviceFlag_other _ hk (.inr hfull)
      · rfl
  · rfl

theorem commit_deviceFlag (l : LaneId) {es : List Effect} (hes : Effects.OfLanes es) {k : Nat} (hk : k < 8)
    (h2 : k ≠ 2) (h3 : k ≠ 3) (s : State) : (s.commit l es).deviceFlag k = s.deviceFlag k := by
  induction es generalizing s with
  | nil => rfl
  | cons e es ih =>
    refine (ih (fun x hx => hes x (List.mem_cons_of_mem _ hx)) (s.effect l e)).trans ?_
    cases e with
    | event e => exact raise_deviceFlag_other s hk (.inl (hes e (List.mem_cons_self ..)))
    | trace d => exact addTrace_deviceFlag s l d hk h2 h3

theorem stepLane_deviceFlag {s : State} {l : LaneId} {f : LaneEnv → Lane → LaneOut}
    (h : Effects.OfLanes (f (s.env l) s.lanes[l]).effects) {k : Nat} (hk : k < 8) (h2 : k ≠ 2) (h3 : k ≠ 3) :
    (s.stepLane l f).deviceFlag k = s.deviceFlag k :=
  commit_deviceFlag l (laneStep_ofLanes h) hk h2 h3 _

/-! ## The raw change (R151, R154) -/

variable {s x t : State} {i : DebouncedId} {level : Bool}

theorem airAction_other (h : ∀ l : LaneId, i ≠ airLine l) : s.airAction i.castSucc level = s := by
  have hnone : airOf? i.castSucc = none := by
    cases hair : airOf? i.castSucc with
    | none => rfl
    | some l => exact absurd (Fin.castSucc_injective 25 (airOf_eq_some.mp hair)) (h l)
  rw [State.airAction, hnone]

/-- The actions at an AIR_OK line are a step of one lane, and they leave the flags of the lines. -/
theorem airAction_frame (s : State) (l : LaneId) (level : Bool) :
    s.LaneFrame l (s.airAction (airLine l).castSucc level) ∧
      (s.airAction (airLine l).castSucc level).deviceFlag 4 = s.deviceFlag 4 ∧
      (s.airAction (airLine l).castSucc level).deviceFlag 6 = s.deviceFlag 6 := by
  have hair : airOf? (airLine l).castSucc = some l := airOf_eq_some.mpr rfl
  have hlanes : Effects.OfLanes (cutLane (s.env l) .cutAir s.lanes[l]).effects :=
    runEach_ofLanes (endFiring_ofLanes (s.env l) .cutAir .cut) _ _
  cases level with
  | true =>
    have hsame : s.airAction (airLine l).castSucc true = s := by
      rw [State.airAction, hair]
      rfl
    rw [hsame]
    exact ⟨.refl l s, rfl, rfl⟩
  | false =>
    have hcut : s.airAction (airLine l).castSucc false = s.stepLane l fun env => cutLane env .cutAir := by
      rw [State.airAction, hair]
      rfl
    rw [hcut]
    exact ⟨stepLane_frame s l _, stepLane_deviceFlag hlanes (by decide) (by decide) (by decide),
      stepLane_deviceFlag hlanes (by decide) (by decide) (by decide)⟩

/-- A state that differs from the one given, as a debounced edge of line `i` sees it, in the line's raw level and
its candidate alone. -/
structure State.RawSet (s : State) (i : DebouncedId) (level : Bool) (x : State) : Prop where
  raw : x.lines.raw = s.lines.raw.set i.castSucc level
  debounced : x.lines.debounced = s.lines.debounced
  candidate : ∀ c, x.lines.candidate.set i c = s.lines.candidate.set i c
  latch : x.millTripLatch = s.millTripLatch
  millTrip : x.deviceFlag 4 = s.deviceFlag 4
  lineEdge : x.deviceFlag 6 = s.deviceFlag 6
  drive : ∀ l : LaneId, i = driveLine l → x.lanes[l] = s.lanes[l]
  store : x.store = s.store
  device : x.device = s.device
  time : x.lineTime = s.lineTime

theorem airAction_rawSet (s : State) (i : DebouncedId) (level : Bool) :
    s.RawSet i level ((s.setRaw i.castSucc level).airAction i.castSucc level) := by
  by_cases hair : ∃ l : LaneId, i = airLine l
  · obtain ⟨l, rfl⟩ := hair
    obtain ⟨hframe, hmill, hedge⟩ := airAction_frame (s.setRaw (airLine l).castSucc level) l level
    have hlines := hframe.lines
    refine ⟨by rw [hlines]; rfl, by rw [hlines]; rfl, fun c => by rw [hlines]; rfl, hframe.latch, hmill, hedge,
      fun k hk => absurd hk (airLine_ne_driveLine l k), hframe.store, hframe.device, hframe.time⟩
  · rw [airAction_other fun l hl => hair ⟨l, hl⟩]
    exact ⟨rfl, rfl, fun _ => rfl, rfl, rfl, rfl, fun _ _ => rfl, rfl, rfl, rfl⟩

theorem State.RawSet.candidateSet (h : s.RawSet i level x) (c : Option Time) : s.RawSet i level
    { x with lines := { x.lines with candidate := x.lines.candidate.set i c } } where
  raw := h.raw
  debounced := h.debounced
  candidate := fun c' => (Vector.set_set _ i.isLt).trans (h.candidate c')
  latch := h.latch
  millTrip := h.millTrip
  lineEdge := h.lineEdge
  drive := h.drive
  store := h.store
  device := h.device
  time := h.time

/-- A debounced edge that takes the new raw level is one of the line as it stood before the raw change. -/
theorem State.RawSet.edge (h : s.RawSet i level x) : s.EdgeTaken i level (x.debouncedEdge i) := by
  obtain ⟨hedge, _⟩ := debouncedEdge_taken x i
  have hlevel : x.lines.raw[i.castSucc] = level := by
    rw [h.raw]
    exact Vector.getElem_set_self _
  rw [hlevel] at hedge
  refine ⟨hedge.lines.trans ?_, hedge.latch.trans ?_, hedge.millTrip.trans ?_, hedge.lineEdge.trans ?_,
    fun l hl => ?_, hedge.store.trans h.store, hedge.device.trans h.device, hedge.time.trans h.time⟩
  · rw [h.raw, h.debounced, h.candidate, Vector.set_set]
  · rw [h.latch]
  · rw [h.millTrip]
  · rw [h.device, h.lineEdge]
  · have hdrive := hedge.drive l hl
    rw [h.drive l hl, h.time] at hdrive
    exact hdrive

theorem rawChange_eq (hphase : s.phase = .working) (h : s.lines.raw[i.castSucc] ≠ level) :
    s.rawChange i.castSucc level =
      ((s.setRaw i.castSucc level).airAction i.castSucc level).debounceRaw i level := by
  rw [State.rawChange, if_neg h, if_pos (live_of_working hphase), State.rawAction,
    dif_pos (show i.castSucc.val < 25 from i.isLt)]
  rfl

theorem rawChange_waits (hphase : s.phase = .working) (h : s.lines.raw[i.castSucc] ≠ level)
    (hwait : 0 < s.debounceOf i ∨ s.lines.debounced[i] = level) : s.rawChange i.castSucc level =
      { (s.setRaw i.castSucc level).airAction i.castSucc level with
        lines := ⟨s.lines.raw.set i.castSucc level, s.lines.debounced, s.lines.candidate.set i
          (if s.lines.debounced[i] = level then none else some s.lineTime)⟩ } := by
  have hset := airAction_rawSet s i level
  have hwait' : 0 < ((s.setRaw i.castSucc level).airAction i.castSucc level).debounceOf i ∨
      ((s.setRaw i.castSucc level).airAction i.castSucc level).lines.debounced[i] = level := by
    rw [State.debounceOf, hset.device, hset.debounced]
    exact hwait
  rw [rawChange_eq hphase h, debounceRaw_waits _ i level hwait']
  dsimp only
  rw [hset.raw, hset.debounced, hset.candidate, hset.time]

theorem rawChange_edge (hphase : s.phase = .working) (h : s.lines.raw[i.castSucc] ≠ level)
    (hzero : s.debounceOf i = 0) (hdiff : s.lines.debounced[i] ≠ level) :
    ∃ t, s.rawChange i.castSucc level = t ∧ s.EdgeTaken i level t ∧
      ((∀ l : LaneId, i ≠ airLine l) → t.trace = s.trace ∧
        ∀ l : LaneId, i ≠ driveLine l → t.lanes[l] = s.lanes[l]) := by
  have hset := airAction_rawSet s i level
  have hedge := debounceRaw_edge ((s.setRaw i.castSucc level).airAction i.castSucc level) i level
    (by rw [State.debounceOf, hset.device]; exact hzero) (by rw [hset.debounced]; exact hdiff)
  refine ⟨_, (rawChange_eq hphase h).trans hedge, (hset.candidateSet _).edge, fun hair => ?_⟩
  rw [airAction_other hair]
  obtain ⟨_, htrace, _, hlanes⟩ := debouncedEdge_taken { s.setRaw i.castSucc level with lines :=
    { (s.setRaw i.castSucc level).lines with
      candidate := (s.setRaw i.castSucc level).lines.candidate.set i (some (s.setRaw i.castSucc level).lineTime) } } i
  exact ⟨htrace, hlanes⟩

theorem debounceExpires_due {since : Time} (hphase : s.phase = .working) (hc : s.lines.candidate[i] = some since)
    (hdue : s.debounceOf i ≤ (s.lineTime - since).toNat) : s.debounceExpires i = s.debouncedEdge i := by
  have hheld : s.debounceDue i = true := by
    rw [State.debounceDue, hc]
    exact decide_eq_true hdue
  rw [State.debounceExpires, if_pos (live_of_working hphase), State.settleLine, if_pos hheld]

end Sys2Proof.Machine

namespace Sys2Proof

open Machine

/-- Settles O43: the raw actions leave what the debouncer reads, so a debounced edge is that of the line as it
stood. -/
theorem debouncing : Obligations.Debouncing := by
  refine ⟨fun s i level hphase hne => ⟨fun hwait => ⟨fun hair => ?_, fun l hl => ?_⟩, fun hzero hdiff => ?_⟩,
    fun s i since hphase hc hdue => ?_⟩
  · refine congrArg Host.Outcome.next ((rawChange_waits hphase hne hwait).trans ?_)
    rw [airAction_other hair]
    rfl
  · subst hl
    exact ⟨_, congrArg Host.Outcome.next (rawChange_waits hphase hne hwait),
      congrArg Host.Outcome.next (rawChange_waits hphase hne hwait), rfl⟩
  · obtain ⟨t, ht, hedge, hrest⟩ := rawChange_edge hphase hne hzero hdiff
    refine ⟨t, congrArg Host.Outcome.next ht, hedge, hrest, fun l hl => ?_⟩
    subst hl
    exact congrArg Host.Outcome.next ht
  · obtain ⟨hedge, htrace, _, hlanes⟩ := debouncedEdge_taken s i
    exact ⟨_, congrArg Host.Outcome.next (debounceExpires_due hphase hc hdue), hedge, hlanes, htrace⟩

end Sys2Proof
end

section
/-! SET_LINE_CONFIG: the debounce times, the edge selections and the candidates that are due under them (R152): O39. -/

namespace Sys2Proof.Machine

variable {s x a b c : State} {i j : DebouncedId} {tag : Byte} {p : List Byte}

/-! ## The items (R152, R186) -/

theorem edge_ofCode (e : EdgeSelection) : EdgeSelection.ofCode? (byte e.code).toNat = some e := by
  cases e <;> rfl

theorem edge_ofCode_none {n : Nat} (h : 3 < n) : EdgeSelection.ofCode? n = none := by
  unfold EdgeSelection.ofCode?
  split
  · omega
  · omega
  · omega
  · omega
  · rfl

/-- The payload of SET_LINE_CONFIG (R186). -/
def lineConfigPayload (times : Vector Byte 4) (edges : Vector EdgeSelection 26) : List Byte :=
  times.toList ++ edges.toList.map fun e => byte e.code

theorem lineConfigPayload_length (times : Vector Byte 4) (edges : Vector EdgeSelection 26) :
    (lineConfigPayload times edges).length = 30 := by
  simp [lineConfigPayload]

theorem item_time (times : Vector Byte 4) (edges : Vector EdgeSelection 26) (k : Fin 4) :
    item (lineConfigPayload times edges) k.val 1 = times[k].toNat := by
  refine item_one ?_
  rw [lineConfigPayload, List.getElem?_append_left (by simp)]
  simp

theorem edgeCode_edge (times : Vector Byte 4) (edges : Vector EdgeSelection 26) (k : Fin 26) :
    edgeCode (lineConfigPayload times edges) k.val = (byte edges[k].code).toNat := by
  refine item_one ?_
  rw [lineConfigPayload, List.getElem?_append_right (by simp)]
  simp

theorem times_items (times : Vector Byte 4) (edges : Vector EdgeSelection 26) :
    #v[item (lineConfigPayload times edges) 0 1, item (lineConfigPayload times edges) 1 1,
      item (lineConfigPayload times edges) 2 1, item (lineConfigPayload times edges) 3 1] = times.map (·.toNat) := by
  have h0 := item_time times edges 0
  have h1 := item_time times edges 1
  have h2 := item_time times edges 2
  have h3 := item_time times edges 3
  ext k hk
  rw [Vector.getElem_map]
  match k, hk with
  | 0, _ => exact h0
  | 1, _ => exact h1
  | 2, _ => exact h2
  | 3, _ => exact h3

theorem edgesItem_some (times : Vector Byte 4) (edges : Vector EdgeSelection 26) :
    edgesItem (lineConfigPayload times edges) = some edges := by
  have hcode : ∀ k : Fin 26, EdgeSelection.ofCode? (edgeCode (lineConfigPayload times edges) k.val) = some edges[k] :=
    fun k => by rw [edgeCode_edge, edge_ofCode]
  unfold edgesItem
  rw [if_pos]
  · refine congrArg some (Vector.ext fun k hk => ?_)
    rw [Vector.getElem_ofFn, hcode ⟨k, hk⟩]
    rfl
  · rw [List.all_eq_true]
    intro k hk
    rw [hcode ⟨k, List.mem_range.mp hk⟩]
    rfl

theorem edgesItem_none (h : ∃ i : LineId, 3 < item p (4 + i.val) 1) : edgesItem p = none := by
  obtain ⟨i, hi⟩ := h
  unfold edgesItem
  refine if_neg fun hall => ?_
  have hsome := List.all_eq_true.mp hall i.val (List.mem_range.mpr i.isLt)
  rw [edgeCode, edge_ofCode_none hi] at hsome
  exact nomatch hsome

/-! ## The candidates that are due (R151, R152) -/

/-- What settling the lines leaves of the part. -/
structure State.SettleFrame (s t : State) : Prop where
  raw : t.lines.raw = s.lines.raw
  trace : t.trace = s.trace
  time : t.lineTime = s.lineTime
  device : t.device = s.device

theorem State.SettleFrame.trans (h : a.SettleFrame b) (k : b.SettleFrame c) : a.SettleFrame c :=
  ⟨k.raw.trans h.raw, k.trace.trans h.trace, k.time.trans h.time, k.device.trans h.device⟩

theorem settleLine_of_not_due (h : s.debounceDue i = false) : s.settleLine i = s :=
  if_neg (by rw [h]; decide)

theorem debounceDue_of_none (h : s.lines.candidate[i] = none) : s.debounceDue i = false := by
  rw [State.debounceDue, h]
  rfl

theorem settleLine_of_due (h : s.debounceDue i = true) : s.settleLine i = s.debouncedEdge i := if_pos h

theorem settleLine_frame (s : State) (i : DebouncedId) : s.SettleFrame (s.settleLine i) := by
  obtain ⟨hraw, htrace, _, _⟩ := settleLine_rest s i
  refine ⟨hraw, htrace, ?_, ?_⟩
  all_goals
    unfold State.settleLine
    split
  · exact (debouncedEdge_taken s i).1.time
  · rfl
  · exact (debouncedEdge_taken s i).1.device
  · rfl

/-- What belongs to line `i` is as it was. -/
structure State.LineKept (s : State) (i : DebouncedId) (t : State) : Prop where
  debounced : t.lines.debounced[i] = s.lines.debounced[i]
  candidate : t.lines.candidate[i] = s.lines.candidate[i]
  latch : i = millTripLine → t.millTripLatch = s.millTripLatch
  drive : ∀ l : LaneId, i = driveLine l → t.lanes[l] = s.lanes[l]

theorem State.LineKept.refl (s : State) (i : DebouncedId) : s.LineKept i s := ⟨rfl, rfl, fun _ => rfl, fun _ _ => rfl⟩

theorem State.LineKept.trans (h : a.LineKept i b) (k : b.LineKept i c) : a.LineKept i c :=
  ⟨k.debounced.trans h.debounced, k.candidate.trans h.candidate, fun hi => (k.latch hi).trans (h.latch hi),
    fun l hl => (k.drive l hl).trans (h.drive l hl)⟩

theorem settleLine_keepsLine (hij : j ≠ i) : s.LineKept i (s.settleLine j) := by
  cases hdue : s.debounceDue j with
  | false =>
    rw [settleLine_of_not_due hdue]
    exact .refl s i
  | true =>
    rw [settleLine_of_due hdue]
    obtain ⟨hedge, _, _, hlanes⟩ := debouncedEdge_taken s j
    have hval : j.val ≠ i.val := fun h => hij (Fin.ext h)
    refine ⟨?_, ?_, fun hi => ?_, fun l hl => hlanes l fun hj => hij (hj.trans hl.symm)⟩
    · rw [hedge.lines]
      exact Vector.getElem_set_ne j.isLt i.isLt hval
    · rw [hedge.lines]
      exact Vector.getElem_set_ne j.isLt i.isLt hval
    · have hnot : (j == millTripLine) = false := beq_eq_false_iff_ne.mpr fun hj => hij (hj.trans hi.symm)
      rw [hedge.latch, hnot, Bool.false_and, Bool.or_false]

theorem settleLines_frame (is : List DebouncedId) (s : State) : s.SettleFrame (is.foldl State.settleLine s) := by
  induction is generalizing s with
  | nil => exact ⟨rfl, rfl, rfl, rfl⟩
  | cons j is ih => exact (settleLine_frame s j).trans (ih _)

theorem settleLines_keepLine {is : List DebouncedId} (hi : i ∉ is) (s : State) :
    s.LineKept i (is.foldl State.settleLine s) := by
  induction is generalizing s with
  | nil => exact .refl s i
  | cons j is ih =>
    obtain ⟨hj, his⟩ := not_or.mp (mt List.mem_cons.mpr hi)
    exact (settleLine_keepsLine (Ne.symm hj)).trans (ih his _)

/-- Lines each settled once: what belongs to line `i` comes from settling it alone. -/
theorem settleLines_line {is : List DebouncedId} (hn : is.Nodup) (hi : i ∈ is) (s : State) :
    ∃ a, s.SettleFrame a ∧ s.LineKept i a ∧ (a.settleLine i).LineKept i (is.foldl State.settleLine s) := by
  obtain ⟨pre, post, rfl⟩ := List.append_of_mem hi
  obtain ⟨_, hcons, hdisjoint⟩ := List.nodup_append.mp hn
  have hpre : i ∉ pre := fun h => hdisjoint i h i (List.mem_cons_self ..) rfl
  refine ⟨pre.foldl State.settleLine s, settleLines_frame pre s, settleLines_keepLine hpre s, ?_⟩
  rw [List.foldl_append, List.foldl_cons]
  exact settleLines_keepLine (List.nodup_cons.mp hcons).1 _

theorem debounceDue_congr (hf : s.SettleFrame a) (hk : s.LineKept i a) : a.debounceDue i = s.debounceDue i := by
  rw [State.debounceDue, State.debounceDue, State.debounceOf, State.debounceOf, hk.candidate, hf.time, hf.device]

theorem settleLines_of_none (is : List DebouncedId) (h : ∀ i : DebouncedId, s.lines.candidate[i] = none) :
    is.foldl State.settleLine s = s := by
  induction is with
  | nil => rfl
  | cons j is ih =>
    rw [List.foldl_cons, settleLine_of_not_due (debounceDue_of_none (h j)), ih]

/-- A line that is not due stays as it is. -/
theorem settleLines_waits {is : List DebouncedId} (hn : is.Nodup) (hi : i ∈ is) (hdue : s.debounceDue i = false) :
    s.LineKept i (is.foldl State.settleLine s) := by
  obtain ⟨a, hf, hk, hlast⟩ := settleLines_line hn hi s
  rw [settleLine_of_not_due ((debounceDue_congr hf hk).trans hdue)] at hlast
  exact hk.trans hlast

/-- What belongs to line `i` after its edge (R34, R151, R155, R157). -/
structure State.LineSettled (s : State) (i : DebouncedId) (t : State) : Prop where
  debounced : t.lines.debounced[i] = s.lines.raw[i.castSucc]
  candidate : t.lines.candidate[i] = none
  latch : i = millTripLine → t.millTripLatch = (s.millTripLatch || s.lines.raw[i.castSucc])
  drive : ∀ l : LaneId, i = driveLine l → t.lanes[l].tb.accumulator =
      (if s.lines.raw[i.castSucc] then some 0 else none) ∧
    t.lanes[l].WatchedFrom s.lines.raw[i.castSucc] (s.lanes[l].keptTime s.lineTime)

theorem settleLines_settles {is : List DebouncedId} (hn : is.Nodup) (hi : i ∈ is) (hdue : s.debounceDue i = true) :
    s.LineSettled i (is.foldl State.settleLine s) := by
  obtain ⟨a, hf, hk, hlast⟩ := settleLines_line hn hi s
  rw [settleLine_of_due ((debounceDue_congr hf hk).trans hdue)] at hlast
  obtain ⟨hedge, _⟩ := debouncedEdge_taken a i
  rw [hf.raw] at hedge
  have hlines := hedge.lines
  refine ⟨?_, ?_, fun hm => ?_, fun l hl => ?_⟩
  · rw [hlast.debounced, hlines]
    exact Vector.getElem_set_self _
  · rw [hlast.candidate, hlines]
    exact Vector.getElem_set_self _
  · rw [hlast.latch hm, hedge.latch, hk.latch hm, beq_iff_eq.mpr hm, Bool.true_and]
  · obtain ⟨hacc, hwatched, _⟩ := hedge.drive l hl
    rw [hk.drive l hl, hf.time] at hwatched
    rw [hlast.drive l hl]
    exact ⟨hacc, hwatched⟩

/-! ## The request (R152) -/

/-- The state with the two items of SET_LINE_CONFIG in force. -/
def State.lineConfig (s : State) (times : Vector Byte 4) (edges : Vector EdgeSelection 26) : State :=
  { s with device := { s.device with debounce := times.map (·.toNat), edges := edges } }

theorem setLineConfig_takes (times : Vector Byte 4) (edges : Vector EdgeSelection 26) (s : State) :
    setLineConfig tag (lineConfigPayload times edges) s =
      (List.finRange 25).foldl State.settleLine ((s.ok 0x40 tag []).lineConfig times edges) := by
  simp only [setLineConfig, edgesItem_some, times_items]
  rfl

theorem setLineConfig_refuses (h : edgesItem p = none) : setLineConfig tag p s = s.refuse 0x40 tag .badValue := by
  simp only [setLineConfig, h]

theorem lineConfig_debounceDue {since : Time} (times : Vector Byte 4) (edges : Vector EdgeSelection 26)
    (h : s.lines.candidate[i] = some since) : (s.lineConfig times edges).debounceDue i =
      decide (times[debounceGroup i].toNat ≤ (s.lineTime - since).toNat) := by
  have hof : (s.lineConfig times edges).debounceOf i = times[debounceGroup i].toNat := Vector.getElem_map ..
  rw [State.debounceDue, hof, show (s.lineConfig times edges).lines.candidate[i] = some since from h]
  rfl

theorem exec_setLineConfig {times : Vector Byte 4} {edges : Vector EdgeSelection 26}
    (h : s.takeable ⟨tag, 0x40, lineConfigPayload times edges⟩ = true) :
    exec (.setLineConfig tag (lineConfigPayload times edges)) s = .next ((List.finRange 25).foldl State.settleLine
      ((s.answered ⟨tag, 0xC0, [0x00]⟩).lineConfig times edges)) :=
  (exec_taken (act := setLineConfig tag (lineConfigPayload times edges))
    (i := .setLineConfig tag (lineConfigPayload times edges)) rfl h (lineConfigPayload_length times edges)).trans
    (congrArg Host.Outcome.next (setLineConfig_takes times edges s.popInput))

/-- What SET_LINE_CONFIG leaves of the candidates. -/
structure State.LinesSettled (s : State) (t : State) : Prop where
  frame : s.SettleFrame t
  waits : ∀ i : DebouncedId, s.debounceDue i = false → s.LineKept i t
  settles : ∀ i : DebouncedId, s.debounceDue i = true → s.LineSettled i t

theorem settleLines_all (s : State) : s.LinesSettled ((List.finRange 25).foldl State.settleLine s) :=
  ⟨settleLines_frame _ s, fun i => settleLines_waits (List.nodup_finRange 25) (List.mem_finRange i),
    fun i => settleLines_settles (List.nodup_finRange 25) (List.mem_finRange i)⟩

end Sys2Proof.Machine

namespace Sys2Proof

open Machine

/-- Settles O39: under the new times each line is settled once, and settling a line reaches nothing of another. -/
theorem lineConfigSet : Obligations.LineConfigSet := by
  refine ⟨fun s tag times edges h => ⟨fun hnone => ?_, ?_⟩, fun s tag p hp h hbad => ?_⟩
  · exact (exec_setLineConfig h).trans (congrArg Host.Outcome.next
      (settleLines_of_none (s := (s.answered ⟨tag, 0xC0, [0x00]⟩).lineConfig times edges) _ hnone))
  · have hexec := exec_setLineConfig h
    have hall := settleLines_all ((s.answered ⟨tag, 0xC0, [0x00]⟩).lineConfig times edges)
    generalize (List.finRange 25).foldl State.settleLine _ = t at hexec hall
    refine ⟨t, hexec, hall.frame.device, hall.frame.raw, hall.frame.trace, hall.frame.time, fun i hwaits => ?_,
      fun i since hc hdue => ?_⟩
    · have hkept := hall.waits i ?_
      · exact ⟨hkept.debounced, hkept.candidate, hkept.latch, hkept.drive⟩
      · cases hc : s.lines.candidate[i] with
        | none => exact debounceDue_of_none (s := (s.answered ⟨tag, 0xC0, [0x00]⟩).lineConfig times edges) hc
        | some since =>
          rw [lineConfig_debounceDue (s := s.answered ⟨tag, 0xC0, [0x00]⟩) times edges hc]
          exact decide_eq_false (Nat.not_le.mpr (hwaits since hc))
    · have hsettled := hall.settles i ((lineConfig_debounceDue (s := s.answered ⟨tag, 0xC0, [0x00]⟩) times edges
        hc).trans (decide_eq_true hdue))
      exact ⟨hsettled.debounced, hsettled.candidate, hsettled.latch, hsettled.drive⟩
  · exact (exec_taken (act := setLineConfig tag p) (i := .setLineConfig tag p) rfl h hp).trans
      (congrArg Host.Outcome.next (setLineConfig_refuses (edgesItem_none hbad)))

end Sys2Proof
end

section
/-! The raw PLANT_STOP level (R121, R122, R153, R156, R163): O45. -/

namespace Sys2Proof.Machine

variable {s t u : State} {l k : LaneId} {env : LaneEnv} {ln : Lane}

/-! ## What a step of a lane leaves besides its lane -/

theorem addTrace_laneFlag_mono {j : Nat} (d : TraceDraft) (h : s.laneFlag k j = true) :
    (s.addTrace l d).laneFlag k j = true := by
  unfold State.addTrace
  split
  · dsimp only
    split
    · exact raise_laneFlag_mono _ h
    · split
      · exact raise_laneFlag_mono _ h
      · exact h
  · exact h

theorem stepLane_laneFlag_mono {f : LaneEnv → Lane → LaneOut} {j : Nat} (h : s.laneFlag k j = true) :
    (s.stepLane l f).laneFlag k j = true :=
  commit_keeps (Φ := fun x => x.laneFlag k j = true) l (fun _ e hx => by
    cases e with
    | event e => exact raise_laneFlag_mono e hx
    | trace d => exact addTrace_laneFlag_mono d hx) _ _ h

theorem stepLane_choices (s : State) (l : LaneId) (f : LaneEnv → Lane → LaneOut) :
    (s.stepLane l f).choices = s.choices :=
  commit_keeps (Φ := fun x => x.choices = s.choices) l (fun x e hx => by
    cases e with
    | event e => exact (State.raise_choices x e).trans hx
    | trace d => exact (State.addTrace_choices x l d).trans hx) _ _ rfl

/-- What steps of the lanes `ls` leave: the other lanes, the lines, what every lane reads from outside it, and the
flags that are set. -/
structure State.StepsOf (s : State) (ls : List LaneId) (t : State) : Prop where
  lanes : ∀ k : LaneId, k ∉ ls → t.lanes[k] = s.lanes[k]
  phase : t.phase = s.phase
  lines : t.lines = s.lines
  time : t.lineTime = s.lineTime
  env : ∀ k : LaneId, t.env k = s.env k
  flags : ∀ (k : LaneId) (j : Nat), s.laneFlag k j = true → t.laneFlag k j = true

theorem stepLane_stepsOf (s : State) (l : LaneId) (f : LaneEnv → Lane → LaneOut) :
    s.StepsOf [l] (s.stepLane l f) := by
  have hframe := stepLane_frame s l f
  refine ⟨fun k hk => hframe.lanes k (List.ne_of_not_mem_cons hk), hframe.phase, hframe.lines, hframe.time,
    fun k => ?_, fun k j h => stepLane_laneFlag_mono h⟩
  rw [State.env, State.env, hframe.time, hframe.lines, hframe.device, stepLane_choices]

theorem State.StepsOf.cons {ls : List LaneId} (h : s.StepsOf [l] t) (k : t.StepsOf ls u) :
    s.StepsOf (l :: ls) u where
  lanes := fun j hj => (k.lanes j fun hm => hj (List.mem_cons_of_mem _ hm)).trans
    (h.lanes j fun hm => hj (List.mem_singleton.mp hm ▸ List.mem_cons_self ..))
  phase := k.phase.trans h.phase
  lines := k.lines.trans h.lines
  time := k.time.trans h.time
  env := fun j => (k.env j).trans (h.env j)
  flags := fun j i hi => k.flags j i (h.flags j i hi)

/-! ## The halt of one lane (R121, R122) -/

/-- What PLANT_STOP shows at a lane that runs or drains. -/
structure State.LaneHalts (s : State) (l : LaneId) (t : State) : Prop where
  state : t.lanes[l].state = .halted
  flag : t.laneFlag l 0 = true
  flushes : s.lanes[l].Flushes (s.env l) t.lanes[l]
  lotDone : s.lanes[l].LotsAgree → s.lanes[l].lots.draining ≠ none → t.laneFlag l 3 = true
  ports : s.lanes[l].PortsFollow l t.lanes[l]
  rest : s.lanes[l].ClosedRest s.lineTime t.lanes[l]
  cause : t.lanes[l].haltCause = .plantStop
  injection : t.lanes[l].injection = none
  pendingSwitch : t.lanes[l].tb.pendingSwitch = none
  position : t.lanes[l].tb.p = s.lanes[l].tb.p
  pmax : t.lanes[l].tb.pmax = s.lanes[l].tb.p
  nextSerial : t.lanes[l].nextSerial = s.lanes[l].nextSerial
  scale : s.lanes[l].ScaleTaken t.lanes[l]
  monitor : t.lanes[l].tb.monitor = none
  source : t.lanes[l].tb.source = s.lanes[l].tb.source
  encoderLost : t.lanes[l].tb.encoderLost = s.lanes[l].tb.encoderLost
  timebase : s.lanes[l].TimebaseKept t.lanes[l]

/-- What PLANT_STOP shows at a lane at rest. -/
structure State.LaneStays (s : State) (l : LaneId) (t : State) : Prop where
  state : t.lanes[l].state = s.lanes[l].state
  cause : t.lanes[l].haltCause = s.lanes[l].haltCause
  queue : t.lanes[l].queue = s.lanes[l].queue
  scale : s.lanes[l].ScaleKept t.lanes[l]

/-- What PLANT_STOP shows at lane `l`. -/
structure State.LaneStops (s : State) (l : LaneId) (t : State) : Prop where
  halts : s.lanes[l].active = true → s.LaneHalts l t
  stays : s.lanes[l].active = false → s.LaneStays l t

/-- The lane as a halt flushes it. -/
def Lane.halting (ln : Lane) : Lane := { ln with state := .halted, haltCause := .plantStop }

theorem halt_of_active (ha : ln.active = true) : halt .plantStop env ln =
    ⟨(flush env ln.halting).lane, (flush env ln.halting).effects ++
      [.event (.laneState env.id .halted .plantStop)]⟩ := by
  rw [halt, if_pos ha]
  rfl

theorem halt_flushes (ha : ln.active = true) : ln.Flushes env (halt .plantStop env ln).lane := by
  rw [halt_of_active ha]
  exact (flush_flushes env ln.halting).1.congr ⟨rfl, rfl, rfl, rfl⟩ ⟨rfl, rfl, rfl, rfl⟩

theorem halting_lotsAgree (h : ln.LotsAgree) : ln.halting.LotsAgree := ⟨h.serials, h.filling, h.draining, h.pending⟩

theorem stepLane_halt_lane {z : Lane}
    (hz : (halt .plantStop (s.env l) s.lanes[l]).lane = z) (hstate : z.state = .halted) :
    (s.stepLane l (halt .plantStop)).lanes[l] =
      syncPorts l s.lanes[l] { z with tb := { z.tb with monitor := none } } := by
  have hina : z.active = false := by rw [Lane.active, hstate]; rfl
  rw [← syncMonitor_of_inactive (s.env l) hina, stepLane_lane]
  exact laneStep_lane_of_rest hz hina

theorem stepLane_halts (ha : s.lanes[l].active = true) : s.LaneHalts l (s.stepLane l (halt .plantStop)) := by
  obtain ⟨hstate, hcause, _, hinjection, hswitch, _, hp, hpmax, hserial, _⟩ :=
    halt_lane .plantStop (s.env l) s.lanes[l] ha
  obtain ⟨hscale, htimebase, _, hsource, hlost⟩ := halt_scale .plantStop (s.env l) s.lanes[l] ha
  obtain ⟨hports, hrest, _⟩ := laneStep_closes (f := halt .plantStop) (halt_closes .plantStop (s.env l) s.lanes[l] ha)
  obtain ⟨hstockQueue, hlots, htally, hlist⟩ := stepLane_stock s l (halt .plantStop)
  have hmem : .event (.laneState l .halted .plantStop) ∈ (halt .plantStop (s.env l) s.lanes[l]).effects := by
    rw [halt_of_active ha]
    exact List.mem_append_right _ (List.mem_singleton_self _)
  have hflag := stepLane_flag (f := halt .plantStop) rfl hmem
  have hflushes := (halt_flushes ha).of_parts hstockQueue hlist htally fun _ => hlots
  have hlane := stepLane_halt_lane rfl hstate
  rw [← stepLane_lane] at hports hrest
  obtain ⟨htaken, hkept⟩ := hscale.rests htimebase (t := (s.stepLane l (halt .plantStop)).lanes[l])
    (by rw [hlane]; rfl) (by rw [hlane]; rfl)
  have hdone : s.lanes[l].LotsAgree → s.lanes[l].lots.draining ≠ none →
      (s.stepLane l (halt .plantStop)).laneFlag l 3 = true := by
    intro hagree hd
    obtain ⟨id, cause, n, hdone⟩ := flush_lotDone (env := s.env l) (halting_lotsAgree hagree) hd
    refine stepLane_flag (e := .lotDone l id cause n) rfl ?_
    rw [halt_of_active ha]
    exact List.mem_append_left _ hdone
  exact ⟨(congrArg Lane.state hlane).trans hstate, hflag, hflushes, hdone, hports, hrest,
    (congrArg Lane.haltCause hlane).trans hcause, (congrArg Lane.injection hlane).trans hinjection,
    (congrArg (·.tb.pendingSwitch) hlane).trans hswitch, (congrArg (·.tb.p) hlane).trans hp,
    (congrArg (·.tb.pmax) hlane).trans hpmax, (congrArg Lane.nextSerial hlane).trans hserial, htaken,
    congrArg (·.tb.monitor) hlane, (congrArg (·.tb.source) hlane).trans hsource,
    (congrArg (·.tb.encoderLost) hlane).trans hlost, hkept⟩

theorem stepLane_halts_traces (ha : s.lanes[l].active = true) : s.Traces (s.stepLane l (halt .plantStop))
    [lostEntry s.lineTime l s.lanes[l] (s.stepLane l (halt .plantStop)).lanes[l]] := by
  obtain ⟨hparcel, hloose⟩ := halt_drafts .plantStop (s.env l) s.lanes[l] ha
  obtain ⟨_, hlots, _⟩ := stepLane_stock s l (halt .plantStop)
  rw [lostEntry, hlots]
  exact stepLane_traces_loose hparcel hloose

theorem stepLane_stays (ha : s.lanes[l].active = false) : s.LaneStays l (s.stepLane l (halt .plantStop)) := by
  have hlane := stepLane_quiet_lane (f := halt .plantStop) (halt_rest .plantStop (s.env l) s.lanes[l] ha) rfl
  refine ⟨?_, ?_, ?_, ?_⟩
  all_goals rw [hlane]
  · rfl
  · rfl
  · rfl
  · exact ⟨rfl, rfl, rfl⟩

theorem stepLane_stays_traces (ha : s.lanes[l].active = false) : s.Traces (s.stepLane l (halt .plantStop)) [] :=
  stepLane_traces_loose (ls := []) (by rw [halt_rest _ _ _ ha]; rfl) (by rw [halt_rest _ _ _ ha]; rfl)

theorem stepLane_stops (s : State) (l : LaneId) : s.LaneStops l (s.stepLane l (halt .plantStop)) :=
  ⟨stepLane_halts, stepLane_stays⟩

/-! ## The halts of several lanes (R121) -/

/-- What a lane shows is a matter of the lane, of what it reads, and of its flags. -/
theorem State.LaneStops.congr {s' t' : State} (h : s.LaneStops l t) (hs : s'.lanes[l] = s.lanes[l])
    (henv : s'.env l = s.env l) (htime : s'.lineTime = s.lineTime) (ht : t'.lanes[l] = t.lanes[l])
    (hflags : ∀ j : Nat, t.laneFlag l j = true → t'.laneFlag l j = true) : s'.LaneStops l t' := by
  refine ⟨fun ha => ?_, fun ha => ?_⟩
  · rw [hs] at ha
    obtain ⟨hstate, hflag, hflushes, hdone, hports, hrest, hcause, hinjection, hswitch, hp, hpmax, hserial, hscale,
      hmonitor, hsource, hlost, hkept⟩ := h.halts ha
    rw [← hs, ← ht] at hflushes hports hrest hscale hkept
    rw [← ht] at hstate hcause hinjection hswitch hp hpmax hserial hmonitor hsource hlost
    rw [← hs] at hdone hp hpmax hserial hsource hlost
    rw [← henv] at hflushes
    rw [← htime] at hrest
    exact ⟨hstate, hflags 0 hflag, hflushes, fun hagree hd => hflags 3 (hdone hagree hd), hports, hrest, hcause,
      hinjection, hswitch, hp, hpmax, hserial, hscale, hmonitor, hsource, hlost, hkept⟩
  · rw [hs] at ha
    obtain ⟨hstate, hcause, hqueue, hscale⟩ := h.stays ha
    rw [← hs, ← ht] at hstate hcause hqueue hscale
    exact ⟨hstate, hcause, hqueue, hscale⟩

/-- The lanes halt one after another. -/
def State.haltLanes (s : State) (ls : List LaneId) : State :=
  ls.foldl (fun x l => x.onLane l (laneStep (halt .plantStop))) s

theorem haltLanes_cons (s : State) (l : LaneId) (ls : List LaneId) :
    s.haltLanes (l :: ls) = (s.stepLane l (halt .plantStop)).haltLanes ls := rfl

/-- The LOST entries of the lanes that halt, in the order of the lanes. -/
def lostEntries (s : State) (ls : List LaneId) (t : State) : List TraceEntry :=
  (ls.filter fun l => s.lanes[l].active).map fun l => lostEntry s.lineTime l s.lanes[l] t.lanes[l]

/-- What the halts of the lanes `ls` leave. -/
structure State.LanesStop (s : State) (ls : List LaneId) (t : State) : Prop where
  steps : s.StepsOf ls t
  stops : ∀ l ∈ ls, s.LaneStops l t
  traces : s.Traces t (lostEntries s ls t)

theorem lostEntries_gap {ls : List LaneId} : ∀ e ∈ lostEntries s ls t, e.gap = false := by
  intro e he
  obtain ⟨l, _, rfl⟩ := List.mem_map.mp he
  rfl

theorem stepLane_halt_traces (s : State) (l : LaneId) :
    s.Traces (s.stepLane l (halt .plantStop)) (lostEntries s [l] (s.stepLane l (halt .plantStop))) := by
  cases ha : s.lanes[l].active with
  | true =>
    have hself : [l].filter (fun k => s.lanes[k].active) = [l] := List.filter_cons_of_pos ha
    rw [lostEntries, hself]
    exact stepLane_halts_traces ha
  | false =>
    have hnone : [l].filter (fun k => s.lanes[k].active) = [] := List.filter_cons_of_neg (by rw [ha]; decide)
    rw [lostEntries, hnone]
    exact stepLane_stays_traces ha

theorem lostEntries_congr {s' t' : State} {ls : List LaneId} (hs : ∀ l ∈ ls, s'.lanes[l] = s.lanes[l])
    (ht : ∀ l ∈ ls, t'.lanes[l] = t.lanes[l]) (htime : s'.lineTime = s.lineTime) :
    lostEntries s' ls t' = lostEntries s ls t := by
  rw [lostEntries, lostEntries, List.filter_congr fun l hl => by rw [hs l hl]]
  refine List.map_congr_left fun l hl => ?_
  have hmem := (List.mem_filter.mp hl).1
  rw [htime, hs l hmem, ht l hmem]

theorem lostEntries_singleton {t' : State} (ht : t'.lanes[l] = t.lanes[l]) :
    lostEntries s [l] t' = lostEntries s [l] t := by
  refine lostEntries_congr (fun _ _ => rfl) (fun k hk => ?_) rfl
  rw [List.mem_singleton.mp hk]
  exact ht

theorem lostEntries_cons (s : State) (l : LaneId) (ls : List LaneId) (t : State) :
    lostEntries s (l :: ls) t = lostEntries s [l] t ++ lostEntries s ls t := by
  simp only [lostEntries, ← List.map_append, ← List.filter_append]
  rfl

theorem haltLanes_stop {ls : List LaneId} (hn : ls.Nodup) (s : State) : s.LanesStop ls (s.haltLanes ls) := by
  induction ls generalizing s with
  | nil => 
    exact ⟨⟨fun _ _ => rfl, rfl, rfl, rfl, fun _ => rfl, fun _ _ h => h⟩, fun _ h => (nomatch h), State.Traces.refl s⟩
  | cons l ls ih =>
    obtain ⟨hl, hls⟩ := List.nodup_cons.mp hn
    rw [haltLanes_cons]
    have hfirst := stepLane_stepsOf s l (halt .plantStop)
    have hrest := ih hls (s.stepLane l (halt .plantStop))
    have hother : ∀ k ∈ ls, s.lanes[k] = (s.stepLane l (halt .plantStop)).lanes[k] := fun k hk =>
      (hfirst.lanes k fun hm => hl (List.mem_singleton.mp hm ▸ hk)).symm
    refine ⟨hfirst.cons hrest.steps, fun k hk => ?_, ?_⟩
    · rcases List.mem_cons.mp hk with rfl | hk
      · exact (stepLane_stops s k).congr rfl rfl rfl (hrest.steps.lanes k hl) (hrest.steps.flags k)
      · exact (hrest.stops k hk).congr (hother k hk) (hfirst.env k).symm hfirst.time.symm rfl fun _ h => h
    · have hhead := stepLane_halt_traces s l
      rw [← lostEntries_singleton (hrest.steps.lanes l hl)] at hhead
      have htail := hrest.traces
      rw [← lostEntries_congr hother (fun _ _ => rfl) hfirst.time.symm] at htail
      rw [lostEntries_cons]
      exact hhead.trans htail lostEntries_gap

/-! ## The raw level (R153, R156) -/

theorem setRaw_env (s : State) (level : Bool) (k : LaneId) : (s.setRaw plantStopLine level).env k = s.env k := by
  have hair : (s.setRaw plantStopLine level).lines.raw[(airLine k).castSucc] = s.lines.raw[(airLine k).castSucc] :=
    Vector.getElem_set_ne plantStopLine.isLt (airLine k).castSucc.isLt (Nat.ne_of_gt (airLine k).isLt)
  rw [State.env, State.env, hair]
  rfl

theorem rawChange_plantStop {level : Bool} (hphase : s.phase = .working) (h : s.lines.raw[plantStopLine] = !level) :
    s.rawChange plantStopLine level = (s.setRaw plantStopLine level).plantStopChange level := by
  have hne : ¬s.lines.raw[plantStopLine] = level := by rw [h]; simp
  rw [State.rawChange, if_neg hne, if_pos (live_of_working hphase), State.rawAction]
  exact dif_neg (by decide)

/-- What the assertion shows besides the lanes. -/
structure State.Announced (s t : State) : Prop where
  phase : t.phase = s.phase
  lanes : t.lanes = s.lanes
  lines : t.lines = s.lines
  trace : t.trace = s.trace
  gap : t.gapPending = s.gapPending
  plantStop : t.deviceFlag 5 = true
  flags : ∀ (k : LaneId) (j : Nat), s.laneFlag k j = true → t.laneFlag k j = true

theorem edgeNotice_deviceFlag_mono {j : Nat} (hj : j < 8) (i : LineId) (level : Bool) (h : s.deviceFlag j = true) :
    (s.edgeNotice i level).deviceFlag j = true := by
  unfold State.edgeNotice
  split
  · rw [raise_deviceFlag _ _ _ hj, h, Bool.true_or]
  · exact h

theorem plantStop_announced (s : State) :
    s.Announced ((s.raise .plantStop).edgeNotice plantStopLine true) := by
  obtain ⟨hlanes, hlines, _⟩ := raise_rest s .plantStop
  obtain ⟨htrace, hgap⟩ := raise_trace s .plantStop
  obtain ⟨elanes, elines, _, _, _, _, etrace, egap, _⟩ :=
    edgeNotice_taken (s.raise .plantStop) plantStopLine true _ rfl
  have hflag : (s.raise .plantStop).deviceFlag 5 = true := by
    rw [raise_deviceFlag _ _ _ (by decide)]
    simp [Event.kind, Event.lane?]
  exact ⟨(edgeNotice_phase _ _ _).trans (State.raise_phase s _), elanes.trans hlanes, elines.trans hlines,
    etrace.trans htrace, egap.trans hgap, edgeNotice_deviceFlag_mono (by decide) _ _ hflag,
    fun k j h => edgeNotice_laneFlag_mono _ _ (raise_laneFlag_mono _ h)⟩

theorem plantStopChange_asserted (s : State) : s.plantStopChange true =
    ((s.haltLanes (List.finRange 4)).raise .plantStop).edgeNotice plantStopLine true := by
  rw [State.plantStopChange, if_pos rfl, State.plantStopAction, State.haltAll, State.haltLanes]

theorem exec_rawPlantStopAsserted (hphase : s.phase = .working) (h : s.lines.raw[plantStopLine] = false) :
    ∃ t u, exec .rawPlantStopAsserted s = .next u ∧
      (s.setRaw plantStopLine true).LanesStop (List.finRange 4) t ∧ t.Announced u := by
  have hchange := (rawChange_plantStop (level := true) hphase h).trans (plantStopChange_asserted _)
  have hstop := haltLanes_stop (List.nodup_finRange 4) (s.setRaw plantStopLine true)
  generalize (s.setRaw plantStopLine true).haltLanes (List.finRange 4) = t at hchange hstop
  exact ⟨t, _, congrArg Host.Outcome.next hchange, hstop, plantStop_announced t⟩

/-- On a part that works, raw PLANT_STOP asserts the mill feed hold (R163). -/
theorem millFeedHold_of_plantStop (hphase : s.phase = .working) (h : s.plantStop = true) : s.millFeedHold = true := by
  rw [State.millFeedHold, hphase]
  simp [h]

end Sys2Proof.Machine

namespace Sys2Proof

open Machine

/-- Settles O45: the lanes halt one after another, each by its own flush, and no halt reaches another lane. -/
theorem plantStopHalts : Obligations.PlantStopHalts := by
  intro s hphase
  refine ⟨fun h => ?_, fun h => ?_⟩
  · obtain ⟨t, u, hexec, hstop, hu⟩ := exec_rawPlantStopAsserted hphase h
    have hraw : u.lines.raw[plantStopLine] = true := by
      rw [hu.lines, hstop.steps.lines]
      exact setRaw_raw s plantStopLine true
    have hlanes : ∀ l : LaneId, u.lanes[l] = t.lanes[l] := fun l => by rw [hu.lanes]
    have hstops : ∀ l : LaneId, s.LaneStops l u := fun l =>
      (hstop.stops l (List.mem_finRange l)).congr rfl (setRaw_env s true l).symm rfl (hlanes l) (hu.flags l)
    have htraces := hstop.traces
    rw [← lostEntries_congr (s := s.setRaw plantStopLine true) (s' := s) (t' := u) (fun _ _ => rfl)
      (fun l _ => hlanes l) rfl] at htraces
    refine ⟨u, hexec, hraw, hu.plantStop,
      millFeedHold_of_plantStop (hu.phase.trans (hstop.steps.phase.trans hphase)) hraw,
      htraces.congr rfl rfl hu.trace hu.gap, fun l ha => ?_, fun l ha => ?_⟩
    · obtain ⟨hstate, hflag, hflushes, hdone, hports, hrest, hcause, hinjection, hswitch, hp, hpmax, hserial, hscale,
        hmonitor, hsource, hlost, hkept⟩ := (hstops l).halts ha
      exact ⟨hstate, hflag, hflushes, hdone, hports, hrest, hcause, hinjection, hswitch, hp, hpmax, hserial, hscale,
        hmonitor, hsource, hlost, hkept⟩
    · obtain ⟨hstate, hcause, hqueue, hscale⟩ := (hstops l).stays ha
      exact ⟨hstate, hcause, hqueue, hscale⟩
  · obtain ⟨hlanes, hlines, hlatch, _, _, _, htrace, _⟩ :=
      edgeNotice_taken (s.setRaw plantStopLine false) plantStopLine false _ rfl
    refine ⟨_, congrArg Host.Outcome.next (rawChange_plantStop (level := false) hphase h), ?_, hlanes, htrace, hlatch⟩
    rw [show ((s.setRaw plantStopLine false).plantStopChange false).lines = (s.setRaw plantStopLine false).lines from
      hlines]
    exact setRaw_raw s plantStopLine false

end Sys2Proof
end

section
/-! A sample of a lane's encoder phases (R26 to R28, R31 to R34, R39, R40): what it makes of the lane. -/

namespace Sys2Proof.Machine

variable {env : LaneEnv} {before ln c b : Lane} {x : Bool × Bool}

/-! ## The four results of the decoder (R26) -/

/-- A step of the lane `before` that takes the sample `x` on the lane `ln`. -/
def sampleOut (env : LaneEnv) (before ln : Lane) (x : Bool × Bool) : LaneOut :=
  laneStep (fun env _ => phaseSample x.1 x.2 env ln) env before

theorem sampleOut_same (hq : ln.queue = before.queue) (hx : x = ln.tb.phases) :
    sampleOut env before ln x = (ln.syncMonitor env).quiet :=
  laneStep_quiet (by rw [hx]; exact phaseSample_none env ln) hq

theorem sampleOut_error (hq : ln.queue = before.queue) (hx : x = (!ln.tb.phases.1, !ln.tb.phases.2)) :
    sampleOut env before ln x = (Lane.syncMonitor env { ln with tb := { ln.tb with
      phases := x, phaseErrors := holdInc ln.tb.phaseErrors } }).quiet := by
  subst hx
  exact laneStep_quiet (phaseSample_error env ln) hq

/-- P steps up at a count up (R26 to R28). -/
def Lane.DueUp (ln : Lane) : Prop := ln.tb.source = .encoder ∧ ln.cfg.scale ≤ ln.tb.residue + 1

/-- P steps down at a count down (R26 to R28). -/
def Lane.DueDown (ln : Lane) : Prop := ln.tb.source = .encoder ∧ ln.tb.residue = 0

theorem sampleOut_up_waits (hq : ln.queue = before.queue) (hx : x = (!ln.tb.phases.2, ln.tb.phases.1))
    (h : ¬ln.DueUp) : sampleOut env before ln x = ((ln.countedUp x env.now).syncMonitor env).quiet := by
  subst hx
  exact laneStep_quiet ((phaseSample_up env ln).trans (if_neg h)) hq

theorem sampleOut_up_steps (hx : x = (!ln.tb.phases.2, ln.tb.phases.1)) (h : ln.DueUp) :
    (ln.countedUp x env.now).StepsUp env before (sampleOut env before ln x) := by
  subst hx
  have hstep := laneStep_congr (f := fun env _ => phaseSample (!ln.tb.phases.2) ln.tb.phases.1 env ln)
    (g := fun env _ => stepForward env (ln.countedUp (!ln.tb.phases.2, ln.tb.phases.1) env.now)) (ln := before)
    ((phaseSample_up env ln).trans (if_pos h))
  rw [sampleOut, hstep]
  exact stepForward_up env before _

theorem sampleOut_down_waits (hq : ln.queue = before.queue) (hx : x = (ln.tb.phases.2, !ln.tb.phases.1))
    (h : ¬ln.DueDown) : sampleOut env before ln x = ((ln.countedDown x env.now).syncMonitor env).quiet := by
  subst hx
  exact laneStep_quiet ((phaseSample_down env ln).trans (if_neg h)) hq

theorem sampleOut_down_steps (hx : x = (ln.tb.phases.2, !ln.tb.phases.1)) (h : ln.DueDown) :
    (ln.countedDown x env.now).StepsDown env before (sampleOut env before ln x) := by
  subst hx
  have hstep := laneStep_congr (f := fun env _ => phaseSample ln.tb.phases.2 (!ln.tb.phases.1) env ln)
    (g := fun env _ => stepBackward env (ln.countedDown (ln.tb.phases.2, !ln.tb.phases.1) env.now)) (ln := before)
    ((phaseSample_down env ln).trans (if_pos h))
  rw [sampleOut, hstep]
  exact stepBackward_down env before _

/-- The two levels after a sample stand to those before it in one of four ways (R26). -/
theorem phases_cases (x y : Bool × Bool) : x = y ∨ x = (!y.1, !y.2) ∨ x = (!y.2, y.1) ∨ x = (y.2, !y.1) := by
  revert x y
  decide

/-! ## What a count leaves, whether P steps or not -/

/-- The divider, the phase levels and the phase-error count are those of the counted lane. -/
structure Lane.CountKept (c b : Lane) : Prop where
  phases : b.tb.phases = c.tb.phases
  errors : b.tb.phaseErrors = c.tb.phaseErrors
  residue : b.tb.residue = c.tb.residue
  scale : b.cfg.scale = c.cfg.scale
  pendingScale : b.tb.pendingScale = c.tb.pendingScale

theorem syncMonitor_countKept (env : LaneEnv) (c : Lane) : c.CountKept (c.syncMonitor env) := ⟨rfl, rfl, rfl, rfl, rfl⟩

/-- No work of a step of P touches them, as the count has brought a pending scale into force. -/
theorem Lane.Steady.countKept {p m : Pos} (h : (c.movedTo p m).Steady b) (hn : c.tb.pendingScale = none) :
    c.CountKept b := by
  obtain ⟨hpending, hresidue, hscale⟩ := h.residue hn
  exact ⟨h.phases, h.errors, hresidue, hscale, hpending.trans hn.symm⟩

theorem countedUp_pendingScale (h : ln.cfg.scale ≤ ln.tb.residue + 1) (now : Time) :
    (ln.countedUp x now).tb.pendingScale = none := by
  simp [Lane.countedUp, h]

theorem countedDown_pendingScale (h : ln.tb.residue = 0) (now : Time) :
    (ln.countedDown x now).tb.pendingScale = none := by
  simp [Lane.countedDown, h]

/-- What a count up leaves of the timebase. -/
structure Lane.CountsUp (env : LaneEnv) (ln : Lane) (x : Bool × Bool) (b : Lane) : Prop where
  kept : (ln.countedUp x env.now).CountKept b
  stepped : ln.DueUp → b.tb.p = ln.tb.p + 1
  stays : ¬ln.DueUp → b.tb.p = ln.tb.p
  watched : b.WatchedFrom env.driveRun env.now

theorem sampleOut_countsUp (hq : ln.queue = before.queue) (hx : x = (!ln.tb.phases.2, ln.tb.phases.1)) :
    ln.CountsUp env x (sampleOut env before ln x).lane := by
  have hkept := (counted_kept ln x env.now).1
  by_cases h : ln.DueUp
  · have hup := sampleOut_up_steps (env := env) (before := before) hx h
    obtain ⟨hsteady, _⟩ := hup.result hq
    have hwatched := hup.watched
    rw [hkept] at hwatched
    exact ⟨hsteady.countKept (countedUp_pendingScale h.2 _), fun _ => hsteady.pos, fun hn => absurd h hn, hwatched⟩
  · rw [sampleOut_up_waits hq hx h]
    have hwatched := syncMonitor_watched env (ln.countedUp x env.now)
    rw [hkept] at hwatched
    exact ⟨syncMonitor_countKept env _, fun hd => absurd hd h, fun _ => rfl, hwatched⟩

/-- What a count down leaves of the timebase. -/
structure Lane.CountsDown (env : LaneEnv) (ln : Lane) (x : Bool × Bool) (b : Lane) : Prop where
  kept : (ln.countedDown x env.now).CountKept b
  stepped : ln.DueDown → b.tb.p = ln.tb.p - 1
  stays : ¬ln.DueDown → b.tb.p = ln.tb.p
  watched : b.WatchedFrom env.driveRun env.now

theorem sampleOut_countsDown (hq : ln.queue = before.queue) (hx : x = (ln.tb.phases.2, !ln.tb.phases.1)) :
    ln.CountsDown env x (sampleOut env before ln x).lane := by
  have hkept := (counted_kept ln x env.now).2
  by_cases h : ln.DueDown
  · have hdown := sampleOut_down_steps (env := env) (before := before) hx h
    obtain ⟨hsteady, _⟩ := hdown.result hq
    have hwatched := hdown.watched
    rw [hkept] at hwatched
    exact ⟨hsteady.countKept (countedDown_pendingScale h.2 _), fun _ => hsteady.pos, fun hn => absurd h hn, hwatched⟩
  · rw [sampleOut_down_waits hq hx h]
    have hwatched := syncMonitor_watched env (ln.countedDown x env.now)
    rw [hkept] at hwatched
    exact ⟨syncMonitor_countKept env _, fun hd => absurd hd h, fun _ => rfl, hwatched⟩

theorem sampleOut_phases (hq : ln.queue = before.queue) (x : Bool × Bool) :
    (sampleOut env before ln x).lane.tb.phases = x := by
  rcases phases_cases x ln.tb.phases with hx | hx | hx | hx
  · rw [sampleOut_same hq hx]
    exact hx.symm
  · rw [sampleOut_error hq hx]
    rfl
  · exact (sampleOut_countsUp hq hx).kept.phases
  · exact (sampleOut_countsDown hq hx).kept.phases

/-- A sample that is no count leaves the scale, and the monitor as its conditions have it (R26, R34). -/
theorem sampleOut_noCount (hq : ln.queue = before.queue)
    (hx : x = ln.tb.phases ∨ x = (!ln.tb.phases.1, !ln.tb.phases.2)) :
    (sampleOut env before ln x).lane.WatchedFrom env.driveRun (ln.keptTime env.now) ∧
      ln.ScaleKept (sampleOut env before ln x).lane := by
  rcases hx with hx | hx
  · rw [sampleOut_same hq hx]
    exact ⟨syncMonitor_watched env ln, rfl, rfl, rfl⟩
  · rw [sampleOut_error hq hx]
    exact ⟨syncMonitor_watched env { ln with tb := { ln.tb with
      phases := x, phaseErrors := holdInc ln.tb.phaseErrors } }, rfl, rfl, rfl⟩

/-! ## A switch to NOMINAL (R39) -/

theorem countedUp_switchDue (hs : ln.tb.source = .encoder) (hp : ln.tb.pendingSwitch = some .toNominal) (now : Time) :
    (ln.countedUp x now).SwitchDue .nominal := by
  refine .inl ⟨?_, hs, rfl⟩
  simp [Lane.countedUp, hp, PendingSwitch.judging]

theorem countedDown_switchDue (hs : ln.tb.source = .encoder) (hp : ln.tb.pendingSwitch = some .toNominal)
    (now : Time) : (ln.countedDown x now).SwitchDue .nominal := by
  refine .inl ⟨?_, hs, rfl⟩
  simp [Lane.countedDown, hp, PendingSwitch.judging]

/-- What a switch that completes to NOMINAL leaves, and the event that it raises. -/
structure LaneOut.Switched (id : LaneId) (out : LaneOut) : Prop where
  source : out.lane.tb.source = .nominal
  pending : out.lane.tb.pendingSwitch = none
  event : .event (.sourceSwitched id .nominal) ∈ out.effects

/-- What a step of P up leaves (R31, R32, R39, R120). -/
structure LaneOut.Rises (env : LaneEnv) (ln : Lane) (x : Bool × Bool) (out : LaneOut) : Prop where
  moves : ln.MovesUp out.lane
  drains : (ln.countedUp x env.now).Drains out.lane (.event (.laneState env.id .stopped .drained) ∈ out.effects)
  switched : ln.tb.pendingSwitch = some .toNominal → out.Switched env.id

theorem sampleOut_rises (hq : ln.queue = before.queue) (hx : x = (!ln.tb.phases.2, ln.tb.phases.1)) (h : ln.DueUp) :
    (sampleOut env before ln x).Rises env ln x := by
  have hup := sampleOut_up_steps (env := env) (before := before) hx h
  obtain ⟨_, hswitch, hmoves⟩ := hup.result hq
  refine ⟨hmoves, hup.drains hq, fun hp => ?_⟩
  obtain ⟨hsource, hnone, _, hevent⟩ := hswitch .nominal (countedUp_switchDue h.1 hp _)
  exact ⟨hsource, hnone, hevent⟩

/-! ## A step of P down (R31 to R33, R120) -/

/-- How a lane that runs or drains stands after a step of P down. -/
inductive LaneOut.Falls (id : LaneId) (ln : Lane) (out : LaneOut) : Prop where
  | goesOn (state : out.lane.state = ln.state) (pmax : out.lane.tb.pmax = ln.tb.pmax) (within : ¬ln.Passes)
      (same : ¬ln.Firing → out.lane.queue = ln.queue ∧ out.lane.stations = ln.stations ∧ out.lane.lots = ln.lots)
  | halts (state : out.lane.state = .halted) (cause : out.lane.haltCause = .reverseLimit) (queue : out.lane.queue = [])
      (injection : out.lane.injection = none) (switch : out.lane.tb.pendingSwitch = none)
      (pmax : out.lane.tb.pmax = ln.tb.p - 1) (event : .event (.laneState id .halted .reverseLimit) ∈ out.effects)
      (past : ln.Passes)
  | drains (draining : ln.state = .draining) (firing : ln.Firing) (state : out.lane.state = .stopped)
      (queue : out.lane.queue = []) (pmax : out.lane.tb.pmax = ln.tb.p - 1)

theorem firing_of_not_noFire (h : ¬ln.NoFire) : ln.Firing := by
  by_contra hn
  exact h (noFire_of_not_firing hn)

theorem sampleOut_falls (hq : ln.queue = before.queue) (hx : x = (ln.tb.phases.2, !ln.tb.phases.1)) (h : ln.DueDown)
    (ha : ln.active = true) : (sampleOut env before ln x).Falls env.id ln := by
  have hdown := sampleOut_down_steps (env := env) (before := before) hx h
  obtain ⟨hsteady, _, _, hactive⟩ := hdown.result hq
  obtain ⟨hbacks, hpasses, _⟩ := hactive ha
  have hp : (sampleOut env before ln x).lane.tb.p = ln.tb.p - 1 := hsteady.pos
  rcases hbacks with ⟨hstate, hpmax, hsame⟩ | ⟨hstate, hcause, hqueue, hinjection, hswitch, hpmax, hevent, hpast⟩ |
    ⟨hdraining, hfire, hstate, hqueue, hpmax⟩
  · refine .goesOn hstate hpmax (fun hpast => ?_) fun hn => hsame (noFire_of_not_firing hn)
    have hina := hpasses hpast
    rw [Lane.active, hstate] at hina
    rw [Lane.active] at ha
    exact absurd (ha.symm.trans hina) (by decide)
  · exact .halts hstate hcause hqueue hinjection hswitch (hpmax.trans hp) hevent hpast
  · exact .drains hdraining (firing_of_not_noFire hfire) hstate hqueue (hpmax.trans hp)

/-- What a step of P down leaves on a lane that runs or drains (R32, R33, R96, R105, R112). -/
structure LaneOut.FallsOn (env : LaneEnv) (before ln : Lane) (out : LaneOut) : Prop where
  falls : out.Falls env.id ln
  noFire : ∀ p ∈ out.lane.queue, p.isFiring = false
  ports : before.PortsFollow env.id out.lane
  rest : before.ClosedRest env.now out.lane
  kept : ¬ln.Passes → (ln.queue.map (·.serial)).Nodup → out.lane.queue = ln.queue.filter fun p => !p.isFiring
  entered : (ln.queue.map (·.serial)).Nodup → ∃ o : LaneOut, o.Entered ln ∧ out.lane.queue = o.lane.queue ∧
    out.lane.state = o.lane.state ∧ out.lane.lots = o.lane.lots ∧ out.effects = inQueueOrder o.effects

/-- What a lane on its way has entered is a matter of its queue. -/
theorem LaneOut.Entered.congr {o : LaneOut} (h : o.Entered c) (hq : c.queue = ln.queue) : o.Entered ln := by
  have hkept : c.kept = ln.kept := by rw [Lane.kept, Lane.kept, hq]
  have hcut : c.cutDrafts = ln.cutDrafts := by rw [Lane.cutDrafts, Lane.cutDrafts, hq]
  rcases h with ⟨hstate, hqueue, hparcels, hloose⟩ | ⟨hstate, hqueue, hparcels, hloose⟩ |
    ⟨hstate, hqueue, hparcels, hloose⟩ | ⟨hstate, hqueue, hparcels, hloose⟩
  · exact .untouched hstate (hqueue.trans hq) hparcels hloose
  · exact .cut hstate (hqueue.trans hkept) (hparcels.trans hcut) hloose
  · exact .lost hstate hqueue hparcels (hloose.trans (by rw [hq]))
  · exact .cutLost hstate hqueue (hparcels.trans hcut) (hloose.trans (by rw [hkept]))

theorem sampleOut_fallsOn (hs : before.Sunk ln) (hx : x = (ln.tb.phases.2, !ln.tb.phases.1)) (h : ln.DueDown)
    (ha : ln.active = true) : (sampleOut env before ln x).FallsOn env before ln := by
  have hdown := sampleOut_down_steps (env := env) (before := before) hx h
  obtain ⟨_, _, _, hactive⟩ := hdown.result hs.queue
  obtain ⟨_, _, hnoFire, hkept⟩ := hactive ha
  obtain ⟨hports, hrest, hentered⟩ := (hdown.2 ha).backs_traced ha hs.queue hs.stations hs.configs
  refine ⟨sampleOut_falls hs.queue hx h ha, hnoFire, hports, hrest, hkept, fun hn => ?_⟩
  obtain ⟨o, ho, hrest⟩ := hentered hn
  exact ⟨o, ho.congr rfl, hrest⟩

/-- What a step of P down leaves of a switch to NOMINAL, and of a lane at rest (R31, R39). -/
theorem sampleOut_down_rest (hq : ln.queue = before.queue) (hx : x = (ln.tb.phases.2, !ln.tb.phases.1))
    (h : ln.DueDown) :
    (ln.active = false → (sampleOut env before ln x).lane.tb.pmax = ln.tb.p - 1 ∧
      (sampleOut env before ln x).lane.queue = ln.queue ∧ (sampleOut env before ln x).lane.state = ln.state) ∧
    (ln.tb.pendingSwitch = some .toNominal → ln.active = false ∨ ¬ln.Passes →
      (sampleOut env before ln x).Switched env.id) := by
  obtain ⟨_, hswitch, hrest, _⟩ := (sampleOut_down_steps (env := env) (before := before) hx h).result hq
  refine ⟨hrest, fun hp hin => ?_⟩
  obtain ⟨hsource, hnone, _, hevent⟩ := hswitch .nominal (countedDown_switchDue h.1 hp _) hin
  exact ⟨hsource, hnone, hevent⟩

/-! ## Samples that outrun the cut (R33) -/

/-- The first position beyond the limit lies the limit and one below Pmax. -/
theorem first_past {p pmax : Pos} {limit : Nat} (hin : ¬limit < (pmax - p).toNat)
    (hpast : limit < (pmax - (p - 1)).toNat) :
    p - 1 = pmax - BitVec.ofNat 32 (limit + 1) := by
  bv_omega

/-- The last of the samples that outrun the cut is a count down that completes, and carries P to the first position
beyond the limit. -/
theorem Lane.Outruns.last {now : Time} {earlier : List (Bool × Bool)} (h : before.Outruns now earlier x)
    (hln : ln = earlier.foldl (Lane.sunk now) before) : x = (ln.tb.phases.2, !ln.tb.phases.1) ∧ ln.DueDown ∧
      ln.tb.p - 1 = before.tb.pmax - BitVec.ofNat 32 (before.cfg.geometry.reverseLimit + 1) := by
  have hsunk : before.Sunk ln := hln ▸ foldl_sunk now earlier before
  have hlast := h.down earlier x [] rfl
  have hin := h.within earlier [] (List.append_nil _).symm
  have hpast := h.past
  rw [List.foldl_append] at hpast
  rw [← hln] at hlast hin hpast
  obtain ⟨hzero, hpasses⟩ := Lane.Past.steps hpast hin
  refine ⟨hlast, ⟨hsunk.source.trans h.source, hzero⟩, ?_⟩
  rw [← hsunk.pmax, ← hsunk.geometry]
  exact first_past hin hpasses

end Sys2Proof.Machine
end

section
/-! ENCODER_PHASE_CHANGE on a part that works (R26 to R28, R31 to R34, R39, R40, R105, R120, R122): O25. -/

namespace Sys2Proof.Machine

variable {s t : State} {l : LaneId} {env : LaneEnv} {before ln : Lane} {x : Bool × Bool} {out : LaneOut}

/-! ## The entries of a step of P down (R32, R33, R122) -/

theorem not_halted_of_active (ha : ln.active = true) : ln.state ≠ .halted := by
  intro h
  rw [Lane.active, h] at ha
  exact absurd ha (by decide)

theorem LaneOut.FallsOn.cut_traces (h : out.FallsOn env before ln) (hn : (ln.queue.map (·.serial)).Nodup)
    (hp : ln.queue.Pairwise Parcel.StandsBefore) (hstate : out.lane.state ≠ .halted) :
    s.Traces (s.stepped l out) (cutEntries s.lineTime l .cutReverse ln.queue) := by
  obtain ⟨o, ho, hqueue, hsame, hlots, heffects⟩ := h.entered hn
  obtain ⟨hcut, _⟩ := ho.traces (s := s) (l := l) heffects hlots hp
  refine hcut hsame (hsame ▸ hstate) fun hkept hfiring => ?_
  obtain ⟨p, hmem, hfires⟩ := hfiring
  have hnot := h.noFire p (by rw [hqueue, hkept]; exact hmem)
  rw [hnot] at hfires
  exact absurd hfires (by decide)

/-- The entries of a step that passes the limit (R33). -/
theorem LaneOut.FallsOn.past_traces (h : out.FallsOn env before ln) (hpast : ln.Passes)
    (hn : (ln.queue.map (·.serial)).Nodup) (hp : ln.queue.Pairwise Parcel.StandsBefore) :
    (out.lane.state = .stopped ∧ s.Traces (s.stepped l out) (cutEntries s.lineTime l .cutReverse ln.queue)) ∨
      (out.lane.state = .halted ∧ s.Traces (s.stepped l out) [lostEntry s.lineTime l ln out.lane]) ∨
      (out.lane.state = .halted ∧ s.Traces (s.stepped l out) (cutEntries s.lineTime l .cutReverse ln.queue ++
        [lostEntry s.lineTime l { ln with queue := ln.kept } out.lane])) := by
  cases h.falls with
  | goesOn _ _ hin _ => exact absurd hpast hin
  | halts hstate _ _ _ _ _ _ _ =>
    obtain ⟨o, ho, _, hsame, hlots, heffects⟩ := h.entered hn
    obtain ⟨_, hlost⟩ := ho.traces (s := s) (l := l) heffects hlots hp
    exact (hlost (hsame ▸ hstate)).elim (fun hl => .inr (.inl ⟨hstate, hl⟩)) fun hl => .inr (.inr ⟨hstate, hl⟩)
  | drains _ _ hstate _ _ => exact .inl ⟨hstate, h.cut_traces hn hp (by rw [hstate]; decide)⟩

/-- The entries of a step within the limit (R32). -/
theorem LaneOut.FallsOn.within_traces (h : out.FallsOn env before ln) (ha : ln.active = true) (hin : ¬ln.Passes)
    (hn : (ln.queue.map (·.serial)).Nodup) (hp : ln.queue.Pairwise Parcel.StandsBefore) :
    s.Traces (s.stepped l out) (cutEntries s.lineTime l .cutReverse ln.queue) := by
  refine h.cut_traces hn hp ?_
  cases h.falls with
  | goesOn hstate _ _ _ => exact hstate ▸ not_halted_of_active ha
  | halts _ _ _ _ _ _ _ hpast => exact absurd hpast hin
  | drains _ _ hstate _ _ => rw [hstate]; decide

/-! ## The divider after a count (R26 to R28) -/

/-- The divider and the lane position after a count up (R27, R28). -/
structure Lane.DividesUp (a b : Lane) : Prop where
  residue : b.tb.residue = if a.cfg.scale ≤ a.tb.residue + 1 then 0 else a.tb.residue + 1
  scale : b.cfg.scale = if a.cfg.scale ≤ a.tb.residue + 1 then a.tb.pendingScale.getD a.cfg.scale else a.cfg.scale
  pendingScale : b.tb.pendingScale = if a.cfg.scale ≤ a.tb.residue + 1 then none else a.tb.pendingScale
  position : b.tb.p = if a.tb.source = .encoder ∧ a.cfg.scale ≤ a.tb.residue + 1 then a.tb.p + 1 else a.tb.p
  errors : b.tb.phaseErrors = a.tb.phaseErrors

theorem Lane.CountsUp.divides {b : Lane} (h : ln.CountsUp env x b) : ln.DividesUp b where
  residue := h.kept.residue.trans (by simp [Lane.countedUp])
  scale := h.kept.scale.trans (by simp [Lane.countedUp])
  pendingScale := h.kept.pendingScale.trans (by simp [Lane.countedUp])
  position := by
    split
    case isTrue hdue => exact h.stepped hdue
    case isFalse hdue => exact h.stays hdue
  errors := h.kept.errors

/-- The divider and the lane position after a count down (R27, R28). -/
structure Lane.DividesDown (a b : Lane) : Prop where
  residue : b.tb.residue = if a.tb.residue = 0 then a.tb.pendingScale.getD a.cfg.scale - 1 else a.tb.residue - 1
  scale : b.cfg.scale = if a.tb.residue = 0 then a.tb.pendingScale.getD a.cfg.scale else a.cfg.scale
  pendingScale : b.tb.pendingScale = if a.tb.residue = 0 then none else a.tb.pendingScale
  position : b.tb.p = if a.tb.source = .encoder ∧ a.tb.residue = 0 then a.tb.p - 1 else a.tb.p
  errors : b.tb.phaseErrors = a.tb.phaseErrors

theorem Lane.CountsDown.divides {b : Lane} (h : ln.CountsDown env x b) : ln.DividesDown b where
  residue := h.kept.residue.trans (by simp [Lane.countedDown])
  scale := h.kept.scale.trans (by simp [Lane.countedDown])
  pendingScale := h.kept.pendingScale.trans (by simp [Lane.countedDown])
  position := by
    split
    case isTrue hdue => exact h.stepped hdue
    case isFalse hdue => exact h.stays hdue
  errors := h.kept.errors

/-! ## The sample on its lane -/

/-- What the sample `x` makes of the lane `ln`, within a step from `before`. -/
structure LaneOut.Sampled (env : LaneEnv) (before ln : Lane) (x : Bool × Bool) (out : LaneOut) : Prop where
  phases : out.lane.tb.phases = x
  noCount : x = ln.tb.phases ∨ x = (!ln.tb.phases.1, !ln.tb.phases.2) →
    out.lane.WatchedFrom env.driveRun (ln.keptTime env.now) ∧ ln.ScaleKept out.lane
  same : x = ln.tb.phases → out = (ln.syncMonitor env).quiet
  error : x = (!ln.tb.phases.1, !ln.tb.phases.2) → out = (Lane.syncMonitor env { ln with tb := { ln.tb with
    phases := x, phaseErrors := holdInc ln.tb.phaseErrors } }).quiet
  up : x = (!ln.tb.phases.2, ln.tb.phases.1) → ln.CountsUp env x out.lane
  upWaits : x = (!ln.tb.phases.2, ln.tb.phases.1) → ¬ln.DueUp → out = ((ln.countedUp x env.now).syncMonitor env).quiet
  upSteps : x = (!ln.tb.phases.2, ln.tb.phases.1) → ln.DueUp →
    (ln.countedUp x env.now).StepsUp env before out ∧ out.Rises env ln x
  down : x = (ln.tb.phases.2, !ln.tb.phases.1) → ln.CountsDown env x out.lane
  downWaits : x = (ln.tb.phases.2, !ln.tb.phases.1) → ¬ln.DueDown →
    out = ((ln.countedDown x env.now).syncMonitor env).quiet
  downSteps : x = (ln.tb.phases.2, !ln.tb.phases.1) → ln.DueDown → (ln.countedDown x env.now).StepsDown env before out
  downRests : x = (ln.tb.phases.2, !ln.tb.phases.1) → ln.DueDown → ln.active = false →
    out.lane.tb.pmax = ln.tb.p - 1 ∧ out.lane.queue = ln.queue ∧ out.lane.state = ln.state
  downFalls : x = (ln.tb.phases.2, !ln.tb.phases.1) → ln.DueDown → ln.active = true → out.FallsOn env before ln
  downSwitches : x = (ln.tb.phases.2, !ln.tb.phases.1) → ln.DueDown → ln.tb.pendingSwitch = some .toNominal →
    ln.active = false ∨ ¬ln.Passes → out.Switched env.id

theorem sampleOut_sampled (env : LaneEnv) {before ln : Lane} (hs : before.Sunk ln) (x : Bool × Bool) :
    (sampleOut env before ln x).Sampled env before ln x where
  phases := sampleOut_phases hs.queue x
  noCount := sampleOut_noCount hs.queue
  same := sampleOut_same hs.queue
  error := sampleOut_error hs.queue
  up := sampleOut_countsUp hs.queue
  upWaits := sampleOut_up_waits hs.queue
  upSteps := fun hx h => ⟨sampleOut_up_steps hx h, sampleOut_rises hs.queue hx h⟩
  down := sampleOut_countsDown hs.queue
  downWaits := sampleOut_down_waits hs.queue
  downSteps := sampleOut_down_steps
  downRests := fun hx h => (sampleOut_down_rest hs.queue hx h).1
  downFalls := sampleOut_fallsOn hs
  downSwitches := fun hx h => (sampleOut_down_rest hs.queue hx h).2

/-! ## The sample on the part (R33; log 19) -/

/-- The part with no sample of the lane held back. -/
def State.released (s : State) (l : LaneId) : State := { s with held := s.held.set l [] }

/-- What a sample that is taken does to the part, `ln` being the lane as the samples taken with it leave it. -/
structure State.SampleTaken (s : State) (l : LaneId) (x : Bool × Bool) (ln : Lane) (out : LaneOut) : Prop where
  outruns : s.lanes[l].Outruns s.lineTime s.held[l] x → ln = s.held[l].foldl (Lane.sunk s.lineTime) s.lanes[l]
  alone : ¬s.lanes[l].Outruns s.lineTime s.held[l] x → ln = s.lanes[l]
  sampled : out.Sampled (s.env l) s.lanes[l] ln x

theorem stepLane_sample (s : State) (l : LaneId) (x : Bool × Bool) : ∃ ln out,
    ((s.released l).stepLane l (phaseSamples (s.earlier l x) x.1 x.2)).chosen = (s.released l).stepped l out ∧
      s.SampleTaken l x ln out := by
  obtain ⟨houtruns, halone⟩ := earlier_cases s l x
  have hlane : phaseSamples (s.earlier l x) x.1 x.2 (s.env l) s.lanes[l] =
      phaseSample x.1 x.2 (s.env l) ((s.earlier l x).foldl (Lane.sunk s.lineTime) s.lanes[l]) := by
    rw [phaseSamples, foldl_fallen]
    rfl
  refine ⟨(s.earlier l x).foldl (Lane.sunk s.lineTime) s.lanes[l], _, ?_, fun h => by rw [houtruns h],
    fun h => by rw [halone h]; rfl, sampleOut_sampled (s.env l) (foldl_sunk s.lineTime _ _) x⟩
  rw [stepLane_chosen]
  exact congrArg ((s.released l).stepped l) (laneStep_congr (f := phaseSamples (s.earlier l x) x.1 x.2)
    (g := fun env _ => phaseSample x.1 x.2 env ((s.earlier l x).foldl (Lane.sunk s.lineTime) s.lanes[l])) hlane)

theorem exec_encoderPhaseChange {a b : Bool} (hphase : s.phase = .working) :
    ∃ t, exec (.encoderPhaseChange l a b) s = .next t ∧
      ((t = { s with held := s.held.set l (s.held[l] ++ [(a, b)]), choices := s.choices + 1 } ∧
          s.OutrunAhead l (s.held[l] ++ [(a, b)])) ∨
        ∃ ln out, t = (s.released l).stepped l out ∧ s.SampleTaken l (a, b) ln out) := by
  have hexec : exec (.encoderPhaseChange l a b) s = .next (s.sampleTaken l a b).chosen :=
    congrArg Host.Outcome.next (if_pos (live_of_working hphase))
  by_cases h : s.holdsBack l (a, b) = true
  · refine ⟨_, hexec, .inl ⟨?_, (holdsBack_ahead h).2⟩⟩
    rw [State.sampleTaken, if_pos h]
    rfl
  · obtain ⟨ln, out, hstep, htaken⟩ := stepLane_sample s l (a, b)
    refine ⟨_, hexec, .inr ⟨ln, out, ?_, htaken⟩⟩
    rw [State.sampleTaken, if_neg h]
    exact hstep

/-- What the part shows of what its lane `l` has come to. -/
structure State.Shows (s : State) (l : LaneId) (out : LaneOut) (t : State) : Prop where
  lane : t.lanes[l] = out.lane
  frame : (s.released l).LaneFrame l t
  flag : ∀ e : Event, e.lane? = some l → .event e ∈ out.effects → t.laneFlag l e.kind.val = true
  traces : ∀ es, (s.released l).Traces ((s.released l).stepped l out) es → s.Traces t es

theorem stepped_shows (s : State) (l : LaneId) (out : LaneOut) : s.Shows l out ((s.released l).stepped l out) :=
  ⟨stepped_lane _ _ _, stepped_frame _ _ _, stepped_flag _ _ _, fun _ h => h.congr rfl rfl rfl rfl⟩

end Sys2Proof.Machine

namespace Sys2Proof

open Machine

/-- Settles O25: the samples taken with this one leave a lane that the sample counts on; a count that completes is a
step of P, up or down, and the works of the step leave what the count has set. -/
theorem encoderMovesP : Obligations.EncoderMovesP := by
  intro s l a b hphase
  obtain ⟨t, hexec, hheld | ⟨ln, out, ht, htaken⟩⟩ := exec_encoderPhaseChange hphase (l := l) (a := a) (b := b)
  · exact ⟨t, hexec, .inl hheld⟩
  refine ⟨t, hexec, .inr ⟨ln, out, ht, ?_⟩⟩
  have hshows : s.Shows l out t := ht ▸ stepped_shows s l out
  have hsampled := htaken.sampled
  rw [hshows.lane]
  refine ⟨fun houtruns => ⟨htaken.outruns houtruns, ?_⟩, htaken.alone, hshows.frame, rfl, hsampled.phases,
    hsampled.noCount, fun hx => ?_, hsampled.same, fun hx => ?_, fun hx => ?_, fun hx => ?_⟩
  · obtain ⟨hx, hdue, hp⟩ := houtruns.last (htaken.outruns houtruns)
    exact ((hsampled.down hx).stepped hdue).trans hp
  · exact hx.elim (fun hx => (hsampled.up hx).watched) fun hx => (hsampled.down hx).watched
  · have hout := hsampled.error hx
    rw [hout]
    exact ⟨rfl, rfl, rfl, rfl, rfl⟩
  · have hdivides := (hsampled.up hx).divides
    refine ⟨hsampled.upWaits hx, fun hsource hfull => ?_, hdivides.residue, hdivides.scale, hdivides.pendingScale,
      hdivides.position, hdivides.errors⟩
    obtain ⟨hsteps, hrises⟩ := hsampled.upSteps hx ⟨hsource, hfull⟩
    refine ⟨hsteps, hrises.moves, hrises.drains.imp (hshows.flag (.laneState l .stopped .drained) rfl), fun hp => ?_⟩
    have hswitched := hrises.switched hp
    exact ⟨hswitched.source, hswitched.pending, hshows.flag (.sourceSwitched l .nominal) rfl hswitched.event⟩
  · have hdivides := (hsampled.down hx).divides
    refine ⟨hsampled.downWaits hx, fun hsource hzero => ⟨hsampled.downSteps hx ⟨hsource, hzero⟩,
      hsampled.downRests hx ⟨hsource, hzero⟩, fun ha => ?_, fun hp hin => ?_⟩, hdivides.residue, hdivides.scale,
      hdivides.pendingScale, hdivides.position, hdivides.errors⟩
    · have hon := hsampled.downFalls hx ⟨hsource, hzero⟩ ha
      refine ⟨hon.noFire, hon.ports, hon.rest, fun hpast => ?_, fun hpast hn hp => ?_, fun hin => ⟨fun hn => ?_,
        hon.kept hin, fun hn hp => hshows.traces _ (hon.within_traces ha hin hn hp), ?_⟩⟩
      · cases hon.falls with
        | goesOn _ _ hin _ => exact absurd hpast hin
        | halts hstate hcause hqueue hinjection hswitch hpmax hevent _ =>
          exact ⟨hqueue, hpmax, .inr ⟨hstate, hcause, hinjection, hswitch,
            hshows.flag (.laneState l .halted .reverseLimit) rfl hevent⟩⟩
        | drains hdraining hfiring hstate hqueue hpmax =>
          exact ⟨hqueue, hpmax, .inl ⟨hdraining, hfiring, hstate, hqueue⟩⟩
      · exact (hon.past_traces hpast hn hp).imp (fun h => ⟨h.1, hshows.traces _ h.2⟩) fun h =>
          h.imp (fun h => ⟨h.1, hshows.traces _ h.2⟩) fun h => ⟨h.1, hshows.traces _ h.2⟩
      · cases hon.falls with
        | goesOn _ _ _ hsame => exact hsame hn
        | halts _ _ _ _ _ _ _ hpast => exact absurd hpast hin
        | drains _ hfiring _ _ _ => exact absurd hfiring hn
      · cases hon.falls with
        | goesOn hstate hpmax _ _ => exact .inr ⟨hstate, hpmax⟩
        | halts _ _ _ _ _ _ _ hpast => exact absurd hpast hin
        | drains hdraining hfiring hstate hqueue _ => exact .inl ⟨hdraining, hfiring, hstate, hqueue⟩
    · have hswitched := hsampled.downSwitches hx ⟨hsource, hzero⟩ hp hin
      exact ⟨hswitched.source, hswitched.pending, hshows.flag (.sourceSwitched l .nominal) rfl hswitched.event⟩

end Sys2Proof
end
